-- ==== Sys2Proof/Word.lean ====
section
/-! DEFINITION. The words of the part: the 40-bit slot word and the 24-bit port word, buffer word and sample. -/

namespace Sys2Proof

/-- The 40 bits of one slot occurrence, bit 39 the first sent (R2, R184). -/
abbrev SlotBits := BitVec 40

/-- One 24-bit port word of the host port, bit 23 the first shifted (section 11.2). -/
abbrev PortWord := BitVec 24

/-- One 24-bit buffer word or sample (R112, R175). -/
abbrev DataWord := BitVec 24

/-- A saturating counter's next value: it stops at `top` (Terms, "Saturating"). -/
def satSucc (top n : Nat) : Nat := if n < top then n + 1 else top

end Sys2Proof
end

