-- ==== Sys2Proof/Config.lean ====
section
/-! DEFINITION. What the part fixes (sizes and limits) and the free values: constants without a body, one for each
value or order that the spec leaves open. -/

namespace Sys2Proof.Config

/-- Frame numbers run modulo 240 (R11). -/
abbrev frameNumbers : Nat := 240
/-- Station addresses are 1 to 30 (R56). -/
abbrev stations : Nat := 30
/-- The claim queue's capacity (R90). -/
abbrev claimCapacity : Nat := 8
/-- The bound on holdings plus queued SLOT and ANY claims (R71, R94). -/
abbrev claimLimit : Nat := 16
/-- The slots with role STREAM(c) that one channel may have (R85). -/
abbrev streamSlots : Nat := 4
/-- Samples or entries a channel's queue holds (R112, R117). -/
abbrev channelCapacity : Nat := 16
/-- Records of the job table (R130). -/
abbrev jobRecords : Nat := 4
/-- Buffer words (R175). -/
abbrev bufferWords : Nat := 8192
/-- The event queue holds this many records beside EVENTS_LOST (R177). -/
abbrev eventCapacity : Nat := 31
/-- Silent occurrences that lapse a slot (R75). -/
abbrev lapseRun : Nat := 8
/-- Lost contentions that expire a claim (R101). -/
abbrev claimExpiry : Nat := 64
/-- Lost contentions that drop an answer (R167). -/
abbrev answerExpiry : Nat := 32
/-- Occurrences between TAIL words (R142). -/
abbrev answerWait : Nat := 16
/-- Resent TAIL words before NO_ANSWER (R142). -/
abbrev tailResends : Nat := 4
/-- REWIND answers a job takes before it fails (R145). -/
abbrev rewindLimit : Nat := 8
/-- Occurrences of the sender slot without an accepted word that stall a window (R165). -/
abbrev stallLimit : Nat := 64

/-- Free order (log 6): choice `i` of happening `n`, where the spec says that two things come in either order. -/
opaque freeChoice (n i : Nat) : Bool

/-- Free value (log 7): what buffer address `a` holds after power-on number `n`, until something writes it (R175). -/
opaque arbitraryWord (n a : Nat) : DataWord

/-- Free value (log 11): the kind field of the reply to a header with the undefined kind code `k` (R171, R188). -/
opaque undefinedKindReply (k : BitVec 4) : BitVec 4

/-- Free value (log 14): whether a HEAD of another station, addressed to self and heard in a window's sender slot,
is a stall occurrence (R157 and R159 against R164 and R165). -/
opaque foreignHeadStalls : Bool

end Sys2Proof.Config
end

