-- ==== Sys2Proof/Machine/Bank.lean ====
section
/-! DEFINITION. A bank: a fixed number of like things (channels, windows, table entries), with its size carried as a
proof, so that a bank of another size cannot be built. -/

namespace Sys2Proof.Machine

/-- `n` things of type `α`, numbered from 0. -/
structure Bank (α : Type) (n : Nat) where
  items : List α
  size : items.length = n
  deriving DecidableEq, Repr

/-- Every place holds `x`. -/
def Bank.fill {α : Type} (n : Nat) (x : α) : Bank α n := ⟨List.replicate n x, List.length_replicate⟩

/-- The thing at place `i`, and `x` where there is no such place. -/
def Bank.get {α : Type} {n : Nat} (b : Bank α n) (i : Nat) (x : α) : α := b.items.getD i x

/-- Place `i` takes `x`; nothing where there is no such place. -/
def Bank.set {α : Type} {n : Nat} (b : Bank α n) (i : Nat) (x : α) : Bank α n :=
  ⟨b.items.set i x, by rw [List.length_set]; exact b.size⟩

/-- Every place takes the value of `f` on what it held. -/
def Bank.map {α : Type} {n : Nat} (b : Bank α n) (f : α → α) : Bank α n :=
  ⟨b.items.map f, by rw [List.length_map]; exact b.size⟩

end Sys2Proof.Machine
end

