-- ==== Sys2Proof/Machine/SlotWords.lean ====
section
/-! DEFINITION. The slot word: its fields and codes (R2, R184, R185), the check field (R7), classification and malformed
bodies (R6, R8), readback and its outcomes (R3, R4) and contention on the line (R5). -/

namespace Sys2Proof.Machine

/-- The nine word kinds (R13). -/
inductive Kind where
  | mark
  | roll
  | claim
  | answer
  | head
  | tail
  | bulk
  | data
  | fill
  deriving DecidableEq, Repr

/-- The 4-bit kind code (R184). -/
def Kind.code : Kind → BitVec 4
  | .mark => 1
  | .roll => 2
  | .claim => 3
  | .answer => 4
  | .head => 5
  | .tail => 6
  | .bulk => 7
  | .data => 8
  | .fill => 9

/-- The kind of a code; codes 0 and 10 to 15 are undefined (R184). -/
def Kind.ofCode (c : BitVec 4) : Option Kind :=
  match c.toNat with
  | 1 => some .mark
  | 2 => some .roll
  | 3 => some .claim
  | 4 => some .answer
  | 5 => some .head
  | 6 => some .tail
  | 7 => some .bulk
  | 8 => some .data
  | 9 => some .fill
  | _ => none

/-- The data-kind words: those sent in data slots, whose station field is the owner tag (R13, Terms). -/
def Kind.isDataKind : Kind → Bool
  | .mark => false
  | .roll => false
  | .claim => false
  | .answer => false
  | .head => true
  | .tail => true
  | .bulk => true
  | .data => true
  | .fill => true

/-- The fields of a slot word before its check field (R2). -/
structure SlotWord where
  kind : Kind
  rank : BitVec 2
  station : BitVec 5
  body : BitVec 24
  deriving DecidableEq, Repr

/-- The sender's address. -/
def SlotWord.sender (w : SlotWord) : Nat := w.station.toNat

/-- The first 35 bits of a slot word, in the order sent (R2). -/
def SlotWord.payload (w : SlotWord) : BitVec 35 := w.kind.code ++ w.rank ++ w.station ++ w.body

/-- One bit through the five-place remainder register of the generator x^5 + x^2 + 1 (R7). -/
def checkStep (r : BitVec 5) (bit : Bool) : BitVec 5 :=
  if (bit ^^ r.getLsbD 4) then (r <<< 1) ^^^ 0b00101#5 else r <<< 1

/-- The `n` least significant bits of `p` through the register, the highest of them first. -/
def checkBits : Nat → BitVec 35 → BitVec 5 → BitVec 5
  | 0, _, r => r
  | n + 1, p, r => checkBits n p (checkStep r (p.getLsbD n))

/-- The check over the first 35 bits, from a remainder of 0 (R7). -/
def checkField (p : BitVec 35) : BitVec 5 := checkBits 35 p 0

/-- The 40 bits of a slot word as sent (R2). -/
def SlotWord.bits (w : SlotWord) : SlotBits := w.payload ++ checkField w.payload

/-- The classification of a heard word (R6). -/
inductive Heard where
  | silent
  | corrupt
  | valid (w : SlotWord)
  deriving DecidableEq, Repr

/-- The classification of 40 heard bits, by the first line of R6's table that matches. -/
def classify (b : SlotBits) : Heard :=
  if b = BitVec.allOnes 40 then .silent
  else if checkField (b.extractLsb' 5 35) ≠ b.extractLsb' 0 5 then .corrupt
  else match Kind.ofCode (b.extractLsb' 36 4) with
    | none => .corrupt
    | some k =>
      if b.extractLsb' 29 5 = 0 ∨ b.extractLsb' 29 5 = 31 then .corrupt
      else .valid { kind := k, rank := b.extractLsb' 34 2, station := b.extractLsb' 29 5, body := b.extractLsb' 5 24 }

/-! ### Bodies (R185) -/

/-- MARK: frame number. -/
def SlotWord.markFrame (w : SlotWord) : Nat := (w.body.extractLsb' 16 8).toNat
/-- MARK: frame length of the length code, absent for the undefined code 0. -/
def SlotWord.markLength (w : SlotWord) : Option Nat :=
  match (w.body.extractLsb' 14 2).toNat with
  | 1 => some 24
  | 2 => some 48
  | 3 => some 96
  | _ => none
/-- ROLL: status LEAVING. -/
def SlotWord.rollLeaving (w : SlotWord) : Bool := w.body.getLsbD 23
/-- ROLL: held count. -/
def SlotWord.rollHeld (w : SlotWord) : Nat := (w.body.extractLsb' 18 5).toNat
/-- ROLL: timing-eligible. -/
def SlotWord.rollEligible (w : SlotWord) : Bool := w.body.getLsbD 17
/-- CLAIM: request code, 1 SLOT, 2 ANY, 3 RELEASE. -/
def SlotWord.claimCode (w : SlotWord) : Nat := (w.body.extractLsb' 22 2).toNat
/-- CLAIM: slot number. -/
def SlotWord.claimSlot (w : SlotWord) : Nat := (w.body.extractLsb' 15 7).toNat
/-- ANSWER: target station. -/
def SlotWord.answerTarget (w : SlotWord) : Nat := (w.body.extractLsb' 19 5).toNat
/-- ANSWER: window. -/
def SlotWord.answerWindow (w : SlotWord) : Nat := (w.body.extractLsb' 17 2).toNat
/-- ANSWER: verdict code, 1 DONE, 2 REWIND, 3 REFUSE. -/
def SlotWord.answerCode (w : SlotWord) : Nat := (w.body.extractLsb' 15 2).toNat
/-- ANSWER: refuse reason code. -/
def SlotWord.answerReason (w : SlotWord) : Nat := (w.body.extractLsb' 13 2).toNat
/-- ANSWER: count. -/
def SlotWord.answerCount (w : SlotWord) : Nat := (w.body.extractLsb' 0 13).toNat
/-- HEAD: destination station. -/
def SlotWord.headDest (w : SlotWord) : Nat := (w.body.extractLsb' 19 5).toNat
/-- HEAD: window. -/
def SlotWord.headWindow (w : SlotWord) : Nat := (w.body.extractLsb' 17 2).toNat
/-- HEAD: resume. -/
def SlotWord.headResume (w : SlotWord) : Bool := w.body.getLsbD 16
/-- HEAD: offset. -/
def SlotWord.headOffset (w : SlotWord) : Nat := (w.body.extractLsb' 3 13).toNat
/-- TAIL: block length. -/
def SlotWord.tailLength (w : SlotWord) : Nat := (w.body.extractLsb' 11 13).toNat

/-- A VALID word whose body holds a value its kind does not allow (R8). -/
def SlotWord.malformed (w : SlotWord) : Bool :=
  match w.kind with
  | .mark => decide (239 < w.markFrame) || w.markLength.isNone
  | .roll => decide (16 < w.rollHeld)
  | .claim => w.claimCode == 0 || decide (95 < w.claimSlot)
  | .answer => w.answerTarget == 0 || w.answerTarget == 31 || w.answerCode == 0 || decide (4096 < w.answerCount)
  | .head => w.headDest == 0 || w.headDest == 31 || decide (4096 < w.headOffset)
  | .tail => w.tailLength == 0 || decide (4096 < w.tailLength)
  | .bulk => false
  | .data => false
  | .fill => false

/-- A heard word of the kind, VALID and not malformed. -/
def Heard.acceptable (h : Heard) (k : Kind) : Option SlotWord :=
  match h with
  | .valid w => if w.kind = k ∧ w.malformed = false then some w else none
  | .silent => none
  | .corrupt => none

/-- A VALID word of whatever kind, malformed or not. -/
def Heard.word : Heard → Option SlotWord
  | .valid w => some w
  | .silent => none
  | .corrupt => none

/-! ### Words sent (R1, R184, R185): rank 0 except CLAIM, unused body bits 0 -/

/-- A word of self: kind, rank, own address, body. -/
def slotWord (k : Kind) (rank addr : Nat) (body : BitVec 24) : SlotWord :=
  { kind := k, rank := BitVec.ofNat 2 rank, station := BitVec.ofNat 5 addr, body := body }

/-- The length code of the MARK body (R185). -/
def lengthCode (len : Nat) : BitVec 2 := if len = 24 then 1 else if len = 48 then 2 else if len = 96 then 3 else 0

/-- MARK with frame number and length code (R25). -/
def markWord (addr frame len : Nat) : SlotWord :=
  slotWord .mark 0 addr (BitVec.ofNat 8 frame ++ lengthCode len ++ 0#14)

/-- ROLL with status, held count and eligibility (R59). -/
def rollWord (addr : Nat) (leaving : Bool) (held : Nat) (eligible : Bool) : SlotWord :=
  slotWord .roll 0 addr (BitVec.ofBool leaving ++ BitVec.ofNat 5 held ++ BitVec.ofBool eligible ++ 0#17)

/-- CLAIM with rank, request code and slot number (R99). -/
def claimWord (addr rank code slot : Nat) : SlotWord :=
  slotWord .claim rank addr (BitVec.ofNat 2 code ++ BitVec.ofNat 7 slot ++ 0#15)

/-- ANSWER with target, window, verdict code, reason code and count (R167). -/
def answerWord (addr target window code reason count : Nat) : SlotWord :=
  slotWord .answer 0 addr
    (BitVec.ofNat 5 target ++ BitVec.ofNat 2 window ++ BitVec.ofNat 2 code ++ BitVec.ofNat 2 reason ++ BitVec.ofNat 13 count)

/-- HEAD with destination, window, resume and offset (R139). -/
def headWord (addr dest window : Nat) (resume : Bool) (offset : Nat) : SlotWord :=
  slotWord .head 0 addr
    (BitVec.ofNat 5 dest ++ BitVec.ofNat 2 window ++ BitVec.ofBool resume ++ BitVec.ofNat 13 offset ++ 0#3)

/-- TAIL with block length (R139). -/
def tailWord (addr length : Nat) : SlotWord := slotWord .tail 0 addr (BitVec.ofNat 13 length ++ 0#11)

/-- BULK with its buffer word (R139). -/
def bulkWord (addr : Nat) (v : DataWord) : SlotWord := slotWord .bulk 0 addr v

/-- DATA with its sample (R114). -/
def dataWord (addr : Nat) (v : DataWord) : SlotWord := slotWord .data 0 addr v

/-- FILL (R77). -/
def fillWord (addr : Nat) : SlotWord := slotWord .fill 0 addr 0#24

/-! ### Readback (R3, R4) -/

/-- The outcome of one transmission by self (R4). -/
inductive SendOutcome where
  | sent
  | displaced
  | disturbed
  deriving DecidableEq, Repr

/-- What readback has found in the word so far (R15): displaced by another sender, a line error seen. -/
structure ReadBack where
  displaced : Bool
  lineError : Bool
  deriving DecidableEq, Repr

/-- One bit of readback (R3): after a displacement the port no longer drives and compares nothing. -/
def readBit (r : ReadBack) (sent heard : Bool) : ReadBack :=
  if r.displaced then r
  else match sent, heard with
    | true, false => { r with displaced := true }
    | false, true => { r with lineError := true }
    | true, true => r
    | false, false => r

/-- The `n` least significant bits of the words through readback, the highest of them first. -/
def readBits : Nat → SlotBits → SlotBits → ReadBack → ReadBack
  | 0, _, _, r => r
  | n + 1, sent, heard, r => readBits n sent heard (readBit r (sent.getLsbD n) (heard.getLsbD n))

/-- Readback of a whole word (R3). -/
def readBack (sent heard : SlotBits) : ReadBack := readBits 40 sent heard { displaced := false, lineError := false }

/-- The outcome at the end of the occurrence (R4): a loss is clean when no line error came before it. -/
def ReadBack.outcome (r : ReadBack) : SendOutcome :=
  if r.lineError then .disturbed else if r.displaced then .displaced else .sent

/-- The outcome of sending one word and hearing another (R3, R4). -/
def outcomeOf (sent heard : SlotBits) : SendOutcome := (readBack sent heard).outcome

/-! ### The line itself (R1, R5): what every station hears where several send from one slot boundary and no line error
occurs. The machine does not run this; a slot end is given the bits heard. -/

/-- The number on the line over the `n` least significant bits: at each bit the line is 0 when a station that still
drives sends 0, and every sender of a 1 that hears 0 stops driving. -/
def lineNumber : Nat → List SlotBits → Nat
  | 0, _ => 0
  | n + 1, drivers =>
    if drivers.all (fun d => d.getLsbD n) then 2 ^ n + lineNumber n drivers
    else lineNumber n (drivers.filter (fun d => !d.getLsbD n))

/-- The 40 bits on the line when the given words are sent from one slot boundary without a line error (R5). -/
def lineWord (drivers : List SlotBits) : SlotBits := BitVec.ofNat 40 (lineNumber 40 drivers)

end Sys2Proof.Machine
end

