-- ==== Sys2Proof/Syntax.lean ====
section
/-! DEFINITION. The commands: one constructor for each row of spec/opcode_table.json, with the row's operands. Numeric
operands are plain numbers, so that a value outside its range can be written and is refused by the command's own rule
(R173). -/

namespace Sys2Proof

/-- The request operand of CLAIM (R93, R186): SLOT n, ANY, or an undefined request code. -/
inductive ClaimArg where
  | slot (n : Nat)
  | any
  | undefined (code : Nat)
  deriving DecidableEq, Repr

/-- A role operand (R186): absent (code 0), SPARE, BULK, STREAM(c), or an undefined role code. -/
inductive RoleArg where
  | absent
  | spare
  | bulk
  | stream (c : Nat)
  | undefined (code : Nat)
  deriving DecidableEq, Repr

/-- The direction operand of CHANNEL_STATUS (R126). -/
inductive Direction where
  | tx
  | rx
  deriving DecidableEq, Repr

/-- The overflow policy of a receive channel (R117). -/
inductive Policy where
  | keepNewest
  | keepOldest
  deriving DecidableEq, Repr

/-- What makes an armed part reset take hold, whichever comes first (R182). -/
inductive ResetTrigger where
  | replyShiftedOut
  | selectReleased
  deriving DecidableEq, Repr

/-- The commands of the part, in the order of spec/opcode_table.json. A slot end carries the 40 bits heard on the line in
the occurrence that ends. -/
inductive Instr where
  /-- START (R37): own address, frame length, timing-eligible. -/
  | start (addr len : Nat) (eligible : Bool)
  /-- JOIN (R51). -/
  | join
  /-- LEAVE (R46). -/
  | leave
  /-- CLAIM (R93): request, priority, grant role. -/
  | claim (req : ClaimArg) (priority : Nat) (role : RoleArg)
  /-- RELEASE (R95): slot. -/
  | release (n : Nat)
  /-- CLAIM_CANCEL (R96): tag. -/
  | claimCancel (tag : Nat)
  /-- SET_ROLE (R86): slot, role. -/
  | setRole (n : Nat) (role : RoleArg)
  /-- BIND_RX (R118): channel, source slot, expected station, policy, gap marking. -/
  | bindRx (c n : Nat) (expected : Option Nat) (policy : Policy) (gaps : Bool)
  /-- UNBIND_RX (R119): channel. -/
  | unbindRx (c : Nat)
  /-- CHANNEL_STATUS (R126): direction, channel. -/
  | channelStatus (dir : Direction) (c : Nat)
  /-- BULK_POST (R132): destination, window, base, length. -/
  | bulkPost (dest win base len : Nat)
  /-- BULK_CANCEL (R133): job id. -/
  | bulkCancel (id : Nat)
  /-- BULK_STATUS (R134): job id. -/
  | bulkStatus (id : Nat)
  /-- BULK_COLLECT (R135): job id. -/
  | bulkCollect (id : Nat)
  /-- WINDOW_OPEN (R153): window, base, capacity, allowed sender. -/
  | windowOpen (w base cap : Nat) (allowed : Option Nat)
  /-- WINDOW_CLOSE (R154): window. -/
  | windowClose (w : Nat)
  /-- WINDOW_STATUS (R155): window. -/
  | windowStatus (w : Nat)
  /-- READ_SLOT (R89): slot. -/
  | readSlot (n : Nat)
  /-- READ_ROSTER (R68): address. -/
  | readRoster (a : Nat)
  /-- RESET_PART (R182). -/
  | resetPart
  /-- PUSH (R113): channel, samples. -/
  | push (c : Nat) (samples : List DataWord)
  /-- PULL (R122): channel, number of entries. -/
  | pull (c n : Nat)
  /-- MEMORY_WRITE (R175): address, words. -/
  | memoryWrite (a : Nat) (words : List DataWord)
  /-- MEMORY_READ (R175): address, count. -/
  | memoryRead (a n : Nat)
  /-- EVENT_READ (R178): number of records. -/
  | eventRead (n : Nat)
  /-- STATUS (R180). -/
  | status
  /-- UNDEFINED_HEADER (R171, R187): header word 1. -/
  | undefinedHeader (header : PortWord)
  /-- TARGET_SELECT_ASSERTED (R170). -/
  | targetSelectAsserted
  /-- TARGET_SELECT_RELEASED (R170). -/
  | targetSelectReleased
  /-- RESET_PART_TAKES_HOLD (R182): what came first. -/
  | resetPartTakesHold (trigger : ResetTrigger)
  /-- RESET_LINE_ASSERTED (R181). -/
  | resetLineAsserted
  /-- RESET_LINE_RELEASED (R181). -/
  | resetLineReleased
  /-- POWER_ON_RESET (R183): the line-rate pins as strapped. -/
  | powerOnReset (lineRate : BitVec 2)
  /-- HUNTING_CANDIDATE (R12, R18): the 40 most recently heard bits. -/
  | huntingCandidate (bits : SlotBits)
  /-- LISTEN_WINDOW_PASSES (R20). -/
  | listenWindowPasses
  /-- MARK_SLOT_START (R25). -/
  | markSlotStart
  /-- MARK_SLOT_END (R22): the bits heard in slot 0. -/
  | markSlotEnd (heard : SlotBits)
  /-- CANDIDATE_RULE (R28): the slot 0 end at which a MEMBER's missed marks reach 2. -/
  | candidateRule (heard : SlotBits)
  /-- ESCALATION (R29): the slot 0 end at which an eligible MEMBER's missed marks reach 4. -/
  | escalation (heard : SlotBits)
  /-- JOINING_TO_LISTEN (R30): the slot 0 end at which a JOINING station's missed marks reach 4. -/
  | joiningToListen (heard : SlotBits)
  /-- ROLL_SLOT_START (R59). -/
  | rollSlotStart
  /-- ROLL_SLOT_END (R58): the bits heard in slot 1. -/
  | rollSlotEnd (heard : SlotBits)
  /-- STATION_LOST (R63): the slot 1 end at which a PRESENT peer's missed rolls reach 2. -/
  | stationLost (heard : SlotBits)
  /-- CLAIM_SLOT_START (R98). -/
  | claimSlotStart
  /-- CLAIM_SLOT_END (R100): the bits heard in slot 2. -/
  | claimSlotEnd (heard : SlotBits)
  /-- CLAIM_AGING (R101): the slot 2 end at which a head's lost count reaches 16, 32 or 48. -/
  | claimAging (heard : SlotBits)
  /-- CLAIM_EXPIRED (R101): the slot 2 end at which a head's lost count reaches 64. -/
  | claimExpired (heard : SlotBits)
  /-- ANSWER_SLOT_START (R167). -/
  | answerSlotStart
  /-- ANSWER_SLOT_END (R143, R167): the bits heard in slot 3. -/
  | answerSlotEnd (heard : SlotBits)
  /-- ANSWER_DROPPED (R167): the slot 3 end at which the head answer's lost count reaches 32. -/
  | answerDropped (heard : SlotBits)
  /-- DATA_SLOT_START (R77). -/
  | dataSlotStart
  /-- TAIL_RESEND (R142): the data slot start at which an AWAIT_ANSWER job resends its TAIL. -/
  | tailResend
  /-- JOB_NO_ANSWER (R142): the data slot start at which an AWAIT_ANSWER job fails with NO_ANSWER. -/
  | jobNoAnswer
  /-- DATA_SLOT_END (R74): the bits heard in the data slot. -/
  | dataSlotEnd (heard : SlotBits)
  /-- SLOT_LAPSED (R75): the data slot end at which the slot's silence run reaches 8. -/
  | slotLapsed (heard : SlotBits)
  /-- WINDOW_STALLED (R165): the data slot end at which a window's stall count reaches 64. -/
  | windowStalled (heard : SlotBits)
  /-- LISTEN_WINDOW_FRAME_TIME (R20). -/
  | listenWindowFrameTime
  /-- REQUEST_WORD_SHIFTED_IN (R170): the port word on serial data in. -/
  | requestWordShiftedIn (word : PortWord)
  /-- REPLY_WORD_SHIFTED_OUT (R170). -/
  | replyWordShiftedOut
  deriving DecidableEq, Repr

end Sys2Proof
end

