-- ==== Sys2Proof/Machine/State.lean ====
section
/-! DEFINITION. The state of the part, block by block as the spec gives it, the reasons a step can stop, and the state
right after reset. -/

namespace Sys2Proof.Machine

/-! ### Trunk port (R15) -/

/-- The trunk port's state (R15). -/
structure TrunkPort where
  /-- The word being driven in the current slot occurrence, if any. -/
  word : Option SlotBits
  /-- How far the word has got, in bits: 0 from its start, 40 once its occurrence has ended (log 3). -/
  bitsDone : Nat
  /-- The port has been displaced in that word (R3). -/
  displaced : Bool
  /-- The port has seen a line error in that word (R3). -/
  lineError : Bool
  /-- Self has driven in the current occurrence (R4). -/
  drove : Bool
  /-- The classification of the occurrence just completed (R6, R9). -/
  heard : Option Heard
  /-- While hunting, the last 40 bits heard; absent until 40 bits have been heard since hunting began (R12, log 21). -/
  window : Option SlotBits
  deriving DecidableEq, Repr

/-- After a reset the port drives nothing, holds no word and no classification, and has an empty hunting window (R15). -/
def TrunkPort.reset : TrunkPort :=
  { word := none, bitsDone := 0, displaced := false, lineError := false, drove := false, heard := none, window := none }

/-! ### Frame timer (R16) -/

/-- The frame timer's state (R16). -/
structure FrameTimer where
  /-- ALIGNED, as against UNALIGNED. -/
  aligned : Bool
  /-- Slot position; absent while UNALIGNED. -/
  position : Option Nat
  /-- The occurrence of that slot has begun and not yet ended (R1, R17; log 29). -/
  passing : Bool
  /-- Frame number. -/
  frame : Nat
  /-- Holder address. -/
  holder : Option Nat
  /-- Holder flag. -/
  holderFlag : Bool
  /-- Missed marks. -/
  missed : Nat
  deriving DecidableEq, Repr

/-- The values after a reset (R34). -/
def FrameTimer.reset : FrameTimer :=
  { aligned := false, position := none, passing := false, frame := 0, holder := none, holderFlag := false, missed := 0 }

/-! ### Station controller (R35) -/

/-- The seven station states. -/
inductive StationState where
  | off
  | listen
  | joining
  | member
  | leaving
  | detached
  | fault
  deriving DecidableEq, Repr

/-- The fault causes (R35). -/
inductive FaultCause where
  | duplicateAddress
  | frameLength
  deriving DecidableEq, Repr

/-- The configuration record set by START (R35). -/
structure Configuration where
  addr : Nat
  len : Nat
  eligible : Bool
  deriving DecidableEq, Repr

/-- The station controller's state (R35). -/
structure StationControl where
  state : StationState
  config : Option Configuration
  cause : Option FaultCause
  /-- Listen-window count (R20). -/
  listenCount : Nat
  /-- Observation complete (R41). -/
  observed : Bool
  /-- The current frame is the observation frame (R41). -/
  observing : Bool
  /-- NO_TRUNK may still be posted in this stay in LISTEN (R20, R34). -/
  noTrunkReady : Bool
  deriving DecidableEq, Repr

/-- The values after a reset (R35). -/
def StationControl.reset : StationControl :=
  { state := .off, config := none, cause := none, listenCount := 0, observed := false, observing := false,
    noTrunkReady := false }

/-! ### Roster (R56) -/

/-- One roster entry (R56). -/
structure RosterEntry where
  present : Bool
  missed : Nat
  held : Option Nat
  eligible : Option Bool
  lastRoll : Option Nat
  stray : Nat
  deriving DecidableEq, Repr

/-- The reset values of an entry (R57). -/
def RosterEntry.reset : RosterEntry :=
  { present := false, missed := 0, held := none, eligible := none, lastRoll := none, stray := 0 }

/-! ### Allocation table (R70) -/

/-- What an own slot carries (R85). -/
inductive Role where
  | spare
  | stream (c : Nat)
  | bulk
  deriving DecidableEq, Repr

/-- The last heard kind of a slot, where it is present (R70). -/
inductive LastHeard where
  | silent
  | corrupt
  | kind (k : Kind)
  deriving DecidableEq, Repr

/-- One allocation table entry (R70). -/
structure SlotEntry where
  owner : Option Nat
  silence : Nat
  corrupt : Nat
  lastKind : Option LastHeard
  role : Option Role
  deriving DecidableEq, Repr

/-- The values of an entry after START and at every clearing (R72). -/
def SlotEntry.reset : SlotEntry :=
  { owner := none, silence := 0, corrupt := 0, lastKind := none, role := none }

/-! ### Claim queue (R90) -/

/-- What a claim record asks for (R90). -/
inductive ClaimRequest where
  | slot (n : Nat)
  | any
  | release (n : Nat)
  deriving DecidableEq, Repr

/-- One claim record (R90). -/
structure ClaimRecord where
  tag : Nat
  request : ClaimRequest
  base : Nat
  effective : Nat
  lost : Nat
  role : Option Role
  cancel : Bool
  deriving DecidableEq, Repr

/-- The claim queue, oldest record first (R90). -/
structure ClaimQueue where
  records : List ClaimRecord
  tagCounter : Nat
  /-- The head is contending (R90). -/
  contending : Bool
  deriving DecidableEq, Repr

/-- The queue after a reset (R91). -/
def ClaimQueue.reset : ClaimQueue := { records := [], tagCounter := 0, contending := false }

/-! ### Stream channels (R112, R117) -/

/-- One transmit channel; its bound slots are read from the table (R112). -/
structure TxChannel where
  queue : List DataWord
  underrun : Nat
  starved : Bool
  deriving DecidableEq, Repr

/-- A transmit channel after a reset (R127). -/
def TxChannel.reset : TxChannel := { queue := [], underrun := 0, starved := false }

/-- A gap reason (R117). -/
inductive Gap where
  | fill
  | silent
  | corrupt
  | other
  deriving DecidableEq, Repr

/-- What a receive entry holds: a value exactly when it has no gap reason (R117). -/
inductive RxContent where
  | value (v : DataWord)
  | gap (g : Gap)
  deriving DecidableEq, Repr

/-- One receive entry (R117). -/
structure RxEntry where
  frame : Nat
  content : RxContent
  deriving DecidableEq, Repr

/-- A receive channel's binding (R117). -/
structure Binding where
  slot : Nat
  expected : Option Nat
  policy : Policy
  gaps : Bool
  deriving DecidableEq, Repr

/-- One receive channel (R117). -/
structure RxChannel where
  binding : Option Binding
  queue : List RxEntry
  overrun : Nat
  mismatch : Nat
  overrunFlag : Bool
  deriving DecidableEq, Repr

/-- A receive channel after a reset (R128). -/
def RxChannel.reset : RxChannel :=
  { binding := none, queue := [], overrun := 0, mismatch := 0, overrunFlag := false }

/-! ### Bulk sender (R130) -/

/-- The reasons of a REFUSE answer (R166). -/
inductive RefuseReason where
  | busy
  | closed
  | overrun
  | sender
  deriving DecidableEq, Repr

/-- The states of a job (R130). -/
inductive JobState where
  | queued
  | sending
  | awaitAnswer
  | done
  | failed
  | cancelled
  deriving DecidableEq, Repr

/-- A job's result (R130). -/
inductive JobResult where
  | done (count : Nat)
  | noAnswer
  | rewinds
  | refused (r : RefuseReason)
  | leaving
  | fault
  deriving DecidableEq, Repr

/-- One used record of the job table (R130). -/
structure Job where
  id : Nat
  state : JobState
  dest : Nat
  window : Nat
  base : Nat
  length : Nat
  next : Nat
  headDue : Bool
  resume : Bool
  rewinds : Nat
  resends : Nat
  timer : Nat
  slot : Option Nat
  result : Option JobResult
  deriving DecidableEq, Repr

/-! ### Bulk receiver (R151, R166) -/

/-- The states of a window (R151). -/
inductive WindowState where
  | closed
  | opened
  | receiving
  | gap
  | stalled
  | complete
  | failed
  deriving DecidableEq, Repr

/-- The stall origin (R151). -/
inductive StallOrigin where
  | receiving
  | gap
  deriving DecidableEq, Repr

/-- The failure cause of a window (R151). -/
inductive WindowCause where
  | overrun
  | fault
  deriving DecidableEq, Repr

/-- One window (R151). -/
structure Window where
  state : WindowState
  base : Option Nat
  capacity : Option Nat
  allowed : Option Nat
  sender : Option Nat
  senderSlot : Option Nat
  count : Nat
  recorded : Option Nat
  stall : Nat
  origin : Option StallOrigin
  cause : Option WindowCause
  deriving DecidableEq, Repr

/-- A CLOSED window (R154). -/
def Window.closed : Window :=
  { state := .closed, base := none, capacity := none, allowed := none, sender := none, senderSlot := none, count := 0,
    recorded := none, stall := 0, origin := none, cause := none }

/-- An answer's verdict, with its reason for REFUSE (R166). -/
inductive Verdict where
  | done
  | rewind
  | refuse (r : RefuseReason)
  deriving DecidableEq, Repr

/-- One pending answer (R166). -/
structure Answer where
  window : Nat
  target : Nat
  verdict : Verdict
  count : Nat
  lost : Nat
  deriving DecidableEq, Repr

/-- The answer queue, oldest first (R166). -/
structure AnswerQueue where
  answers : List Answer
  /-- The head is contending (R167). -/
  contending : Bool
  deriving DecidableEq, Repr

/-- The answer queue after a reset (R152). -/
def AnswerQueue.reset : AnswerQueue := { answers := [], contending := false }

/-! ### Buffer memory (R175) -/

/-- Buffer memory: the words written since power-on, by rising address; an address not listed is one that nothing has
written since power-on (log 7). -/
structure Buffer where
  cells : List (Nat × DataWord)
  /-- The model's own field: how many power-on resets there have been, which names the arbitrary contents (log 7). -/
  powerOns : Nat
  deriving DecidableEq, Repr

/-! ### Event queue (R177) -/

/-- The event kinds (R177). -/
inductive EventKind where
  | holderChanged
  | markMismatch
  | markStray
  | noTrunk
  | stateChanged
  | stationJoined
  | stationLost
  | stationLeft
  | holdingsDiffer
  | rollMisplaced
  | slotLapsed
  | slotCorrected
  | slotLost
  | claimDone
  | txStarved
  | rxOverrun
  | rxUnbound
  | jobDone
  | jobFailed
  | windowComplete
  | windowRestarted
  | windowStalled
  | windowFailed
  | answerDropped
  | eventsLost
  deriving DecidableEq, Repr

/-- The results of a CLAIM_DONE event (R110). -/
inductive ClaimResult where
  | granted
  | released
  | refusedHeld
  | refusedFull
  | notHeld
  | cancelled
  | expired
  | leaving
  | fault
  deriving DecidableEq, Repr

/-- The result, cause or reason an event carries (R177, R188). -/
inductive EventResult where
  | number (n : Nat)
  | state (st : StationState)
  | fault (c : FaultCause)
  | claim (r : ClaimResult)
  | job (r : JobResult)
  | window (c : WindowCause)
  | displaced
  | ownSlot
  | verdict (v : Verdict)
  deriving DecidableEq, Repr

/-- An event record (R177). -/
structure Event where
  kind : EventKind
  frame : Nat
  slot : Option Nat
  station : Option Nat
  channel : Option Nat
  job : Option Nat
  window : Option Nat
  tag : Option Nat
  result : Option EventResult
  count : Option Nat
  deriving DecidableEq, Repr

/-- The EVENTS_LOST record's fields (R177). -/
structure LostRecord where
  frame : Nat
  count : Nat
  deriving DecidableEq, Repr

/-- The event queue: the ordinary records, oldest first, and behind them the EVENTS_LOST record, which is always the
newest when present (R177). -/
structure EventQueue where
  records : List Event
  lost : Option LostRecord
  deriving DecidableEq, Repr

/-- The event queue after a reset (R177). -/
def EventQueue.reset : EventQueue := { records := [], lost := none }

/-! ### Host port (R170) -/

/-- The port states (R170). -/
inductive PortState where
  | deselected
  | request
  | reply
  deriving DecidableEq, Repr

/-- The refusal reasons (R173). -/
inductive Reason where
  | state
  | range
  | queueFull
  | limit
  | notHeld
  | busy
  | ownSlot
  | noSuch
  deriving DecidableEq, Repr

/-- The data a reply carries (R188 and the rule of each command). -/
inductive ReplyData where
  /-- No data word. -/
  | nothing
  /-- A claim tag (R92, R96). -/
  | tag (t : Nat)
  /-- A job id (R132). -/
  | job (id : Nat)
  /-- The accepted count of PUSH (R113). -/
  | accepted (n : Nat)
  /-- The written count of MEMORY_WRITE (R175). -/
  | written (n : Nat)
  /-- The words of MEMORY_READ (R175). -/
  | words (ws : List DataWord)
  /-- The entries of PULL (R122). -/
  | entries (es : List RxEntry)
  /-- The records of EVENT_READ and the number left (R178). -/
  | events (es : List Event) (left : Nat)
  /-- STATUS (R180). -/
  | status (st : StationState) (addr len : Option Nat) (frame : Nat) (holder : Option Nat) (holdings claims events : Nat)
  /-- A transmit channel: queued samples, bound slots, underrun count, starved flag (R126). -/
  | txChannel (queued : Nat) (bound : List Nat) (underrun : Nat) (starved : Bool)
  /-- A receive channel: binding, entries, frame of the oldest, overrun and mismatch counts, overrun flag (R126). -/
  | rxChannel (binding : Option Binding) (entries : Nat) (oldest : Option Nat) (overrun mismatch : Nat) (flag : Bool)
  /-- A job record and the number of used records posted before it (R134). -/
  | jobRecord (j : Job) (before : Nat)
  /-- A collected job: state, result, next offset, rewind count, tail resends (R135). -/
  | collected (st : JobState) (result : Option JobResult) (next rewinds resends : Nat)
  /-- A window, its pending answer and the answers ahead of it (R155). -/
  | window (w : Window) (answer : Option Answer) (ahead : Nat)
  /-- A table entry: slot, entry, whether the owner is self, the assigned job (R89). -/
  | slot (n : Nat) (e : SlotEntry) (ownerSelf : Bool) (job : Option Nat)
  /-- A roster entry: address, whether it is self's, entry, the slots the table gives it (R68). -/
  | roster (a : Nat) (isSelf : Bool) (e : RosterEntry) (slots : Nat)
  deriving DecidableEq, Repr

/-- The status of a reply with what it carries (R172). -/
inductive TxResult where
  | done (d : ReplyData)
  | accepted (d : ReplyData)
  | refused (r : Reason)
  deriving DecidableEq, Repr

/-- A reply record (R172, R188). -/
structure Reply where
  /-- The transaction kind field. -/
  kind : BitVec 4
  /-- The frame number at the taking. -/
  frame : Nat
  result : TxResult
  deriving DecidableEq, Repr

/-- The host port (R170), with the part reset that a taken RESET_PART has armed (R182). -/
structure HostPort where
  state : PortState
  request : List PortWord
  reply : Option Reply
  position : Nat
  resetArmed : Bool
  deriving DecidableEq, Repr

/-- The host port after a reset (R170). -/
def HostPort.reset : HostPort :=
  { state := .deselected, request := [], reply := none, position := 0, resetArmed := false }

/-! ### Pins -/

/-- The pins that hold a level of their own (Electrical summary). -/
structure Pins where
  /-- The line-rate pins as read at power-on (R183). -/
  lineRate : BitVec 2
  /-- The reset line is asserted (R181). -/
  resetLine : Bool
  /-- Target select is asserted (R170). -/
  select : Bool
  /-- The port word last shifted out on serial data out; absent when the part drove nothing (R170, log 24). -/
  serialOut : Option PortWord
  deriving DecidableEq, Repr

/-! ### The whole part -/

/-- The state of the part, and the commands that are waiting. -/
structure State where
  port : TrunkPort
  timer : FrameTimer
  control : StationControl
  /-- Address a stands at place a; place 0 is no address and stays at its reset value. -/
  roster : Bank RosterEntry 31
  /-- Slot n stands at place n; the places outside the data region stay at their reset values. -/
  table : Bank SlotEntry 96
  claims : ClaimQueue
  tx : Bank TxChannel 8
  rx : Bank RxChannel 8
  /-- The used records of the job table, in posting order (R130, log 26). -/
  jobs : List Job
  windows : Bank Window 4
  answers : AnswerQueue
  buffer : Buffer
  events : EventQueue
  host : HostPort
  pins : Pins
  /-- The model's own field: the number of the present happening, which names its free choices (log 6). -/
  happening : Nat
  /-- The commands that are waiting, first in, first out. -/
  pending : List Instr
  deriving DecidableEq, Repr

/-- The part right after power-on reset (R183): every block at its reset value, buffer memory arbitrary, nothing
waiting. The pins' levels and the model's counters are DESIGN CHOICES (log 5). -/
def State.reset : State :=
  { port := TrunkPort.reset
    timer := FrameTimer.reset
    control := StationControl.reset
    roster := Bank.fill 31 RosterEntry.reset
    table := Bank.fill 96 SlotEntry.reset
    claims := ClaimQueue.reset
    tx := Bank.fill 8 TxChannel.reset
    rx := Bank.fill 8 RxChannel.reset
    jobs := []
    windows := Bank.fill 4 Window.closed
    answers := AnswerQueue.reset
    buffer := { cells := [], powerOns := 0 }
    events := EventQueue.reset
    host := HostPort.reset
    pins := { lineRate := 0, resetLine := false, select := false, serialOut := none }
    happening := 0
    pending := [] }

/-- The reasons the model stops. -/
inductive Fault where
  /-- Raised by the data slot commands when a job's read or a window's write names a buffer address outside 0 to 8191
  (R175). Safe: the bounds of R130 and R151 keep every reachable state from it (log 19). -/
  | bufferAddress (a : Nat)
  deriving DecidableEq, Repr

/-- The reasons a command has no meaning. -/
inductive Refusal where
  /-- Raised by exec for a command that has no meaning in this model; no command of the table is one. Safe. -/
  | notModelled (mnemonic : String)
  deriving DecidableEq, Repr

end Sys2Proof.Machine
end

