-- ==== Sys2Proof/Machine/Ops.lean ====
section
/-! DEFINITION. The shared operations: reading the state, events and their free orders, buffer memory, the allocation
table's entries, jobs and windows, and the session ends (entry into LEAVING, DETACHED and FAULT, resets). -/

namespace Sys2Proof.Machine

/-! ### Reading the state -/

/-- Self's address, as configured (R35); 0, which is no address, while the configuration is empty. -/
def State.self (s : State) : Nat :=
  match s.control.config with
  | some c => c.addr
  | none => 0

/-- The configured frame length L (R35); 0 while the configuration is empty, so that there is no data region. -/
def State.len (s : State) : Nat :=
  match s.control.config with
  | some c => c.len
  | none => 0

/-- The configured eligibility (R35). -/
def State.eligible (s : State) : Bool :=
  match s.control.config with
  | some c => c.eligible
  | none => false

/-- A data slot of the configured frame is one of 4 to L - 1 (R10). -/
def isDataSlot (len n : Nat) : Bool := decide (4 ≤ n) && decide (n < len)

/-- The data slots of the configured frame, lowest first. -/
def dataSlots (len : Nat) : List Nat := (List.range len).filter (fun n => decide (4 ≤ n))

/-- The allocation table entry of slot `n` (R70). -/
def State.entry (s : State) (n : Nat) : SlotEntry := s.table.get n SlotEntry.reset

/-- The roster entry of address `a` (R56). -/
def State.rosterEntry (s : State) (a : Nat) : RosterEntry := s.roster.get a RosterEntry.reset

/-- Does the roster hold `a` PRESENT? -/
def State.isPresent (s : State) (a : Nat) : Bool := (s.rosterEntry a).present

/-- The data slots that self's table records as owned by `a`, lowest first. -/
def State.slotsOf (s : State) (a : Nat) : List Nat :=
  (dataSlots s.len).filter (fun n => (s.entry n).owner == some a)

/-- The number of data slots that self's table records as owned by `a` (R62). -/
def State.heldCount (s : State) (a : Nat) : Nat := (s.slotsOf a).length

/-- Self's holdings (R71). -/
def State.holdings (s : State) : Nat := s.heldCount s.self

/-- Is slot `n` self-owned in self's table? -/
def State.isOwn (s : State) (n : Nat) : Bool := (s.entry n).owner == some s.self

/-- The lowest-numbered free data slot of self's table (R105). -/
def State.lowestFree (s : State) : Option Nat :=
  (dataSlots s.len).find? (fun n => (s.entry n).owner == none)

/-- Channel `c`'s bound slots: the own slots whose role is STREAM(c), in slot-number order (R85, R112). -/
def State.boundSlots (s : State) (c : Nat) : List Nat :=
  (dataSlots s.len).filter (fun n => (s.entry n).role == some (.stream c))

/-- The attention line: asserted while the event queue holds a record (R179). -/
def State.attention (s : State) : Bool := !s.events.records.isEmpty || s.events.lost.isSome

/-- The transmit channel `c`. -/
def State.txAt (s : State) (c : Nat) : TxChannel := s.tx.get c TxChannel.reset

/-- The receive channel `c`. -/
def State.rxAt (s : State) (c : Nat) : RxChannel := s.rx.get c RxChannel.reset

/-- The window `w`. -/
def State.windowAt (s : State) (w : Nat) : Window := s.windows.get w Window.closed

/-! ### Writing the state -/

/-- Slot `n`'s entry becomes `e`. -/
def State.setEntry (s : State) (n : Nat) (e : SlotEntry) : State := { s with table := s.table.set n e }

/-- Address `a`'s roster entry becomes `e`. -/
def State.setRoster (s : State) (a : Nat) (e : RosterEntry) : State := { s with roster := s.roster.set a e }

/-- Transmit channel `c` becomes `t`. -/
def State.setTx (s : State) (c : Nat) (t : TxChannel) : State := { s with tx := s.tx.set c t }

/-- Receive channel `c` becomes `r`. -/
def State.setRx (s : State) (c : Nat) (r : RxChannel) : State := { s with rx := s.rx.set c r }

/-- Window `w` becomes `x`. -/
def State.setWindow (s : State) (w : Nat) (x : Window) : State := { s with windows := s.windows.set w x }

/-! ### Events (R177) -/

/-- An event of a kind and frame number, every subject absent. -/
def Event.of (kind : EventKind) (frame : Nat) : Event :=
  { kind := kind, frame := frame, slot := none, station := none, channel := none, job := none, window := none,
    tag := none, result := none, count := none }

/-- Posting one event, by the first line of R177's table that applies. -/
def EventQueue.post (q : EventQueue) (e : Event) : EventQueue :=
  match q.lost with
  | some l => { q with lost := some { l with count := satSucc 65535 l.count } }
  | none =>
    if q.records.length < Config.eventCapacity then { q with records := q.records ++ [e] }
    else { q with lost := some { frame := e.frame, count := 1 } }

/-- Posting several events in order. -/
def EventQueue.postAll (q : EventQueue) (es : List Event) : EventQueue := es.foldl EventQueue.post q

/-- The EVENTS_LOST record as it is read: kind, frame number and count, every subject absent (R177). -/
def LostRecord.event (l : LostRecord) : Event := { Event.of .eventsLost l.frame with count := some l.count }

/-- Every record of the queue, oldest first, the EVENTS_LOST record last (R177). -/
def EventQueue.all (q : EventQueue) : List Event := q.records ++ (q.lost.map LostRecord.event).toList

/-- Post events in order. -/
def State.postAll (s : State) (es : List Event) : State := { s with events := s.events.postAll es }

/-- Choice `i` of the present happening (log 6). -/
def State.choice (s : State) (i : Nat) : Bool := Config.freeChoice s.happening i

/-- Does the next record of two blocks' postings come from the first block? Free while both have one (R177). -/
def fromFirst (h i : Nat) (xs ys : List Event) : Bool :=
  match xs, ys with
  | [], _ => false
  | _ :: _, [] => true
  | _ :: _, _ :: _ => Config.freeChoice h i

/-- `n` postings of two blocks in a free order that keeps each block's own order (R177). -/
def shuffle (h : Nat) : Nat → Nat → List Event → List Event → List Event
  | 0, _, _, _ => []
  | n + 1, i, xs, ys =>
    (if fromFirst h i xs ys then xs.headD (Event.of .eventsLost 0) else ys.headD (Event.of .eventsLost 0)) ::
      shuffle h n (i + 1) (if fromFirst h i xs ys then xs.tail else xs) (if fromFirst h i xs ys then ys else ys.tail)

/-- The postings of several blocks in a free order that keeps each block's own order (R177). `base` names the first
choice used; each block after it takes the next 64. -/
def mergeAll (h : Nat) : Nat → List (List Event) → List Event
  | _, [] => []
  | base, l :: ls => shuffle h (l.length + (ls.map List.length).sum) base l (mergeAll h (base + 64) ls)

/-- Post what several blocks post for one happening, in a free order (R177). -/
def State.postGroups (s : State) (base : Nat) (groups : List (List Event)) : State :=
  s.postAll (mergeAll s.happening base groups)

/-- The happening is over: the next one has free choices of its own (log 6). -/
def State.nextHappening (s : State) : State := { s with happening := s.happening + 1 }

/-- STATE_CHANGED to a state (R36). -/
def State.stateChanged (s : State) (st : StationState) : Event :=
  { Event.of .stateChanged s.timer.frame with result := some (.state st) }

/-- HOLDER_CHANGED with a station, or with none (R16). -/
def holderChanged (frame : Nat) (station : Option Nat) : Event :=
  { Event.of .holderChanged frame with station := station }

/-! ### Buffer memory (R175) -/

/-- The word an address was given since power-on, if any. -/
def lookupCell : List (Nat × DataWord) → Nat → Option DataWord
  | [], _ => none
  | c :: cs, a => if c.1 = a then some c.2 else lookupCell cs a

/-- The cells with address `a` holding `w`, by rising address. -/
def insertCell (a : Nat) (w : DataWord) : List (Nat × DataWord) → List (Nat × DataWord)
  | [] => [(a, w)]
  | c :: cs => if a < c.1 then (a, w) :: c :: cs else if a = c.1 then (a, w) :: cs else c :: insertCell a w cs

/-- The buffer word at an address: the last word written since power-on, else its arbitrary value (R175, log 7). -/
def Buffer.read (b : Buffer) (a : Nat) : DataWord := (lookupCell b.cells a).getD (Config.arbitraryWord b.powerOns a)

/-- One buffer word written. -/
def Buffer.write (b : Buffer) (a : Nat) (w : DataWord) : Buffer := { b with cells := insertCell a w b.cells }

/-- Consecutive buffer words written, in address order (R175). -/
def Buffer.writeAll (b : Buffer) : Nat → List DataWord → Buffer
  | _, [] => b
  | a, w :: ws => (b.write a w).writeAll (a + 1) ws

/-- Consecutive buffer words, in address order (R175). -/
def Buffer.readAll (b : Buffer) (a n : Nat) : List DataWord := (List.range n).map (fun i => b.read (a + i))

/-- The canonical form of buffer memory: addresses strictly rising, all of them buffer addresses. -/
def cellsWf : List (Nat × DataWord) → Bool
  | [] => true
  | [c] => decide (c.1 < Config.bufferWords)
  | c :: d :: cs => decide (c.1 < d.1) && cellsWf (d :: cs)

/-- Buffer memory is in its canonical form. -/
def Buffer.wf (b : Buffer) : Bool := cellsWf b.cells

/-! ### Jobs (R130) -/

/-- A live job: QUEUED, SENDING or AWAIT_ANSWER. -/
def Job.live (j : Job) : Bool :=
  match j.state with
  | .queued => true
  | .sending => true
  | .awaitAnswer => true
  | .done => false
  | .failed => false
  | .cancelled => false

/-- The used record with this id. -/
def State.job (s : State) (id : Nat) : Option Job := s.jobs.find? (fun j => j.id == id)

/-- The job assigned to slot `n` (R137). -/
def State.assignedJob (s : State) (n : Nat) : Option Job := s.jobs.find? (fun j => j.slot == some n)

/-- The record with the id of `j` becomes `j`; its place in posting order is kept. -/
def State.setJob (s : State) (j : Job) : State :=
  { s with jobs := s.jobs.map (fun x => if x.id = j.id then j else x) }

/-- Suspension by a slot-loss notice (R148). -/
def Job.suspend (j : Job) : Job :=
  { j with state := .queued, headDue := true, resume := true, timer := 0, slot := none }

/-- The job ends with a result and leaves its slot (R144, R146, R150). Next offset, rewind count and tail resends stay by
rule; that answer timer, head-due and resume stay too is a DESIGN CHOICE (log 32). -/
def Job.finish (j : Job) (st : JobState) (r : JobResult) : Job := { j with state := st, result := some r, slot := none }

/-- JOB_FAILED (R130). -/
def Job.failedEvent (j : Job) (frame : Nat) (r : JobResult) (count : Nat) : Event :=
  { Event.of .jobFailed frame with
    job := some j.id, station := some j.dest, window := some j.window, result := some (.job r), count := some count }

/-- Every live job fails with the cause (R150). -/
def failLive (r : JobResult) (jobs : List Job) : List Job := jobs.map (fun j => if j.live then j.finish .failed r else j)

/-- The JOB_FAILED events of that, in order of posting (R150). -/
def failLiveEvents (r : JobResult) (frame : Nat) (jobs : List Job) : List Event :=
  (jobs.filter Job.live).map (fun j => j.failedEvent frame r j.next)

/-! ### Table entries and roles (R73, R81) -/

/-- The slot-loss notice for a role that has left slot `n`: the bulk sender suspends the job assigned to the slot; for
the other roles nothing is kept apart from the table (R81, R148). -/
def State.lossNotice (s : State) (role : Option Role) (n : Nat) : State :=
  if role = some .bulk then
    { s with jobs := s.jobs.map (fun j => if j.slot = some n then j.suspend else j) }
  else s

/-- The values of an entry that is freed (R73). -/
def SlotEntry.freed (e : SlotEntry) : SlotEntry := { e with owner := none, silence := 0, role := none }

/-- Slot `n` is freed, with the notice to the block of a removed role (R73). -/
def State.freeSlot (s : State) (n : Nat) : State :=
  (s.setEntry n (s.entry n).freed).lossNotice (s.entry n).role n

/-- Every slot of a dropped or departed peer is freed (R63, R65); a peer's slots have no role. -/
def State.freeAllOf (s : State) (a : Nat) : State :=
  { s with table := s.table.map (fun e => if e.owner = some a then e.freed else e) }

/-- The stray count of entry `k` rises by 1, saturating at 255 (R67). -/
def State.countStray (s : State) (k : Nat) : State :=
  s.setRoster k { s.rosterEntry k with stray := satSucc 255 (s.rosterEntry k).stray }

/-! ### Claim records (R90, R110) -/

/-- The slot a record names: n for SLOT n and RELEASE n, absent for ANY. -/
def ClaimRequest.named : ClaimRequest → Option Nat
  | .slot n => some n
  | .any => none
  | .release n => some n

/-- CLAIM_DONE of a record (R110). -/
def ClaimRecord.doneEvent (r : ClaimRecord) (frame : Nat) (result : ClaimResult) (slot station : Option Nat) : Event :=
  { Event.of .claimDone frame with
    tag := some r.tag, result := some (.claim result), slot := slot, station := station, count := some r.lost }

/-- CLAIM_DONE of every record, oldest first, with one result (R47, R53). -/
def claimsEndEvents (frame : Nat) (result : ClaimResult) (records : List ClaimRecord) : List Event :=
  records.map (fun r => r.doneEvent frame result r.request.named none)

/-! ### Windows (R151) -/

/-- The four window numbers, lowest first. -/
def windowIds : List Nat := [0, 1, 2, 3]

/-- An event of a window: its number, its sender and a count (R151). -/
def Window.event (x : Window) (kind : EventKind) (frame w count : Nat) : Event :=
  { Event.of kind frame with window := some w, station := x.sender, count := some count }

/-- A window at entry into DETACHED (R50, R152). -/
def Window.detached (x : Window) : Window :=
  match x.state with
  | .receiving => { x with state := .stalled, origin := some .gap }
  | .gap => { x with state := .stalled, origin := some .gap }
  | .stalled => { x with origin := some .gap }
  | .closed => x
  | .opened => x
  | .complete => x
  | .failed => x

/-- The WINDOW_STALLED events of entry into DETACHED, in window-number order (R152). -/
def State.detachEvents (s : State) : List Event :=
  (windowIds.filter (fun w => (s.windowAt w).state == .receiving || (s.windowAt w).state == .gap)).map
    (fun w => (s.windowAt w).event .windowStalled s.timer.frame w (s.windowAt w).count)

/-- A window at entry into FAULT (R53, R152). -/
def Window.faulted (x : Window) : Window :=
  match x.state with
  | .closed => x
  | .complete => x
  | .opened => { x with state := .failed, origin := none, cause := some .fault }
  | .receiving => { x with state := .failed, origin := none, cause := some .fault }
  | .gap => { x with state := .failed, origin := none, cause := some .fault }
  | .stalled => { x with state := .failed, origin := none, cause := some .fault }
  | .failed => { x with state := .failed, origin := none, cause := some .fault }

/-- The WINDOW_FAILED events of entry into FAULT, in window-number order (R152). -/
def State.faultWindowEvents (s : State) : List Event :=
  (windowIds.filter (fun w => (s.windowAt w).state != .closed && (s.windowAt w).state != .complete)).map
    (fun w => { (s.windowAt w).event .windowFailed s.timer.frame w (s.windowAt w).count with
                result := some (.window .fault) })

/-! ### The frame timer at session ends (R34) -/

/-- UNALIGNED with the frame number kept (R34). -/
def FrameTimer.dropped (t : FrameTimer) : FrameTimer := { FrameTimer.reset with frame := t.frame }

/-- The alignment to an accepted MARK at the end of slot 0 of its frame: the next occurrence is slot 1 (R18, R32). -/
def FrameTimer.alignedTo (w : SlotWord) : FrameTimer :=
  { aligned := true, position := some 1, passing := false, frame := w.markFrame, holder := some w.sender,
    holderFlag := false, missed := 0 }

/-! ### Transitions of the station state -/

/-- The blocks' values at a return to, or entry into, LISTEN: listen window from 0, hunting begun, observation complete
clear, NO_TRUNK available (R12, R20, R34, R37, R44, R51). -/
def State.listening (s : State) : State :=
  { s with
    control := { s.control with state := .listen, listenCount := 0, observed := false, observing := false,
                                noTrunkReady := true }
    port := { s.port with window := none } }

/-- Roster and allocation table at their reset values (R57, R72). -/
def State.clearTables (s : State) : State :=
  { s with roster := Bank.fill 31 RosterEntry.reset, table := Bank.fill 96 SlotEntry.reset }

/-- Entry into JOINING from LISTEN (R40). -/
def State.toJoining (s : State) : State :=
  { s with
    control := { s.control with state := .joining, observed := false, observing := false }
    port := { s.port with window := none } }

/-- Entry into LEAVING (R47): claim records end, live jobs fail, own slots keep owner and role. -/
def State.enterLeaving (s : State) : State :=
  let frame := s.timer.frame
  let s1 : State :=
    { s with
      control := { s.control with state := .leaving }
      claims := { s.claims with records := [], contending := false }
      jobs := failLive .leaving s.jobs }
  (s1.postGroups 0 [[s.stateChanged .leaving], claimsEndEvents frame .leaving s.claims.records,
    failLiveEvents .leaving frame s.jobs]).nextHappening

/-- Entry into DETACHED (R50), with what other blocks post in the same happening. -/
def State.enterDetached (s : State) (others : List (List Event)) : State :=
  let s1 : State :=
    { s.clearTables with
      control := { s.control with state := .detached, observed := false, observing := false }
      port := TrunkPort.reset
      timer := s.timer.dropped
      claims := { s.claims with records := [], contending := false }
      windows := s.windows.map Window.detached
      answers := AnswerQueue.reset }
  (s1.postGroups 0 ([s.stateChanged .detached] :: s.detachEvents :: others)).nextHappening

/-- Entry into FAULT (R53). -/
def State.enterFault (s : State) (cause : FaultCause) : State :=
  let frame := s.timer.frame
  let s1 : State :=
    { s.clearTables with
      control := { s.control with state := .fault, cause := some cause, observed := false, observing := false }
      port := TrunkPort.reset
      timer := s.timer.dropped
      claims := { s.claims with records := [], contending := false }
      jobs := failLive .fault s.jobs
      windows := s.windows.map Window.faulted
      answers := AnswerQueue.reset }
  (s1.postGroups 0 [[{ Event.of .stateChanged frame with result := some (.fault cause) }],
    claimsEndEvents frame .fault s.claims.records, failLiveEvents .fault frame s.jobs, s.faultWindowEvents]).nextHappening

/-- Part reset (R35, R181, R182): every block at its reset value; buffer memory and the pins are kept, and so are the
model's own counters and the waiting commands. -/
def State.partReset (s : State) : State :=
  { State.reset with buffer := s.buffer, pins := s.pins, happening := s.happening, pending := s.pending }

/-- Power-on reset (R183): a part reset with arbitrary buffer memory, and the line-rate pins read. -/
def State.powerOn (s : State) (lineRate : BitVec 2) : State :=
  { s.partReset with
    buffer := { cells := [], powerOns := s.buffer.powerOns + 1 }
    pins := { s.pins with lineRate := lineRate, serialOut := none } }

end Sys2Proof.Machine
end

