-- ==== Sys2Proof/Machine/Occurrence.lean ====
section
/-! DEFINITION. Slot occurrences: their start (a word handed to the trunk port, R1), their end (readback, classification
and delivery, R3 to R9), what the frame timer does with a MARK heard outside slot 0 (R32, R33), the faults found in an
occurrence (R52, chapter 3), and the passage to the next occurrence (R17, R41). -/

namespace Sys2Proof.Machine

/-- What the end of an occurrence hands to the blocks (R9): slot and frame it had, the heard word, and the outcome with
the word sent when self drove. -/
structure Occurrence where
  slot : Nat
  frame : Nat
  heard : Heard
  sent : Option SlotBits
  outcome : Option SendOutcome
  deriving DecidableEq, Repr

/-- A station state in which the blocks take part in the trunk: JOINING, MEMBER or LEAVING (R39). -/
def StationState.onTrunk : StationState → Bool
  | .off => false
  | .listen => false
  | .joining => true
  | .member => true
  | .leaving => true
  | .detached => false
  | .fault => false

/-- MEMBER or LEAVING: own slots are served and windows act (R38, R39). -/
def StationState.serving : StationState → Bool
  | .off => false
  | .listen => false
  | .joining => false
  | .member => true
  | .leaving => true
  | .detached => false
  | .fault => false

/-! ### The start of an occurrence -/

/-- The occurrence of the slot position may start: the frame timer is ALIGNED, the position meets the test, and the
occurrence has not begun (R17, log 29). -/
def State.startsAt (s : State) (test : Nat → Bool) : Bool :=
  s.timer.aligned && !s.timer.passing &&
    (match s.timer.position with
     | some p => test p
     | none => false)

/-- The trunk port begins an occurrence with a word handed to it, or without (R1, R15). -/
def TrunkPort.begin (p : TrunkPort) (w : Option SlotWord) : TrunkPort :=
  { p with word := w.map SlotWord.bits, bitsDone := 0, displaced := false, lineError := false, drove := w.isSome }

/-- The occurrence begins, and the block that owns the slot position hands the port a word or none (R1). -/
def State.beginWith (s : State) (w : Option SlotWord) : State :=
  { s with port := s.port.begin w, timer := { s.timer with passing := true } }

/-! ### The end of an occurrence -/

/-- The occurrence of the slot position is passing, at a position that meets the test (R9, log 29). -/
def State.endsAt (s : State) (test : Nat → Bool) : Bool :=
  s.timer.aligned && s.timer.passing &&
    (match s.timer.position with
     | some p => test p
     | none => false)

/-- The trunk port at the end of an occurrence in which these bits were heard: the word has been read back whole, the
classification is kept, and the port holds no word (R3, R6, R15). -/
def TrunkPort.finish (p : TrunkPort) (bits : SlotBits) : TrunkPort :=
  match p.word with
  | none => { p with heard := some (classify bits) }
  | some w =>
    { p with word := none, bitsDone := 40, displaced := (readBack w bits).displaced,
             lineError := (readBack w bits).lineError, heard := some (classify bits) }

/-- What the end of the passing occurrence hands on (R4, R9). -/
def State.occurrence (s : State) (bits : SlotBits) : Occurrence :=
  { slot := s.timer.position.getD 0, frame := s.timer.frame, heard := classify bits, sent := s.port.word,
    outcome := s.port.word.map (fun w => outcomeOf w bits) }

/-- The part with its trunk port at the end of the occurrence. -/
def State.portEnd (s : State) (bits : SlotBits) : State := { s with port := s.port.finish bits }

/-- A VALID word carrying this address. -/
def Heard.carries (h : Heard) (a : Nat) : Bool :=
  match h with
  | .valid w => w.sender == a
  | .silent => false
  | .corrupt => false

/-- Duplicate address in a slot occurrence (R52): a VALID word with self's address that self did not drive, or that
displaced self's word. -/
def Occurrence.duplicate (o : Occurrence) (self : Nat) : Bool :=
  o.heard.carries self && (o.outcome == none || o.outcome == some .displaced)

/-- A heard MARK, VALID and not malformed, whose length code is a defined one other than the configured (R19). -/
def Heard.otherLength (h : Heard) (len : Nat) : Bool :=
  match h.acceptable .mark with
  | some w => w.markLength != some len
  | none => false

/-- The frame-length fault in a slot occurrence: in slot 0 as the winner over a founding MARK in LISTEN (R21), unsent
(R23) or as the winner over a holder's MARK (R27) in JOINING; in any other slot in JOINING (R33). That R33 acts on such a MARK
heard in place of self's own ROLL, whatever the outcome, where R43 has the station stay in JOINING, is DEDUCED (log 37). -/
def Occurrence.lengthFault (o : Occurrence) (st : StationState) (len : Nat) : Bool :=
  o.heard.otherLength len &&
    ((st == .listen && o.slot == 0 && o.outcome == some .displaced) ||
     (st == .joining && (o.slot != 0 || o.outcome == none || o.outcome == some .displaced)))

/-- The fault found at the end of an occurrence; a duplicate address comes before a frame length (R52). -/
def State.faultIn (s : State) (o : Occurrence) : Option FaultCause :=
  if o.duplicate s.self then some .duplicateAddress
  else if o.lengthFault s.control.state s.len then some .frameLength
  else none

/-! ### MARKs outside slot 0 (R32, R33) -/

/-- The station is at or below the holder address, or the holder address is absent (R32). -/
def State.atOrBelowHolder (s : State) (k : Nat) : Bool :=
  match s.timer.holder with
  | none => true
  | some h => decide (k ≤ h)

/-- Does the station realign to the heard word (R32)? An acceptable MARK of the configured length outside slot 0, from a
peer at or below the holder address, or with the holder absent. -/
def State.realignsTo (s : State) (o : Occurrence) : Option SlotWord :=
  match o.heard.acceptable .mark with
  | none => none
  | some w =>
    if o.slot ≠ 0 ∧ w.sender ≠ s.self ∧ w.markLength = some s.len ∧ s.atOrBelowHolder w.sender = true then some w
    else none

/-- The realignment (R32): frame, holder and position from the mark; a holder yields; in JOINING the observation of the
data region starts again (R41, R84), after a DISTURBED own ROLL too, where R43 leaves it complete: DEDUCED (log 37). -/
def State.realign (s : State) (w : SlotWord) : State :=
  { s with
    timer := FrameTimer.alignedTo w
    control := if s.control.state = .joining then { s.control with observed := false, observing := false }
               else s.control }

/-- What the frame timer posts for a MARK heard outside slot 0 in JOINING, MEMBER or LEAVING (R32, R33). -/
def State.offSlotEvents (s : State) (o : Occurrence) : List Event :=
  match s.realignsTo o with
  | some w =>
    if s.timer.holder ≠ some w.sender ∨ s.timer.holderFlag then [holderChanged w.markFrame (some w.sender)] else []
  | none =>
    match o.heard.acceptable .mark with
    | none => []
    | some w =>
      if o.slot = 0 ∨ w.sender = s.self then []
      else if w.markLength = some s.len then
        [{ Event.of .markStray o.frame with station := some w.sender, slot := some o.slot }]
      else [{ Event.of .markMismatch o.frame with station := some w.sender, slot := some o.slot }]

/-! ### The passage to the next occurrence (R17, R41) -/

/-- The frame timer at the end of an occurrence without realignment: the next slot position, and at the end of slot
L - 1 position 0 of the next frame, modulo 240 (R11, R17). -/
def FrameTimer.advanced (t : FrameTimer) (len slot : Nat) : FrameTimer :=
  if slot + 1 < len then { t with position := some (slot + 1), passing := false }
  else { t with position := some 0, passing := false, frame := (t.frame + 1) % Config.frameNumbers }

/-- The observation frame ends with its last slot (R41). -/
def StationControl.lastSlot (c : StationControl) (len slot : Nat) : StationControl :=
  if slot + 1 < len then c
  else if c.observing then { c with observed := true, observing := false } else c

/-- The occurrence is over: a realignment, or the next slot position (R17, R32, R41). -/
def State.passOn (s : State) (o : Occurrence) : State :=
  match s.realignsTo o with
  | some w => s.realign w
  | none =>
    { s with timer := s.timer.advanced s.len o.slot, control := s.control.lastSlot s.len o.slot }

/-! ### The candidate rule (R28, R31) -/

/-- A candidate: an entry PRESENT and timing-eligible, self's own eligibility being the configured one, and not the
holder (R28, log 27). -/
def State.isCandidate (s : State) (a : Nat) : Bool :=
  s.timer.holder != some a && s.isPresent a &&
    (if a = s.self then s.eligible else (s.rosterEntry a).eligible == some true)

/-- The candidate: the lowest such address. -/
def State.candidate (s : State) : Option Nat := ((List.range 31).filter (fun a => decide (1 ≤ a))).find? s.isCandidate

/-- Self takes up holding: holder flag set, holder self, missed marks 0 (R28, R29, R31). -/
def State.hold (s : State) : State :=
  { s with timer := { s.timer with holderFlag := true, holder := some s.self, missed := 0 } }

end Sys2Proof.Machine
end

