-- ==== Sys2Proof/Machine/FrameTiming.lean ====
section
/-! DEFINITION. Finding the trunk and the MARK slot: HUNTING_CANDIDATE, LISTEN_WINDOW_FRAME_TIME, LISTEN_WINDOW_PASSES,
MARK_SLOT_START, MARK_SLOT_END and its named cases CANDIDATE_RULE, ESCALATION and JOINING_TO_LISTEN (chapter 2). -/

namespace Sys2Proof.Machine

/-! ### Hunting and the listen window -/

/-- The station hunts: LISTEN with the frame timer UNALIGNED (R12). -/
def State.hunting (s : State) : Bool := s.control.state == .listen && !s.timer.aligned

/-- The frame timer aligns to a MARK and the station enters JOINING (R18, R21, R40). -/
def State.joinOn (s : State) (w : SlotWord) : State :=
  let s1 : State := { s.toJoining with timer := FrameTimer.alignedTo w }
  (s1.postGroups 0 [[holderChanged w.markFrame (some w.sender)], [s1.stateChanged .joining]]).nextHappening

/-- A hunting candidate (R12, R18, R19, R40, R52). -/
def State.candidateHeard (s : State) (bits : SlotBits) : State :=
  let s1 : State := { s with port := { s.port with window := some bits } }
  match (classify bits).acceptable .mark with
  | none => s1
  | some w =>
    if w.sender = s.self then s1.enterFault .duplicateAddress
    else if w.markLength = some s.len then s1.joinOn w
    else s1.enterFault .frameLength

/-- HUNTING_CANDIDATE (R18): the 40 most recently heard bits, while hunting; otherwise nothing is classified (R12). -/
def execHuntingCandidate (bits : SlotBits) (s : State) : Host.Outcome State Fault Refusal :=
  if s.hunting then .next (s.candidateHeard bits) else .next s

/-- Founding begins (R20): ALIGNED at the frame boundary, frame 0, the next occurrence is slot 0. -/
def State.found (s : State) : State :=
  { s with
    timer := { s.timer with aligned := true, position := some 0, passing := false, frame := 0 }
    port := { s.port with window := none } }

/-- The listen window has passed (R20): founding, or NO_TRUNK once. -/
def State.windowPassed (s : State) : State :=
  if s.eligible then s.found
  else if s.control.noTrunkReady then
    { s with
      control := { s.control with noTrunkReady := false }
      events := s.events.post (Event.of .noTrunk s.timer.frame) }
  else s

/-- A completed frame time of the listen window (R20); the window has passed when the count is 3. -/
def State.frameTimePassed (s : State) : State :=
  let s1 : State := { s with control := { s.control with listenCount := s.control.listenCount + 1 } }
  if s.control.listenCount + 1 = 3 then s1.windowPassed else s1

/-- LISTEN_WINDOW_FRAME_TIME (R20): in LISTEN, UNALIGNED, while the window runs; the count stays at 3 after it. -/
def execListenWindowFrameTime (s : State) : Host.Outcome State Fault Refusal :=
  if s.hunting && decide (s.control.listenCount < 3) then .next s.frameTimePassed else .next s

/-- LISTEN_WINDOW_PASSES (R20): the third frame time of the listen window (log 2). -/
def execListenWindowPasses (s : State) : Host.Outcome State Fault Refusal :=
  if s.hunting && s.control.listenCount == 2 then .next s.frameTimePassed else .next s

/-! ### The start of slot 0 -/

/-- The word of slot 0 (R20, R25, R38): the founding MARK in LISTEN, or the holder's MARK. -/
def State.markToSend (s : State) : Option SlotWord :=
  if s.control.state == .listen || (s.control.state.onTrunk && s.timer.holderFlag) then
    some (markWord s.self s.timer.frame s.len)
  else none

/-- The observation frame is the first whose slot 0 begins after entry into JOINING or the last realignment (R41). -/
def StationControl.frameBegins (c : StationControl) : StationControl :=
  if c.state = .joining ∧ c.observed = false then { c with observing := true } else c

/-- MARK_SLOT_START (R25). -/
def execMarkSlotStart (s : State) : Host.Outcome State Fault Refusal :=
  if s.startsAt (· == 0) then .next { s.beginWith s.markToSend with control := s.control.frameBegins } else .next s

/-! ### The end of slot 0 -/

/-- The end of the founding slot 0 (R21). -/
def State.foundingEnd (s : State) (o : Occurrence) : State :=
  if o.outcome = some .displaced then
    match o.heard.acceptable .mark with
    | some w => s.joinOn w
    | none =>
      { s with
        timer := { s.timer with aligned := false, position := none, passing := false, frame := 0 }
        control := { s.control with listenCount := 0 }
        port := { s.port with window := none } }
  else
    let s1 : State :=
      { s.toJoining with
        timer := { s.timer with holderFlag := true, holder := some s.self, position := some 1, passing := false } }
    (s1.postGroups 0 [[holderChanged s.timer.frame (some s.self)], [s1.stateChanged .joining]]).nextHappening

/-- The end of slot 0 at a station that sent its MARK as holder (R26, R27): the state and what the frame timer posts. -/
def State.holderEnd (s : State) (o : Occurrence) : State × List Event :=
  if o.outcome = some .displaced then
    match o.heard.acceptable .mark with
    | some w =>
      if w.markLength = some s.len then
        ({ s with timer := { s.timer with holderFlag := false, frame := w.markFrame, holder := some w.sender, missed := 0 } },
          [holderChanged w.markFrame (some w.sender)])
      else
        ({ s with timer := { s.timer with holderFlag := false, holder := none, missed := 1 } },
          [{ Event.of .markMismatch o.frame with station := some w.sender, slot := some 0 }, holderChanged o.frame none])
    | none =>
      ({ s with timer := { s.timer with holderFlag := false, holder := none, missed := 1 } }, [holderChanged o.frame none])
  else (s, [])

/-- The candidate rule at two missed marks (R28). -/
def State.runCandidate (s : State) : State × List Event :=
  if s.candidate = some s.self then (s.hold, [holderChanged s.timer.frame (some s.self)]) else (s, [])

/-- A missed mark (R24) in MEMBER or LEAVING, and in JOINING short of the return to LISTEN: the count, the candidate rule
at 2 (R28) and escalation at 4 (R29). -/
def State.missMark (s : State) : State × List Event :=
  let s1 : State := { s with timer := { s.timer with missed := if s.timer.missed < 4 then s.timer.missed + 1 else 4 } }
  if s.control.state = .member ∧ s.timer.missed = 1 then s1.runCandidate
  else if s.control.state = .member ∧ s.timer.missed = 3 ∧ s.eligible = true ∧ s.timer.holderFlag = false then
    (s1.hold, [holderChanged s.timer.frame (some s.self)])
  else (s1, [])

/-- The return from JOINING to LISTEN at the fourth missed mark (R30, R44). -/
def State.backToListen (s : State) : State :=
  let s1 : State := { s.clearTables.listening with timer := s.timer.dropped }
  (s1.postAll [s1.stateChanged .listen]).nextHappening

/-- Does a station that did not send in slot 0 follow the heard word (R22)? -/
def State.followed (s : State) (o : Occurrence) : Option SlotWord :=
  match o.heard.acceptable .mark with
  | none => none
  | some w => if w.markLength = some s.len ∧ w.sender ≠ s.self then some w else none

/-- The mark is taken (R22). -/
def State.follow (s : State) (w : SlotWord) : State :=
  { s with timer := { s.timer with frame := w.markFrame, holder := some w.sender, missed := 0 } }

/-- MARK_MISMATCH of an ignored MARK in slot 0 (R23). -/
def State.mismatchEvents (s : State) (o : Occurrence) : List Event :=
  match o.heard.acceptable .mark with
  | none => []
  | some w =>
    if w.markLength = some s.len then []
    else [{ Event.of .markMismatch o.frame with station := some w.sender, slot := some 0 }]

/-- The end of slot 0 in JOINING, MEMBER or LEAVING, no fault found (R22 to R30). -/
def State.markEnd (s : State) (o : Occurrence) : State :=
  match o.outcome with
  | some _ => (((s.holderEnd o).1.postAll (s.holderEnd o).2).passOn o).nextHappening
  | none =>
    match s.followed o with
    | some w =>
      (((s.follow w).postAll
        (if s.timer.holder = some w.sender then [] else [holderChanged w.markFrame (some w.sender)])).passOn o).nextHappening
    | none =>
      if s.control.state = .joining ∧ s.timer.missed = 3 then s.backToListen
      else ((s.missMark.1.postGroups 0 [s.mismatchEvents o, s.missMark.2]).passOn o).nextHappening

/-- What the frame timer may post before the fault for a word with self's address in slot 0 (R24, R54, log 16). -/
def State.markEventsBeforeFault (s : State) (o : Occurrence) : List Event :=
  if s.control.state = .member ∧ o.outcome = none ∧ s.choice 4096 = true then s.missMark.2 else []

/-- The end of slot 0 (R21 to R27, R52). -/
def State.endMarkSlot (s : State) (bits : SlotBits) : State :=
  let o := s.occurrence bits
  let s1 := s.portEnd bits
  match s1.faultIn o with
  | some cause => (s1.postAll (s1.markEventsBeforeFault o)).enterFault cause
  | none => if s.control.state = .listen then s1.foundingEnd o else s1.markEnd o

/-- MARK_SLOT_END (R22). -/
def execMarkSlotEnd (heard : SlotBits) (s : State) : Host.Outcome State Fault Refusal :=
  if s.endsAt (· == 0) then .next (s.endMarkSlot heard) else .next s

/-- The heard word is a missed mark by R24 at a station that did not send, and no fault is found. -/
def State.missesMark (s : State) (bits : SlotBits) : Bool :=
  s.endsAt (· == 0) && s.port.word.isNone && (s.faultIn (s.occurrence bits)).isNone &&
    (s.followed (s.occurrence bits)).isNone

/-- CANDIDATE_RULE (R28): the slot 0 end at which a MEMBER's missed-mark count reaches 2 (log 2). -/
def execCandidateRule (heard : SlotBits) (s : State) : Host.Outcome State Fault Refusal :=
  if s.missesMark heard && s.control.state == .member && s.timer.missed == 1 then .next (s.endMarkSlot heard) else .next s

/-- ESCALATION (R29): the slot 0 end at which the missed-mark count of a timing-eligible MEMBER with the holder flag clear
reaches 4 (log 2). -/
def execEscalation (heard : SlotBits) (s : State) : Host.Outcome State Fault Refusal :=
  if s.missesMark heard && s.control.state == .member && s.timer.missed == 3 && s.eligible && !s.timer.holderFlag then
    .next (s.endMarkSlot heard)
  else .next s

/-- JOINING_TO_LISTEN (R30): the slot 0 end at which a JOINING station's missed-mark count reaches 4 (log 2). -/
def execJoiningToListen (heard : SlotBits) (s : State) : Host.Outcome State Fault Refusal :=
  if s.missesMark heard && s.control.state == .joining && s.timer.missed == 3 then .next (s.endMarkSlot heard) else .next s

end Sys2Proof.Machine
end

