-- ==== Sys2Proof/Machine/RollSlot.lean ====
section
/-! DEFINITION. The ROLL slot: ROLL_SLOT_START, ROLL_SLOT_END and its named case STATION_LOST (chapters 3 and 4). -/

namespace Sys2Proof.Machine

/-- The station whose turn frame `f`'s ROLL slot is (R11, R58). -/
def turnOf (f : Nat) : Nat := f % Config.stations + 1

/-- The word of slot 1 (R38, R42, R48, R59): self's ROLL in its own turn, as the station state calls for one. -/
def State.rollToSend (s : State) : Option SlotWord :=
  if turnOf s.timer.frame = s.self then
    match s.control.state with
    | .joining => if s.control.observed then some (rollWord s.self false s.holdings s.eligible) else none
    | .member => some (rollWord s.self false s.holdings s.eligible)
    | .leaving => some (rollWord s.self true s.holdings s.eligible)
    | .off => none
    | .listen => none
    | .detached => none
    | .fault => none
  else none

/-- ROLL_SLOT_START (R59). -/
def execRollSlotStart (s : State) : Host.Outcome State Fault Refusal :=
  if s.startsAt (· == 1) then .next (s.beginWith s.rollToSend) else .next s

/-! ### A peer's turn (R61 to R65) -/

/-- The acceptable roll in the turn of peer `a` (R61). -/
def Occurrence.rollOf (o : Occurrence) (a : Nat) : Option SlotWord :=
  match o.heard.acceptable .roll with
  | none => none
  | some w => if w.sender = a then some w else none

/-- ROLL_MISPLACED (R64): an acceptable ROLL whose station is another peer than the one whose turn it is. -/
def State.misplacedRoll (s : State) (o : Occurrence) (a : Nat) : List Event :=
  match o.heard.acceptable .roll with
  | none => []
  | some w =>
    if w.sender = a ∨ w.sender = s.self then []
    else [{ Event.of .rollMisplaced o.frame with station := some w.sender, slot := some 1 }]

/-- HOLDINGS_DIFFER (R62). -/
def State.holdingsDiffer (s : State) (o : Occurrence) (a : Nat) (w : SlotWord) : List Event :=
  if w.rollHeld = s.heldCount a then []
  else [{ Event.of .holdingsDiffer o.frame with
          station := some a, result := some (.number w.rollHeld), count := some (s.heldCount a) }]

/-- An acceptable ROLL(ACTIVE) (R61). -/
def State.rollHeard (s : State) (o : Occurrence) (a : Nat) (w : SlotWord) : State × List Event :=
  (s.setRoster a { s.rosterEntry a with present := true, missed := 0, held := some w.rollHeld,
                                        eligible := some w.rollEligible, lastRoll := some o.frame },
    s.holdingsDiffer o a w ++
      (if s.isPresent a then [] else [{ Event.of .stationJoined o.frame with station := some a }]))

/-- An acceptable ROLL(LEAVING) (R65). -/
def State.rollLeft (s : State) (o : Occurrence) (a : Nat) (w : SlotWord) : State × List Event :=
  ((s.setRoster a { s.rosterEntry a with present := false, missed := 0, held := none, eligible := none,
                                         lastRoll := some o.frame }).freeAllOf a,
    s.holdingsDiffer o a w ++
      [{ Event.of .stationLeft o.frame with station := some a, count := some (s.heldCount a) }])

/-- A missed roll (R63). -/
def State.rollMissed (s : State) (o : Occurrence) (a : Nat) : State × List Event :=
  if s.isPresent a then
    if (s.rosterEntry a).missed + 1 < 2 then
      (s.setRoster a { s.rosterEntry a with missed := (s.rosterEntry a).missed + 1 }, [])
    else
      ((s.setRoster a { s.rosterEntry a with present := false, missed := 2, held := none, eligible := none }).freeAllOf a,
        [{ Event.of .stationLost o.frame with station := some a, count := some (s.heldCount a) }])
  else (s, [])

/-- The roster at the end of slot 1 in the turn of peer `a` (R58). -/
def State.peerTurn (s : State) (o : Occurrence) (a : Nat) : State × List Event :=
  match o.rollOf a with
  | some w => if w.rollLeaving then s.rollLeft o a w else s.rollHeard o a w
  | none => ((s.rollMissed o a).1, s.misplacedRoll o a ++ (s.rollMissed o a).2)

/-! ### Self's own turn (R60) -/

/-- The fields of the ROLL word that self sent, read from its bits. -/
def sentRollHeld (b : SlotBits) : Nat := (b.extractLsb' 23 5).toNat
/-- Self's ROLL had status LEAVING. -/
def sentRollLeaving (b : SlotBits) : Bool := b.getLsbD 28

/-- The own entry after a SENT roll in MEMBER (R60). -/
def State.ownRollSent (s : State) (o : Occurrence) (b : SlotBits) : State :=
  s.setRoster s.self { s.rosterEntry s.self with held := some (sentRollHeld b), lastRoll := some o.frame }

/-- The entry into MEMBER (R43, R60). -/
def State.toMember (s : State) (o : Occurrence) (b : SlotBits) : State :=
  { s.setRoster s.self { s.rosterEntry s.self with present := true, missed := 0, held := some (sentRollHeld b),
                                                   eligible := some s.eligible, lastRoll := some o.frame } with
    control := { s.control with state := .member } }

/-- The roster at the end of slot 1 in self's own turn: its state, what the roster posts and what the station controller
posts (R43, R58, R60, R64). A peer's ROLL is misplaced where self sent nothing (R58) or its own ROLL was DISPLACED (R60);
after a DISTURBED one, as after a SENT one, no word is. -/
def State.ownTurn (s : State) (o : Occurrence) : State × List Event × List Event :=
  match o.outcome, o.sent with
  | some .sent, some b =>
    match s.control.state with
    | .joining => (s.toMember o b, [], [s.stateChanged .member])
    | .member => (s.ownRollSent o b, [], [])
    | .off => (s, [], [])
    | .listen => (s, [], [])
    | .leaving => (s, [], [])
    | .detached => (s, [], [])
    | .fault => (s, [], [])
  | some .disturbed, _ => (s, [], [])
  | _, _ => (s, s.misplacedRoll o s.self, [])

/-- The ROLL slot's turn, whoever has it (R58). -/
def State.rollTurn (s : State) (o : Occurrence) : State × List Event × List Event :=
  if turnOf o.frame = s.self then s.ownTurn o
  else ((s.peerTurn o (turnOf o.frame)).1, (s.peerTurn o (turnOf o.frame)).2, [])

/-! ### A leaving holder (R31) -/

/-- The roster hears the ROLL(LEAVING) of a peer that is the holder, in that peer's turn (R31, R58): in its own turn self
acts on its outcome alone (R60). -/
def State.holderLeaves (s : State) (o : Occurrence) : Bool :=
  match o.rollOf (turnOf o.frame) with
  | none => false
  | some w => w.rollLeaving && turnOf o.frame != s.self && s.timer.holder == some (turnOf o.frame)

/-- A MEMBER runs the candidate rule at once (R31). -/
def State.holderLeft (s : State) (o : Occurrence) : State × List Event :=
  if s.candidate = some s.self then (s.hold, [holderChanged o.frame (some s.self)])
  else ({ s with timer := { s.timer with holder := none } }, [holderChanged o.frame none])

/-- The frame timer at the end of slot 1, but for a realignment: R31 in MEMBER. -/
def State.rollTimer (s : State) (o : Occurrence) : State × List Event :=
  if s.control.state = .member ∧ s.holderLeaves o = true then s.holderLeft o else (s, s.offSlotEvents o)

/-! ### The end of slot 1 -/

/-- Self's ROLL(LEAVING) was on the line (R49). -/
def State.leavesNow (s : State) (o : Occurrence) : Bool :=
  s.control.state == .leaving &&
    (match o.sent with
     | some b => sentRollLeaving b
     | none => false)

/-- The end of slot 1 that carried self's ROLL(LEAVING): DETACHED (R49), with what the roster posts for the word that
displaced it (R60). Whether the frame timer took a MARK heard there before that is free (log 17). -/
def State.leaveTrunk (s : State) (o : Occurrence) : State :=
  if s.choice 4097 then
    (match s.realignsTo o with
     | some w => s.realign w
     | none => s).enterDetached [(s.ownTurn o).2.1, s.offSlotEvents o]
  else s.enterDetached [(s.ownTurn o).2.1]

/-- The end of slot 1 in JOINING, MEMBER or LEAVING, no fault found and self not detaching. -/
def State.rollEnd (s : State) (o : Occurrence) : State :=
  let turn := s.rollTurn o
  let timed := turn.1.rollTimer o
  ((timed.1.postGroups 0 [turn.2.1, turn.2.2, timed.2]).passOn o).nextHappening

/-- What the roster may post before a fault found in slot 1 (R54, log 16). -/
def State.rollEventsBeforeFault (s : State) (o : Occurrence) : List Event :=
  if s.choice 4098 then (s.rollTurn o).2.1 else []

/-- The end of slot 1 (R58, R49, R52). -/
def State.endRollSlot (s : State) (bits : SlotBits) : State :=
  let o := s.occurrence bits
  let s1 := s.portEnd bits
  match s1.faultIn o with
  | some cause => (s1.postAll (s1.rollEventsBeforeFault o)).enterFault cause
  | none => if s1.leavesNow o then s1.leaveTrunk o else s1.rollEnd o

/-- The occurrence of slot 1 ends, in a state that acts on it (R39). -/
def State.rollEnds (s : State) : Bool := s.endsAt (· == 1) && s.control.state.onTrunk

/-- ROLL_SLOT_END (R58). -/
def execRollSlotEnd (heard : SlotBits) (s : State) : Host.Outcome State Fault Refusal :=
  if s.rollEnds then .next (s.endRollSlot heard) else .next s

/-- The slot 1 end at which a PRESENT peer's missed-roll count reaches 2, no fault found (R63). -/
def State.losesStation (s : State) (bits : SlotBits) : Bool :=
  let o := s.occurrence bits
  s.rollEnds && turnOf o.frame != s.self && (o.rollOf (turnOf o.frame)).isNone && s.isPresent (turnOf o.frame) &&
    decide (1 ≤ (s.rosterEntry (turnOf o.frame)).missed) && (s.faultIn o).isNone

/-- STATION_LOST (R63): a PRESENT peer's missed-roll count reaches 2 and it is dropped (log 2). -/
def execStationLost (heard : SlotBits) (s : State) : Host.Outcome State Fault Refusal :=
  if s.losesStation heard then .next (s.endRollSlot heard) else .next s

end Sys2Proof.Machine
end

