-- ==== Sys2Proof/Machine/ClaimSlot.lean ====
section
/-! DEFINITION. The CLAIM slot: CLAIM_SLOT_START, CLAIM_SLOT_END and its named cases CLAIM_AGING and CLAIM_EXPIRED
(chapter 6, sections 6.3 to 6.5). -/

namespace Sys2Proof.Machine

/-! ### The settle pass (R98) -/

/-- The settled result of a head against self's table, with the station recorded for REFUSED_HELD (R98). -/
def State.settles (s : State) (r : ClaimRecord) : Option (ClaimResult × Option Nat) :=
  match r.request with
  | .slot n => if (s.entry n).owner = none then none else some (.refusedHeld, (s.entry n).owner)
  | .any => if s.lowestFree = none then some (.refusedFull, none) else none
  | .release n => if s.isOwn n then none else some (.notHeld, none)

/-- The records left by the settle pass: from the first head that is not settled (R98). -/
def State.unsettled (s : State) : List ClaimRecord → List ClaimRecord
  | [] => []
  | r :: rs =>
    match s.settles r with
    | some _ => s.unsettled rs
    | none => r :: rs

/-- The CLAIM_DONE events of the settle pass (R98, R110). -/
def State.settleEvents (s : State) : List ClaimRecord → List Event
  | [] => []
  | r :: rs =>
    match s.settles r with
    | some x => r.doneEvent s.timer.frame x.1 r.request.named x.2 :: s.settleEvents rs
    | none => []

/-- The request code of a CLAIM word (R185). -/
def ClaimRequest.code : ClaimRequest → Nat
  | .slot _ => 1
  | .any => 2
  | .release _ => 3

/-- The word of the contending head (R99): rank its effective priority, 0 for a RELEASE; slot 0 for ANY. -/
def State.claimToSend (s : State) (r : ClaimRecord) : SlotWord :=
  match r.request with
  | .slot n => claimWord s.self r.effective 1 n
  | .any => claimWord s.self r.effective 2 0
  | .release n => claimWord s.self 0 3 n

/-- The settle pass, and the first head that is not settled contends (R98, R99). -/
def State.settle (s : State) : State :=
  let left := s.unsettled s.claims.records
  { (s.postAll (s.settleEvents s.claims.records)).beginWith (left.head?.map s.claimToSend) with
    claims := { s.claims with records := left, contending := !left.isEmpty } }

/-- CLAIM_SLOT_START (R98): in MEMBER the settle pass; in the other states the claim queue sends nothing (R38). -/
def execClaimSlotStart (s : State) : Host.Outcome State Fault Refusal :=
  if s.startsAt (· == 2) then
    if s.control.state = .member then .next s.settle else .next (s.beginWith none)
  else .next s

/-! ### Applying the heard CLAIM word (R104 to R108) -/

/-- The slot a heard CLAIM word gives to its sender in self's table (R104, R105). -/
def State.givenSlot (s : State) (w : SlotWord) : Option Nat :=
  if w.claimCode = 1 then
    if isDataSlot s.len w.claimSlot = true ∧ (s.entry w.claimSlot).owner = none then some w.claimSlot else none
  else if w.claimCode = 2 then s.lowestFree
  else none

/-- The slot a heard CLAIM word releases in self's table (R106). -/
def State.releasedSlot (s : State) (w : SlotWord) : Option Nat :=
  if w.claimCode = 3 ∧ isDataSlot s.len w.claimSlot = true ∧ (s.entry w.claimSlot).owner = some w.sender then
    some w.claimSlot
  else none

/-- The role a slot granted to self takes: the head's grant role, SPARE without one, and SPARE for STREAM(c) when channel
c already has 4 (R80, R108). -/
def State.grantRole (s : State) (role : Option Role) : Role :=
  match role with
  | none => .spare
  | some (.stream c) => if (s.boundSlots c).length < Config.streamSlots then .stream c else .spare
  | some .spare => .spare
  | some .bulk => .bulk

/-- A receive channel at the moment slot `n` becomes self-owned: a binding on it goes (R124). -/
def RxChannel.unbindFrom (n : Nat) (r : RxChannel) : RxChannel :=
  if r.binding.map Binding.slot = some n then { r with binding := none } else r

/-- The eight channel numbers, lowest first. -/
def channelIds : List Nat := [0, 1, 2, 3, 4, 5, 6, 7]

/-- The RX_UNBOUND event of channel `c`, if its binding names slot `n` (R124). -/
def State.unboundEvent (s : State) (n c : Nat) : List Event :=
  if ((s.rxAt c).binding.map Binding.slot) = some n then
    [{ Event.of .rxUnbound s.timer.frame with channel := some c, slot := some n, result := some .ownSlot }]
  else []

/-- Slot `n` becomes self-owned with a role, and the stream unit removes the receive bindings on it (R80, R124). -/
def State.grantSelf (s : State) (n : Nat) (role : Option Role) : State × List Event :=
  ({ s.setEntry n { s.entry n with owner := some s.self, silence := 0, role := some (s.grantRole role) } with
      rx := s.rx.map (RxChannel.unbindFrom n) },
    mergeAll s.happening 1024 (channelIds.map (s.unboundEvent n)))

/-- A slot given to a peer (R88). -/
def State.grantPeer (s : State) (n k : Nat) : State :=
  s.setEntry n { s.entry n with owner := some k, silence := 0 }

/-- The heard CLAIM word is one that self's table applies: VALID, not malformed, and from a peer, or self's own with
outcome SENT (R104 to R108). -/
def State.appliedClaim (s : State) (o : Occurrence) : Option SlotWord :=
  match o.heard.acceptable .claim with
  | none => none
  | some w => if w.sender = s.self ∧ o.outcome ≠ some .sent then none else some w

/-- The application of the heard CLAIM word to self's table; `role` is the contending head's grant role (R104 to R108). -/
def State.applyClaim (s : State) (o : Occurrence) (role : Option Role) : State × List Event :=
  match s.appliedClaim o with
  | none => (s, [])
  | some w =>
    match s.givenSlot w with
    | some n => if w.sender = s.self then s.grantSelf n role else (s.grantPeer n w.sender, [])
    | none =>
      match s.releasedSlot w with
      | some n => (s.freeSlot n, [])
      | none => (s, [])

/-! ### The contending head's outcome (R100 to R102) -/

/-- The effective priority after aging: the base less one for each of 16, 32 and 48 that the lost count has reached
(R101). -/
def agedPriority (base lost : Nat) : Nat :=
  base - ((if 16 ≤ lost then 1 else 0) + (if 32 ≤ lost then 1 else 0) + (if 48 ≤ lost then 1 else 0))

/-- A record that has lost a contention (R101). -/
def ClaimRecord.losing (r : ClaimRecord) : ClaimRecord :=
  { r with lost := r.lost + 1, effective := agedPriority r.base (r.lost + 1) }

/-- What becomes of the contending head at the end of the occurrence: the record that stays at the head, if it stays, and
its CLAIM_DONE if it goes (R100 to R102). -/
def ClaimRecord.settleOutcome (r : ClaimRecord) (won : Bool) (frame : Nat) (given : Option Nat) :
    Option ClaimRecord × List Event :=
  if won then
    match r.request with
    | .slot n => (none, [r.doneEvent frame .granted (some n) none])
    | .any => (none, [r.doneEvent frame .granted given none])
    | .release n => (none, [r.doneEvent frame .released (some n) none])
  else if r.cancel then (none, [r.losing.doneEvent frame .cancelled r.request.named none])
  else if r.lost + 1 < Config.claimExpiry then (some r.losing, [])
  else (none, [r.losing.doneEvent frame .expired r.request.named none])

/-- The contending head (R90). -/
def State.contendingHead (s : State) : Option ClaimRecord :=
  if s.claims.contending then s.claims.records.head? else none

/-- The claim queue acts on the outcome of its head (R100 to R102); without a contending head it acts on nothing. -/
def State.claimOutcome (s : State) (o : Occurrence) (given : Option Nat) : State × List Event :=
  match s.contendingHead with
  | none => ({ s with claims := { s.claims with contending := false } }, [])
  | some r =>
    let x := r.settleOutcome (o.outcome == some .sent) o.frame given
    ({ s with claims := { s.claims with records := x.1.toList ++ s.claims.records.tail, contending := false } }, x.2)

/-- The slot that the application of self's own won word gives (R100). -/
def State.ownGrant (s : State) (o : Occurrence) : Option Nat :=
  match s.appliedClaim o with
  | none => none
  | some w => if w.sender = s.self then s.givenSlot w else none

/-! ### The end of slot 2 -/

/-- The end of slot 2 in JOINING, MEMBER or LEAVING, no fault found: the heard word is applied and the claim queue acts
on its head, as one act; RX_UNBOUND comes before CLAIM_DONE (R100, R108, log 22). -/
def State.claimEnd (s : State) (o : Occurrence) : State :=
  let applied := s.applyClaim o (s.contendingHead.bind ClaimRecord.role)
  let queue := applied.1.claimOutcome o (s.ownGrant o)
  ((queue.1.postGroups 0 [applied.2 ++ queue.2, s.offSlotEvents o]).passOn o).nextHappening

/-- The claim queue before a fault found in slot 2, if it takes the occurrence first (R54, R109). -/
def State.claimBeforeFault (s : State) (o : Occurrence) : State :=
  if s.choice 4099 then (s.claimOutcome o none).1.postAll (s.claimOutcome o none).2 else s

/-- The end of slot 2 (R100, R104, R52, R109). -/
def State.endClaimSlot (s : State) (bits : SlotBits) : State :=
  let o := s.occurrence bits
  let s1 := s.portEnd bits
  match s1.faultIn o with
  | some cause => (s1.claimBeforeFault o).enterFault cause
  | none => s1.claimEnd o

/-- The occurrence of slot 2 ends, in a state that acts on it (R39). -/
def State.claimEnds (s : State) : Bool := s.endsAt (· == 2) && s.control.state.onTrunk

/-- CLAIM_SLOT_END (R100). -/
def execClaimSlotEnd (heard : SlotBits) (s : State) : Host.Outcome State Fault Refusal :=
  if s.claimEnds then .next (s.endClaimSlot heard) else .next s

/-- The contending head that loses its contention at this slot 2 end, not marked for cancelling, no fault found (R101). -/
def State.losingHead (s : State) (bits : SlotBits) : Option ClaimRecord :=
  let o := s.occurrence bits
  if s.claimEnds = true ∧ o.outcome ≠ some .sent ∧ (s.faultIn o).isNone = true then
    match s.contendingHead with
    | none => none
    | some r => if r.cancel then none else some r
  else none

/-- CLAIM_AGING (R101): a head's lost count reaches 16, 32 or 48 (log 2). -/
def execClaimAging (heard : SlotBits) (s : State) : Host.Outcome State Fault Refusal :=
  match s.losingHead heard with
  | none => .next s
  | some r =>
    if r.lost + 1 == 16 || r.lost + 1 == 32 || r.lost + 1 == 48 then .next (s.endClaimSlot heard) else .next s

/-- CLAIM_EXPIRED (R101): a head's lost count reaches 64 and it is removed (log 2). -/
def execClaimExpired (heard : SlotBits) (s : State) : Host.Outcome State Fault Refusal :=
  match s.losingHead heard with
  | none => .next s
  | some r => if Config.claimExpiry ≤ r.lost + 1 then .next (s.endClaimSlot heard) else .next s

end Sys2Proof.Machine
end

