-- ==== Sys2Proof/Machine/AnswerSlot.lean ====
section
/-! DEFINITION. The ANSWER slot: ANSWER_SLOT_START, ANSWER_SLOT_END and its named case ANSWER_DROPPED (chapter 8, section
8.6, and chapter 9, section 9.4). -/

namespace Sys2Proof.Machine

/-! ### Sending the head answer (R167) -/

/-- The reason code of a REFUSE (R185). -/
def RefuseReason.code : RefuseReason → Nat
  | .busy => 0
  | .closed => 1
  | .overrun => 2
  | .sender => 3

/-- The verdict code of the ANSWER body (R185). -/
def Verdict.code : Verdict → Nat
  | .done => 1
  | .rewind => 2
  | .refuse _ => 3

/-- The reason code of the ANSWER body, 0 with DONE and REWIND (R185). -/
def Verdict.reasonCode : Verdict → Nat
  | .done => 0
  | .rewind => 0
  | .refuse r => r.code

/-- The ANSWER word of an answer (R167). -/
def Answer.word (addr : Nat) (a : Answer) : SlotWord :=
  answerWord addr a.target a.window a.verdict.code a.verdict.reasonCode a.count

/-- The word of slot 3 (R38, R167). -/
def State.answerToSend (s : State) : Option SlotWord :=
  if s.control.state.serving then s.answers.answers.head?.map (Answer.word s.self) else none

/-- The start of slot 3: the head answer contends (R167). -/
def State.startAnswerSlot (s : State) : State :=
  { s.beginWith s.answerToSend with answers := { s.answers with contending := s.answerToSend.isSome } }

/-- ANSWER_SLOT_START (R167). -/
def execAnswerSlotStart (s : State) : Host.Outcome State Fault Refusal :=
  if s.startsAt (· == 3) then .next s.startAnswerSlot else .next s

/-! ### The answer queue's own outcome (R167, R168) -/

/-- ANSWER_DROPPED (R151, R167). -/
def Answer.droppedEvent (a : Answer) (frame : Nat) : Event :=
  { Event.of .answerDropped frame with
    window := some a.window, station := some a.target, result := some (.verdict a.verdict), count := some a.count }

/-- The contending head answer (R167); none when WINDOW_CLOSE has removed it (R168). -/
def State.contendingAnswer (s : State) : Option Answer :=
  if s.answers.contending then s.answers.answers.head? else none

/-- The answer queue acts on the outcome of its head (R167). -/
def State.answerOutcome (s : State) (o : Occurrence) : State × List Event :=
  match s.contendingAnswer with
  | none => ({ s with answers := { s.answers with contending := false } }, [])
  | some a =>
    if o.outcome = some .sent then
      ({ s with answers := { answers := s.answers.answers.tail, contending := false } }, [])
    else if a.lost + 1 < Config.answerExpiry then
      ({ s with answers := { answers := { a with lost := a.lost + 1 } :: s.answers.answers.tail, contending := false } }, [])
    else
      ({ s with answers := { answers := s.answers.answers.tail, contending := false } }, [a.droppedEvent o.frame])

/-! ### The heard ANSWER at the bulk sender (R143 to R146) -/

/-- The reason of a REFUSE heard (R185). -/
def reasonOfCode (c : Nat) : RefuseReason :=
  if c = 0 then .busy else if c = 1 then .closed else if c = 2 then .overrun else .sender

/-- The ANSWER addressed to self, if one is heard (R143). -/
def State.answerHeard (s : State) (o : Occurrence) : Option SlotWord :=
  match o.heard.acceptable .answer with
  | none => none
  | some w => if w.answerTarget = s.self then some w else none

/-- The matching job: the live job earliest in posting order with the ANSWER's station as destination and its window
(R143). -/
def State.matchingJob (s : State) (w : SlotWord) : Option Job :=
  s.jobs.find? (fun j => j.live && j.dest == w.sender && j.window == w.answerWindow)

/-- A REWIND with rewind count below 8 (R145). -/
def Job.rewound (j : Job) (k : Nat) : Job :=
  { j with
    next := if k ≤ j.length then k else j.length
    rewinds := j.rewinds + 1
    headDue := true
    resume := true
    state := if j.state = .awaitAnswer then .sending else j.state
    timer := if j.state = .awaitAnswer then 0 else j.timer }

/-- JOB_DONE (R144). -/
def Job.doneEvent (j : Job) (frame count : Nat) : Event :=
  { Event.of .jobDone frame with
    job := some j.id, station := some j.dest, window := some j.window, count := some count }

/-- The verdict applied to the matching job: the job and what the bulk sender posts (R144 to R146). -/
def Job.answered (j : Job) (w : SlotWord) (frame : Nat) : Job × List Event :=
  if w.answerCode = 1 then (j.finish .done (.done w.answerCount), [j.doneEvent frame w.answerCount])
  else if w.answerCode = 2 then
    if Config.rewindLimit ≤ j.rewinds then (j.finish .failed .rewinds, [j.failedEvent frame .rewinds j.next])
    else (j.rewound w.answerCount, [])
  else (j.finish .failed (.refused (reasonOfCode w.answerReason)),
        [j.failedEvent frame (.refused (reasonOfCode w.answerReason)) j.next])

/-- The bulk sender at the end of slot 3 (R143). -/
def State.applyAnswer (s : State) (o : Occurrence) : State × List Event :=
  match (s.answerHeard o).bind s.matchingJob, s.answerHeard o with
  | some j, some w => (s.setJob (j.answered w o.frame).1, (j.answered w o.frame).2)
  | _, _ => (s, [])

/-! ### The end of slot 3 -/

/-- The end of slot 3 in JOINING, MEMBER or LEAVING, no fault found; in JOINING the answer queue is empty and every job
final, so that nothing is acted on (R39, R41). -/
def State.answerEnd (s : State) (o : Occurrence) : State :=
  let own := s.answerOutcome o
  let heard := if s.control.state.serving then own.1.applyAnswer o else (own.1, [])
  ((heard.1.postGroups 0 [own.2, heard.2, s.offSlotEvents o]).passOn o).nextHappening

/-- What the answer queue may post before a fault found in slot 3 (R54, R168). -/
def State.answerEventsBeforeFault (s : State) (o : Occurrence) : List Event :=
  if s.choice 4100 then (s.answerOutcome o).2 else []

/-- The end of slot 3 (R143, R167, R52). -/
def State.endAnswerSlot (s : State) (bits : SlotBits) : State :=
  let o := s.occurrence bits
  let s1 := s.portEnd bits
  match s1.faultIn o with
  | some cause => (s1.postAll (s1.answerEventsBeforeFault o)).enterFault cause
  | none => s1.answerEnd o

/-- The occurrence of slot 3 ends, in a state that acts on it (R39). -/
def State.answerEnds (s : State) : Bool := s.endsAt (· == 3) && s.control.state.onTrunk

/-- ANSWER_SLOT_END (R143). -/
def execAnswerSlotEnd (heard : SlotBits) (s : State) : Host.Outcome State Fault Refusal :=
  if s.answerEnds then .next (s.endAnswerSlot heard) else .next s

/-- The contending answer loses its contention for the 32nd time at this slot 3 end, no fault found (R167). -/
def State.dropsAnswer (s : State) (bits : SlotBits) : Bool :=
  let o := s.occurrence bits
  s.answerEnds && (o.outcome != some .sent) && (s.faultIn o).isNone &&
    (match s.contendingAnswer with
     | none => false
     | some a => decide (Config.answerExpiry ≤ a.lost + 1))

/-- ANSWER_DROPPED (R167): the head answer's lost count reaches 32 and it is removed (log 2). -/
def execAnswerDropped (heard : SlotBits) (s : State) : Host.Outcome State Fault Refusal :=
  if s.dropsAnswer heard then .next (s.endAnswerSlot heard) else .next s

end Sys2Proof.Machine
end

