-- ==== Sys2Proof/Machine/DataSlotStart.lean ====
section
/-! DEFINITION. The start of a data slot: DATA_SLOT_START and its named cases TAIL_RESEND and JOB_NO_ANSWER. The table
fixes the word that the slot's role supplies (R77, R114, R137 to R142). -/

namespace Sys2Proof.Machine

/-! ### STREAM (R114) -/

/-- Channel `c` supplies the word of its bound slot `n`: DATA with the oldest sample, or FILL and an underrun (R114). -/
def State.streamSupply (s : State) (c n : Nat) : State × SlotWord × List Event :=
  match (s.txAt c).queue with
  | v :: vs => (s.setTx c { s.txAt c with queue := vs }, dataWord s.self v, [])
  | [] =>
    (s.setTx c { s.txAt c with underrun := satSucc 65535 (s.txAt c).underrun, starved := true }, fillWord s.self,
      if (s.txAt c).starved then []
      else [{ Event.of .txStarved s.timer.frame with
              channel := some c, slot := some n, count := some (satSucc 65535 (s.txAt c).underrun) }])

/-! ### BULK (R137, R139, R142) -/

/-- The word of a SENDING job and the job after the word is fixed, by the first line of R139's table that applies. -/
def State.jobWord (s : State) (j : Job) : Job × SlotWord :=
  if j.headDue then
    ({ j with headDue := false }, headWord s.self j.dest j.window (decide (0 < j.next) || j.resume) j.next)
  else if j.next < j.length then
    ({ j with next := j.next + 1 }, bulkWord s.self (s.buffer.read (j.base + j.next)))
  else ({ j with state := .awaitAnswer, timer := 0 }, tailWord s.self j.length)

/-- The QUEUED job earliest in posting order (R137). -/
def State.oldestQueued (s : State) : Option Job := s.jobs.find? (fun j => j.state == .queued)

/-- The arbiter for a BULK slot with no job: the oldest QUEUED job takes the slot and sends, or FILL (R137). -/
def State.arbitrate (s : State) (n : Nat) : State × SlotWord :=
  match s.oldestQueued with
  | some j =>
    let x := s.jobWord { j with state := .sending, slot := some n }
    (s.setJob x.1, x.2)
  | none => (s, fillWord s.self)

/-- The bulk sender supplies the word of BULK slot `n` (R137, R139, R142). -/
def State.bulkSupply (s : State) (n : Nat) : State × SlotWord × List Event :=
  match s.assignedJob n with
  | none => ((s.arbitrate n).1, (s.arbitrate n).2, [])
  | some j =>
    if j.state = .awaitAnswer then
      if j.timer < Config.answerWait then (s.setJob { j with timer := j.timer + 1 }, fillWord s.self, [])
      else if j.resends < Config.tailResends then
        (s.setJob { j with resends := j.resends + 1, timer := 0 }, tailWord s.self j.length, [])
      else
        let s1 := s.setJob (j.finish .failed .noAnswer)
        ((s1.arbitrate n).1, (s1.arbitrate n).2, [j.failedEvent s.timer.frame .noAnswer j.length])
    else (s.setJob (s.jobWord j).1, (s.jobWord j).2, [])

/-! ### The supplier of an own slot (R77) -/

/-- The word of own slot `n`, by its role (R77). -/
def State.supply (s : State) (n : Nat) : State × SlotWord × List Event :=
  match (s.entry n).role with
  | some (.stream c) => s.streamSupply c n
  | some .bulk => s.bulkSupply n
  | some .spare => (s, fillWord s.self, [])
  | none => (s, fillWord s.self, [])

/-- The buffer address the bulk sender reads at the start of an occurrence of own slot `n`, if it reads one (R140). -/
def Job.reads (j : Job) : Option Nat :=
  if j.headDue = false ∧ j.next < j.length then some (j.base + j.next) else none

/-- The address read by the job that a BULK slot is served with (R137, R140): the assigned job, or the job that the
arbiter assigns. -/
def State.supplyReads (s : State) (n : Nat) : Option Nat :=
  if (s.entry n).role = some .bulk then
    match s.assignedJob n with
    | some j =>
      if j.state = .awaitAnswer then
        if j.timer < Config.answerWait ∨ j.resends < Config.tailResends then none
        else (s.setJob (j.finish .failed .noAnswer)).oldestQueued.bind Job.reads
      else j.reads
    | none => s.oldestQueued.bind Job.reads
  else none

/-- Slot `n` is served by self: own, in MEMBER or LEAVING (R77). -/
def State.serves (s : State) (n : Nat) : Bool := s.control.state.serving && s.isOwn n

/-- The start of an occurrence of data slot `n` (R77). -/
def State.startDataSlot (s : State) (n : Nat) : State :=
  if s.serves n then
    ((s.supply n).1.postAll (s.supply n).2.2).beginWith (some (s.supply n).2.1)
  else s.beginWith none

/-- The start of a data slot as an outcome: a job's read outside buffer memory is a fault (log 19). -/
def State.dataStart (s : State) (n : Nat) : Host.Outcome State Fault Refusal :=
  match (if s.serves n then s.supplyReads n else none) with
  | some a => if a < Config.bufferWords then .next (s.startDataSlot n) else .fault (.bufferAddress a)
  | none => .next (s.startDataSlot n)

/-- The data slot whose occurrence may start. -/
def State.startingSlot (s : State) : Option Nat :=
  if s.startsAt (isDataSlot s.len) then s.timer.position else none

/-- DATA_SLOT_START (R77). -/
def execDataSlotStart (s : State) : Host.Outcome State Fault Refusal :=
  match s.startingSlot with
  | some n => s.dataStart n
  | none => .next s

/-- The AWAIT_ANSWER job of the starting BULK slot whose answer timer has reached 16 (R142). -/
def State.waitedOut (s : State) : Option Job :=
  match s.startingSlot with
  | none => none
  | some n =>
    if s.serves n = true ∧ (s.entry n).role = some .bulk then
      match s.assignedJob n with
      | none => none
      | some j => if j.state = .awaitAnswer ∧ Config.answerWait ≤ j.timer then some j else none
    else none

/-- TAIL_RESEND (R142): the occurrence at which an AWAIT_ANSWER job resends its TAIL (log 2). -/
def execTailResend (s : State) : Host.Outcome State Fault Refusal :=
  match s.waitedOut, s.startingSlot with
  | some j, some n => if j.resends < Config.tailResends then s.dataStart n else .next s
  | _, _ => .next s

/-- JOB_NO_ANSWER (R142): the occurrence at which an AWAIT_ANSWER job fails with NO_ANSWER (log 2). -/
def execJobNoAnswer (s : State) : Host.Outcome State Fault Refusal :=
  match s.waitedOut, s.startingSlot with
  | some j, some n => if j.resends < Config.tailResends then .next s else s.dataStart n
  | _, _ => .next s

end Sys2Proof.Machine
end

