-- ==== Sys2Proof/Machine/DataSlotEnd.lean ====
section
/-! DEFINITION. The end of a data slot: DATA_SLOT_END and its named cases SLOT_LAPSED and WINDOW_STALLED. The table
(chapter 5), the roster in JOINING (R66), the receive channels (R120) and the windows (chapter 9) act on the heard word
and self's outcome. -/

namespace Sys2Proof.Machine

/-! ### The allocation table (R74 to R79, R83) -/

/-- The last heard kind of a heard word (R70). -/
def Heard.last : Heard → LastHeard
  | .silent => .silent
  | .corrupt => .corrupt
  | .valid w => .kind w.kind

/-- Steps 1 and 2 of R74: the last heard kind, and the corrupt count for a CORRUPT word or a DISTURBED outcome. -/
def SlotEntry.noted (e : SlotEntry) (o : Occurrence) : SlotEntry :=
  { e with
    lastKind := some o.heard.last
    corrupt := if o.heard = .corrupt ∨ o.outcome = some .disturbed then satSucc 255 e.corrupt else e.corrupt }

/-- The data-kind word heard, if any, malformed or not. -/
def Heard.dataKind (h : Heard) : Option SlotWord :=
  match h with
  | .valid w => if w.kind.isDataKind then some w else none
  | .silent => none
  | .corrupt => none

/-- The owner recorded in the observation frame (R83). -/
def SlotEntry.recorded (e : SlotEntry) (o : Occurrence) : SlotEntry :=
  { e with owner := o.heard.dataKind.map SlotWord.sender, silence := 0 }

/-- Step 4 of R74: silence run and lapse of slot `o.slot` (R75). -/
def State.silenceStep (s : State) (o : Occurrence) : State × List Event :=
  let e := s.entry o.slot
  match e.owner with
  | none => (s, [])
  | some k =>
    if o.heard = .silent then
      if e.silence + 1 < Config.lapseRun then (s.setEntry o.slot { e with silence := e.silence + 1 }, [])
      else (s.freeSlot o.slot, [{ Event.of .slotLapsed o.frame with slot := some o.slot, station := some k }])
    else (s.setEntry o.slot { e with silence := 0 }, [])

/-- Step 5 of R74: owner-tag correction in an occurrence in which self did not drive (R76). It neither gives a slot to
self nor takes one from self. -/
def State.correct (s : State) (o : Occurrence) : State × List Event :=
  match o.heard.dataKind with
  | none => (s, [])
  | some w =>
    let e := s.entry o.slot
    if e.owner = some w.sender ∨ w.sender = s.self ∨ e.owner = some s.self then (s, [])
    else if s.isPresent w.sender then
      (s.setEntry o.slot { e with owner := some w.sender, silence := 0 },
        [{ Event.of .slotCorrected o.frame with
           slot := some o.slot, station := some w.sender, result := e.owner.map EventResult.number }])
    else (s.countStray w.sender, [])

/-- SLOT_LOST (R79). -/
def slotLost (o : Occurrence) (owner : Option Nat) : Event :=
  { Event.of .slotLost o.frame with slot := some o.slot, station := owner, result := some .displaced }

/-- Step 6 of R74 for a DISPLACED outcome: self loses the slot (R79). -/
def State.loseSlot (s : State) (o : Occurrence) : State × List Event :=
  let e := s.entry o.slot
  match o.heard.dataKind with
  | none => (s.freeSlot o.slot, [slotLost o none])
  | some w =>
    if s.isPresent w.sender then
      ((s.setEntry o.slot { e with owner := some w.sender, silence := 0, role := none }).lossNotice e.role o.slot,
        [slotLost o (some w.sender)])
    else ((s.freeSlot o.slot).countStray w.sender, [slotLost o none])

/-- Steps 4 to 6 of R74. -/
def State.ownerSteps (s : State) (o : Occurrence) : State × List Event :=
  match o.outcome with
  | none => (((s.silenceStep o).1.correct o).1, (s.silenceStep o).2 ++ ((s.silenceStep o).1.correct o).2)
  | some .displaced =>
    if s.isOwn o.slot then (((s.silenceStep o).1.loseSlot o).1, (s.silenceStep o).2 ++ ((s.silenceStep o).1.loseSlot o).2)
    else s.silenceStep o
  | some .sent => s.silenceStep o
  | some .disturbed => s.silenceStep o

/-- The allocation table at the end of a data slot (R74). -/
def State.tableEnd (s : State) (o : Occurrence) : State × List Event :=
  let s1 := s.setEntry o.slot ((s.entry o.slot).noted o)
  if s.control.observing then (s1.setEntry o.slot ((s1.entry o.slot).recorded o), []) else s1.ownerSteps o

/-! ### The roster in JOINING (R66) -/

/-- PRESENT marking from a heard owner tag in JOINING (R66). -/
def State.markPresent (s : State) (o : Occurrence) : State × List Event :=
  if s.control.state = .joining then
    match o.heard.dataKind with
    | none => (s, [])
    | some w =>
      if w.sender = s.self ∨ s.isPresent w.sender = true then (s, [])
      else
        (s.setRoster w.sender { s.rosterEntry w.sender with present := true, missed := 0, held := none, eligible := none },
          [{ Event.of .stationJoined o.frame with station := some w.sender }])
  else (s, [])

/-- Roster and table at the end of a data slot, in either order (R67), which shows in JOINING alone: the state, and what
roster and table post. -/
def State.rosterAndTable (s : State) (o : Occurrence) : State × List Event × List Event :=
  if s.control.state = .joining ∧ s.choice 4101 = true then
    (((s.markPresent o).1.tableEnd o).1, (s.markPresent o).2, ((s.markPresent o).1.tableEnd o).2)
  else
    (((s.tableEnd o).1.markPresent o).1, ((s.tableEnd o).1.markPresent o).2, (s.tableEnd o).2)

/-! ### Receive channels (R120, R121) -/

/-- What an occurrence of its source slot gives a receive channel (R120): an entry, a mismatch, or nothing. -/
inductive Taken where
  | entry (c : RxContent)
  | mismatch
  | nothing
  deriving DecidableEq, Repr

/-- The decision of a binding on a heard word (R120). -/
def Binding.takes (b : Binding) (h : Heard) : Taken :=
  match h with
  | .valid w =>
    match w.kind with
    | .data => if b.expected = none ∨ b.expected = some w.sender then .entry (.value w.body) else .mismatch
    | .fill => if b.gaps then .entry (.gap .fill) else .nothing
    | .mark => if b.gaps then .entry (.gap .other) else .nothing
    | .roll => if b.gaps then .entry (.gap .other) else .nothing
    | .claim => if b.gaps then .entry (.gap .other) else .nothing
    | .answer => if b.gaps then .entry (.gap .other) else .nothing
    | .head => if b.gaps then .entry (.gap .other) else .nothing
    | .tail => if b.gaps then .entry (.gap .other) else .nothing
    | .bulk => if b.gaps then .entry (.gap .other) else .nothing
  | .silent => if b.gaps then .entry (.gap .silent) else .nothing
  | .corrupt => if b.gaps then .entry (.gap .corrupt) else .nothing

/-- An entry added to a channel's queue, by its overflow policy when the queue is full (R121). -/
def RxChannel.add (r : RxChannel) (p : Policy) (e : RxEntry) : RxChannel :=
  if r.queue.length < Config.channelCapacity then { r with queue := r.queue ++ [e] }
  else
    { r with
      queue := (match p with
        | .keepNewest => r.queue.tail ++ [e]
        | .keepOldest => r.queue)
      overrun := satSucc 65535 r.overrun
      overrunFlag := true }

/-- A receive channel at the end of a data slot (R120, R121). -/
def RxChannel.hear (r : RxChannel) (o : Occurrence) : RxChannel :=
  match r.binding with
  | none => r
  | some b =>
    if b.slot = o.slot then
      match b.takes o.heard with
      | .entry c => r.add b.policy { frame := o.frame, content := c }
      | .mismatch => { r with mismatch := satSucc 65535 r.mismatch }
      | .nothing => r
    else r

/-- RX_OVERRUN of channel `c`: the overrun flag goes from clear to set (R121). At the end of slot L - 1 it carries the frame
number of the frame that ends there: DESIGN CHOICE (log 38). -/
def RxChannel.overrunEvents (r : RxChannel) (o : Occurrence) (c : Nat) : List Event :=
  if (r.hear o).overrunFlag = true ∧ r.overrunFlag = false then
    [{ Event.of .rxOverrun o.frame with channel := some c, slot := some o.slot, count := some (r.hear o).overrun }]
  else []

/-! ### Windows (R157 to R165) -/

/-- What one window does with an occurrence: its new value, the buffer word it writes, the answer it calls for (target,
verdict and count, R166), and what it posts. -/
structure WindowAct where
  window : Window
  write : Option (Nat × DataWord)
  answer : Option (Nat × Verdict × Nat)
  events : List Event
  deriving DecidableEq, Repr

/-- The window stays as it is. -/
def Window.idle (x : Window) : WindowAct := { window := x, write := none, answer := none, events := [] }

/-- The window stays as it is and answers. -/
def Window.answers (x : Window) (k : Nat) (v : Verdict) (count : Nat) : WindowAct :=
  { window := x, write := none, answer := some (k, v, count), events := [] }

/-- A HEAD at an offset at or below the count, from the window's sender, resumes the block there (R159). -/
def Window.resumeAt (x : Window) (slot offset : Nat) : Window :=
  { x with state := .receiving, senderSlot := some slot, count := offset, stall := 0, origin := none }

/-- A HEAD at an offset above the count, or a missed word, puts the window in GAP (R159, R162 to R164). -/
def Window.toGap (x : Window) : Window := { x with state := .gap, stall := 0, origin := none }

/-- A HEAD with destination self that names window `n`, in RECEIVING, GAP or STALLED (R159). -/
def Window.headInBlock (x : Window) (n : Nat) (o : Occurrence) (w : SlotWord) : WindowAct :=
  if x.sender = some w.sender then
    if w.headOffset ≤ x.count then
      { window := x.resumeAt o.slot w.headOffset, write := none, answer := none,
        events := if w.headResume = false ∧ w.headOffset = 0 then
          [x.event .windowRestarted o.frame n x.count] else [] }
    else ({ x.toGap with senderSlot := some o.slot } : Window).answers w.sender .rewind x.count
  else x.answers w.sender (.refuse .busy) x.count

/-- A HEAD with destination self that names window `n`, from station k (R158 to R160). -/
def Window.head (x : Window) (n : Nat) (o : Occurrence) (w : SlotWord) : WindowAct :=
  match x.state with
  | .closed => x.answers w.sender (.refuse .closed) x.count
  | .failed => x.answers w.sender (.refuse .closed) x.count
  | .opened =>
    if x.allowed ≠ none ∧ x.allowed ≠ some w.sender then x.answers w.sender (.refuse .sender) x.count
    else if w.headOffset = 0 then
      ({ x with state := .receiving, sender := some w.sender, senderSlot := some o.slot, count := 0, stall := 0 } : Window).idle
    else x.answers w.sender .rewind 0
  | .receiving => x.headInBlock n o w
  | .gap => x.headInBlock n o w
  | .stalled => x.headInBlock n o w
  | .complete =>
    if x.sender = some w.sender ∧ w.headResume = true ∧ x.recorded = some w.headOffset then
      ({ x with senderSlot := some o.slot } : Window).answers w.sender .done w.headOffset
    else x.answers w.sender (.refuse .busy) x.count

/-- The sender withdraws the sender slot with a HEAD for another window or another station (R161). -/
def Window.withdrawn (x : Window) (n : Nat) (o : Occurrence) : WindowAct :=
  match x.state with
  | .receiving =>
    { window := { x with senderSlot := none, state := .stalled, origin := some .gap }, write := none, answer := none,
      events := [x.event .windowStalled o.frame n x.count] }
  | .gap =>
    { window := { x with senderSlot := none, state := .stalled, origin := some .gap }, write := none, answer := none,
      events := [x.event .windowStalled o.frame n x.count] }
  | .stalled => ({ x with senderSlot := none, origin := some .gap } : Window).idle
  | .complete => ({ x with senderSlot := none } : Window).idle
  | .closed => x.idle
  | .opened => x.idle
  | .failed => x.idle

/-- A stall occurrence of a window in RECEIVING or GAP (R165). -/
def Window.stallOnce (x : Window) (n : Nat) (o : Occurrence) : WindowAct :=
  let go (origin : StallOrigin) : WindowAct :=
    if x.stall + 1 < Config.stallLimit then ({ x with stall := x.stall + 1 } : Window).idle
    else
      { window := { x with state := .stalled, stall := Config.stallLimit, origin := some origin }, write := none,
        answer := none, events := [x.event .windowStalled o.frame n x.count] }
  match x.state with
  | .receiving => go .receiving
  | .gap => go .gap
  | .stalled => x.idle
  | .closed => x.idle
  | .opened => x.idle
  | .complete => x.idle
  | .failed => x.idle

/-- RECEIVING, or STALLED with stall origin RECEIVING: no word has been missed (R162, R163, R164). -/
def Window.inStep (x : Window) : Bool :=
  x.state == .receiving || (x.state == .stalled && x.origin == some .receiving)

/-- The window fails by OVERRUN (R162, R163); its stall count stays as it stands there, 0 after a TAIL (R165, log 20). -/
def Window.overruns (x : Window) (n : Nat) (o : Occurrence) (k : Nat) : WindowAct :=
  { window := { x with state := .failed, origin := none, cause := some .overrun }, write := none,
    answer := some (k, .refuse .overrun, x.count),
    events := [{ x.event .windowFailed o.frame n x.count with result := some (.window .overrun) }] }

/-- A BULK word from the window's sender in its sender slot (R162). -/
def Window.bulk (x : Window) (n : Nat) (o : Occurrence) (w : SlotWord) : WindowAct :=
  if x.inStep then
    if x.count < x.capacity.getD 0 then
      { window := { x with state := .receiving, count := x.count + 1, stall := 0, origin := none },
        write := some (x.base.getD 0 + x.count, w.body), answer := none, events := [] }
    else x.overruns n o w.sender
  else if x.state = .gap then x.stallOnce n o
  else x.toGap.answers w.sender .rewind x.count

/-- R163's table on a TAIL, not malformed, from the window's sender in its sender slot. -/
def Window.tailByState (x : Window) (n : Nat) (o : Occurrence) (w : SlotWord) : WindowAct :=
  if x.state = .complete then
    if x.recorded = some w.tailLength then x.answers w.sender .done w.tailLength
    else x.answers w.sender (.refuse .busy) x.count
  else if x.inStep then
    if x.count = w.tailLength then
      { window := { x with state := .complete, recorded := some w.tailLength, origin := none }, write := none,
        answer := some (w.sender, .done, w.tailLength),
        events := [x.event .windowComplete o.frame n w.tailLength] }
    else if x.count < w.tailLength then x.toGap.answers w.sender .rewind x.count
    else x.overruns n o w.sender
  else x.toGap.answers w.sender .rewind x.count

/-- A TAIL that R163 acts on is an accepted word: it sets the stall count to 0 in every line of the table (R165). -/
def Window.tail (x : Window) (n : Nat) (o : Occurrence) (w : SlotWord) : WindowAct :=
  ({ x with stall := 0 } : Window).tailByState n o w

/-- A CORRUPT occurrence of the sender slot (R164). -/
def Window.corruptWord (x : Window) (n : Nat) (o : Occurrence) : WindowAct :=
  if x.inStep then x.toGap.answers (x.sender.getD 0) .rewind x.count
  else if x.state = .gap then x.stallOnce n o
  else x.idle

/-- The window is in RECEIVING, GAP, STALLED or COMPLETE. -/
def Window.hasSender (x : Window) : Bool :=
  match x.state with
  | .closed => false
  | .opened => false
  | .receiving => true
  | .gap => true
  | .stalled => true
  | .complete => true
  | .failed => false

/-- A word other than a HEAD from the sender and other than a HEAD with destination self, heard in the sender slot of
window `n` (R162 to R165). -/
def Window.follow (x : Window) (n : Nat) (o : Occurrence) : WindowAct :=
  match o.heard with
  | .silent => x.stallOnce n o
  | .corrupt => x.corruptWord n o
  | .valid w =>
    if x.sender = some w.sender ∧ w.kind = .bulk ∧ x.state ≠ .complete then x.bulk n o w
    else if x.sender = some w.sender ∧ w.kind = .tail ∧ w.malformed = false then x.tail n o w
    else x.stallOnce n o

/-- Window `n` at the end of a data slot, by R157's table. On a HEAD with destination self that carries self's address,
which is heard with outcome DISTURBED where it is no fault (R52), no window acts. -/
def Window.act (x : Window) (n : Nat) (o : Occurrence) (self : Nat) : WindowAct :=
  let inSlot := x.hasSender && x.senderSlot == some o.slot
  match o.heard.acceptable .head with
  | some w =>
    if w.headDest = self ∧ w.sender = self then x.idle
    else if w.headDest = self ∧ w.headWindow = n then
      let a := x.head n o w
      if x.sender ≠ some w.sender ∧ inSlot = true ∧ Config.foreignHeadStalls = true then
        { a with window := (a.window.stallOnce n o).window, events := a.events ++ (a.window.stallOnce n o).events }
      else a
    else if inSlot = true ∧ x.sender = some w.sender then x.withdrawn n o
    else if inSlot then
      if w.headDest = self then (if Config.foreignHeadStalls then x.stallOnce n o else x.idle) else x.stallOnce n o
    else x.idle
  | none => if inSlot then x.follow n o else x.idle

/-- The answer queue takes the answer that window `n` calls for: in place of the window's pending answer, else at the
tail (R166). -/
def AnswerQueue.put (q : AnswerQueue) (a : Answer) : AnswerQueue :=
  if q.answers.any (fun x => x.window == a.window) then
    { q with answers := q.answers.map (fun x => if x.window = a.window then a else x) }
  else { q with answers := q.answers ++ [a] }

/-- The effect of what window `n` does: the window, the buffer word, the answer. -/
def State.applyAct (s : State) (n : Nat) (a : WindowAct) : State :=
  { s.setWindow n a.window with
    buffer := (match a.write with
      | some x => s.buffer.write x.1 x.2
      | none => s.buffer)
    answers := (match a.answer with
      | some x => s.answers.put { window := n, target := x.1, verdict := x.2.1, count := x.2.2, lost := 0 }
      | none => s.answers) }

/-- What window `n` does with the occurrence. -/
def State.windowAct (s : State) (o : Occurrence) (n : Nat) : WindowAct := (s.windowAt n).act n o s.self

/-- The bulk receiver at the end of a data slot, window by window in window-number order (R157). -/
def State.windowsEnd (s : State) (o : Occurrence) : State :=
  windowIds.foldl (fun t n => t.applyAct n (s.windowAct o n)) s

/-- The buffer addresses that the windows write at the end of the occurrence. -/
def State.windowWrites (s : State) (o : Occurrence) : List Nat :=
  windowIds.filterMap (fun n => (s.windowAct o n).write.map Prod.fst)

/-! ### The end of a data slot -/

/-- What the four windows post (R151), one list for each. -/
def State.windowEvents (s : State) (o : Occurrence) : List (List Event) :=
  windowIds.map (fun n => (s.windowAct o n).events)

/-- The end of a data slot in JOINING, MEMBER or LEAVING, no fault found (R9, R74, R120, R157, R177). At the
end of slot L - 1 every event is posted before R17's advance, and so carries the number of the frame that ends there: DESIGN
CHOICE (log 38). -/
def State.dataEnd (s : State) (o : Occurrence) : State :=
  let t := s.rosterAndTable o
  let heard : State := { t.1 with rx := t.1.rx.map (fun r => r.hear o) }
  let acted := if s.control.state.serving then heard.windowsEnd o else heard
  let windowPosts := if s.control.state.serving then s.windowEvents o else []
  ((acted.postGroups 0
      ([t.2.1, t.2.2, s.offSlotEvents o] ++ channelIds.map (fun c => (s.rxAt c).overrunEvents o c) ++ windowPosts)).passOn
    o).nextHappening

/-- The receive channels that take the occurrence before the fault (R54, R129): each of them or not. -/
def State.hearBeforeFault (s : State) (o : Occurrence) : State :=
  channelIds.foldl (fun t c => if s.choice (4104 + c) then t.setRx c ((s.rxAt c).hear o) else t) s

/-- What the blocks that take the occurrence before the fault post (R54): receive channels and windows (log 16). -/
def State.dataEventsBeforeFault (s : State) (o : Occurrence) : List (List Event) :=
  channelIds.map (fun c => if s.choice (4104 + c) then (s.rxAt c).overrunEvents o c else []) ++
    (if s.control.state.serving && s.choice 4102 then s.windowEvents o else [])

/-- The end of a data slot (R74, R52, R54). A fault found at the end of slot L - 1 keeps the frame number of the frame that
ends there: the entry into FAULT comes in place of R17's advance, a DESIGN CHOICE (log 36). -/
def State.endDataSlot (s : State) (bits : SlotBits) : State :=
  let o := s.occurrence bits
  let s1 := s.portEnd bits
  match s1.faultIn o with
  | some cause => ((s1.hearBeforeFault o).postGroups 2048 (s1.dataEventsBeforeFault o)).enterFault cause
  | none => s1.dataEnd o

/-- The occurrence of a data slot ends, in a state that acts on it (R39). -/
def State.dataEnds (s : State) : Bool := s.endsAt (isDataSlot s.len) && s.control.state.onTrunk

/-- The first address outside buffer memory that a window would write (log 19). -/
def State.strayWrite (s : State) (bits : SlotBits) : Option Nat :=
  if s.control.state.serving = true ∧ (s.faultIn (s.occurrence bits)).isNone = true then
    (s.windowWrites (s.occurrence bits)).find? (fun a => decide (Config.bufferWords ≤ a))
  else none

/-- The end of a data slot as an outcome: a window's write outside buffer memory is a fault (log 19). -/
def State.dataFinish (s : State) (bits : SlotBits) : Host.Outcome State Fault Refusal :=
  match s.strayWrite bits with
  | some a => .fault (.bufferAddress a)
  | none => .next (s.endDataSlot bits)

/-- DATA_SLOT_END (R74). -/
def execDataSlotEnd (heard : SlotBits) (s : State) : Host.Outcome State Fault Refusal :=
  if s.dataEnds then s.dataFinish heard else .next s

/-- The data slot end at which the slot's silence run reaches 8, outside the observation frame (R75). -/
def State.lapses (s : State) (bits : SlotBits) : Bool :=
  let o := s.occurrence bits
  s.dataEnds && !s.control.observing && o.heard == .silent && (s.entry o.slot).owner.isSome &&
    decide (Config.lapseRun ≤ (s.entry o.slot).silence + 1)

/-- SLOT_LAPSED (R75): a slot whose silence run reaches 8 is freed (log 2). -/
def execSlotLapsed (heard : SlotBits) (s : State) : Host.Outcome State Fault Refusal :=
  if s.lapses heard then s.dataFinish heard else .next s

/-- The data slot end at which some window's stall count reaches 64 (R165). -/
def State.stallsWindow (s : State) (bits : SlotBits) : Bool :=
  let o := s.occurrence bits
  s.dataEnds && s.control.state.serving && (s.faultIn o).isNone &&
    windowIds.any (fun n => (s.windowAct o n).window.state == .stalled &&
      ((s.windowAt n).state == .receiving || (s.windowAt n).state == .gap) && (s.windowAct o n).window.senderSlot.isSome)

/-- WINDOW_STALLED (R165): a window's stall count reaches 64 (log 2). -/
def execWindowStalled (heard : SlotBits) (s : State) : Host.Outcome State Fault Refusal :=
  if s.stallsWindow heard then s.dataFinish heard else .next s

end Sys2Proof.Machine
end

