-- ==== Sys2Proof/WellFormed.lean ====
section
/-! DEFINITION. Which commands can be spelled: every operand of a transaction fits its field of the request record
(R186, R187). A command need not be in range to be well formed: a value that its field can carry and its rule does not
allow is refused by the rule. -/

namespace Sys2Proof

/-- The operand is SLOT n with n in 7 bits, ANY, or an undefined request code (R186, R187). -/
def ClaimArg.wf : ClaimArg → Bool
  | .slot n => decide (n < 128)
  | .any => true
  | .undefined code => code == 0 || code == 3

/-- The operand has a 4-bit role code (R186): 0 absent, 1 SPARE, 2 BULK, 8 + c STREAM(c), 3 to 7 undefined. -/
def RoleArg.wf : RoleArg → Bool
  | .absent => true
  | .spare => true
  | .bulk => true
  | .stream c => decide (c < 8)
  | .undefined code => decide (3 ≤ code ∧ code ≤ 7)

/-- A frame length with a length code of the MARK body (R185); 0 stands for the undefined code. -/
def lengthWf (len : Nat) : Bool := len == 0 || len == 24 || len == 48 || len == 96

/-- An optional station operand in 5 bits, where the value 0 marks it absent (R186). -/
def stationArgWf : Option Nat → Bool
  | none => true
  | some k => decide (0 < k ∧ k < 32)

/-- The transaction kind code of a header word 1 (R187). -/
def headerKind (h : PortWord) : Nat := h.toNat / 2 ^ 20

/-- The command code of a header word 1 (R187). -/
def headerCommand (h : PortWord) : Nat := h.toNat / 2 ^ 14 % 64

/-- The count field of a header word 1 (R187). -/
def headerCount (h : PortWord) : Nat := h.toNat / 2 ^ 7 % 128

/-- A header that cannot fix a length (R171, R187): an undefined kind, an undefined command code, a PUSH count outside
1 to 16 or a MEMORY_WRITE count outside 1 to 64. -/
def headerUndefined (h : PortWord) : Bool :=
  headerKind h == 0 || decide (8 ≤ headerKind h) ||
  (headerKind h == 1 && (headerCommand h == 0 || decide (21 ≤ headerCommand h))) ||
  (headerKind h == 2 && !decide (1 ≤ headerCount h ∧ headerCount h ≤ 16)) ||
  (headerKind h == 4 && !decide (1 ≤ headerCount h ∧ headerCount h ≤ 64))

/-- The command can be spelled: for a transaction, by a request record of R187. The events carry words of fixed width,
which are always in form. -/
def Instr.wf : Instr → Bool
  | .start addr len _ => decide (addr < 32) && lengthWf len
  | .join => true
  | .leave => true
  | .claim req priority role => req.wf && decide (priority < 4) && role.wf
  | .release n => decide (n < 128)
  | .claimCancel tag => decide (tag < 256)
  | .setRole n role => decide (n < 128) && role.wf
  | .bindRx c n expected _ _ => decide (c < 8) && decide (n < 128) && stationArgWf expected
  | .unbindRx c => decide (c < 8)
  | .channelStatus _ c => decide (c < 8)
  | .bulkPost dest win base len => decide (dest < 32) && decide (win < 4) && decide (base < 8192) && decide (len < 8192)
  | .bulkCancel id => decide (id < 4)
  | .bulkStatus id => decide (id < 4)
  | .bulkCollect id => decide (id < 4)
  | .windowOpen w base cap allowed =>
    decide (w < 4) && decide (base < 8192) && decide (cap < 8192) && stationArgWf allowed
  | .windowClose w => decide (w < 4)
  | .windowStatus w => decide (w < 4)
  | .readSlot n => decide (n < 128)
  | .readRoster a => decide (a < 32)
  | .resetPart => true
  | .push c samples => decide (c < 8) && decide (1 ≤ samples.length ∧ samples.length ≤ 16)
  | .pull c n => decide (c < 8) && decide (n < 128)
  | .memoryWrite a words => decide (a < 8192) && decide (1 ≤ words.length ∧ words.length ≤ 64)
  | .memoryRead a n => decide (a < 8192) && decide (n < 128)
  | .eventRead n => decide (n < 128)
  | .status => true
  | .undefinedHeader header => headerUndefined header
  | .targetSelectAsserted => true
  | .targetSelectReleased => true
  | .resetPartTakesHold _ => true
  | .resetLineAsserted => true
  | .resetLineReleased => true
  | .powerOnReset _ => true
  | .huntingCandidate _ => true
  | .listenWindowPasses => true
  | .markSlotStart => true
  | .markSlotEnd _ => true
  | .candidateRule _ => true
  | .escalation _ => true
  | .joiningToListen _ => true
  | .rollSlotStart => true
  | .rollSlotEnd _ => true
  | .stationLost _ => true
  | .claimSlotStart => true
  | .claimSlotEnd _ => true
  | .claimAging _ => true
  | .claimExpired _ => true
  | .answerSlotStart => true
  | .answerSlotEnd _ => true
  | .answerDropped _ => true
  | .dataSlotStart => true
  | .tailResend => true
  | .jobNoAnswer => true
  | .dataSlotEnd _ => true
  | .slotLapsed _ => true
  | .windowStalled _ => true
  | .listenWindowFrameTime => true
  | .requestWordShiftedIn _ => true
  | .replyWordShiftedOut => true

/-- Is the command a transaction of the host port (R171), as against an event? -/
def Instr.isTransaction : Instr → Bool
  | .start _ _ _ => true
  | .join => true
  | .leave => true
  | .claim _ _ _ => true
  | .release _ => true
  | .claimCancel _ => true
  | .setRole _ _ => true
  | .bindRx _ _ _ _ _ => true
  | .unbindRx _ => true
  | .channelStatus _ _ => true
  | .bulkPost _ _ _ _ => true
  | .bulkCancel _ => true
  | .bulkStatus _ => true
  | .bulkCollect _ => true
  | .windowOpen _ _ _ _ => true
  | .windowClose _ => true
  | .windowStatus _ => true
  | .readSlot _ => true
  | .readRoster _ => true
  | .resetPart => true
  | .push _ _ => true
  | .pull _ _ => true
  | .memoryWrite _ _ => true
  | .memoryRead _ _ => true
  | .eventRead _ => true
  | .status => true
  | .undefinedHeader _ => true
  | .targetSelectAsserted => false
  | .targetSelectReleased => false
  | .resetPartTakesHold _ => false
  | .resetLineAsserted => false
  | .resetLineReleased => false
  | .powerOnReset _ => false
  | .huntingCandidate _ => false
  | .listenWindowPasses => false
  | .markSlotStart => false
  | .markSlotEnd _ => false
  | .candidateRule _ => false
  | .escalation _ => false
  | .joiningToListen _ => false
  | .rollSlotStart => false
  | .rollSlotEnd _ => false
  | .stationLost _ => false
  | .claimSlotStart => false
  | .claimSlotEnd _ => false
  | .claimAging _ => false
  | .claimExpired _ => false
  | .answerSlotStart => false
  | .answerSlotEnd _ => false
  | .answerDropped _ => false
  | .dataSlotStart => false
  | .tailResend => false
  | .jobNoAnswer => false
  | .dataSlotEnd _ => false
  | .slotLapsed _ => false
  | .windowStalled _ => false
  | .listenWindowFrameTime => false
  | .requestWordShiftedIn _ => false
  | .replyWordShiftedOut => false

end Sys2Proof
end

