-- ==== Sys2Proof/Decode.lean ====
section
/-! DEFINITION. The request record of the host port (R186, R187): the transaction that the port words of a request
spell, and the words that spell a transaction. The rows of spec/opcode_table.json give no bits of their own. -/

namespace Sys2Proof

/-- What the port words shifted in so far come to (R171). -/
inductive RequestRead where
  /-- The header does not yet fix a length, or the length it fixes has not been reached. -/
  | incomplete
  /-- The request is complete and spells this transaction. -/
  | complete (i : Instr)
  deriving DecidableEq, Repr

/-- The field of `width` bits that begins `before` bits into the 48 parameter bits of header words 2 and 3 (R187). -/
def parameter (p before width : Nat) : Nat := p / 2 ^ (48 - before - width) % 2 ^ width

/-- The frame length of a length code (R185, R186); 0 for the undefined code. -/
def lengthOfCode : Nat → Nat
  | 1 => 24
  | 2 => 48
  | 3 => 96
  | _ => 0

/-- The length code of a frame length (R185). -/
def codeOfLength (len : Nat) : Nat := if len = 24 then 1 else if len = 48 then 2 else if len = 96 then 3 else 0

/-- The role of a 4-bit role code (R186). -/
def roleOfCode (code : Nat) : RoleArg :=
  if code = 0 then .absent else if code = 1 then .spare else if code = 2 then .bulk
  else if 8 ≤ code then .stream (code - 8) else .undefined code

/-- The role code of a role (R186). -/
def RoleArg.code : RoleArg → Nat
  | .absent => 0
  | .spare => 1
  | .bulk => 2
  | .stream c => 8 + c
  | .undefined code => code

/-- A 5-bit station field, where 0 marks it absent (R186). -/
def stationOfField (k : Nat) : Option Nat := if k = 0 then none else some k

/-- The claim request of its 2-bit code and 7-bit slot number (R186). -/
def claimOfFields (code n : Nat) : ClaimArg :=
  if code = 1 then .slot n else if code = 2 then .any else .undefined code

/-- The request code of CLAIM (R186). -/
def ClaimArg.code : ClaimArg → Nat
  | .slot _ => 1
  | .any => 2
  | .undefined code => code

/-- The slot number sent with a claim request, 0 for ANY (R186). -/
def ClaimArg.slotField : ClaimArg → Nat
  | .slot n => n
  | .any => 0
  | .undefined _ => 0

/-- The command of a command code and the parameter bits (R187); the code is one of 1 to 20. -/
def commandOf (code p : Nat) : Instr :=
  match code with
  | 1 => .start (parameter p 0 5) (lengthOfCode (parameter p 5 2)) (parameter p 7 1 == 1)
  | 2 => .join
  | 3 => .leave
  | 4 => .claim (claimOfFields (parameter p 0 2) (parameter p 2 7)) (parameter p 9 2) (roleOfCode (parameter p 11 4))
  | 5 => .release (parameter p 0 7)
  | 6 => .claimCancel (parameter p 0 8)
  | 7 => .setRole (parameter p 0 7) (roleOfCode (parameter p 7 4))
  | 8 => .bindRx (parameter p 0 3) (parameter p 3 7) (stationOfField (parameter p 10 5))
      (if parameter p 15 1 = 0 then .keepNewest else .keepOldest) (parameter p 16 1 == 1)
  | 9 => .unbindRx (parameter p 0 3)
  | 10 => .channelStatus (if parameter p 0 1 = 0 then .tx else .rx) (parameter p 1 3)
  | 11 => .bulkPost (parameter p 0 5) (parameter p 5 2) (parameter p 7 13) (parameter p 20 13)
  | 12 => .bulkCancel (parameter p 0 2)
  | 13 => .bulkStatus (parameter p 0 2)
  | 14 => .bulkCollect (parameter p 0 2)
  | 15 => .windowOpen (parameter p 0 2) (parameter p 2 13) (parameter p 15 13) (stationOfField (parameter p 28 5))
  | 16 => .windowClose (parameter p 0 2)
  | 17 => .windowStatus (parameter p 0 2)
  | 18 => .readSlot (parameter p 0 7)
  | 19 => .readRoster (parameter p 0 5)
  | _ => .resetPart

/-- The transaction of a defined header, its parameter bits and the words that follow the header (R187). -/
def transactionOf (h : PortWord) (p : Nat) (data : List PortWord) : Instr :=
  match headerKind h with
  | 1 => commandOf (headerCommand h) p
  | 2 => .push (parameter p 0 3) (data.take (headerCount h))
  | 3 => .pull (parameter p 0 3) (headerCount h)
  | 4 => .memoryWrite (parameter p 0 13) (data.take (headerCount h))
  | 5 => .memoryRead (parameter p 0 13) (headerCount h)
  | 6 => .eventRead (headerCount h)
  | _ => .status

/-- The words that follow the header: one per sample or memory word counted in it, for PUSH and MEMORY_WRITE alone
(R171). -/
def headerExtra (h : PortWord) : Nat :=
  if headerKind h = 2 ∨ headerKind h = 4 then headerCount h else 0

/-- What the request words so far come to (R171, R187): a header that cannot fix a length completes the request at
header word 1; any other request is complete at the length its header fixes. -/
def decodeRequest : List PortWord → RequestRead
  | [] => .incomplete
  | h :: rest =>
    if headerUndefined h then .complete (.undefinedHeader h)
    else match rest with
      | w2 :: w3 :: data =>
        if data.length < headerExtra h then .incomplete
        else .complete (transactionOf h (w2.toNat * 2 ^ 24 + w3.toNat) data)
      | _ => .incomplete

/-- The parameters of a transaction as (width, value) in the order its rule lists them (R187). -/
def Instr.parameters : Instr → List (Nat × Nat)
  | .start addr len eligible => [(5, addr), (2, codeOfLength len), (1, eligible.toNat)]
  | .claim req priority role => [(2, req.code), (7, req.slotField), (2, priority), (4, role.code)]
  | .release n => [(7, n)]
  | .claimCancel tag => [(8, tag)]
  | .setRole n role => [(7, n), (4, role.code)]
  | .bindRx c n expected policy gaps =>
    [(3, c), (7, n), (5, expected.getD 0), (1, if policy = .keepNewest then 0 else 1), (1, gaps.toNat)]
  | .unbindRx c => [(3, c)]
  | .channelStatus dir c => [(1, if dir = .tx then 0 else 1), (3, c)]
  | .bulkPost dest win base len => [(5, dest), (2, win), (13, base), (13, len)]
  | .bulkCancel id => [(2, id)]
  | .bulkStatus id => [(2, id)]
  | .bulkCollect id => [(2, id)]
  | .windowOpen w base cap allowed => [(2, w), (13, base), (13, cap), (5, allowed.getD 0)]
  | .windowClose w => [(2, w)]
  | .windowStatus w => [(2, w)]
  | .readSlot n => [(7, n)]
  | .readRoster a => [(5, a)]
  | .push c _ => [(3, c)]
  | .pull c _ => [(3, c)]
  | .memoryWrite a _ => [(13, a)]
  | .memoryRead a _ => [(13, a)]
  | _ => []

/-- The transaction kind code of a transaction (R187); for an undefined header, the code it carries. -/
def Instr.kindCode : Instr → Nat
  | .push _ _ => 2
  | .pull _ _ => 3
  | .memoryWrite _ _ => 4
  | .memoryRead _ _ => 5
  | .eventRead _ => 6
  | .status => 7
  | .undefinedHeader h => headerKind h
  | _ => 1

/-- The command code of a command (R187), 0 for a transaction of another kind. -/
def Instr.commandCode : Instr → Nat
  | .start _ _ _ => 1
  | .join => 2
  | .leave => 3
  | .claim _ _ _ => 4
  | .release _ => 5
  | .claimCancel _ => 6
  | .setRole _ _ => 7
  | .bindRx _ _ _ _ _ => 8
  | .unbindRx _ => 9
  | .channelStatus _ _ => 10
  | .bulkPost _ _ _ _ => 11
  | .bulkCancel _ => 12
  | .bulkStatus _ => 13
  | .bulkCollect _ => 14
  | .windowOpen _ _ _ _ => 15
  | .windowClose _ => 16
  | .windowStatus _ => 17
  | .readSlot _ => 18
  | .readRoster _ => 19
  | .resetPart => 20
  | _ => 0

/-- The count field of a transaction's header (R187). -/
def Instr.countField : Instr → Nat
  | .push _ samples => samples.length
  | .pull _ n => n
  | .memoryWrite _ words => words.length
  | .memoryRead _ n => n
  | .eventRead n => n
  | _ => 0

/-- The words of a transaction that follow its header (R187). -/
def Instr.dataWords : Instr → List PortWord
  | .push _ samples => samples
  | .memoryWrite _ words => words
  | _ => []

/-- Fields packed one after the other into a number, the first at the most significant end (R186, R187). -/
def packFields (fields : List (Nat × Nat)) : Nat :=
  fields.foldl (fun acc f => acc * 2 ^ f.1 + f.2 % 2 ^ f.1) 0

/-- The number of bits of a list of fields. -/
def fieldBits (fields : List (Nat × Nat)) : Nat := (fields.map Prod.fst).sum

/-- The 48 parameter bits of header words 2 and 3: packed from bit 1 of word 2, unused bits 0 (R187). -/
def Instr.parameterBits (i : Instr) : Nat := packFields i.parameters * 2 ^ (48 - fieldBits i.parameters)

/-- Header word 1 of a request (R187): kind, command code, count, and 7 bits that are not read. -/
def Instr.headerWord (i : Instr) : PortWord :=
  BitVec.ofNat 24 (i.kindCode * 2 ^ 20 + i.commandCode * 2 ^ 14 + i.countField % 128 * 2 ^ 7)

/-- The port words of a transaction's request (R187): the encoder. A request completed at header word 1 (R171) has that
word alone. -/
def requestWords (i : Instr) : List PortWord :=
  match i with
  | .undefinedHeader h => [h]
  | _ =>
    if headerUndefined i.headerWord then [i.headerWord]
    else i.headerWord :: BitVec.ofNat 24 (i.parameterBits / 2 ^ 24) :: BitVec.ofNat 24 i.parameterBits :: i.dataWords

/-- No row of spec/opcode_table.json gives bits, so no word spells a command (log 25). -/
def decodeTableWord (_nbits _w : Nat) : Option Instr := none

end Sys2Proof
end

