-- ==== Sys2Proof/Machine/Formats.lean ====
section
/-! DEFINITION. The port words of a reply (R186, R188): codes, the layout of each reply's data words, receive entries and
event records. -/

namespace Sys2Proof.Machine

/-! ### Codes (R186, R188) -/

/-- The station state code (R186). -/
def StationState.code : StationState → Nat
  | .off => 1
  | .listen => 2
  | .joining => 3
  | .member => 4
  | .leaving => 5
  | .detached => 6
  | .fault => 7

/-- The role code, 0 for an absent role (R186). -/
def roleCode : Option Role → Nat
  | none => 0
  | some .spare => 1
  | some .bulk => 2
  | some (.stream c) => 8 + c

/-- The code of a last heard kind, after its presence bit (R186). -/
def LastHeard.code : LastHeard → Nat
  | .silent => 15
  | .corrupt => 0
  | .kind k => k.code.toNat

/-- The job state code (R186). -/
def JobState.code : JobState → Nat
  | .queued => 1
  | .sending => 2
  | .awaitAnswer => 3
  | .done => 4
  | .failed => 5
  | .cancelled => 6

/-- The window state code (R186). -/
def WindowState.code : WindowState → Nat
  | .closed => 1
  | .opened => 2
  | .receiving => 3
  | .gap => 4
  | .stalled => 5
  | .complete => 6
  | .failed => 7

/-- The stall origin code, 0 for an absent one (R186). -/
def originCode : Option StallOrigin → Nat
  | none => 0
  | some .receiving => 1
  | some .gap => 2

/-- The gap reason code, 0 for an entry with a value (R186). -/
def RxContent.gapCode : RxContent → Nat
  | .value _ => 0
  | .gap .fill => 1
  | .gap .silent => 2
  | .gap .corrupt => 3
  | .gap .other => 4

/-- The value of a receive entry, 0 when a gap reason is present (R188). -/
def RxContent.valueWord : RxContent → DataWord
  | .value v => v
  | .gap _ => 0

/-- The reason code of a refusal (R188). -/
def Reason.code : Reason → Nat
  | .state => 1
  | .range => 2
  | .queueFull => 3
  | .limit => 4
  | .notHeld => 5
  | .busy => 6
  | .ownSlot => 7
  | .noSuch => 8

/-- The code of a job result (R188). -/
def JobResult.code : JobResult → Nat
  | .noAnswer => 32
  | .rewinds => 33
  | .refused r => 34 + r.code
  | .leaving => 38
  | .fault => 39
  | .done _ => 60

/-- The DONE count that follows a job result, zeros for another result or an absent one (R188, log 13). -/
def doneCount : Option JobResult → Nat
  | some (.done count) => count
  | _ => 0

/-- The code of a window failure cause (R188). -/
def WindowCause.code : WindowCause → Nat
  | .overrun => 40
  | .fault => 41

/-- The code of a CLAIM_DONE result (R188). -/
def ClaimResult.code : ClaimResult → Nat
  | .granted => 16
  | .released => 17
  | .refusedHeld => 18
  | .refusedFull => 19
  | .notHeld => 20
  | .cancelled => 21
  | .expired => 22
  | .leaving => 23
  | .fault => 24

/-- The code of a fault cause in STATE_CHANGED (R188). -/
def FaultCause.code : FaultCause → Nat
  | .duplicateAddress => 7
  | .frameLength => 8

/-- The code of a dropped answer's verdict (R188). -/
def Verdict.resultCode : Verdict → Nat
  | .done => 48
  | .rewind => 49
  | .refuse r => 50 + r.code

/-- The result or cause field of an event record (R188). -/
def EventResult.code : EventResult → Nat
  | .number n => n
  | .state st => st.code
  | .fault c => c.code
  | .claim r => r.code
  | .job r => r.code
  | .window c => c.code
  | .displaced => 42
  | .ownSlot => 43
  | .verdict v => v.resultCode

/-- The event kind code (R188). -/
def EventKind.code : EventKind → Nat
  | .holderChanged => 1
  | .markMismatch => 2
  | .markStray => 3
  | .noTrunk => 4
  | .stateChanged => 5
  | .stationJoined => 6
  | .stationLost => 7
  | .stationLeft => 8
  | .holdingsDiffer => 9
  | .rollMisplaced => 10
  | .slotLapsed => 11
  | .slotCorrected => 12
  | .slotLost => 13
  | .claimDone => 14
  | .txStarved => 15
  | .rxOverrun => 16
  | .rxUnbound => 17
  | .jobDone => 18
  | .jobFailed => 19
  | .windowComplete => 20
  | .windowRestarted => 21
  | .windowStalled => 22
  | .windowFailed => 23
  | .answerDropped => 24
  | .eventsLost => 25

/-! ### Fields and words (R186, R188) -/

/-- A field: its width and its value. A presence bit and its field are one field here, so that they stay in one word. -/
abbrev Field := Nat × Nat

/-- A yes or no field (R186). -/
def flagField (b : Bool) : Field := (1, b.toNat)

/-- An optional field behind its presence bit; an absent one is sent as zeros (R186). -/
def optField (width : Nat) : Option Nat → Field
  | none => (width + 1, 0)
  | some v => (width + 1, 2 ^ width + v % 2 ^ width)

/-- A station field, 0 when absent (R186). -/
def stationField (a : Option Nat) : Field := (5, a.getD 0)

/-- Fields packed into 24-bit words from bit 1 of the first: a field that does not fit in the rest of a word begins the
next word, and unused bits are 0 (R188). `used` bits of the present word are filled and hold `acc`. -/
def packWords : List Field → Nat → Nat → List PortWord
  | [], used, acc => if used = 0 then [] else [BitVec.ofNat 24 (acc * 2 ^ (24 - used))]
  | f :: fs, used, acc =>
    if used + f.1 ≤ 24 then packWords fs (used + f.1) (acc * 2 ^ f.1 + f.2 % 2 ^ f.1)
    else BitVec.ofNat 24 (acc * 2 ^ (24 - used)) :: packWords fs f.1 (f.2 % 2 ^ f.1)

/-- The two words of a receive entry (R188), the fields of the first from bit 1 (DEDUCED, log 34). -/
def RxEntry.words (e : RxEntry) : List PortWord :=
  packWords [(8, e.frame), (3, e.content.gapCode)] 0 0 ++ [e.content.valueWord]

/-- The presence bits of an event record, in the order of its fields (R188). -/
def Event.presence (e : Event) : List Field :=
  [flagField e.slot.isSome, flagField e.station.isSome, flagField e.channel.isSome, flagField e.job.isSome,
   flagField e.window.isSome, flagField e.tag.isSome, flagField e.result.isSome, flagField e.count.isSome]

/-- The four words of an event record (R188), the fields of each from bit 1 (DEDUCED, log 34). -/
def Event.words (e : Event) : List PortWord :=
  packWords ([(6, e.kind.code), (8, e.frame)] ++ e.presence) 0 0 ++
  packWords [(7, e.slot.getD 0), (5, e.station.getD 0), (3, e.channel.getD 0), (2, e.job.getD 0), (2, e.window.getD 0)] 0 0 ++
  packWords [(8, e.tag.getD 0), (8, (e.result.map EventResult.code).getD 0)] 0 0 ++
  packWords [(16, e.count.getD 0)] 0 0

/-- The four places of a transmit channel's bound slots, each an optional slot (R126, log 13). -/
def boundFields (slots : List Nat) : List Field := (List.range 4).map (fun i => optField 7 slots[i]?)

/-- A receive channel's binding behind its presence bit (R126, log 13). -/
def bindingFields : Option Binding → List Field
  | none => [(8, 0), (5, 0), (1, 0), (1, 0)]
  | some b => [optField 7 (some b.slot), stationField b.expected, flagField (b.policy == .keepOldest), flagField b.gaps]

/-- A job's result and DONE count (R134, R135, log 13). -/
def resultFields (r : Option JobResult) : List Field := [(8, (r.map JobResult.code).getD 0), (13, doneCount r)]

/-- A job record (R130, R134, log 13). -/
def Job.fields (j : Job) : List Field :=
  [(2, j.id), (3, j.state.code), (5, j.dest), (2, j.window), (13, j.base), (13, j.length), (13, j.next),
   flagField j.headDue, flagField j.resume, (4, j.rewinds), (3, j.resends), (5, j.timer), optField 7 j.slot] ++
  resultFields j.result

/-- A window (R151, R155, log 13). -/
def Window.fields (x : Window) : List Field :=
  [(3, x.state.code), optField 13 x.base, optField 13 x.capacity, stationField x.allowed, stationField x.sender,
   optField 7 x.senderSlot, (13, x.count), optField 13 x.recorded, (7, x.stall), (2, originCode x.origin),
   (8, (x.cause.map WindowCause.code).getD 0)]

/-- A window's pending answer behind its presence bit, with the number of answers ahead of it (R155, log 13). -/
def answerFields (a : Option Answer) (ahead : Nat) : List Field :=
  match a with
  | none => [(6, 0), (2, 0), (2, 0), (13, 0), (6, 0), (2, 0)]
  | some a =>
    [optField 5 (some a.target), (2, a.verdict.code), (2, a.verdict.reasonCode), (13, a.count), (6, a.lost), (2, ahead)]

/-- The fields of a record reply, in the order its rule lists them (R188, log 13); the replies with data words of another
form have none here. -/
def ReplyData.fields : ReplyData → List Field
  | .nothing => []
  | .tag t => [(8, t)]
  | .job id => [(2, id)]
  | .accepted n => [(5, n)]
  | .written n => [(7, n)]
  | .words ws => [(7, ws.length)]
  | .entries es => [(5, es.length)]
  | .events es left => [(4, es.length), (6, left)]
  | .status st addr len frame holder held queued records =>
    [(4, st.code), stationField addr, optField 2 (len.map codeOfLength), (8, frame), stationField holder, (5, held),
     (4, queued), (6, records)]
  | .txChannel queued bound underrun starved =>
    [(5, queued)] ++ boundFields bound ++ [(16, underrun), flagField starved]
  | .rxChannel binding held oldest overrun mismatch flag =>
    bindingFields binding ++ [(5, held), optField 8 oldest, (16, overrun), (16, mismatch), flagField flag]
  | .jobRecord j before => j.fields ++ [(2, before)]
  | .collected st result next rewinds resends =>
    [(3, st.code)] ++ resultFields result ++ [(13, next), (4, rewinds), (3, resends)]
  | .window x pending ahead => x.fields ++ answerFields pending ahead
  | .slot n e ownerSelf assigned =>
    [(7, n), stationField e.owner, flagField ownerSelf, (4, roleCode e.role), optField 2 assigned, (4, e.silence),
     (8, e.corrupt), optField 4 (e.lastKind.map LastHeard.code)]
  | .roster a isSelf e slots =>
    [(5, a), flagField isSelf, flagField e.present, (2, e.missed), optField 5 e.held,
     optField 1 (e.eligible.map Bool.toNat), optField 8 e.lastRoll, (8, e.stray), (7, slots)]

/-- The words that follow the fields: buffer words, receive entries or event records (R188). -/
def ReplyData.following : ReplyData → List PortWord
  | .words ws => ws
  | .entries es => es.flatMap RxEntry.words
  | .events es _ => es.flatMap Event.words
  | _ => []

/-- The data words of a reply (R188), the fields of every kind of reply from bit 1 of the first (DEDUCED, log 34). -/
def ReplyData.dataWords (d : ReplyData) : List PortWord := packWords d.fields 0 0 ++ d.following

/-- The status code of a reply (R188). -/
def TxResult.statusCode : TxResult → Nat
  | .done _ => 1
  | .accepted _ => 2
  | .refused _ => 3

/-- The reason field of a reply, 0 unless REFUSED (R188). -/
def TxResult.reasonField : TxResult → Nat
  | .done _ => 0
  | .accepted _ => 0
  | .refused r => r.code

/-- The data words of a reply's result; a refusal carries none (R188). -/
def TxResult.dataWords : TxResult → List PortWord
  | .done d => d.dataWords
  | .accepted d => d.dataWords
  | .refused _ => []

/-- Header word 1 of a reply (R188). -/
def Reply.header (r : Reply) : PortWord :=
  r.kind ++ BitVec.ofNat 2 r.result.statusCode ++ BitVec.ofNat 4 r.result.reasonField ++ BitVec.ofNat 8 r.frame ++ 0#6

/-- The port words of a reply (R188). -/
def Reply.words (r : Reply) : List PortWord := r.header :: r.result.dataWords

end Sys2Proof.Machine
end

