-- ==== Sys2Proof/Machine/Transaction.lean ====
section
/-! DEFINITION. The taking of a transaction (R171, R172): the judged outcome of a block becomes the part's new state and
the reply record. -/

namespace Sys2Proof.Machine

/-- The transaction kind field of the reply (R188); for an undefined kind code it is a free value (log 11). -/
def replyKind (i : Instr) : BitVec 4 :=
  if 1 ≤ i.kindCode ∧ i.kindCode ≤ 7 then BitVec.ofNat 4 i.kindCode
  else Config.undefinedKindReply (BitVec.ofNat 4 i.kindCode)

/-- The host port in REPLY: the request as shifted in, and the reply record formed at the taking with the frame number
that the frame timer held then (R170, R172). -/
def HostPort.replying (i : Instr) (words : List PortWord) (frame : Nat) (r : TxResult) (armed : Bool) : HostPort :=
  { state := .reply, request := words, reply := some { kind := replyKind i, frame := frame, result := r },
    position := 0, resetArmed := armed }

/-- The block's judgement of a transaction stands, and its reply is formed (R172). -/
def State.replyWith (s : State) (i : Instr) (words : List PortWord) (j : State × TxResult) : State :=
  { j.1 with host := HostPort.replying i words s.timer.frame j.2 j.1.host.resetArmed }

/-- A transaction is taken when its request is complete, which happens in REQUEST alone (R171, log 8). -/
def State.take (s : State) (i : Instr) (j : State × TxResult) : State :=
  if s.host.state = .request then s.replyWith i (requestWords i) j else s

/-- A refused transaction changes nothing and posts no event (R173). -/
def State.refuse (s : State) (r : Reason) : State × TxResult := (s, .refused r)

/-- A DONE reply with its data, and the state that the transaction leaves. -/
def State.doneWith (s : State) (d : ReplyData) : State × TxResult := (s, .done d)

/-! ### Ranges of operands (R173, R186) -/

/-- An optional station operand that is 1 to 30 and not self, or absent (R118, R153). -/
def State.otherStation (s : State) (a : Option Nat) : Bool :=
  match a with
  | none => true
  | some k => decide (1 ≤ k ∧ k ≤ Config.stations) && k != s.self

/-- The grant role of CLAIM that a role operand stands for (R93, R187). -/
def grantRoleOf : RoleArg → Option (Option Role)
  | .absent => some none
  | .spare => some (some .spare)
  | .bulk => some (some .bulk)
  | .stream c => if c < 8 then some (some (.stream c)) else none
  | .undefined _ => none

/-- The role of SET_ROLE that a role operand stands for; an absent role is none of its roles (R86, R187). -/
def roleOf : RoleArg → Option Role
  | .absent => none
  | .spare => some .spare
  | .bulk => some .bulk
  | .stream c => if c < 8 then some (.stream c) else none
  | .undefined _ => none

/-- An area of buffer memory: base 0 to 8191, length 1 to 4096, base plus length at most 8192 (R132, R153). -/
def areaOk (base len : Nat) : Bool :=
  decide (base < Config.bufferWords) && decide (1 ≤ len ∧ len ≤ 4096) && decide (base + len ≤ Config.bufferWords)

end Sys2Proof.Machine
end

