-- ==== Sys2Proof/Machine/BulkCommands.lean ====
section
/-! DEFINITION. The commands of the bulk sender: BULK_POST, BULK_CANCEL, BULK_STATUS and BULK_COLLECT (chapter 8, section
8.2). -/

namespace Sys2Proof.Machine

/-- The lowest-numbered free record of the job table (R132). -/
def State.freeJob (s : State) : Option Nat := [0, 1, 2, 3].find? (fun id => (s.job id).isNone)

/-- A job as BULK_POST fills it (R132). -/
def Job.posted (id dest win base len : Nat) : Job :=
  { id := id, state := .queued, dest := dest, window := win, base := base, length := len, next := 0, headDue := true,
    resume := false, rewinds := 0, resends := 0, timer := 0, slot := none, result := none }

/-- The parameters of BULK_POST are in range (R132). -/
def State.postInRange (s : State) (dest win base len : Nat) : Bool :=
  s.otherStation (some dest) && decide (win < 4) && areaOk base len

/-- BULK_POST judged (R132). -/
def State.judgeBulkPost (s : State) (dest win base len : Nat) : State × TxResult :=
  if s.control.state ≠ .member then s.refuse .state
  else if s.postInRange dest win base len = false then s.refuse .range
  else match s.freeJob with
    | none => s.refuse .queueFull
    | some id => ({ s with jobs := s.jobs ++ [Job.posted id dest win base len] }, .accepted (.job id))

/-- BULK_POST (R132). -/
def execBulkPost (dest win base len : Nat) (s : State) : Host.Outcome State Fault Refusal :=
  .next (s.take (.bulkPost dest win base len) (s.judgeBulkPost dest win base len))

/-- BULK_CANCEL judged (R133). That the cancelled job keeps answer timer, head-due and resume is a DESIGN CHOICE (log 32). -/
def State.judgeBulkCancel (s : State) (id : Nat) : State × TxResult :=
  if s.control.state = .off then s.refuse .state
  else if 4 ≤ id then s.refuse .range
  else match s.job id with
    | none => s.refuse .noSuch
    | some j =>
      if j.live = false then s.refuse .state
      else (s.setJob { j with state := .cancelled, slot := none }).doneWith .nothing

/-- BULK_CANCEL (R133). -/
def execBulkCancel (id : Nat) (s : State) : Host.Outcome State Fault Refusal :=
  .next (s.take (.bulkCancel id) (s.judgeBulkCancel id))

/-- The number of used records posted before record `id` (R134). -/
def State.postedBefore (s : State) (id : Nat) : Nat := s.jobs.findIdx (fun j => j.id == id)

/-- BULK_STATUS judged (R134). -/
def State.judgeBulkStatus (s : State) (id : Nat) : State × TxResult :=
  if s.control.state = .off then s.refuse .state
  else if 4 ≤ id then s.refuse .range
  else match s.job id with
    | none => s.refuse .noSuch
    | some j => s.doneWith (.jobRecord j (s.postedBefore id))

/-- BULK_STATUS (R134). -/
def execBulkStatus (id : Nat) (s : State) : Host.Outcome State Fault Refusal :=
  .next (s.take (.bulkStatus id) (s.judgeBulkStatus id))

/-- BULK_COLLECT judged (R135). -/
def State.judgeBulkCollect (s : State) (id : Nat) : State × TxResult :=
  if s.control.state = .off then s.refuse .state
  else if 4 ≤ id then s.refuse .range
  else match s.job id with
    | none => s.refuse .noSuch
    | some j =>
      if j.live then s.refuse .state
      else
        ({ s with jobs := s.jobs.filter (fun x => x.id != id) } : State).doneWith
          (.collected j.state j.result j.next j.rewinds j.resends)

/-- BULK_COLLECT (R135). -/
def execBulkCollect (id : Nat) (s : State) : Host.Outcome State Fault Refusal :=
  .next (s.take (.bulkCollect id) (s.judgeBulkCollect id))

end Sys2Proof.Machine
end

