-- ==== Sys2Proof/Machine/ClaimCommands.lean ====
section
/-! DEFINITION. The commands of the claim queue and of the allocation table: CLAIM, RELEASE, CLAIM_CANCEL, SET_ROLE and
READ_SLOT (chapters 5 and 6). -/

namespace Sys2Proof.Machine

/-! ### Tags and the limit (R92, R94) -/

/-- The tag an accepted record takes: the first value from the counter on, modulo 256, that no record holds (R92). -/
def ClaimQueue.nextTag (q : ClaimQueue) : Nat :=
  (((List.range 256).map (fun i => (q.tagCounter + i) % 256)).find?
    (fun t => !q.records.any (fun r => r.tag == t))).getD (q.tagCounter % 256)

/-- A record is accepted at the tail with the next tag, and the counter advances from there (R92, R93, R95). -/
def ClaimQueue.accept (q : ClaimQueue) (request : ClaimRequest) (priority : Nat) (role : Option Role) : ClaimQueue :=
  { q with
    records := q.records ++ [{ tag := q.nextTag, request := request, base := priority, effective := priority, lost := 0,
                               role := role, cancel := false }]
    tagCounter := (q.nextTag + 1) % 256 }

/-- A record that counts against the claim limit: SLOT or ANY (R94). -/
def ClaimRecord.counted (r : ClaimRecord) : Bool :=
  match r.request with
  | .slot _ => true
  | .any => true
  | .release _ => false

/-- The limit count (R94). -/
def State.limitCount (s : State) : Nat := s.holdings + (s.claims.records.filter ClaimRecord.counted).length

/-! ### CLAIM (R93) -/

/-- The request that a CLAIM operand stands for, in range (R93, R187). -/
def State.claimRequest (s : State) : ClaimArg → Option ClaimRequest
  | .slot n => if isDataSlot s.len n then some (.slot n) else none
  | .any => some .any
  | .undefined _ => none

/-- A record is accepted, and the reply carries its tag (R92). -/
def State.acceptRecord (s : State) (request : ClaimRequest) (priority : Nat) (role : Option Role) : State × TxResult :=
  ({ s with claims := s.claims.accept request priority role }, .accepted (.tag s.claims.nextTag))

/-- CLAIM judged (R93). -/
def State.judgeClaim (s : State) (req : ClaimArg) (priority : Nat) (role : RoleArg) : State × TxResult :=
  if s.control.state ≠ .member then s.refuse .state
  else if 3 < priority then s.refuse .range
  else match s.claimRequest req, grantRoleOf role with
    | some request, some granted =>
      if Config.claimCapacity ≤ s.claims.records.length then s.refuse .queueFull
      else if Config.claimLimit ≤ s.limitCount then s.refuse .limit
      else s.acceptRecord request priority granted
    | _, _ => s.refuse .range

/-- CLAIM (R93). -/
def execClaim (req : ClaimArg) (priority : Nat) (role : RoleArg) (s : State) : Host.Outcome State Fault Refusal :=
  .next (s.take (.claim req priority role) (s.judgeClaim req priority role))

/-! ### RELEASE (R95) -/

/-- RELEASE judged (R95). -/
def State.judgeRelease (s : State) (n : Nat) : State × TxResult :=
  if s.control.state ≠ .member then s.refuse .state
  else if isDataSlot s.len n = false then s.refuse .range
  else if Config.claimCapacity ≤ s.claims.records.length then s.refuse .queueFull
  else if s.isOwn n = false then s.refuse .notHeld
  else s.acceptRecord (.release n) 0 none

/-- RELEASE (R95). -/
def execRelease (n : Nat) (s : State) : Host.Outcome State Fault Refusal :=
  .next (s.take (.release n) (s.judgeRelease n))

/-! ### CLAIM_CANCEL (R96) -/

/-- The record that holds a tag (R96). -/
def ClaimQueue.withTag (q : ClaimQueue) (tag : Nat) : Option ClaimRecord := q.records.find? (fun r => r.tag == tag)

/-- The record that holds the tag is the contending head (R90). -/
def ClaimQueue.contends (q : ClaimQueue) (tag : Nat) : Bool :=
  q.contending && (q.records.head?.map ClaimRecord.tag == some tag)

/-- The contending head is marked cancel-requested (R96). -/
def ClaimQueue.markHead (q : ClaimQueue) : ClaimQueue :=
  match q.records with
  | [] => q
  | r :: rs => { q with records := { r with cancel := true } :: rs }

/-- The record that holds the tag is removed; the others keep their order (R96). -/
def ClaimQueue.remove (q : ClaimQueue) (tag : Nat) : ClaimQueue :=
  { q with records := q.records.eraseP (fun r => r.tag == tag) }

/-- CLAIM_CANCEL judged (R96). -/
def State.judgeClaimCancel (s : State) (tag : Nat) : State × TxResult :=
  if s.control.state ≠ .member then s.refuse .state
  else match s.claims.withTag tag with
    | none => s.refuse .noSuch
    | some r =>
      if s.claims.contends tag then ({ s with claims := s.claims.markHead }, .accepted (.tag tag))
      else
        (({ s with claims := s.claims.remove tag } : State).postAll
          [r.doneEvent s.timer.frame .cancelled r.request.named none]).doneWith .nothing

/-- CLAIM_CANCEL (R96). -/
def execClaimCancel (tag : Nat) (s : State) : Host.Outcome State Fault Refusal :=
  .next (s.take (.claimCancel tag) (s.judgeClaimCancel tag))

/-! ### SET_ROLE (R86) -/

/-- The role of own slot `n` becomes `r`; when it differs, the block of the old role is notified (R81, R86). -/
def State.changeRole (s : State) (n : Nat) (r : Role) : State :=
  if (s.entry n).role = some r then s
  else (s.setEntry n { s.entry n with role := some r }).lossNotice (s.entry n).role n

/-- A channel already has four slots with role STREAM(c), and slot `n` is not one of them (R86). -/
def State.channelFull (s : State) (n : Nat) : Role → Bool
  | .stream c => (s.entry n).role != some (.stream c) && decide (Config.streamSlots ≤ (s.boundSlots c).length)
  | .spare => false
  | .bulk => false

/-- SET_ROLE judged (R86). -/
def State.judgeSetRole (s : State) (n : Nat) (role : RoleArg) : State × TxResult :=
  if s.control.state.serving = false then s.refuse .state
  else if isDataSlot s.len n = false then s.refuse .range
  else match roleOf role with
    | none => s.refuse .range
    | some r =>
      if s.isOwn n = false then s.refuse .notHeld
      else if s.channelFull n r then s.refuse .limit
      else (s.changeRole n r).doneWith .nothing

/-- SET_ROLE (R86). -/
def execSetRole (n : Nat) (role : RoleArg) (s : State) : Host.Outcome State Fault Refusal :=
  .next (s.take (.setRole n role) (s.judgeSetRole n role))

/-! ### READ_SLOT (R89) -/

/-- The job reported for slot `n`: the assigned one, for role BULK (R89). -/
def State.reportedJob (s : State) (n : Nat) : Option Nat :=
  if (s.entry n).role = some .bulk then (s.assignedJob n).map Job.id else none

/-- READ_SLOT judged (R89). -/
def State.judgeReadSlot (s : State) (n : Nat) : State × TxResult :=
  if s.control.state = .off then s.refuse .state
  else if isDataSlot s.len n = false then s.refuse .range
  else s.doneWith (.slot n (s.entry n) (s.isOwn n) (s.reportedJob n))

/-- READ_SLOT (R89). -/
def execReadSlot (n : Nat) (s : State) : Host.Outcome State Fault Refusal :=
  .next (s.take (.readSlot n) (s.judgeReadSlot n))

end Sys2Proof.Machine
end

