-- ==== Sys2Proof/Machine/MemoryAndEvents.lean ====
section
/-! DEFINITION. The transactions of buffer memory and of the event queue, and the request with an undefined header:
MEMORY_WRITE, MEMORY_READ, EVENT_READ and UNDEFINED_HEADER (chapter 10). -/

namespace Sys2Proof.Machine

/-- A count of 1 to 64 words at an address that keeps them within buffer memory (R175). -/
def memoryRange (a n : Nat) : Bool :=
  decide (1 ≤ n ∧ n ≤ 64) && decide (a < Config.bufferWords) && decide (a + n ≤ Config.bufferWords)

/-- MEMORY_WRITE judged (R175). -/
def State.judgeMemoryWrite (s : State) (a : Nat) (words : List DataWord) : State × TxResult :=
  if memoryRange a words.length then
    ({ s with buffer := s.buffer.writeAll a words } : State).doneWith (.written words.length)
  else s.refuse .range

/-- MEMORY_WRITE (R175). -/
def execMemoryWrite (a : Nat) (words : List DataWord) (s : State) : Host.Outcome State Fault Refusal :=
  .next (s.take (.memoryWrite a words) (s.judgeMemoryWrite a words))

/-- MEMORY_READ judged (R175). -/
def State.judgeMemoryRead (s : State) (a n : Nat) : State × TxResult :=
  if memoryRange a n then s.doneWith (.words (s.buffer.readAll a n)) else s.refuse .range

/-- MEMORY_READ (R175). -/
def execMemoryRead (a n : Nat) (s : State) : Host.Outcome State Fault Refusal :=
  .next (s.take (.memoryRead a n) (s.judgeMemoryRead a n))

/-- The event queue without its `n` oldest records (R178). -/
def EventQueue.dropped (q : EventQueue) (n : Nat) : EventQueue :=
  { records := q.records.drop n, lost := if n ≤ q.records.length then q.lost else none }

/-- EVENT_READ judged (R178): the records returned, and the number left. -/
def State.judgeEventRead (s : State) (n : Nat) : State × TxResult :=
  if 1 ≤ n ∧ n ≤ 8 then
    ({ s with events := s.events.dropped n } : State).doneWith
      (.events (s.events.all.take n) (s.events.all.length - n))
  else s.refuse .range

/-- EVENT_READ (R178). -/
def execEventRead (n : Nat) (s : State) : Host.Outcome State Fault Refusal :=
  .next (s.take (.eventRead n) (s.judgeEventRead n))

/-- UNDEFINED_HEADER judged: refused with RANGE, and nothing else is done (R171). -/
def State.judgeUndefinedHeader (s : State) : State × TxResult := s.refuse .range

/-- UNDEFINED_HEADER (R171): the header is the first word of the request, and one that cannot fix a length. -/
def execUndefinedHeader (header : PortWord) (s : State) : Host.Outcome State Fault Refusal :=
  if headerUndefined header && s.host.request.isEmpty then
    .next (s.take (.undefinedHeader header) s.judgeUndefinedHeader)
  else .next s

end Sys2Proof.Machine
end

