-- ==== Sys2Proof/Machine/StationCommands.lean ====
section
/-! DEFINITION. The commands of the station controller, STATUS, RESET_PART and READ_ROSTER (chapters 3, 4 and 10). -/

namespace Sys2Proof.Machine

/-! ### START (R37) -/

/-- The START record is in range (R37). -/
def startInRange (addr len : Nat) : Bool :=
  decide (1 ≤ addr ∧ addr ≤ Config.stations) && (len == 24 || len == 48 || len == 96)

/-- The part after a taken START (R34, R37, R57, R72, R91, R127, R128, R131, R152): configured, in LISTEN, hunting. -/
def State.started (s : State) (c : Configuration) : State :=
  let s1 : State :=
    { s with
      control := { s.control with config := some c }
      timer := FrameTimer.reset
      table := Bank.fill 96 SlotEntry.reset
      claims := { s.claims with records := [], contending := false }
      tx := Bank.fill 8 TxChannel.reset
      rx := Bank.fill 8 RxChannel.reset
      jobs := []
      windows := Bank.fill 4 Window.closed
      answers := AnswerQueue.reset }
  s1.listening.postAll [s1.stateChanged .listen]

/-- START judged (R37). -/
def State.judgeStart (s : State) (addr len : Nat) (eligible : Bool) : State × TxResult :=
  if s.control.state ≠ .off then s.refuse .state
  else if startInRange addr len = false then s.refuse .range
  else (s.started { addr := addr, len := len, eligible := eligible }).doneWith .nothing

/-- START (R37). -/
def execStart (addr len : Nat) (eligible : Bool) (s : State) : Host.Outcome State Fault Refusal :=
  .next (s.take (.start addr len eligible) (s.judgeStart addr len eligible))

/-! ### JOIN (R51) -/

/-- The part after a taken JOIN (R34, R51). -/
def State.rejoined (s : State) : State :=
  ({ s with timer := s.timer.dropped } : State).listening.postAll [s.stateChanged .listen]

/-- JOIN judged (R51). -/
def State.judgeJoin (s : State) : State × TxResult :=
  if s.control.state = .detached then s.rejoined.doneWith .nothing else s.refuse .state

/-- JOIN (R51). -/
def execJoin (s : State) : Host.Outcome State Fault Refusal := .next (s.take .join s.judgeJoin)

/-! ### LEAVE (R46) -/

/-- LEAVE judged (R46). -/
def State.judgeLeave (s : State) : State × TxResult :=
  match s.control.state with
  | .off => s.refuse .state
  | .listen => (s.enterDetached []).doneWith .nothing
  | .joining => (s.enterDetached []).doneWith .nothing
  | .member => (s.enterLeaving, .accepted .nothing)
  | .leaving => s.refuse .state
  | .detached => s.refuse .state
  | .fault => s.refuse .state

/-- LEAVE (R46). -/
def execLeave (s : State) : Host.Outcome State Fault Refusal := .next (s.take .leave s.judgeLeave)

/-! ### READ_ROSTER (R68) -/

/-- READ_ROSTER judged (R68). -/
def State.judgeReadRoster (s : State) (a : Nat) : State × TxResult :=
  if s.control.state = .off then s.refuse .state
  else if ¬(1 ≤ a ∧ a ≤ Config.stations) then s.refuse .range
  else s.doneWith (.roster a (a == s.self) (s.rosterEntry a) (s.heldCount a))

/-- READ_ROSTER (R68). -/
def execReadRoster (a : Nat) (s : State) : Host.Outcome State Fault Refusal :=
  .next (s.take (.readRoster a) (s.judgeReadRoster a))

/-! ### STATUS (R180) -/

/-- The fields of a STATUS reply (R180); own address and frame length are absent in OFF. -/
def State.statusData (s : State) : ReplyData :=
  let config := if s.control.state = .off then none else s.control.config
  .status s.control.state (config.map Configuration.addr) (config.map Configuration.len) s.timer.frame s.timer.holder
    s.holdings s.claims.records.length s.events.all.length

/-- STATUS judged: taken in every station state (R180). -/
def State.judgeStatus (s : State) : State × TxResult := s.doneWith s.statusData

/-- STATUS (R180). -/
def execStatus (s : State) : Host.Outcome State Fault Refusal := .next (s.take .status s.judgeStatus)

/-! ### RESET_PART (R182) -/

/-- RESET_PART judged: taken in every station state, with a part reset to come (R182). -/
def State.judgeResetPart (s : State) : State × TxResult :=
  ({ s with host := { s.host with resetArmed := true } } : State).doneWith .nothing

/-- RESET_PART (R182). -/
def execResetPart (s : State) : Host.Outcome State Fault Refusal := .next (s.take .resetPart s.judgeResetPart)

end Sys2Proof.Machine
end

