-- ==== Sys2Proof/Machine/StreamCommands.lean ====
section
/-! DEFINITION. The transactions of the stream unit: BIND_RX, UNBIND_RX, CHANNEL_STATUS, PUSH and PULL (chapter 7). -/

namespace Sys2Proof.Machine

/-- OFF and FAULT, in which the stream unit's bindings and pushes are refused (R113, R118, R119). -/
def StationState.idle (st : StationState) : Bool := st == .off || st == .fault

/-! ### BIND_RX and UNBIND_RX (R118, R119) -/

/-- BIND_RX judged (R118). -/
def State.judgeBindRx (s : State) (c n : Nat) (expected : Option Nat) (policy : Policy) (gaps : Bool) : State × TxResult :=
  if s.control.state.idle then s.refuse .state
  else if 8 ≤ c ∨ isDataSlot s.len n = false ∨ s.otherStation expected = false then s.refuse .range
  else if (s.rxAt c).binding.isSome then s.refuse .busy
  else if s.isOwn n then s.refuse .ownSlot
  else
    (s.setRx c { s.rxAt c with binding := some { slot := n, expected := expected, policy := policy, gaps := gaps } }).doneWith
      .nothing

/-- BIND_RX (R118). -/
def execBindRx (c n : Nat) (expected : Option Nat) (policy : Policy) (gaps : Bool) (s : State) :
    Host.Outcome State Fault Refusal :=
  .next (s.take (.bindRx c n expected policy gaps) (s.judgeBindRx c n expected policy gaps))

/-- UNBIND_RX judged (R119). -/
def State.judgeUnbindRx (s : State) (c : Nat) : State × TxResult :=
  if s.control.state.idle then s.refuse .state
  else if 8 ≤ c then s.refuse .range
  else if (s.rxAt c).binding.isNone then s.refuse .noSuch
  else (s.setRx c { s.rxAt c with binding := none }).doneWith .nothing

/-- UNBIND_RX (R119). -/
def execUnbindRx (c : Nat) (s : State) : Host.Outcome State Fault Refusal :=
  .next (s.take (.unbindRx c) (s.judgeUnbindRx c))

/-! ### CHANNEL_STATUS (R126) -/

/-- The state of a channel as CHANNEL_STATUS reports it (R126). -/
def State.channelData (s : State) (dir : Direction) (c : Nat) : ReplyData :=
  match dir with
  | .tx => .txChannel (s.txAt c).queue.length (s.boundSlots c) (s.txAt c).underrun (s.txAt c).starved
  | .rx =>
    .rxChannel (s.rxAt c).binding (s.rxAt c).queue.length ((s.rxAt c).queue.head?.map RxEntry.frame) (s.rxAt c).overrun
      (s.rxAt c).mismatch (s.rxAt c).overrunFlag

/-- CHANNEL_STATUS judged (R126). -/
def State.judgeChannelStatus (s : State) (dir : Direction) (c : Nat) : State × TxResult :=
  if s.control.state = .off then s.refuse .state
  else if 8 ≤ c then s.refuse .range
  else s.doneWith (s.channelData dir c)

/-- CHANNEL_STATUS (R126). -/
def execChannelStatus (dir : Direction) (c : Nat) (s : State) : Host.Outcome State Fault Refusal :=
  .next (s.take (.channelStatus dir c) (s.judgeChannelStatus dir c))

/-! ### PUSH (R113) -/

/-- A transmit channel that takes the samples it has room for, and is no longer starved (R113). -/
def TxChannel.pushed (t : TxChannel) (samples : List DataWord) : TxChannel :=
  { t with queue := t.queue ++ samples.take (Config.channelCapacity - t.queue.length), starved := false }

/-- The number of samples that are accepted (R113). -/
def TxChannel.room (t : TxChannel) (n : Nat) : Nat := min n (Config.channelCapacity - t.queue.length)

/-- PUSH judged (R113). A header whose count is outside 1 to 16 never becomes this command: it is a request of its own,
refused with RANGE (R171, log 10). -/
def State.judgePush (s : State) (c : Nat) (samples : List DataWord) : State × TxResult :=
  if s.control.state.idle then s.refuse .state
  else if 8 ≤ c ∨ ¬(1 ≤ samples.length ∧ samples.length ≤ 16) then s.refuse .range
  else (s.setTx c ((s.txAt c).pushed samples)).doneWith (.accepted ((s.txAt c).room samples.length))

/-- PUSH (R113). -/
def execPush (c : Nat) (samples : List DataWord) (s : State) : Host.Outcome State Fault Refusal :=
  .next (s.take (.push c samples) (s.judgePush c samples))

/-! ### PULL (R122) -/

/-- A receive channel without its `n` oldest entries, its overrun flag clear (R122). -/
def RxChannel.pulled (r : RxChannel) (n : Nat) : RxChannel := { r with queue := r.queue.drop n, overrunFlag := false }

/-- PULL judged (R122). -/
def State.judgePull (s : State) (c n : Nat) : State × TxResult :=
  if s.control.state = .off then s.refuse .state
  else if 8 ≤ c ∨ ¬(1 ≤ n ∧ n ≤ 16) then s.refuse .range
  else (s.setRx c ((s.rxAt c).pulled n)).doneWith (.entries ((s.rxAt c).queue.take n))

/-- PULL (R122). -/
def execPull (c n : Nat) (s : State) : Host.Outcome State Fault Refusal := .next (s.take (.pull c n) (s.judgePull c n))

end Sys2Proof.Machine
end

