-- ==== Sys2Proof/Machine/WindowCommands.lean ====
section
/-! DEFINITION. The commands of the bulk receiver: WINDOW_OPEN, WINDOW_CLOSE and WINDOW_STATUS (chapter 9, section
9.2). -/

namespace Sys2Proof.Machine

/-- A window as WINDOW_OPEN leaves it (R153). -/
def Window.openedWith (base cap : Nat) (allowed : Option Nat) : Window :=
  { Window.closed with state := .opened, base := some base, capacity := some cap, allowed := allowed }

/-- WINDOW_OPEN judged (R153). -/
def State.judgeWindowOpen (s : State) (w base cap : Nat) (allowed : Option Nat) : State × TxResult :=
  if s.control.state = .off ∨ s.control.state = .fault then s.refuse .state
  else if 4 ≤ w ∨ areaOk base cap = false ∨ s.otherStation allowed = false then s.refuse .range
  else if (s.windowAt w).state ≠ .closed then s.refuse .busy
  else (s.setWindow w (Window.openedWith base cap allowed)).doneWith .nothing

/-- WINDOW_OPEN (R153). -/
def execWindowOpen (w base cap : Nat) (allowed : Option Nat) (s : State) : Host.Outcome State Fault Refusal :=
  .next (s.take (.windowOpen w base cap allowed) (s.judgeWindowOpen w base cap allowed))

/-- The answer queue without window `w`'s pending answer; a contending head that goes leaves no answer contending
(R154, R168). -/
def AnswerQueue.withdraw (q : AnswerQueue) (w : Nat) : AnswerQueue :=
  { answers := q.answers.filter (fun a => a.window != w)
    contending := q.contending && (q.answers.head?.map Answer.window != some w) }

/-- WINDOW_CLOSE judged (R154). Of a CLOSED window too it removes the pending answer: DEDUCED (log 33). -/
def State.judgeWindowClose (s : State) (w : Nat) : State × TxResult :=
  if s.control.state = .off then s.refuse .state
  else if 4 ≤ w then s.refuse .range
  else ({ s.setWindow w Window.closed with answers := s.answers.withdraw w } : State).doneWith .nothing

/-- WINDOW_CLOSE (R154). -/
def execWindowClose (w : Nat) (s : State) : Host.Outcome State Fault Refusal :=
  .next (s.take (.windowClose w) (s.judgeWindowClose w))

/-- Window `w`'s pending answer (R155). -/
def AnswerQueue.ofWindow (q : AnswerQueue) (w : Nat) : Option Answer := q.answers.find? (fun a => a.window == w)

/-- The number of answers ahead of window `w`'s (R155). -/
def AnswerQueue.ahead (q : AnswerQueue) (w : Nat) : Nat := q.answers.findIdx (fun a => a.window == w)

/-- WINDOW_STATUS judged (R155). -/
def State.judgeWindowStatus (s : State) (w : Nat) : State × TxResult :=
  if s.control.state = .off then s.refuse .state
  else if 4 ≤ w then s.refuse .range
  else s.doneWith (.window (s.windowAt w) (s.answers.ofWindow w) (s.answers.ahead w))

/-- WINDOW_STATUS (R155). -/
def execWindowStatus (w : Nat) (s : State) : Host.Outcome State Fault Refusal :=
  .next (s.take (.windowStatus w) (s.judgeWindowStatus w))

end Sys2Proof.Machine
end

