-- ==== Sys2Proof/Machine/HostPort.lean ====
section
/-! DEFINITION. The events of the host port and the resets: target select, port words in and out, RESET_PART taking hold,
the reset line and power-on (R170, R171, R181 to R183). -/

namespace Sys2Proof.Machine

/-- The judgement of the transaction that a request's words spell (R171); an event is no transaction, and a request never
spells one. -/
def State.judge (s : State) (i : Instr) : State × TxResult :=
  match i with
  | .start addr len eligible => s.judgeStart addr len eligible
  | .join => s.judgeJoin
  | .leave => s.judgeLeave
  | .claim req priority role => s.judgeClaim req priority role
  | .release n => s.judgeRelease n
  | .claimCancel tag => s.judgeClaimCancel tag
  | .setRole n role => s.judgeSetRole n role
  | .bindRx c n expected policy gaps => s.judgeBindRx c n expected policy gaps
  | .unbindRx c => s.judgeUnbindRx c
  | .channelStatus dir c => s.judgeChannelStatus dir c
  | .bulkPost dest win base len => s.judgeBulkPost dest win base len
  | .bulkCancel id => s.judgeBulkCancel id
  | .bulkStatus id => s.judgeBulkStatus id
  | .bulkCollect id => s.judgeBulkCollect id
  | .windowOpen w base cap allowed => s.judgeWindowOpen w base cap allowed
  | .windowClose w => s.judgeWindowClose w
  | .windowStatus w => s.judgeWindowStatus w
  | .readSlot n => s.judgeReadSlot n
  | .readRoster a => s.judgeReadRoster a
  | .resetPart => s.judgeResetPart
  | .push c samples => s.judgePush c samples
  | .pull c n => s.judgePull c n
  | .memoryWrite a words => s.judgeMemoryWrite a words
  | .memoryRead a n => s.judgeMemoryRead a n
  | .eventRead n => s.judgeEventRead n
  | .status => s.judgeStatus
  | _ => s.judgeUndefinedHeader

/-! ### Port words (R170) -/

/-- A request word shifted in, in REQUEST: added to the request, and when the request is complete the transaction that it
spells is taken (R170, R171, log 9). -/
def State.wordIn (s : State) (w : PortWord) : State :=
  match decodeRequest (s.host.request ++ [w]) with
  | .incomplete => { s with host := { s.host with request := s.host.request ++ [w] } }
  | .complete i => s.replyWith i (s.host.request ++ [w]) (s.judge i)

/-- REQUEST_WORD_SHIFTED_IN (R170): in DESELECTED and in REPLY the word is not read. -/
def execRequestWordShiftedIn (word : PortWord) (s : State) : Host.Outcome State Fault Refusal :=
  if s.host.state = .request then .next (s.wordIn word) else .next s

/-- The words of the reply that is being shifted out. -/
def HostPort.replyWords (h : HostPort) : List PortWord :=
  match h.reply with
  | some r => r.words
  | none => []

/-- A reply word shifted out, in REPLY: the word at the reply position, ones past the end, and the position advances up
to the reply's length (R170). -/
def State.wordOut (s : State) : State :=
  { s with
    pins := { s.pins with serialOut := some (s.host.replyWords.getD s.host.position (BitVec.allOnes 24)) }
    host := { s.host with position := min (s.host.position + 1) s.host.replyWords.length } }

/-- The word shifted out is the last of the reply, or one past it (R182). -/
def HostPort.lastWord (h : HostPort) : Bool := decide (h.replyWords.length ≤ h.position + 1)

/-- A reply word shifted out, with the part reset that a taken RESET_PART brings with the last one (R170, R182). -/
def State.shiftOut (s : State) : State :=
  if s.host.resetArmed && s.host.lastWord then s.wordOut.partReset else s.wordOut

/-- The part drives nothing on serial data out. -/
def State.drivesNothing (s : State) : State := { s with pins := { s.pins with serialOut := none } }

/-- REPLY_WORD_SHIFTED_OUT (R170): in REQUEST the part drives nothing, nor in DESELECTED, where a selection opened while
the reset line was asserted stays (R181, log 24). -/
def execReplyWordShiftedOut (s : State) : Host.Outcome State Fault Refusal :=
  match s.host.state with
  | .deselected => .next s.drivesNothing
  | .request => .next s.drivesNothing
  | .reply => .next s.shiftOut

/-! ### Target select (R170) -/

/-- The level of target select. -/
def State.setSelect (s : State) (b : Bool) : State := { s with pins := { s.pins with select := b } }

/-- TARGET_SELECT_ASSERTED (R170): a new selection. While the reset line is asserted the port stays DESELECTED (R181); a
selection already open is no new one (log 28). -/
def execTargetSelectAsserted (s : State) : Host.Outcome State Fault Refusal :=
  if s.pins.select then .next s
  else if s.pins.resetLine then .next (s.setSelect true)
  else .next { s.setSelect true with host := { HostPort.reset with state := .request } }

/-- Target select is released: the request or the reply is discarded (R170), and an armed part reset takes hold (R182). -/
def State.selectReleased (s : State) : State :=
  if s.host.resetArmed then (s.setSelect false).partReset else { s.setSelect false with host := HostPort.reset }

/-- TARGET_SELECT_RELEASED (R170). -/
def execTargetSelectReleased (s : State) : Host.Outcome State Fault Refusal := .next s.selectReleased

/-! ### Resets (R181 to R183) -/

/-- RESET_PART_TAKES_HOLD (R182): an armed part reset, by the last word of the reply or by the released select, whichever
comes first (log 2). -/
def execResetPartTakesHold (trigger : ResetTrigger) (s : State) : Host.Outcome State Fault Refusal :=
  match trigger with
  | .replyShiftedOut =>
    if s.host.resetArmed && s.host.state == .reply && s.host.lastWord then .next s.shiftOut else .next s
  | .selectReleased => if s.host.resetArmed then .next s.selectReleased else .next s

/-- RESET_LINE_ASSERTED (R181): the part reset takes hold wherever any operation stands, the part is held in it, and a
reply being shifted out is cut: the part drives nothing back. -/
def execResetLineAsserted (s : State) : Host.Outcome State Fault Refusal :=
  .next { s.partReset with pins := { s.pins with resetLine := true, serialOut := none } }

/-- RESET_LINE_RELEASED (R181): the part leaves part reset with the values of part reset; a selection that was open takes
no request. -/
def execResetLineReleased (s : State) : Host.Outcome State Fault Refusal :=
  if s.pins.resetLine then .next { s.partReset with pins := { s.pins with resetLine := false } } else .next s

/-- POWER_ON_RESET (R183). -/
def execPowerOnReset (lineRate : BitVec 2) (s : State) : Host.Outcome State Fault Refusal := .next (s.powerOn lineRate)

end Sys2Proof.Machine
end

