-- ==== Sys2Proof/Machine/Dispatch.lean ====
section
/-! DEFINITION. One arm for each command of the table. -/

namespace Sys2Proof.Machine

/-- A command's effect on everything but the queue of waiting commands. -/
def exec (i : Instr) (s : State) : Host.Outcome State Fault Refusal :=
  match i with
  | .start addr len eligible => Sys2Proof.Machine.execStart addr len eligible s
  | .join => Sys2Proof.Machine.execJoin s
  | .leave => Sys2Proof.Machine.execLeave s
  | .claim req priority role => Sys2Proof.Machine.execClaim req priority role s
  | .release n => Sys2Proof.Machine.execRelease n s
  | .claimCancel tag => Sys2Proof.Machine.execClaimCancel tag s
  | .setRole n role => Sys2Proof.Machine.execSetRole n role s
  | .bindRx c n expected policy gaps => Sys2Proof.Machine.execBindRx c n expected policy gaps s
  | .unbindRx c => Sys2Proof.Machine.execUnbindRx c s
  | .channelStatus dir c => Sys2Proof.Machine.execChannelStatus dir c s
  | .bulkPost dest win base len => Sys2Proof.Machine.execBulkPost dest win base len s
  | .bulkCancel id => Sys2Proof.Machine.execBulkCancel id s
  | .bulkStatus id => Sys2Proof.Machine.execBulkStatus id s
  | .bulkCollect id => Sys2Proof.Machine.execBulkCollect id s
  | .windowOpen w base cap allowed => Sys2Proof.Machine.execWindowOpen w base cap allowed s
  | .windowClose w => Sys2Proof.Machine.execWindowClose w s
  | .windowStatus w => Sys2Proof.Machine.execWindowStatus w s
  | .readSlot n => Sys2Proof.Machine.execReadSlot n s
  | .readRoster a => Sys2Proof.Machine.execReadRoster a s
  | .resetPart => Sys2Proof.Machine.execResetPart s
  | .push c samples => Sys2Proof.Machine.execPush c samples s
  | .pull c n => Sys2Proof.Machine.execPull c n s
  | .memoryWrite a words => Sys2Proof.Machine.execMemoryWrite a words s
  | .memoryRead a n => Sys2Proof.Machine.execMemoryRead a n s
  | .eventRead n => Sys2Proof.Machine.execEventRead n s
  | .status => Sys2Proof.Machine.execStatus s
  | .undefinedHeader header => Sys2Proof.Machine.execUndefinedHeader header s
  | .targetSelectAsserted => Sys2Proof.Machine.execTargetSelectAsserted s
  | .targetSelectReleased => Sys2Proof.Machine.execTargetSelectReleased s
  | .resetPartTakesHold trigger => Sys2Proof.Machine.execResetPartTakesHold trigger s
  | .resetLineAsserted => Sys2Proof.Machine.execResetLineAsserted s
  | .resetLineReleased => Sys2Proof.Machine.execResetLineReleased s
  | .powerOnReset lineRate => Sys2Proof.Machine.execPowerOnReset lineRate s
  | .huntingCandidate bits => Sys2Proof.Machine.execHuntingCandidate bits s
  | .listenWindowPasses => Sys2Proof.Machine.execListenWindowPasses s
  | .markSlotStart => Sys2Proof.Machine.execMarkSlotStart s
  | .markSlotEnd heard => Sys2Proof.Machine.execMarkSlotEnd heard s
  | .candidateRule heard => Sys2Proof.Machine.execCandidateRule heard s
  | .escalation heard => Sys2Proof.Machine.execEscalation heard s
  | .joiningToListen heard => Sys2Proof.Machine.execJoiningToListen heard s
  | .rollSlotStart => Sys2Proof.Machine.execRollSlotStart s
  | .rollSlotEnd heard => Sys2Proof.Machine.execRollSlotEnd heard s
  | .stationLost heard => Sys2Proof.Machine.execStationLost heard s
  | .claimSlotStart => Sys2Proof.Machine.execClaimSlotStart s
  | .claimSlotEnd heard => Sys2Proof.Machine.execClaimSlotEnd heard s
  | .claimAging heard => Sys2Proof.Machine.execClaimAging heard s
  | .claimExpired heard => Sys2Proof.Machine.execClaimExpired heard s
  | .answerSlotStart => Sys2Proof.Machine.execAnswerSlotStart s
  | .answerSlotEnd heard => Sys2Proof.Machine.execAnswerSlotEnd heard s
  | .answerDropped heard => Sys2Proof.Machine.execAnswerDropped heard s
  | .dataSlotStart => Sys2Proof.Machine.execDataSlotStart s
  | .tailResend => Sys2Proof.Machine.execTailResend s
  | .jobNoAnswer => Sys2Proof.Machine.execJobNoAnswer s
  | .dataSlotEnd heard => Sys2Proof.Machine.execDataSlotEnd heard s
  | .slotLapsed heard => Sys2Proof.Machine.execSlotLapsed heard s
  | .windowStalled heard => Sys2Proof.Machine.execWindowStalled heard s
  | .listenWindowFrameTime => Sys2Proof.Machine.execListenWindowFrameTime s
  | .requestWordShiftedIn word => Sys2Proof.Machine.execRequestWordShiftedIn word s
  | .replyWordShiftedOut => Sys2Proof.Machine.execReplyWordShiftedOut s

end Sys2Proof.Machine
end

