-- ==== Sys2Proof/Safety.lean ====
section
/-! DEFINITION. What counts as a sound state of the part, block by block, in the bounds that the spec gives for each
block's fields (every one of these is meant to be kept by every step), and the words in which the statements speak of
occurrences and transitions. -/

namespace Sys2Proof.Machine

/-! ### Buffer memory and event queue -/

/-- Buffer memory lists addresses 0 to 8191, strictly rising (R175). -/
abbrev State.bufferOk (s : State) : Prop := s.buffer.wf = true

/-- At most 31 ordinary records, and an EVENTS_LOST count of 1 to 65535 (R177). -/
abbrev EventQueue.ok (q : EventQueue) : Prop :=
  q.records.length ≤ Config.eventCapacity ∧ ∀ l ∈ q.lost, 1 ≤ l.count ∧ l.count ≤ 65535

/-! ### Stream unit -/

/-- At most 16 samples, the underrun count within its range (R112, R117). -/
abbrev TxChannel.ok (t : TxChannel) : Prop := t.queue.length ≤ Config.channelCapacity ∧ t.underrun ≤ 65535

/-- At most 16 entries, both counts within their ranges (R117). -/
abbrev RxChannel.ok (r : RxChannel) : Prop :=
  r.queue.length ≤ Config.channelCapacity ∧ r.overrun ≤ 65535 ∧ r.mismatch ≤ 65535

/-- Every channel is within its bounds. -/
abbrev State.channelsOk (s : State) : Prop := (∀ t ∈ s.tx.items, t.ok) ∧ ∀ r ∈ s.rx.items, r.ok

/-! ### Bulk sender -/

/-- The bounds of R130, and an assigned slot exactly in SENDING and AWAIT_ANSWER (R137, R148). -/
abbrev Job.ok (j : Job) : Prop :=
  j.id < Config.jobRecords ∧ j.next ≤ j.length ∧ j.length ≤ 4096 ∧ j.base + j.length ≤ Config.bufferWords ∧
  j.rewinds ≤ Config.rewindLimit ∧ j.resends ≤ Config.tailResends ∧ j.timer ≤ Config.answerWait ∧
  (j.slot.isSome ↔ j.state = .sending ∨ j.state = .awaitAnswer)

/-- Every job is within its bounds, no two have one id, and no two have one slot (R130, R137). -/
abbrev State.jobsOk (s : State) : Prop :=
  (∀ j ∈ s.jobs, j.ok) ∧ (s.jobs.map Job.id).Nodup ∧ (s.jobs.filterMap Job.slot).Nodup

/-! ### Bulk receiver -/

/-- The bounds of R151, a COMPLETE window's count equal to its recorded length, and a CLOSED window without fields
(R154). -/
abbrev Window.ok (x : Window) : Prop :=
  x.count ≤ x.capacity.getD 0 ∧ x.capacity.getD 0 ≤ 4096 ∧ x.base.getD 0 + x.capacity.getD 0 ≤ Config.bufferWords ∧
  x.stall ≤ Config.stallLimit ∧ (x.state = .complete → x.recorded = some x.count) ∧ (x.state = .closed → x = Window.closed)

/-- At most one answer for each window, each within the bounds of R166; a contending head exists (R167). -/
abbrev AnswerQueue.ok (q : AnswerQueue) : Prop :=
  (q.answers.map Answer.window).Nodup ∧
  (∀ a ∈ q.answers, a.window < 4 ∧ a.count ≤ 4096 ∧ a.lost < Config.answerExpiry) ∧ (q.contending = true → q.answers ≠ [])

/-- Windows and answers are within their bounds. -/
abbrev State.windowsOk (s : State) : Prop := (∀ x ∈ s.windows.items, x.ok) ∧ s.answers.ok

/-! ### Claim queue -/

/-- The bounds of a claim record (R90, R101). -/
abbrev ClaimRecord.ok (r : ClaimRecord) : Prop :=
  r.tag < 256 ∧ r.base ≤ 3 ∧ r.effective ≤ r.base ∧ r.lost < Config.claimExpiry

/-- At most 8 records, no two with one tag; a contending head exists (R90). -/
abbrev ClaimQueue.ok (q : ClaimQueue) : Prop :=
  q.records.length ≤ Config.claimCapacity ∧ (q.records.map ClaimRecord.tag).Nodup ∧ (∀ r ∈ q.records, r.ok) ∧
  q.tagCounter < 256 ∧ (q.contending = true → q.records ≠ [])

/-! ### Station controller, frame timer, trunk port and host port -/

/-- The configuration record's ranges (R35). -/
abbrev Configuration.ok (c : Configuration) : Prop :=
  (1 ≤ c.addr ∧ c.addr ≤ Config.stations) ∧ (c.len = 24 ∨ c.len = 48 ∨ c.len = 96)

/-- The station controller's fields agree with its state (R35, R41). -/
abbrev StationControl.ok (c : StationControl) : Prop :=
  (c.state = .off ↔ c.config = none) ∧ (∀ x ∈ c.config, x.ok) ∧ (c.cause.isSome ↔ c.state = .fault) ∧ c.listenCount ≤ 3 ∧
  (c.observing = true → c.state = .joining ∧ c.observed = false)

/-- The frame timer's ranges: positions of the configured frame, frame numbers below 240, holder addresses 1 to 30, at
most 4 missed marks (R16). -/
abbrev FrameTimer.ok (t : FrameTimer) (len : Nat) : Prop :=
  (t.aligned = true ↔ t.position.isSome) ∧ (∀ p ∈ t.position, p < len) ∧ t.frame < Config.frameNumbers ∧ t.missed ≤ 4 ∧
  (∀ k ∈ t.holder, 1 ≤ k ∧ k ≤ Config.stations) ∧ (t.passing = true → t.aligned = true)

/-- The holder flag is set only in JOINING, MEMBER and LEAVING, and while it is set the holder address is self's, no mark
is missed (R16), and an occurrence of slot 0 that passes carries self's word (R25). Off the trunk no holder is known and no
mark is missed (R34). -/
abbrev State.holderOk (s : State) : Prop :=
  (s.timer.holderFlag = true →
    s.control.state.onTrunk = true ∧ s.timer.holder = some s.self ∧ s.timer.missed = 0 ∧
    (s.timer.passing = true → s.timer.position = some 0 → s.port.word.isSome)) ∧
  (s.control.state.onTrunk = false → s.timer.holder = none ∧ s.timer.missed = 0)

/-- The station is aligned in JOINING, MEMBER and LEAVING, and aligned nowhere else but in LISTEN (R12, R39). -/
abbrev State.alignmentOk (s : State) : Prop :=
  (s.control.state.onTrunk = true → s.timer.aligned = true) ∧
  (s.timer.aligned = true → s.control.state.onTrunk = true ∨ s.control.state = .listen)

/-- A word is held only while an occurrence passes; in LISTEN it is in slot 0, and in JOINING in slot 0 or, once the
observation is complete, in slot 1 (R15, R38). -/
abbrev State.wordOk (s : State) : Prop :=
  s.port.word.isSome →
    s.timer.passing = true ∧ (s.control.state = .listen → s.timer.position = some 0) ∧
    (s.control.state = .joining →
      s.timer.position = some 0 ∨ (s.timer.position = some 1 ∧ s.control.observed = true))

/-- The host port's fields agree with its state (R170, R182). -/
abbrev HostPort.ok (h : HostPort) : Prop :=
  (h.state = .deselected → h = HostPort.reset) ∧ (h.state = .reply ↔ h.reply.isSome) ∧
  (h.resetArmed = true → h.state = .reply) ∧ h.position ≤ h.replyWords.length

/-- The reset line holds the part in OFF with the port deselected and nothing driven back (R181). -/
abbrev State.resetLineOk (s : State) : Prop :=
  s.pins.resetLine = true → s.control.state = .off ∧ s.host.state = .deselected ∧ s.pins.serialOut = none

/-- Station controller, frame timer, trunk port and host port agree. -/
abbrev State.stationOk (s : State) : Prop :=
  s.control.ok ∧ s.timer.ok s.len ∧ s.holderOk ∧ s.alignmentOk ∧ s.wordOk ∧ s.host.ok ∧ s.resetLineOk

/-! ### Roster -/

/-- The bounds of R56: a PRESENT station has missed fewer than two rolls in a row, and an ABSENT one announces nothing
(R63, R65). -/
abbrev RosterEntry.ok (e : RosterEntry) : Prop :=
  e.missed ≤ 2 ∧ (∀ k ∈ e.held, k ≤ 16) ∧ (∀ f ∈ e.lastRoll, f < Config.frameNumbers) ∧ e.stray ≤ 255 ∧
  (e.present = true → e.missed < 2) ∧ (e.present = false → e.held = none ∧ e.eligible = none)

/-- A word of self that passes in slot 1 announces at most 16 slots (R71, R185). -/
def State.rollWordOk (s : State) : Bool :=
  match s.port.word with
  | none => true
  | some b => s.timer.position != some 1 || decide (sentRollHeld b ≤ 16)

/-- Every entry is within its bounds; place 0 is no station; the own entry is PRESENT exactly in MEMBER and LEAVING (R56);
off the trunk every entry is at its reset value (R57); and self's ROLL on the line is within its bound. -/
abbrev State.rosterOk (s : State) : Prop :=
  (∀ a < 31, (s.rosterEntry a).ok) ∧ s.rosterEntry 0 = RosterEntry.reset ∧
  (s.isPresent s.self = true ↔ s.control.state.serving = true) ∧
  (s.control.state.onTrunk = false → ∀ a < 31, s.rosterEntry a = RosterEntry.reset) ∧
  s.rollWordOk = true

/-! ### Allocation table -/

/-- One entry: free outside the data region, counts within their ranges, owners 1 to 30, a role exactly when self owns
the slot (R70, R85). -/
abbrev State.entryOk (s : State) (n : Nat) : Prop :=
  (isDataSlot s.len n = false → s.entry n = SlotEntry.reset) ∧ (s.entry n).silence < Config.lapseRun ∧
  (s.entry n).corrupt ≤ 255 ∧ (∀ k ∈ (s.entry n).owner, 1 ≤ k ∧ k ≤ Config.stations) ∧
  ((s.entry n).role.isSome ↔ s.isOwn n = true)

/-- Every entry is sound; self owns slots in MEMBER and LEAVING alone (R41, R72); no channel has more than 4 slots (R85);
no receive channel is bound to an own slot (R117). -/
abbrev State.tableOk (s : State) : Prop :=
  (∀ n < 96, s.entryOk n) ∧ (s.control.state.serving = false → ∀ n < 96, s.isOwn n = false) ∧
  (∀ c < 8, (s.boundSlots c).length ≤ Config.streamSlots) ∧
  (∀ r ∈ s.rx.items, ∀ b ∈ r.binding, isDataSlot s.len b.slot = true ∧ s.isOwn b.slot = false)

/-! ### The claim limit -/

/-- What a CLAIM word may yet add to the holdings when it wins in LEAVING: a slot, but for a RELEASE (R94). -/
def claimAdds (b : SlotBits) : Nat :=
  match classify b with
  | .valid w => if w.claimCode = 3 then 0 else 1
  | .silent => 0
  | .corrupt => 0

/-- The word on the line in slot 2: in MEMBER the contending head's, and in LEAVING one that leaves room for the slot it
may win (R94, R99). -/
def State.claimWordOk (s : State) : Bool :=
  match s.port.word with
  | none => true
  | some b =>
    s.timer.position != some 2 ||
      ((s.control.state != .member ||
          (s.claims.contending && s.claims.records.head?.map (fun r => (s.claimToSend r).bits) == some b)) &&
        (s.control.state != .leaving || decide (s.limitCount + claimAdds b ≤ Config.claimLimit)))

/-- Holdings and queued SLOT and ANY records are at most 16 (R71, R94). -/
abbrev State.limitOk (s : State) : Prop := s.limitCount ≤ Config.claimLimit ∧ s.claimWordOk = true

/-! ### Occurrences and transitions, as the statements name them -/

/-- The occurrence of slot `p` passes (R1, R17). -/
abbrev State.passes (s : State) (p : Nat) : Prop :=
  s.timer.aligned = true ∧ s.timer.passing = true ∧ s.timer.position = some p

/-- The occurrence of slot `p` is the next to begin (R1, R17). -/
abbrev State.awaits (s : State) (p : Nat) : Prop :=
  s.timer.aligned = true ∧ s.timer.passing = false ∧ s.timer.position = some p

/-- The slot end command of a slot position (R9). -/
def endCommand (p : Nat) (heard : SlotBits) : Instr :=
  if p = 0 then .markSlotEnd heard else if p = 1 then .rollSlotEnd heard else if p = 2 then .claimSlotEnd heard
  else if p = 3 then .answerSlotEnd heard else .dataSlotEnd heard

/-- The trunk port at the end of an occurrence in which self sent nothing. -/
def TrunkPort.listened (p : TrunkPort) (heard : Heard) : TrunkPort := { p with heard := some heard }

/-- The trunk port at the end of an occurrence in which it heard its own word whole. -/
def TrunkPort.sentWhole (p : TrunkPort) (heard : Heard) : TrunkPort :=
  { p with word := none, bitsDone := 40, displaced := false, lineError := false, heard := some heard }

/-- The frame timer after the end of slot `p`, which is not the last of its frame. -/
def FrameTimer.next (t : FrameTimer) (p : Nat) : FrameTimer := { t with position := some (p + 1), passing := false }

/-- The transitions of the station state (chapter 3, the table of transitions). -/
def StationState.mayBecome : StationState → StationState → Bool
  | _, .off => true
  | .off, .listen => true
  | .listen, .joining => true
  | .listen, .detached => true
  | .listen, .fault => true
  | .joining, .member => true
  | .joining, .listen => true
  | .joining, .detached => true
  | .joining, .fault => true
  | .member, .leaving => true
  | .member, .fault => true
  | .leaving, .detached => true
  | .leaving, .fault => true
  | .detached, .listen => true
  | _, _ => false

/-- The station states in which a transaction is taken, by the second table of R173; an undefined header names none. -/
def takenIn : Instr → StationState → Bool
  | .start _ _ _, st => st == .off
  | .join, st => st == .detached
  | .leave, st => st == .listen || st == .joining || st == .member
  | .claim _ _ _, st => st == .member
  | .release _, st => st == .member
  | .claimCancel _, st => st == .member
  | .setRole _ _, st => st == .member || st == .leaving
  | .bindRx _ _ _ _ _, st => st != .off && st != .fault
  | .unbindRx _, st => st != .off && st != .fault
  | .channelStatus _ _, st => st != .off
  | .push _ _, st => st != .off && st != .fault
  | .pull _ _, st => st != .off
  | .bulkPost _ _ _ _, st => st == .member
  | .bulkCancel _, st => st != .off
  | .bulkCollect _, st => st != .off
  | .bulkStatus _, st => st != .off
  | .windowOpen _ _ _ _, st => st != .off && st != .fault
  | .windowClose _, st => st != .off
  | .windowStatus _, st => st != .off
  | .readSlot _, st => st != .off
  | .readRoster _, st => st != .off
  | _, _ => true

/-- The part with nothing changed but the host port, which replies to a transaction taken in REQUEST (R170, R172). -/
def State.replied (s : State) (i : Instr) (r : TxResult) : State :=
  { s with host := HostPort.replying i (requestWords i) s.timer.frame r s.host.resetArmed }

/-- The values of every block but the receive channels and the event queue after entry into FAULT (R34, R53). -/
def State.enteredFault (s t : State) (cause : FaultCause) : Prop :=
  t.control = { s.control with state := .fault, cause := some cause, observed := false, observing := false } ∧
  t.port = TrunkPort.reset ∧ t.timer = { FrameTimer.reset with frame := s.timer.frame } ∧
  t.roster = Bank.fill 31 RosterEntry.reset ∧ t.table = Bank.fill 96 SlotEntry.reset ∧
  t.claims = { s.claims with records := [], contending := false } ∧ t.tx = s.tx ∧
  t.jobs = s.jobs.map (fun j => if j.live then { j with state := .failed, result := some .fault, slot := none } else j) ∧
  (∀ w < 4, t.windowAt w =
    if (s.windowAt w).state = .closed ∨ (s.windowAt w).state = .complete then s.windowAt w
    else { s.windowAt w with state := .failed, origin := none, cause := some .fault }) ∧
  t.answers = AnswerQueue.reset ∧ t.buffer = s.buffer ∧ t.host = s.host ∧ t.pins = s.pins ∧ t.pending = s.pending

/-- The values of every block but the event queue and the host port after entry into DETACHED (R34, R50). -/
def State.enteredDetached (s t : State) : Prop :=
  t.control = { s.control with state := .detached, observed := false, observing := false } ∧
  t.port = TrunkPort.reset ∧ t.timer = { FrameTimer.reset with frame := s.timer.frame } ∧
  t.roster = Bank.fill 31 RosterEntry.reset ∧ t.table = Bank.fill 96 SlotEntry.reset ∧
  t.claims = { s.claims with records := [], contending := false } ∧ t.tx = s.tx ∧ t.rx = s.rx ∧ t.jobs = s.jobs ∧
  (∀ w < 4, t.windowAt w =
    if (s.windowAt w).state = .receiving ∨ (s.windowAt w).state = .gap ∨ (s.windowAt w).state = .stalled then
      { s.windowAt w with state := .stalled, origin := some .gap }
    else s.windowAt w) ∧
  t.answers = AnswerQueue.reset ∧ t.buffer = s.buffer ∧ t.pins = s.pins ∧ t.pending = s.pending

/-- The events of one kind among a list. -/
def eventsOf (k : EventKind) (es : List Event) : List Event := es.filter (fun e => e.kind == k)

/-! ### The whole part -/

/-- Every block is sound. -/
abbrev State.sound (s : State) : Prop :=
  s.bufferOk ∧ s.events.ok ∧ s.channelsOk ∧ s.jobsOk ∧ s.windowsOk ∧ s.claims.ok ∧ s.stationOk ∧ s.rosterOk ∧ s.tableOk ∧
  s.limitOk

end Sys2Proof.Machine
end

