-- ==== Sys2Proof/Certificates/Slice0/Obligations.lean ====
section
/-! DEFINITION. The statements for the provers. -/

open Sys2Proof Sys2Proof.Machine

/-! ### The queue of commands -/

/-- A step runs the command at the front of the queue on the part with the queue's rest; an empty queue idles (log 4). -/
def Obligations.StepRunsFrontCommand : Prop :=
  (∀ (c : Instr) (rest : List Instr) (s : State), s.pending = c :: rest → step s = exec c { s with pending := rest }) ∧
  ∀ s : State, s.pending = [] → step s = .next s

/-- No command touches the queue, and only transactions, port words, target select and resets touch the host port and the
pins: the other commands leave both as they are. -/
def Obligations.CommandsKeepQueueAndPins : Prop :=
  ∀ (c : Instr) (s t : State), exec c s = .next t →
    t.pending = s.pending ∧
    (t.host = s.host ∧ t.pins = s.pins ∨ c.isTransaction = true ∨ c = .targetSelectAsserted ∨ c = .targetSelectReleased ∨
      (∃ x, c = .resetPartTakesHold x) ∨ c = .resetLineAsserted ∨ c = .resetLineReleased ∨ (∃ r, c = .powerOnReset r) ∨
      (∃ w, c = .requestWordShiftedIn w) ∨ c = .replyWordShiftedOut)

/-! ### Chapter 1: slot words on the line -/

/-- The outcome of a transmission is decided by the first bit at which heard and sent differ (R4). -/
def Obligations.FirstDifferenceDecidesOutcome : Prop :=
  (∀ w : SlotBits, outcomeOf w w = .sent) ∧
  ∀ (sent heard : SlotBits) (k : Nat), k < 40 →
    (∀ j, k < j → j < 40 → sent.getLsbD j = heard.getLsbD j) → sent.getLsbD k ≠ heard.getLsbD k →
    outcomeOf sent heard = if sent.getLsbD k then .displaced else .disturbed

/-- The word with the smallest number survives; its senders are SENT and every other sender is DISPLACED (R5). -/
def Obligations.SmallestWordSurvives : Prop :=
  ∀ drivers : List SlotBits, drivers ≠ [] →
    lineWord drivers ∈ drivers ∧ (∀ d ∈ drivers, (lineWord drivers).toNat ≤ d.toNat) ∧
    ∀ d ∈ drivers, outcomeOf d (lineWord drivers) = if d = lineWord drivers then .sent else .displaced

/-- The check field is the remainder of the 35 bits times x^5 by the generator x^5 + x^2 + 1 (R7). -/
def Obligations.CheckFieldIsRemainder : Prop :=
  ∀ p : BitVec 35,
    (Polynomial.X ^ 5 + Polynomial.X ^ 2 + 1 : Polynomial (ZMod 2)) ∣
      (∑ i ∈ Finset.range 35, if p.getLsbD i then (Polynomial.X : Polynomial (ZMod 2)) ^ (i + 5) else 0) +
      ∑ i ∈ Finset.range 5, if (checkField p).getLsbD i then (Polynomial.X : Polynomial (ZMod 2)) ^ i else 0

/-- A word with a station address is heard as it was sent, and with any one of its 40 bits changed it is heard CORRUPT
(R2, R6, R7). -/
def Obligations.WordsAreHeardWholeOrCorrupt : Prop :=
  ∀ w : SlotWord, 1 ≤ w.sender → w.sender ≤ 30 →
    classify w.bits = .valid w ∧ ∀ i < 40, classify (w.bits ^^^ BitVec.ofNat 40 (2 ^ i)) = .corrupt

/-- Every body laid out by R185 with values in range is not malformed, and its fields are read back; no BULK, DATA or FILL
word is malformed (R8). -/
def Obligations.BodyFieldsAreReadBack : Prop :=
  ∀ addr : Nat,
    (∀ frame len : Nat, frame < 240 → (len = 24 ∨ len = 48 ∨ len = 96) →
      (markWord addr frame len).malformed = false ∧ (markWord addr frame len).markFrame = frame ∧
      (markWord addr frame len).markLength = some len) ∧
    (∀ (leaving : Bool) (held : Nat) (eligible : Bool), held ≤ 16 →
      (rollWord addr leaving held eligible).malformed = false ∧ (rollWord addr leaving held eligible).rollLeaving = leaving ∧
      (rollWord addr leaving held eligible).rollHeld = held ∧ (rollWord addr leaving held eligible).rollEligible = eligible) ∧
    (∀ rank code slot : Nat, rank < 4 → 1 ≤ code → code < 4 → slot < 96 →
      (claimWord addr rank code slot).malformed = false ∧ (claimWord addr rank code slot).rank.toNat = rank ∧
      (claimWord addr rank code slot).claimCode = code ∧ (claimWord addr rank code slot).claimSlot = slot) ∧
    (∀ target window code reason count : Nat, 1 ≤ target → target ≤ 30 → window < 4 → 1 ≤ code → code < 4 → reason < 4 →
      count ≤ 4096 →
      (answerWord addr target window code reason count).malformed = false ∧
      (answerWord addr target window code reason count).answerTarget = target ∧
      (answerWord addr target window code reason count).answerWindow = window ∧
      (answerWord addr target window code reason count).answerCode = code ∧
      (answerWord addr target window code reason count).answerReason = reason ∧
      (answerWord addr target window code reason count).answerCount = count) ∧
    (∀ (dest window : Nat) (resume : Bool) (offset : Nat), 1 ≤ dest → dest ≤ 30 → window < 4 → offset ≤ 4096 →
      (headWord addr dest window resume offset).malformed = false ∧
      (headWord addr dest window resume offset).headDest = dest ∧
      (headWord addr dest window resume offset).headWindow = window ∧
      (headWord addr dest window resume offset).headResume = resume ∧
      (headWord addr dest window resume offset).headOffset = offset) ∧
    (∀ length : Nat, 1 ≤ length → length ≤ 4096 →
      (tailWord addr length).malformed = false ∧ (tailWord addr length).tailLength = length) ∧
    (∀ v : DataWord, (bulkWord addr v).body = v ∧ (dataWord addr v).body = v ∧ (fillWord addr).body = 0) ∧
    ∀ w : SlotWord, (w.kind = .bulk ∨ w.kind = .data ∨ w.kind = .fill) → w.malformed = false

/-! ### Chapters 10 and 11: requests and replies -/

/-- The words of every transaction that can be spelled are read back as that transaction (R187). -/
def Obligations.RequestsAreReadBack : Prop :=
  ∀ i : Instr, i.isTransaction = true → i.wf = true → decodeRequest (requestWords i) = .complete i

/-- A request is complete at the length its header fixes and at no word before it (R171): at header word 1 alone for a
header that cannot fix a length, and at three words, with one further word per sample or memory word counted in the header
of a PUSH or MEMORY_WRITE, for every other. The words of a transaction have that length. -/
def Obligations.RequestsCompleteAtTheirLength : Prop :=
  (∀ i : Instr, i.isTransaction = true → i.wf = true →
    (requestWords i).length = (match i with
      | .undefinedHeader _ => 1
      | .push _ samples => 3 + samples.length
      | .memoryWrite _ words => 3 + words.length
      | _ => 3) ∧
    decodeRequest (requestWords i) = .complete i ∧
    ∀ k < (requestWords i).length, decodeRequest ((requestWords i).take k) = .incomplete) ∧
  ∀ (h : PortWord) (words : List PortWord),
    (headerUndefined h = true → decodeRequest (h :: words) = .complete (.undefinedHeader h)) ∧
    (headerUndefined h = false →
      (decodeRequest (h :: words) = .incomplete ↔
        words.length < 2 + (if h.toNat / 2 ^ 20 = 2 ∨ h.toNat / 2 ^ 20 = 4 then h.toNat / 2 ^ 7 % 128 else 0)))

/-- The last word of a request takes the transaction: the part is then as after the transaction's own command (R170,
R171). That the completing word itself takes the transaction is the model's reading (log 9). -/
def Obligations.LastRequestWordTakesTransaction : Prop :=
  ∀ (i : Instr) (s : State) (w : PortWord), i.isTransaction = true → i.wf = true → s.host.state = .request →
    s.host.request ++ [w] = requestWords i → exec (.requestWordShiftedIn w) s = exec i s

/-- Header word 1 of every reply carries kind, status, reason and frame number in that order, and an event record takes
four words with the fields of R188's table at their places; status, reason, event kind and result codes are those of R188's
tables, and the data words of the replies named here are laid out by R186 and R188 (R180, R188). That the fields of a reply,
receive entry or event word stand at its first bits where R188 does not say so, and the fields of a roster record, are the
model's reading (logs 13, 34). -/
def Obligations.ReplyAndEventLayouts : Prop :=
  (∀ r : Reply, ∃ h data, r.words = h :: data ∧ h.toNat / 2 ^ 20 = r.kind.toNat ∧
    h.toNat / 2 ^ 18 % 4 = (match r.result with
      | .done _ => 1
      | .accepted _ => 2
      | .refused _ => 3) ∧
    h.toNat / 2 ^ 14 % 16 = (match r.result with
      | .refused x => [Reason.state, .range, .queueFull, .limit, .notHeld, .busy, .ownSlot, .noSuch].idxOf x + 1
      | _ => 0) ∧
    h.toNat / 2 ^ 6 % 256 = r.frame % 256 ∧ h.toNat % 64 = 0 ∧
    data = (match r.result with
      | .done d => d.dataWords
      | .accepted d => d.dataWords
      | .refused _ => [])) ∧
  (∀ e : Event, ∃ w1 w2 w3 w4 : PortWord, e.words = [w1, w2, w3, w4] ∧
    w1.toNat = e.kind.code * 2 ^ 18 + e.frame % 256 * 2 ^ 10 + e.slot.isSome.toNat * 2 ^ 9 + e.station.isSome.toNat * 2 ^ 8 +
      e.channel.isSome.toNat * 2 ^ 7 + e.job.isSome.toNat * 2 ^ 6 + e.window.isSome.toNat * 2 ^ 5 +
      e.tag.isSome.toNat * 2 ^ 4 + e.result.isSome.toNat * 2 ^ 3 + e.count.isSome.toNat * 2 ^ 2 ∧
    w2.toNat = e.slot.getD 0 % 128 * 2 ^ 17 + e.station.getD 0 % 32 * 2 ^ 12 + e.channel.getD 0 % 8 * 2 ^ 9 +
      e.job.getD 0 % 4 * 2 ^ 7 + e.window.getD 0 % 4 * 2 ^ 5 ∧
    w3.toNat = e.tag.getD 0 % 256 * 2 ^ 16 + (e.result.map EventResult.code).getD 0 % 256 * 2 ^ 8 ∧
    w4.toNat = e.count.getD 0 % 65536 * 2 ^ 8) ∧
  [EventKind.holderChanged, .markMismatch, .markStray, .noTrunk, .stateChanged, .stationJoined, .stationLost, .stationLeft,
    .holdingsDiffer, .rollMisplaced, .slotLapsed, .slotCorrected, .slotLost, .claimDone, .txStarved, .rxOverrun, .rxUnbound,
    .jobDone, .jobFailed, .windowComplete, .windowRestarted, .windowStalled, .windowFailed, .answerDropped,
    .eventsLost].map EventKind.code = (List.range 25).map (· + 1) ∧
  (∀ n, (EventResult.number n).code = n ∧ (EventResult.job (.done n)).code = 60) ∧
  [EventResult.state .listen, .state .joining, .state .member, .state .leaving, .state .detached, .fault .duplicateAddress,
    .fault .frameLength, .claim .granted, .claim .released, .claim .refusedHeld, .claim .refusedFull, .claim .notHeld,
    .claim .cancelled, .claim .expired, .claim .leaving, .claim .fault, .job .noAnswer, .job .rewinds,
    .job (.refused .busy), .job (.refused .closed), .job (.refused .overrun), .job (.refused .sender), .job .leaving,
    .job .fault, .window .overrun, .window .fault, .displaced, .ownSlot, .verdict .done, .verdict .rewind,
    .verdict (.refuse .busy), .verdict (.refuse .closed), .verdict (.refuse .overrun),
    .verdict (.refuse .sender)].map EventResult.code =
    [2, 3, 4, 5, 6, 7, 8, 16, 17, 18, 19, 20, 21, 22, 23, 24, 32, 33, 34, 35, 36, 37, 38, 39, 40, 41, 42, 43, 48, 49, 50, 51,
      52, 53] ∧
  (∀ (st : StationState) (addr len holder : Option Nat) (frame held queued records : Nat),
    (∀ x, len = some x → x = 24 ∨ x = 48 ∨ x = 96) →
    ∃ w1 w2 : PortWord,
      (ReplyData.status st addr len frame holder held queued records).dataWords = [w1, w2] ∧
      w1.toNat = ([StationState.off, .listen, .joining, .member, .leaving, .detached, .fault].idxOf st + 1) * 2 ^ 20 +
        addr.getD 0 % 32 * 2 ^ 15 +
        (match len with
          | none => 0
          | some x => 2 ^ 14 + (if x = 24 then 1 else if x = 48 then 2 else 3) * 2 ^ 12) + frame % 256 * 2 ^ 4 ∧
      w2.toNat = holder.getD 0 % 32 * 2 ^ 19 + held % 32 * 2 ^ 14 + queued % 16 * 2 ^ 10 + records % 64 * 2 ^ 4) ∧
  (∀ n, (ReplyData.tag n).dataWords = [BitVec.ofNat 24 (n % 256 * 2 ^ 16)] ∧
    (ReplyData.job n).dataWords = [BitVec.ofNat 24 (n % 4 * 2 ^ 22)] ∧
    (ReplyData.accepted n).dataWords = [BitVec.ofNat 24 (n % 32 * 2 ^ 19)] ∧
    (ReplyData.written n).dataWords = [BitVec.ofNat 24 (n % 128 * 2 ^ 17)]) ∧
  (∀ ws, (ReplyData.words ws).dataWords = BitVec.ofNat 24 (ws.length % 128 * 2 ^ 17) :: ws) ∧
  (∀ es, (ReplyData.entries es).dataWords =
    BitVec.ofNat 24 (es.length % 32 * 2 ^ 19) :: es.flatMap (fun e =>
      [BitVec.ofNat 24 (e.frame % 256 * 2 ^ 16 + (match e.content with
          | .value _ => 0
          | .gap .fill => 1
          | .gap .silent => 2
          | .gap .corrupt => 3
          | .gap .other => 4) * 2 ^ 13),
        match e.content with
          | .value v => v
          | .gap _ => 0])) ∧
  (∀ es left, (ReplyData.events es left).dataWords =
    BitVec.ofNat 24 (es.length % 16 * 2 ^ 20 + left % 64 * 2 ^ 14) :: es.flatMap Event.words) ∧
  ∀ (a slots : Nat) (isSelf : Bool) (e : RosterEntry), ∃ w1 w2 : PortWord,
    (ReplyData.roster a isSelf e slots).dataWords = [w1, w2] ∧
    w1.toNat = a % 32 * 2 ^ 19 + isSelf.toNat * 2 ^ 18 + e.present.toNat * 2 ^ 17 + e.missed % 4 * 2 ^ 15 +
      (match e.held with
        | none => 0
        | some k => 2 ^ 14 + k % 32 * 2 ^ 9) +
      (match e.eligible with
        | none => 0
        | some b => 2 ^ 8 + b.toNat * 2 ^ 7) ∧
    w2.toNat = (match e.lastRoll with
        | none => 0
        | some f => 2 ^ 23 + f % 256 * 2 ^ 15) + e.stray % 256 * 2 ^ 7 + slots % 128

/-- A selection begins with an empty request and ends with request and reply discarded; while the reset line is asserted
the port stays DESELECTED and the part drives nothing back (R170, R181). A request word that does not complete the request
is added to it in REQUEST, and is not read elsewhere; a reply word out is the word at the reply position in REPLY, ones past
the end, and nothing in REQUEST (R170). That the word driven is kept on the pin, and that nothing is driven in DESELECTED with
the reset line released, is the model's own (log 24). -/
def Obligations.SelectionsAndPortWords : Prop :=
  (∀ s : State, s.pins.select = false →
    exec .targetSelectAsserted s = .next
      { s with
        pins := { s.pins with select := true }
        host := if s.pins.resetLine then s.host
                else { state := .request, request := [], reply := none, position := 0, resetArmed := false } }) ∧
  (∀ s : State, s.host.resetArmed = false →
    exec .targetSelectReleased s = .next
      { s with
        pins := { s.pins with select := false }
        host := { state := .deselected, request := [], reply := none, position := 0, resetArmed := false } }) ∧
  (∀ (s : State) (w : PortWord), s.host.state = .request → decodeRequest (s.host.request ++ [w]) = .incomplete →
    exec (.requestWordShiftedIn w) s = .next { s with host := { s.host with request := s.host.request ++ [w] } }) ∧
  (∀ (s : State) (w : PortWord), s.host.state ≠ .request → exec (.requestWordShiftedIn w) s = .next s) ∧
  (∀ (s : State) (r : Reply), s.host.state = .reply → s.host.reply = some r → s.host.resetArmed = false →
    exec .replyWordShiftedOut s = .next
      { s with
        pins := { s.pins with serialOut := some (r.words[s.host.position]?.getD (BitVec.allOnes 24)) }
        host := { s.host with position := min (s.host.position + 1) r.words.length } }) ∧
  ∀ s : State, (s.host.state = .request ∨ s.host.state = .deselected) →
    exec .replyWordShiftedOut s = .next { s with pins := { s.pins with serialOut := none } }

/-- Every transaction taken in REQUEST is answered at once with a reply that carries the frame number of the taking
(R172), and a refused one changes nothing and posts no event: the reply is all there is (R173). The request field shows
the transaction's canonical words (log 8), and the kind field of the reply to an undefined kind code is free (log 11).
-/
def Obligations.TransactionsAreAnswered : Prop :=
  (∀ (i : Instr) (s : State), i.isTransaction = true → s.host.state = .request →
    (∀ h, i = .undefinedHeader h → headerUndefined h = true ∧ s.host.request = []) →
    ∃ (t : State) (r : TxResult), exec i s = .next t ∧
      t.host = HostPort.replying i (requestWords i) s.timer.frame r (s.host.resetArmed || decide (i = .resetPart))) ∧
  ∀ (i : Instr) (s t : State) (r : Reply) (x : Reason), i.isTransaction = true → exec i s = .next t →
    t.host.reply = some r → r.result = .refused x → t = { s with host := t.host }

/-- A transaction is refused with STATE in every station state that R173's table marks so; a header that cannot fix a
length completes the request at once and is refused with RANGE, and nothing else is done (R171, R173). -/
def Obligations.RefusalsByStateAndHeader : Prop :=
  (∀ (i : Instr) (s : State), i.isTransaction = true → s.host.state = .request → takenIn i s.control.state = false →
    exec i s = .next (s.replied i (.refused .state))) ∧
  ∀ (s : State) (h : PortWord), headerUndefined h = true → s.host.state = .request → s.host.request = [] →
    exec (.undefinedHeader h) s = .next (s.replied (.undefinedHeader h) (.refused .range)) ∧
      requestWords (.undefinedHeader h) = [h]

/-- The resets leave every block at its reset value; buffer memory is kept by a part reset and arbitrary after a
power-on reset, which alone reads the line-rate pins (R181, R182, R183). RESET_PART is taken in every station state with
reply DONE and only arms the part reset, which takes hold when the reply is out or the selection ends (R182). The model's
choices are what the pins and the model's counters keep (log 5), that RESET_PART_TAKES_HOLD is that last reply word or that
release (log 2), the arbitrary words (log 7) and what stands on serial data out (log 24). -/
def Obligations.ResetsRestoreResetValues : Prop :=
  (∀ s : State, exec .resetLineAsserted s = .next
    { State.reset with
      buffer := s.buffer, pins := { s.pins with resetLine := true, serialOut := none }, happening := s.happening,
      pending := s.pending }) ∧
  (∀ s : State, s.pins.resetLine = true → exec .resetLineReleased s = .next
    { State.reset with
      buffer := s.buffer, pins := { s.pins with resetLine := false }, happening := s.happening, pending := s.pending }) ∧
  (∀ s : State, s.host.resetArmed = true →
    exec (.resetPartTakesHold .selectReleased) s = .next
      { State.reset with
        buffer := s.buffer, pins := { s.pins with select := false }, happening := s.happening, pending := s.pending } ∧
    exec .targetSelectReleased s = exec (.resetPartTakesHold .selectReleased) s) ∧
  (∀ (s : State) (r : Reply), s.host.resetArmed = true → s.host.state = .reply → s.host.reply = some r →
    r.words.length ≤ s.host.position + 1 →
    exec (.resetPartTakesHold .replyShiftedOut) s = .next
      { State.reset with
        buffer := s.buffer
        pins := { s.pins with serialOut := some (r.words[s.host.position]?.getD (BitVec.allOnes 24)) }
        happening := s.happening
        pending := s.pending } ∧
    exec .replyWordShiftedOut s = exec (.resetPartTakesHold .replyShiftedOut) s) ∧
  (∀ s : State, s.host.state = .request →
    exec .resetPart s = .next
      { s with host := HostPort.replying .resetPart (requestWords .resetPart) s.timer.frame (.done .nothing) true }) ∧
  ∀ (s : State) (rate : BitVec 2), ∃ t, exec (.powerOnReset rate) s = .next t ∧
    t = { State.reset with
          buffer := t.buffer, pins := { s.pins with lineRate := rate, serialOut := none }, happening := s.happening,
          pending := s.pending } ∧
    ∀ a, t.buffer.read a = Config.arbitraryWord t.buffer.powerOns a

/-! ### Reads that change nothing -/

/-- The commands that read one record or channel, and STATUS and MEMORY_READ, change nothing but the host port and reply
with what stands at the taking, or are refused by the first line of their tables that applies (R68, R89, R126, R134, R155,
R175, R180). -/
def Obligations.ReadsReportAndChangeNothing : Prop :=
  ∀ s : State, s.host.state = .request →
    (∀ a, exec (.readRoster a) s = .next (s.replied (.readRoster a)
      (if s.control.state = .off then .refused .state
      else if 1 ≤ a ∧ a ≤ 30 then
        .done (.roster a (decide (a = s.self)) (s.rosterEntry a)
          ((List.range s.len).filter (fun n => decide (4 ≤ n ∧ (s.entry n).owner = some a))).length)
      else .refused .range))) ∧
    (∀ n, exec (.readSlot n) s = .next (s.replied (.readSlot n)
      (if s.control.state = .off then .refused .state
      else if 4 ≤ n ∧ n < s.len then
        .done (.slot n (s.entry n) (decide ((s.entry n).owner = some s.self))
          (if (s.entry n).role = some .bulk then (s.jobs.find? (fun j => j.slot == some n)).map Job.id else none))
      else .refused .range))) ∧
    (∀ c, exec (.channelStatus .tx c) s = .next (s.replied (.channelStatus .tx c)
        (if s.control.state = .off then .refused .state
        else if c < 8 then
          .done (.txChannel (s.txAt c).queue.length
            ((List.range s.len).filter (fun n => decide (4 ≤ n ∧ (s.entry n).role = some (.stream c))))
            (s.txAt c).underrun (s.txAt c).starved)
        else .refused .range)) ∧
      exec (.channelStatus .rx c) s = .next (s.replied (.channelStatus .rx c)
        (if s.control.state = .off then .refused .state
        else if c < 8 then
          .done (.rxChannel (s.rxAt c).binding (s.rxAt c).queue.length ((s.rxAt c).queue.head?.map RxEntry.frame)
            (s.rxAt c).overrun (s.rxAt c).mismatch (s.rxAt c).overrunFlag)
        else .refused .range))) ∧
    (∀ id, exec (.bulkStatus id) s = .next (s.replied (.bulkStatus id)
      (if s.control.state = .off then .refused .state
      else if id < 4 then
        match s.job id with
        | some j => .done (.jobRecord j (s.jobs.takeWhile (fun x => x.id != id)).length)
        | none => .refused .noSuch
      else .refused .range))) ∧
    (∀ w, exec (.windowStatus w) s = .next (s.replied (.windowStatus w)
      (if s.control.state = .off then .refused .state
      else if w < 4 then
        .done (.window (s.windowAt w) (s.answers.answers.find? (fun a => a.window == w))
          (s.answers.answers.takeWhile (fun a => a.window != w)).length)
      else .refused .range))) ∧
    (∀ a n, exec (.memoryRead a n) s = .next (s.replied (.memoryRead a n)
      (if 1 ≤ n ∧ n ≤ 64 ∧ a + n ≤ 8192 then .done (.words ((List.range n).map (fun i => s.buffer.read (a + i))))
      else .refused .range))) ∧
    exec .status s = .next (s.replied .status
      (.done (.status s.control.state
        (if s.control.state = .off then none else s.control.config.map Configuration.addr)
        (if s.control.state = .off then none else s.control.config.map Configuration.len)
        s.timer.frame s.timer.holder
        ((List.range s.len).filter (fun n => decide (4 ≤ n ∧ (s.entry n).owner = some s.self))).length
        s.claims.records.length (s.events.records.length + if s.events.lost.isSome then 1 else 0))))

/-! ### Chapter 3: station states -/

/-- START in OFF with its parameters in range configures the part, takes it to LISTEN and posts STATE_CHANGED; out of
range it is refused with RANGE (R34, R37). JOIN in DETACHED takes the station to LISTEN with a fresh listen window, its
frame number kept, and both are refused with STATE in every other station state (R34, R37, R51). -/
def Obligations.StartAndJoinListen : Prop :=
  (∀ (s : State) (addr len : Nat) (eligible : Bool), s.host.state = .request → s.control.state = .off →
    exec (.start addr len eligible) s = .next
      (if 1 ≤ addr ∧ addr ≤ 30 ∧ (len = 24 ∨ len = 48 ∨ len = 96) then
        { s with
          control := { s.control with
            state := .listen, config := some { addr := addr, len := len, eligible := eligible }, listenCount := 0,
            observed := false, observing := false, noTrunkReady := true }
          port := { s.port with window := none }
          timer := FrameTimer.reset
          table := Bank.fill 96 SlotEntry.reset
          claims := { s.claims with records := [], contending := false }
          tx := Bank.fill 8 TxChannel.reset
          rx := Bank.fill 8 RxChannel.reset
          jobs := []
          windows := Bank.fill 4 Window.closed
          answers := AnswerQueue.reset
          events := s.events.post { Event.of .stateChanged 0 with result := some (.state .listen) }
          host := HostPort.replying (.start addr len eligible) (requestWords (.start addr len eligible)) s.timer.frame
            (.done .nothing) s.host.resetArmed }
      else s.replied (.start addr len eligible) (.refused .range))) ∧
  (∀ s : State, s.host.state = .request →
    (∀ (addr len : Nat) (eligible : Bool), s.control.state ≠ .off →
      exec (.start addr len eligible) s = .next (s.replied (.start addr len eligible) (.refused .state))) ∧
    (s.control.state ≠ .detached → exec .join s = .next (s.replied .join (.refused .state)))) ∧
  ∀ s : State, s.host.state = .request → s.control.state = .detached →
    exec .join s = .next
      { s with
        control := { s.control with
          state := .listen, listenCount := 0, observed := false, observing := false, noTrunkReady := true }
        port := { s.port with window := none }
        timer := { FrameTimer.reset with frame := s.timer.frame }
        events := s.events.post { Event.of .stateChanged s.timer.frame with result := some (.state .listen) }
        host := HostPort.replying .join (requestWords .join) s.timer.frame (.done .nothing) s.host.resetArmed }

/-- LEAVE in LISTEN or JOINING detaches the station at once, with the values of R50 in every block and WINDOW_STALLED
for each window in RECEIVING or GAP, in window-number order. The order of events of different blocks is free (log 6). -/
def Obligations.LeaveDetaches : Prop :=
  ∀ s : State, s.host.state = .request → (s.control.state = .listen ∨ s.control.state = .joining) →
    ∃ (t : State) (es : List Event), exec .leave s = .next t ∧ s.enteredDetached t ∧
      t.host = HostPort.replying .leave (requestWords .leave) s.timer.frame (.done .nothing) s.host.resetArmed ∧
      t.events = s.events.postAll es ∧
      eventsOf .stateChanged es =
        [{ Event.of .stateChanged s.timer.frame with result := some (.state .detached) }] ∧
      eventsOf .windowStalled es =
        (([0, 1, 2, 3].filter
          (fun w => (s.windowAt w).state == .receiving || (s.windowAt w).state == .gap)).map
            (fun w => { Event.of .windowStalled s.timer.frame with
              window := some w, station := (s.windowAt w).sender, count := some (s.windowAt w).count })) ∧
      es.length = 1 + (eventsOf .windowStalled es).length

/-- LEAVE in MEMBER takes the station to LEAVING: every claim record ends with CLAIM_DONE(LEAVING), oldest first, every
live job fails with LEAVING in order of posting, and nothing else changes (R46, R47, R150). The order of events of
different blocks is free (log 6), and what a failed job keeps beside R150's fields is the model's choice (log 32). -/
def Obligations.LeaveStartsLeaving : Prop :=
  ∀ s : State, s.host.state = .request → s.control.state = .member →
    ∃ (t : State) (es : List Event), exec .leave s = .next t ∧
      t = { s with
            control := { s.control with state := .leaving }
            claims := { s.claims with records := [], contending := false }
            jobs := s.jobs.map
              (fun j => if j.live then { j with state := .failed, result := some .leaving, slot := none } else j)
            events := s.events.postAll es
            happening := t.happening
            host := HostPort.replying .leave (requestWords .leave) s.timer.frame (.accepted .nothing) s.host.resetArmed } ∧
      eventsOf .stateChanged es = [{ Event.of .stateChanged s.timer.frame with result := some (.state .leaving) }] ∧
      eventsOf .claimDone es = s.claims.records.map (fun r =>
        { Event.of .claimDone s.timer.frame with
          tag := some r.tag, result := some (.claim .leaving), slot := r.request.named, count := some r.lost }) ∧
      eventsOf .jobFailed es = (s.jobs.filter Job.live).map (fun j =>
        { Event.of .jobFailed s.timer.frame with
          job := some j.id, station := some j.dest, window := some j.window, result := some (.job .leaving),
          count := some j.next }) ∧
      es.length = 1 + s.claims.records.length + (s.jobs.filter Job.live).length

/-- The station state changes only as the transitions of chapter 3 list. -/
def Obligations.OnlyListedTransitions : Prop :=
  ∀ s t : State, s.alignmentOk → step s = .next t →
    t.control.state = s.control.state ∨ s.control.state.mayBecome t.control.state = true

/-- The configuration, once set, stays until the next reset, and a reset leaves the part in OFF (R35). -/
def Obligations.ConfigurationStaysUntilReset : Prop :=
  ∀ (s t : State) (c : Configuration), s.control.state ≠ .off → s.control.config = some c → step s = .next t →
    t.control.config = some c ∨ (t.control.config = none ∧ t.control.state = .off)

/-- A VALID word with self's address, heard where self sent nothing in JOINING, MEMBER or LEAVING or displacing a word of
self's, puts the station into FAULT(DUPLICATE_ADDRESS) at the end of any slot (R52); a MARK of a peer with another defined
length code puts it into FAULT(FRAME_LENGTH) where it displaces a founding MARK and, in JOINING, in slot 0 when self sent
nothing or is displaced and in every other slot (R21, R23, R27, R33). Every block takes the values of R53; STATE_CHANGED,
CLAIM_DONE for every claim record, JOB_FAILED for every live job and WINDOW_FAILED for every window neither CLOSED nor
COMPLETE are posted (R53, R152). What other blocks have posted before the fault is free, and so is the result of the
contending claim's CLAIM_DONE (R54, log 16); what a failed job and a FAILED window keep beside the rules' fields is the
model's choice (logs 20, 32). That a fault found at the end of the last slot keeps and stamps the frame number of the frame
that ends there is the model's choice too (log 36), and that a MARK of another length heard in place of a JOINING station's
own ROLL gives the fault is its reading (log 37). -/
def Obligations.DuplicateAddressFaults : Prop :=
  ∀ (s : State) (p : Nat) (h : SlotBits) (w : SlotWord) (cause : FaultCause), s.passes p → p < s.len →
    classify h = .valid w →
    (w.sender = s.self ∧ cause = .duplicateAddress ∧
        (s.control.state.onTrunk = true ∧ s.port.word = none ∨
          (s.control.state.onTrunk = true ∨ s.control.state = .listen ∧ p = 0) ∧
            ∃ b, s.port.word = some b ∧ outcomeOf b h = .displaced) ∨
      w.sender ≠ s.self ∧ w.kind = .mark ∧ w.malformed = false ∧ w.markLength ≠ some s.len ∧ cause = .frameLength ∧
        (s.control.state = .joining ∧ (p ≠ 0 ∨ s.port.word = none) ∨
          (s.control.state = .joining ∨ s.control.state = .listen) ∧ p = 0 ∧
            ∃ b, s.port.word = some b ∧ outcomeOf b h = .displaced)) →
    ∃ (t : State) (es : List Event), exec (endCommand p h) s = .next t ∧ s.enteredFault t cause ∧
      (p < 4 → t.rx = s.rx) ∧ t.events = s.events.postAll es ∧
      eventsOf .stateChanged es = [{ Event.of .stateChanged s.timer.frame with result := some (.fault cause) }] ∧
      (p ≠ 2 ∨ s.claims.contending = false →
        eventsOf .claimDone es = s.claims.records.map (fun r =>
          { Event.of .claimDone s.timer.frame with
            tag := some r.tag, result := some (.claim .fault), slot := r.request.named, count := some r.lost })) ∧
      (p = 2 → s.claims.contending = true → ∀ r rs, s.claims.records = r :: rs →
        ∃ first, first.tag = some r.tag ∧
          eventsOf .claimDone es = first :: rs.map (fun r =>
            { Event.of .claimDone s.timer.frame with
              tag := some r.tag, result := some (.claim .fault), slot := r.request.named, count := some r.lost })) ∧
      (∃ earlier, (p ≠ 3 → earlier = []) ∧
        eventsOf .jobFailed es = earlier ++ (s.jobs.filter Job.live).map (fun j =>
          { Event.of .jobFailed s.timer.frame with
            job := some j.id, station := some j.dest, window := some j.window, result := some (.job .fault),
            count := some j.next })) ∧
      ∃ earlier, (p < 4 → earlier = []) ∧
        eventsOf .windowFailed es = earlier ++
          ([0, 1, 2, 3].filter (fun n => (s.windowAt n).state != .closed && (s.windowAt n).state != .complete)).map
            (fun n => { Event.of .windowFailed s.timer.frame with
              window := some n, station := (s.windowAt n).sender, result := some (.window .fault),
              count := some (s.windowAt n).count })

/-! ### Chapter 2: frame timing -/

/-- A hunting candidate (R12, R18, R19, R52): an acceptable MARK of a peer with the configured length aligns the station
and takes it to JOINING; one with another length, or with self's address, puts it into FAULT; anything else is
discarded. -/
def Obligations.HuntingCandidates : Prop :=
  ∀ (s : State) (b : SlotBits), s.control.state = .listen → s.timer.aligned = false →
    (∀ w, classify b = .valid w → w.kind = .mark → w.malformed = false → w.sender ≠ s.self → w.markLength = some s.len →
      ∃ (t : State) (es : List Event), exec (.huntingCandidate b) s = .next t ∧
        t = { s with
              port := { s.port with window := none }
              timer := { aligned := true, position := some 1, passing := false, frame := w.markFrame,
                         holder := some w.sender, holderFlag := false, missed := 0 }
              control := { s.control with state := .joining, observed := false, observing := false }
              events := s.events.postAll es
              happening := t.happening } ∧
        es.Perm [{ Event.of .holderChanged w.markFrame with station := some w.sender },
                 { Event.of .stateChanged w.markFrame with result := some (.state .joining) }]) ∧
    (∀ w, classify b = .valid w → w.kind = .mark → w.malformed = false →
      (w.sender = s.self ∨ w.markLength ≠ some s.len) →
      ∃ t, exec (.huntingCandidate b) s = .next t ∧ t.rx = s.rx ∧
        s.enteredFault t (if w.sender = s.self then .duplicateAddress else .frameLength)) ∧
    ((∀ w, classify b = .valid w → w.kind = .mark → w.malformed = true) →
      exec (.huntingCandidate b) s = .next { s with port := { s.port with window := some b } })

/-- The listen window (R20): each of its frame times raises the count; at the third an eligible station founds timing at
frame 0, and another posts NO_TRUNK once. That the two commands are one happening is the model's reading (log 2). -/
def Obligations.ListenWindowPasses : Prop :=
  ∀ s : State, s.control.state = .listen → s.timer.aligned = false →
    (s.control.listenCount < 2 →
      exec .listenWindowFrameTime s = .next
        { s with control := { s.control with listenCount := s.control.listenCount + 1 } }) ∧
    (s.control.listenCount = 2 →
      exec .listenWindowPasses s = .next
        (if s.eligible then
          { s with
            control := { s.control with listenCount := 3 }
            timer := { s.timer with aligned := true, position := some 0, passing := false, frame := 0 }
            port := { s.port with window := none } }
        else if s.control.noTrunkReady then
          { s with
            control := { s.control with listenCount := 3, noTrunkReady := false }
            events := s.events.post (Event.of .noTrunk s.timer.frame) }
        else { s with control := { s.control with listenCount := 3 } }) ∧
      exec .listenWindowFrameTime s = exec .listenWindowPasses s)

/-- At the start of slot 0 a holder in JOINING, MEMBER or LEAVING, and a founder in LISTEN, send MARK with their frame
number and length code, and another station sends nothing (R20, R25, R38). At the start of slot 1 the station whose turn it
is, (f mod 30) + 1, sends ROLL: ACTIVE in MEMBER and, once its observation is complete, in JOINING; LEAVING in LEAVING; with
its holdings and eligibility (R42, R48, R58, R59). -/
def Obligations.MarkAndRollSlotsStart : Prop :=
  (∀ s : State, s.awaits 0 →
    exec .markSlotStart s = .next
      { s with
        port :=
          if s.control.state = .listen ∨
              ((s.control.state = .joining ∨ s.control.state = .member ∨ s.control.state = .leaving) ∧
                s.timer.holderFlag = true) then
            { s.port with word := some (markWord s.self s.timer.frame s.len).bits, bitsDone := 0, displaced := false,
                          lineError := false, drove := true }
          else { s.port with word := none, bitsDone := 0, displaced := false, lineError := false, drove := false }
        timer := { s.timer with passing := true }
        control := { s.control with
          observing := s.control.observing || decide (s.control.state = .joining ∧ s.control.observed = false) } }) ∧
  ∀ s : State, s.awaits 1 →
    exec .rollSlotStart s = .next
      { s with
        port :=
          if s.timer.frame % 30 + 1 = s.self ∧
              (s.control.state = .member ∨ s.control.state = .leaving ∨
                (s.control.state = .joining ∧ s.control.observed = true)) then
            { s.port with
              word := some (rollWord s.self (decide (s.control.state = .leaving)) s.holdings s.eligible).bits
              bitsDone := 0, displaced := false, lineError := false, drove := true }
          else { s.port with word := none, bitsDone := 0, displaced := false, lineError := false, drove := false }
        timer := { s.timer with passing := true } }

/-- A holder whose MARK is SENT or DISTURBED goes on; one displaced by an acceptable MARK of a peer with the configured
length yields to it, with HOLDER_CHANGED, and one displaced by any other word yields with the holder absent and one missed
mark (R26, R27). A station that sent nothing in slot 0 follows an acceptable MARK of a peer with the configured length:
frame number and holder are the mark's, missed marks are 0, and HOLDER_CHANGED is posted when the holder differs (R22). A
founder whose MARK is SENT or DISTURBED becomes holder and enters JOINING; one displaced by an acceptable MARK of a peer with
the configured length enters JOINING as its follower, and one displaced by CORRUPT or a word other than a MARK hunts again
(R21). An acceptable MARK heard in another slot, from a peer at or below the holder address, realigns the station to it
(R32, R41). That a realignment's HOLDER_CHANGED is stamped with the mark's frame number is the model's reading of R177
(log 15). -/
def Obligations.MarksAreFollowed : Prop :=
  (∀ (s : State) (h : SlotBits) (w : SlotWord), s.passes 0 → 1 < s.len →
    (s.control.state = .joining ∨ s.control.state = .member ∨ s.control.state = .leaving) → s.port.word = none →
    classify h = .valid w → w.kind = .mark → w.malformed = false → w.sender ≠ s.self → w.markLength = some s.len →
    exec (.markSlotEnd h) s = .next
      { s with
        port := s.port.listened (.valid w)
        timer := { s.timer with frame := w.markFrame, holder := some w.sender, missed := 0, position := some 1,
                                passing := false }
        events := if s.timer.holder = some w.sender then s.events
                  else s.events.post { Event.of .holderChanged w.markFrame with station := some w.sender }
        happening := s.happening + 1 }) ∧
  (∀ (s : State) (h b : SlotBits), s.passes 0 → 1 < s.len → s.control.state = .listen → s.port.word = some b →
    (outcomeOf b h ≠ .displaced →
      ∃ (t : State) (es : List Event), exec (.markSlotEnd h) s = .next t ∧
        t = { s with
              port := t.port
              timer := { s.timer with holderFlag := true, holder := some s.self, position := some 1, passing := false }
              control := { s.control with state := .joining, observed := false, observing := false }
              events := s.events.postAll es
              happening := s.happening + 1 } ∧
        t.port.word = none ∧ t.port.heard = some (classify h) ∧
        es.Perm [{ Event.of .holderChanged s.timer.frame with station := some s.self },
                 { Event.of .stateChanged s.timer.frame with result := some (.state .joining) }]) ∧
    (outcomeOf b h = .displaced → ∀ w, classify h = .valid w → w.kind = .mark → w.malformed = false → w.sender ≠ s.self →
      w.markLength = some s.len →
      ∃ (t : State) (es : List Event), exec (.markSlotEnd h) s = .next t ∧
        t = { s with
              port := t.port
              timer := { aligned := true, position := some 1, passing := false, frame := w.markFrame,
                         holder := some w.sender, holderFlag := false, missed := 0 }
              control := { s.control with state := .joining, observed := false, observing := false }
              events := s.events.postAll es
              happening := s.happening + 1 } ∧
        t.port.word = none ∧ t.port.heard = some (classify h) ∧
        es.Perm [{ Event.of .holderChanged w.markFrame with station := some w.sender },
                 { Event.of .stateChanged w.markFrame with result := some (.state .joining) }]) ∧
    (outcomeOf b h = .displaced →
      (∀ w, classify h = .valid w → w.sender ≠ s.self ∧ (w.kind = .mark → w.malformed = true)) →
      ∃ t : State, exec (.markSlotEnd h) s = .next t ∧
        t = { s with
              port := t.port
              timer := { s.timer with aligned := false, position := none, passing := false, frame := 0 }
              control := { s.control with listenCount := 0 }
              happening := t.happening } ∧
        t.port.word = none ∧ t.port.window = none)) ∧
  (∀ (s : State) (h b : SlotBits), s.passes 0 → 1 < s.len → s.control.state.onTrunk = true → s.port.word = some b →
    (outcomeOf b h ≠ .displaced →
      ∃ t : State, exec (.markSlotEnd h) s = .next t ∧
        t = { s with
              port := t.port
              timer := { s.timer with position := some 1, passing := false }
              happening := s.happening + 1 } ∧
        t.port.word = none ∧ t.port.heard = some (classify h)) ∧
    (outcomeOf b h = .displaced → ∀ w, classify h = .valid w → w.kind = .mark → w.malformed = false → w.sender ≠ s.self →
      w.markLength = some s.len →
      ∃ t, exec (.markSlotEnd h) s = .next t ∧
        t = { s with
              port := t.port
              timer := { s.timer with holderFlag := false, frame := w.markFrame, holder := some w.sender, missed := 0,
                                      position := some 1, passing := false }
              events := s.events.post { Event.of .holderChanged w.markFrame with station := some w.sender }
              happening := s.happening + 1 }) ∧
    (outcomeOf b h = .displaced → (∀ w, classify h = .valid w → w.sender ≠ s.self) →
      (∀ w, classify h = .valid w → w.kind = .mark → w.malformed = false →
        w.markLength ≠ some s.len ∧ s.control.state ≠ .joining) →
      ∃ (t : State) (es : List Event), exec (.markSlotEnd h) s = .next t ∧
        t = { s with
              port := t.port
              timer := { s.timer with holderFlag := false, holder := none, missed := 1, position := some 1,
                                      passing := false }
              events := s.events.postAll es
              happening := s.happening + 1 } ∧
        eventsOf .holderChanged es = [Event.of .holderChanged s.timer.frame] ∧
        es.length = 1 + (eventsOf .markMismatch es).length ∧
        eventsOf .markMismatch es = (match classify h with
          | .valid w => if w.kind = .mark ∧ w.malformed = false then
              [{ Event.of .markMismatch s.timer.frame with station := some w.sender, slot := some 0 }] else []
          | _ => []))) ∧
  ∀ (s : State) (p : Nat) (h : SlotBits) (w : SlotWord), s.passes p → p ≠ 0 → p < s.len →
    s.control.state.onTrunk = true → s.port.word = none → classify h = .valid w → w.kind = .mark → w.malformed = false →
    w.sender ≠ s.self → w.markLength = some s.len → (∀ k, s.timer.holder = some k → w.sender ≤ k) →
    ∃ (t : State) (es : List Event), exec (endCommand p h) s = .next t ∧
      t.timer = { aligned := true, position := some 1, passing := false, frame := w.markFrame, holder := some w.sender,
                  holderFlag := false, missed := 0 } ∧
      t.control = (if s.control.state = .joining then { s.control with observed := false, observing := false }
                   else s.control) ∧
      t.events = s.events.postAll es ∧
      eventsOf .holderChanged es =
        (if s.timer.holder = some w.sender ∧ s.timer.holderFlag = false then []
         else [{ Event.of .holderChanged w.markFrame with station := some w.sender }])

/-- At the end of every slot occurrence that brings no MARK, the slot position advances by one, and at the end of the last
slot it returns to 0 and the frame number advances by one modulo 240 (R11, R17). A MARK heard outside slot 0 from a station
above the holder address is ignored with MARK_STRAY, and in MEMBER and LEAVING one with another defined length code with
MARK_MISMATCH: slot position and frame number advance in the same way, and holder, holder flag and missed marks stay (R33).
That an event at the end of the last slot carries the number of the frame that ends there is the model's choice (log 38). -/
def Obligations.FramesAdvance : Prop :=
  (∀ (s t : State) (p : Nat) (h : SlotBits), s.passes p → p < s.len → 1 < s.len → s.control.state.onTrunk = true →
    (∀ w, classify h = .valid w → w.kind ≠ .mark) → exec (endCommand p h) s = .next t →
    t.control.state.onTrunk = true →
    t.timer.aligned = true ∧ t.timer.passing = false ∧
    t.timer.position = some (if p + 1 < s.len then p + 1 else 0) ∧
    t.timer.frame = if p + 1 < s.len then s.timer.frame else (s.timer.frame + 1) % 240) ∧
  ∀ (s : State) (p : Nat) (h : SlotBits) (w : SlotWord) (kind : EventKind), s.passes p → 1 ≤ p → p < s.len →
    s.control.state.onTrunk = true → s.port.word = none → classify h = .valid w → w.kind = .mark → w.malformed = false →
    w.sender ≠ s.self →
    (w.markLength = some s.len ∧ (∃ k, s.timer.holder = some k ∧ k < w.sender) ∧ kind = .markStray ∨
      w.markLength ≠ some s.len ∧ s.control.state ≠ .joining ∧ kind = .markMismatch) →
    ∃ (t : State) (es : List Event), exec (endCommand p h) s = .next t ∧
      t.timer = { s.timer with
        position := some (if p + 1 < s.len then p + 1 else 0), passing := false
        frame := if p + 1 < s.len then s.timer.frame else (s.timer.frame + 1) % 240 } ∧
      t.control.state = s.control.state ∧ t.events = s.events.postAll es ∧
      eventsOf .markStray es ++ eventsOf .markMismatch es =
        [{ Event.of kind s.timer.frame with station := some w.sender, slot := some p }]

/-- A slot 0 in which self sends nothing and hears no MARK to follow is a missed mark: SILENT, CORRUPT, a malformed MARK, a
word of another kind, and in MEMBER and LEAVING a MARK with another defined length code, with MARK_MISMATCH (R23, R24). The
count rises by 1 up to 4 and holder and frame number stay. At a MEMBER's second missed mark the candidate rule makes self the
holder exactly when it is the lowest PRESENT and eligible station other than the holder (R28), and at the fourth an eligible
MEMBER whose holder flag is clear takes up holding (R29), both with HOLDER_CHANGED; a JOINING station's fourth returns it to
LISTEN with roster and table cleared and its frame number kept (R30, R44). A MEMBER that hears a ROLL(LEAVING) of its
holder runs the candidate rule at once: self takes up holding, or the holder becomes absent (R31, R65). The three commands
are slot 0 ends, as the model reads the table (log 2), and self's own eligibility is the configured one (log 27). -/
def Obligations.MissedMarksBringTakeover : Prop :=
  (∀ (s : State) (h : SlotBits) (takes : Bool), s.passes 0 → 1 < s.len → s.control.state.onTrunk = true →
    s.port.word = none → 1 ≤ s.self → s.self ≤ 30 → (s.control.state = .joining → s.timer.missed ≠ 3) →
    (∀ w, classify h = .valid w → w.sender ≠ s.self ∧
      (w.kind = .mark → w.malformed = true ∨ w.markLength ≠ some s.len ∧ s.control.state ≠ .joining)) →
    (takes = true ↔ s.control.state = .member ∧
      (s.timer.missed = 1 ∧ s.eligible = true ∧ s.isPresent s.self = true ∧ s.timer.holder ≠ some s.self ∧
          (∀ a < s.self, 1 ≤ a →
            ¬(s.isPresent a = true ∧ (s.rosterEntry a).eligible = some true ∧ s.timer.holder ≠ some a)) ∨
        s.timer.missed = 3 ∧ s.eligible = true ∧ s.timer.holderFlag = false)) →
    ∃ (t : State) (es : List Event), exec (.markSlotEnd h) s = .next t ∧
      t = { s with
            port := s.port.listened (classify h)
            timer := if takes then
                { s.timer with holderFlag := true, holder := some s.self, missed := 0, position := some 1,
                               passing := false }
              else
                { s.timer with missed := if s.timer.missed < 4 then s.timer.missed + 1 else 4, position := some 1,
                               passing := false }
            events := s.events.postAll es
            happening := s.happening + 1 } ∧
      eventsOf .holderChanged es =
        (if takes then [{ Event.of .holderChanged s.timer.frame with station := some s.self }] else []) ∧
      eventsOf .markMismatch es = (match classify h with
        | .valid w => if w.kind = .mark ∧ w.malformed = false then
            [{ Event.of .markMismatch s.timer.frame with station := some w.sender, slot := some 0 }] else []
        | _ => []) ∧
      es.length = (eventsOf .holderChanged es).length + (eventsOf .markMismatch es).length ∧
      (s.control.state = .member → s.timer.missed = 1 → exec (.candidateRule h) s = .next t) ∧
      (takes = true → s.timer.missed = 3 → exec (.escalation h) s = .next t)) ∧
  (∀ (s : State) (h : SlotBits), s.passes 0 → 1 < s.len → s.port.word = none → s.timer.missed = 3 →
    (∀ w, classify h = .valid w → w.sender ≠ s.self ∧ (w.kind = .mark → w.malformed = true)) →
    s.control.state = .joining →
      exec (.joiningToListen h) s = .next
        { s with
          port := { s.port.listened (classify h) with window := none }
          timer := { FrameTimer.reset with frame := s.timer.frame }
          control := { s.control with
            state := .listen, listenCount := 0, observed := false, observing := false, noTrunkReady := true }
          roster := Bank.fill 31 RosterEntry.reset
          table := Bank.fill 96 SlotEntry.reset
          events := s.events.post { Event.of .stateChanged s.timer.frame with result := some (.state .listen) }
          happening := s.happening + 1 } ∧
      exec (.markSlotEnd h) s = exec (.joiningToListen h) s) ∧
  ∀ (s : State) (h : SlotBits) (w : SlotWord), s.passes 1 → 2 < s.len → s.control.state = .member →
    s.port.word = none → 1 ≤ s.self → s.self ≤ 30 → classify h = .valid w → w.kind = .roll → w.malformed = false →
    w.rollLeaving = true → w.sender ≠ s.self → w.sender = s.timer.frame % 30 + 1 → s.timer.holder = some w.sender →
    ∃ (t : State) (es : List Event), exec (.rollSlotEnd h) s = .next t ∧
      t = { s with
            port := s.port.listened (.valid w)
            timer := if s.eligible = true ∧ s.isPresent s.self = true ∧
                (∀ a < s.self, 1 ≤ a → a ≠ w.sender →
                  ¬(s.isPresent a = true ∧ (s.rosterEntry a).eligible = some true)) then
                { s.timer with holderFlag := true, holder := some s.self, missed := 0, position := some 2,
                               passing := false }
              else { s.timer with holder := none, position := some 2, passing := false }
            roster := s.roster.set w.sender { s.rosterEntry w.sender with
              present := false, missed := 0, held := none, eligible := none, lastRoll := some s.timer.frame }
            table := s.table.map (fun e =>
              if e.owner = some w.sender then { e with owner := none, silence := 0, role := none } else e)
            events := s.events.postAll es
            happening := s.happening + 1 } ∧
      eventsOf .stationLeft es =
        [{ Event.of .stationLeft s.timer.frame with
           station := some w.sender, count := some (s.heldCount w.sender) }] ∧
      eventsOf .holderChanged es =
        [if s.eligible = true ∧ s.isPresent s.self = true ∧
            (∀ a < s.self, 1 ≤ a → a ≠ w.sender →
              ¬(s.isPresent a = true ∧ (s.rosterEntry a).eligible = some true)) then
          { Event.of .holderChanged s.timer.frame with station := some s.self }
        else Event.of .holderChanged s.timer.frame]

/-! ### Chapter 4: the roster -/

/-- The acceptable ROLL(ACTIVE) of the peer whose turn it is makes its entry PRESENT and stores its fields, with
STATION_JOINED for an entry that was ABSENT and HOLDINGS_DIFFER for a count that is not the table's (R61, R62); its
ROLL(LEAVING) makes it ABSENT and frees its slots, with STATION_LEFT, unless a MEMBER hears it of its holder (R31, R65). That
HOLDINGS_DIFFER comes first of the two is the model's reading (log 22). A JOINING station's own ROLL that is SENT takes it to
MEMBER, and one of a MEMBER stores its count and frame (R43, R60). A LEAVING station's ROLL(LEAVING) takes it to DETACHED
whatever the outcome, with ROLL_MISPLACED for a peer's ROLL that displaced it alone (R49, R50, R60, R64). The frame number
kept, which STATE_CHANGED carries, is the frame timer's own; where a MARK that realigns the station is heard there it may be
the MARK's instead, either order being allowed by the model (R32, R49, log 17). -/
def Obligations.RollsAreHeard : Prop :=
  (∀ (s : State) (h : SlotBits) (w : SlotWord), s.passes 1 → 2 < s.len → classify h = .valid w → w.kind = .roll →
    w.malformed = false → w.sender = s.timer.frame % 30 + 1 →
    (w.rollLeaving = false → w.sender ≠ s.self → s.port.word = none → s.control.state.onTrunk = true →
      exec (.rollSlotEnd h) s = .next
        { s with
          port := s.port.listened (.valid w)
          timer := s.timer.next 1
          roster := s.roster.set w.sender { s.rosterEntry w.sender with
            present := true, missed := 0, held := some w.rollHeld, eligible := some w.rollEligible,
            lastRoll := some s.timer.frame }
          events := s.events.postAll
            ((if w.rollHeld = s.heldCount w.sender then []
              else [{ Event.of .holdingsDiffer s.timer.frame with
                      station := some w.sender, result := some (.number w.rollHeld),
                      count := some (s.heldCount w.sender) }]) ++
             (if s.isPresent w.sender then []
              else [{ Event.of .stationJoined s.timer.frame with station := some w.sender }]))
          happening := s.happening + 1 }) ∧
    (w.rollLeaving = true → w.sender ≠ s.self → s.port.word = none → s.control.state.onTrunk = true →
      (s.control.state ≠ .member ∨ s.timer.holder ≠ some w.sender) →
      exec (.rollSlotEnd h) s = .next
        { s with
          port := s.port.listened (.valid w)
          timer := s.timer.next 1
          roster := s.roster.set w.sender { s.rosterEntry w.sender with
            present := false, missed := 0, held := none, eligible := none, lastRoll := some s.timer.frame }
          table := s.table.map (fun e =>
            if e.owner = some w.sender then { e with owner := none, silence := 0, role := none } else e)
          events := s.events.postAll
            ((if w.rollHeld = s.heldCount w.sender then []
              else [{ Event.of .holdingsDiffer s.timer.frame with
                      station := some w.sender, result := some (.number w.rollHeld),
                      count := some (s.heldCount w.sender) }]) ++
             [{ Event.of .stationLeft s.timer.frame with
                station := some w.sender, count := some (s.heldCount w.sender) }])
          happening := s.happening + 1 }) ∧
    (w.rollLeaving = false → w.sender = s.self → s.port.word = some h → s.control.state = .joining →
      exec (.rollSlotEnd h) s = .next
        { s with
          port := s.port.sentWhole (.valid w)
          timer := s.timer.next 1
          control := { s.control with state := .member }
          roster := s.roster.set s.self { s.rosterEntry s.self with
            present := true, missed := 0, held := some w.rollHeld, eligible := some s.eligible,
            lastRoll := some s.timer.frame }
          events := s.events.post { Event.of .stateChanged s.timer.frame with result := some (.state .member) }
          happening := s.happening + 1 }) ∧
    (w.rollLeaving = false → w.sender = s.self → s.port.word = some h → s.control.state = .member →
      exec (.rollSlotEnd h) s = .next
        { s with
          port := s.port.sentWhole (.valid w)
          timer := s.timer.next 1
          roster := s.roster.set s.self { s.rosterEntry s.self with
            held := some w.rollHeld, lastRoll := some s.timer.frame }
          happening := s.happening + 1 })) ∧
  ∀ (s : State) (h b : SlotBits) (own : SlotWord), s.passes 1 → 2 < s.len → s.control.state = .leaving →
    s.timer.frame % 30 + 1 = s.self → s.port.word = some b → classify b = .valid own → own.kind = .roll →
    own.rollLeaving = true → (outcomeOf b h = .displaced → ∀ w, classify h = .valid w → w.sender ≠ s.self) →
    ∃ (t : State) (es : List Event) (frame : Nat), exec (.rollSlotEnd h) s = .next t ∧
      (frame = s.timer.frame ∨
        ∃ w, classify h = .valid w ∧ w.kind = .mark ∧ w.malformed = false ∧ w.sender ≠ s.self ∧
          w.markLength = some s.len ∧ (∀ k, s.timer.holder = some k → w.sender ≤ k) ∧ frame = w.markFrame) ∧
      ({ s with timer := { s.timer with frame := frame } } : State).enteredDetached t ∧ t.host = s.host ∧
      t.events = s.events.postAll es ∧
      eventsOf .stateChanged es = [{ Event.of .stateChanged frame with result := some (.state .detached) }] ∧
      eventsOf .rollMisplaced es = (match classify h with
        | .valid w => if outcomeOf b h = .displaced ∧ w.kind = .roll ∧ w.malformed = false then
            [{ Event.of .rollMisplaced s.timer.frame with station := some w.sender, slot := some 1 }] else []
        | _ => [])

/-- In the turn of a peer, every heard word but its own acceptable ROLL is a missed roll: SILENT, CORRUPT, malformed, of
another kind or of another station, whose acceptable ROLL is misplaced, with ROLL_MISPLACED and its entry unchanged (R63,
R64). A PRESENT peer's missed-roll count rises, and at 2 it is dropped: ABSENT, its slots freed, STATION_LOST posted with
their number (R63, R73). In self's own turn in JOINING and MEMBER a peer's acceptable ROLL is misplaced where self sent
nothing or was displaced, and a ROLL of self's that is DISTURBED or displaced changes nothing else (R43, R58, R60).
STATION_LOST is a slot 1 end, as the model reads the table (log 2), and that a realigning MARK heard there is stamped with
its own frame number is log 15. -/
def Obligations.SilentStationsAreDropped : Prop :=
  (∀ (s : State) (h : SlotBits) (a : Nat), s.passes 1 → 2 < s.len → s.control.state.onTrunk = true → s.port.word = none →
    a = s.timer.frame % 30 + 1 → a ≠ s.self →
    (∀ w, classify h = .valid w → w.sender ≠ s.self ∧ (w.kind = .roll → w.malformed = true ∨ w.sender ≠ a) ∧
      (w.kind = .mark → w.malformed = true ∨ w.markLength = some s.len)) →
    ∃ (t : State) (es : List Event), exec (.rollSlotEnd h) s = .next t ∧
      t = { s with
            port := s.port.listened (classify h)
            timer := t.timer
            control := t.control
            roster := t.roster
            table := t.table
            events := s.events.postAll es
            happening := s.happening + 1 } ∧
      ((∀ w, classify h = .valid w → w.kind ≠ .mark) → t.timer = s.timer.next 1 ∧ t.control = s.control) ∧
      eventsOf .rollMisplaced es = (match classify h with
        | .valid w => if w.kind = .roll ∧ w.malformed = false then
            [{ Event.of .rollMisplaced s.timer.frame with station := some w.sender, slot := some 1 }] else []
        | _ => []) ∧
      (if s.isPresent a = true ∧ 1 ≤ (s.rosterEntry a).missed then
        t.roster = s.roster.set a { s.rosterEntry a with present := false, missed := 2, held := none, eligible := none } ∧
        t.table = s.table.map (fun e =>
          if e.owner = some a then { e with owner := none, silence := 0, role := none } else e) ∧
        eventsOf .stationLost es =
          [{ Event.of .stationLost s.timer.frame with station := some a, count := some (s.heldCount a) }] ∧
        exec (.stationLost h) s = .next t
      else
        t.roster = (if s.isPresent a = true then s.roster.set a { s.rosterEntry a with missed := 1 } else s.roster) ∧
        t.table = s.table ∧ eventsOf .stationLost es = [])) ∧
  ∀ (s : State) (h : SlotBits), s.passes 1 → 2 < s.len → (s.control.state = .joining ∨ s.control.state = .member) →
    s.timer.frame % 30 + 1 = s.self → (∀ w, classify h = .valid w → w.kind ≠ .mark) →
    (∀ b, s.port.word = some b → outcomeOf b h ≠ .sent) →
    ((∀ b, s.port.word = some b → outcomeOf b h = .displaced) → ∀ w, classify h = .valid w → w.sender ≠ s.self) →
    ∃ t : State, exec (.rollSlotEnd h) s = .next t ∧
      t = { s with
            port := t.port
            timer := s.timer.next 1
            events := (match classify h with
              | .valid w =>
                if w.kind = .roll ∧ w.malformed = false ∧ (s.port.word.map (fun b => outcomeOf b h)) ≠ some .disturbed then
                  s.events.post { Event.of .rollMisplaced s.timer.frame with station := some w.sender, slot := some 1 }
                else s.events
              | _ => s.events)
            happening := s.happening + 1 } ∧
      t.port.word = none ∧ t.port.heard = some (classify h)

/-! ### Chapter 6: claims -/

/-- CLAIM and RELEASE by the first line of their tables that applies (R93, R95): accepted, they add a record at the tail
with the first free tag from the counter on, and the reply carries that tag (R92, R94). -/
def Obligations.ClaimsAndReleasesAreQueued : Prop :=
  ∀ s : State, s.host.state = .request →
    (∀ (arg : ClaimArg) (p : Nat) (ra : RoleArg),
      (s.control.state ≠ .member → exec (.claim arg p ra) s = .next (s.replied (.claim arg p ra) (.refused .state))) ∧
      (s.control.state = .member →
        (3 < p ∨ (∃ n, arg = .slot n ∧ ¬(4 ≤ n ∧ n < s.len)) ∨ (∃ c, 8 ≤ c ∧ ra = .stream c) ∨
          (∃ k, arg = .undefined k) ∨ ∃ k, ra = .undefined k) →
        exec (.claim arg p ra) s = .next (s.replied (.claim arg p ra) (.refused .range)))) ∧
    (∀ n, (s.control.state ≠ .member → exec (.release n) s = .next (s.replied (.release n) (.refused .state))) ∧
      (s.control.state = .member → ¬(4 ≤ n ∧ n < s.len) →
        exec (.release n) s = .next (s.replied (.release n) (.refused .range)))) ∧
    (s.control.state = .member →
      ∀ (arg : ClaimArg) (req : ClaimRequest) (p : Nat) (ra : RoleArg) (role : Option Role) (n : Nat), p ≤ 3 →
        (arg = .any ∧ req = .any ∨ ∃ m, 4 ≤ m ∧ m < s.len ∧ arg = .slot m ∧ req = .slot m) →
        (ra = .absent ∧ role = none ∨ ra = .spare ∧ role = some .spare ∨ ra = .bulk ∧ role = some .bulk ∨
          ∃ c < 8, ra = .stream c ∧ role = some (.stream c)) →
        4 ≤ n → n < s.len →
        (8 ≤ s.claims.records.length →
          exec (.claim arg p ra) s = .next (s.replied (.claim arg p ra) (.refused .queueFull)) ∧
          exec (.release n) s = .next (s.replied (.release n) (.refused .queueFull))) ∧
        (s.claims.records.length < 8 →
          ∃ tag k, k ≤ s.claims.records.length ∧ tag = (s.claims.tagCounter + k) % 256 ∧
            (∀ r ∈ s.claims.records, r.tag ≠ tag) ∧
            (∀ j < k, ∃ r ∈ s.claims.records, r.tag = (s.claims.tagCounter + j) % 256) ∧
            exec (.claim arg p ra) s = .next
              (if 16 ≤ s.limitCount then s.replied (.claim arg p ra) (.refused .limit)
              else ({ s with claims :=
                  { records := s.claims.records ++
                      [{ tag := tag, request := req, base := p, effective := p, lost := 0, role := role, cancel := false }]
                    tagCounter := (tag + 1) % 256
                    contending := s.claims.contending } } : State).replied (.claim arg p ra) (.accepted (.tag tag))) ∧
            exec (.release n) s = .next
              (if (s.entry n).owner ≠ some s.self then s.replied (.release n) (.refused .notHeld)
              else ({ s with claims :=
                  { records := s.claims.records ++
                      [{ tag := tag, request := .release n, base := 0, effective := 0, lost := 0, role := none,
                         cancel := false }]
                    tagCounter := (tag + 1) % 256
                    contending := s.claims.contending } } : State).replied (.release n) (.accepted (.tag tag)))))

/-- CLAIM_CANCEL (R96): refused with STATE outside MEMBER; in MEMBER a record that is not contending is removed at once with CLAIM_DONE(CANCELLED); the
contending head is marked; a tag that no record holds is refused with NO_SUCH. -/
def Obligations.ClaimCancelRemovesOrMarks : Prop :=
  ∀ (s : State) (tag : Nat), s.host.state = .request →
    (s.control.state ≠ .member →
      exec (.claimCancel tag) s = .next (s.replied (.claimCancel tag) (.refused .state))) ∧
    (s.control.state = .member → (∀ r ∈ s.claims.records, r.tag ≠ tag) →
      exec (.claimCancel tag) s = .next (s.replied (.claimCancel tag) (.refused .noSuch))) ∧
    (∀ r rs, s.control.state = .member → s.claims.records = r :: rs → r.tag = tag → s.claims.contending = true →
      exec (.claimCancel tag) s = .next
        (({ s with claims := { s.claims with records := { r with cancel := true } :: rs } } : State).replied
          (.claimCancel tag) (.accepted (.tag tag)))) ∧
    ∀ before r after, s.control.state = .member → s.claims.records = before ++ r :: after → r.tag = tag → (∀ x ∈ before, x.tag ≠ tag) →
      (s.claims.contending = false ∨ before ≠ []) →
      exec (.claimCancel tag) s = .next
        (({ s with
            claims := { s.claims with records := before ++ after }
            events := s.events.post
              { Event.of .claimDone s.timer.frame with
                tag := some tag, result := some (.claim .cancelled), count := some r.lost,
                slot := match r.request with
                  | .slot n => some n
                  | .any => none
                  | .release n => some n } } : State).replied (.claimCancel tag) (.done .nothing))

/-- The settle pass at the start of slot 2 in MEMBER (R98, R99): the heads whose answer is known leave with it, oldest
first, and the first other one contends with its word; in the other states nothing is sent. -/
def Obligations.ClaimSlotStarts : Prop :=
  ∀ (s : State) (answer : ClaimRecord → Option (ClaimResult × Option Nat)), s.awaits 2 →
    (∀ r, answer r = match r.request with
      | .slot n => if (s.entry n).owner = none then none else some (.refusedHeld, (s.entry n).owner)
      | .any => if ∃ n < s.len, 4 ≤ n ∧ (s.entry n).owner = none then none else some (.refusedFull, none)
      | .release n => if (s.entry n).owner = some s.self then none else some (.notHeld, none)) →
    (s.control.state = .member →
      ∃ left : List ClaimRecord, left = s.claims.records.dropWhile (fun r => (answer r).isSome) ∧
        exec .claimSlotStart s = .next
          { s with
            port := { s.port with
              word := left.head?.map (fun r => (claimWord s.self
                (match r.request with
                  | .release _ => 0
                  | _ => r.effective)
                (match r.request with
                  | .slot _ => 1
                  | .any => 2
                  | .release _ => 3)
                (match r.request with
                  | .slot n => n
                  | .any => 0
                  | .release n => n)).bits)
              bitsDone := 0, displaced := false, lineError := false, drove := !left.isEmpty }
            timer := { s.timer with passing := true }
            claims := { s.claims with records := left, contending := !left.isEmpty }
            events := s.events.postAll
              ((s.claims.records.takeWhile (fun r => (answer r).isSome)).map (fun r =>
                { Event.of .claimDone s.timer.frame with
                  tag := some r.tag, result := (answer r).map (fun x => EventResult.claim x.1), slot := r.request.named,
                  station := (answer r).bind Prod.snd, count := some r.lost })) }) ∧
    (s.control.state ≠ .member →
      exec .claimSlotStart s = .next
        { s with
          port := { s.port with word := none, bitsDone := 0, displaced := false, lineError := false, drove := false }
          timer := { s.timer with passing := true } })

/-- A SLOT or ANY head whose word is SENT leaves the queue with CLAIM_DONE(GRANTED) and its slot becomes self-owned with
the grant role, its receive bindings removed with RX_UNBOUND (R80, R100, R104, R105, R108, R124); a RELEASE head whose word is SENT leaves with
CLAIM_DONE(RELEASED), its slot is freed and the slot's job suspended (R81, R100, R106). A CLAIM word of a peer
gives it a free slot, SLOT n or the lowest free one for ANY, or frees its own slot for RELEASE; one for a slot that is owned,
for ANY with no free slot, or for the RELEASE of a slot that is not its sender's changes nothing; self sending nothing, no
other block changes (R88, R104, R105, R106). That RX_UNBOUND comes before CLAIM_DONE is the model's reading (log 22). -/
def Obligations.ClaimWordsAreApplied : Prop :=
  (∀ (s : State) (r : ClaimRecord) (rs : List ClaimRecord) (n : Nat), s.passes 2 → s.len ≤ 96 → s.control.state = .member →
    1 ≤ s.self → s.self ≤ 30 → s.claims.records = r :: rs → s.claims.contending = true →
    4 ≤ n → n < s.len → (s.entry n).owner = none →
    (r.request = .slot n ∨ (r.request = .any ∧ ∀ m < n, 4 ≤ m → (s.entry m).owner ≠ none)) →
    ∀ w : SlotWord,
      w = (match r.request with
        | .slot m => claimWord s.self r.effective 1 m
        | .any => claimWord s.self r.effective 2 0
        | .release m => claimWord s.self 0 3 m) → s.port.word = some w.bits →
      ∃ (t : State) (unbound : List Event), exec (.claimSlotEnd w.bits) s = .next t ∧
        t = { s with
              port := s.port.sentWhole (.valid w)
              timer := s.timer.next 2
              claims := { s.claims with records := rs, contending := false }
              table := s.table.set n { s.entry n with
                owner := some s.self, silence := 0
                role := some (match r.role with
                  | none => .spare
                  | some (.stream c) =>
                    if ((List.range s.len).filter (fun m => decide (4 ≤ m ∧ (s.entry m).role = some (.stream c)))).length < 4
                    then .stream c else .spare
                  | some x => x) }
              rx := s.rx.map (fun x => if x.binding.map Binding.slot = some n then { x with binding := none } else x)
              events := s.events.postAll (unbound ++
                [{ Event.of .claimDone s.timer.frame with
                   tag := some r.tag, result := some (.claim .granted), slot := some n, count := some r.lost }])
              happening := s.happening + 1 } ∧
        unbound.Perm (([0, 1, 2, 3, 4, 5, 6, 7].filter
            (fun c => decide ((s.rxAt c).binding.map Binding.slot = some n))).map (fun c =>
          { Event.of .rxUnbound s.timer.frame with channel := some c, slot := some n, result := some .ownSlot }))) ∧
  (∀ (s : State) (r : ClaimRecord) (rs : List ClaimRecord) (n : Nat), s.passes 2 → s.len ≤ 96 → s.control.state = .member →
    1 ≤ s.self → s.self ≤ 30 → s.claims.records = r :: rs → s.claims.contending = true →
    4 ≤ n → n < s.len → r.request = .release n → (s.entry n).owner = some s.self →
    s.port.word = some (claimWord s.self 0 3 n).bits →
    exec (.claimSlotEnd (claimWord s.self 0 3 n).bits) s = .next
      { s with
        port := s.port.sentWhole (.valid (claimWord s.self 0 3 n))
        timer := s.timer.next 2
        claims := { s.claims with records := rs, contending := false }
        table := s.table.set n { s.entry n with owner := none, silence := 0, role := none }
        jobs := if (s.entry n).role = some .bulk then
            s.jobs.map (fun j => if j.slot = some n then
              { j with state := .queued, headDue := true, resume := true, timer := 0, slot := none } else j)
          else s.jobs
        events := s.events.post { Event.of .claimDone s.timer.frame with
          tag := some r.tag, result := some (.claim .released), slot := some n, count := some r.lost }
        happening := s.happening + 1 }) ∧
  ∀ (s : State) (h : SlotBits) (w : SlotWord) (n : Nat), s.passes 2 → 3 < s.len → s.len ≤ 96 →
    s.control.state.onTrunk = true → s.port.word = none → s.claims.contending = false →
    classify h = .valid w → w.kind = .claim → w.malformed = false → w.sender ≠ s.self → 4 ≤ n → n < s.len →
    ((w.claimCode = 1 ∧ w.claimSlot = n ∨ w.claimCode = 2 ∧ ∀ m < n, 4 ≤ m → (s.entry m).owner ≠ none) →
      (s.entry n).owner = none →
      exec (.claimSlotEnd h) s = .next
        { s with
          port := s.port.listened (.valid w)
          timer := s.timer.next 2
          table := s.table.set n { s.entry n with owner := some w.sender, silence := 0 }
          happening := s.happening + 1 }) ∧
    ((w.claimCode = 1 ∧ w.claimSlot = n ∧ (s.entry n).owner ≠ none ∨
        w.claimCode = 2 ∧ (∀ m < s.len, 4 ≤ m → (s.entry m).owner ≠ none) ∨
        w.claimCode = 3 ∧ w.claimSlot = n ∧ (s.entry n).owner ≠ some w.sender) →
      exec (.claimSlotEnd h) s = .next
        { s with port := s.port.listened (.valid w), timer := s.timer.next 2, happening := s.happening + 1 }) ∧
    (w.claimCode = 3 → w.claimSlot = n → (s.entry n).owner = some w.sender → (s.entry n).role = none →
      exec (.claimSlotEnd h) s = .next
        { s with
          port := s.port.listened (.valid w)
          timer := s.timer.next 2
          table := s.table.set n { s.entry n with owner := none, silence := 0, role := none }
          happening := s.happening + 1 })

/-- A contending head that is not SENT has lost (R101, R102): its lost count rises by 1 and its effective priority is
the base less one for each 16 losses; at 64 losses it leaves with CLAIM_DONE(EXPIRED), and one marked by CLAIM_CANCEL
leaves with CLAIM_DONE(CANCELLED). A peer's SLOT word that won gives the peer its slot where it is free (R104). CLAIM_AGING
and CLAIM_EXPIRED are slot 2 ends, as the model reads the table (log 2), and a CLAIM_DONE at a realigning MARK (R103) carries
the frame number of the frame that the MARK cuts short (log 15). -/
def Obligations.LostClaimsAgeAndExpire : Prop :=
  ∀ (s : State) (h : SlotBits) (r : ClaimRecord) (rs : List ClaimRecord), s.tableOk → s.passes 2 → 3 < s.len →
    s.len ≤ 96 → s.control.state = .member → s.claims.records = r :: rs → s.claims.contending = true →
    (∀ b, s.port.word = some b → b ≠ h) → (∀ w, classify h = .valid w → w.sender ≠ s.self) →
    ∃ (t : State) (es : List Event), exec (.claimSlotEnd h) s = .next t ∧ t.events = s.events.postAll es ∧
      t.claims.contending = false ∧ t.claims.tagCounter = s.claims.tagCounter ∧
      t.roster = s.roster ∧ t.tx = s.tx ∧ t.rx = s.rx ∧ t.jobs = s.jobs ∧ t.windows = s.windows ∧
      t.answers = s.answers ∧ t.buffer = s.buffer ∧ t.host = s.host ∧ t.pins = s.pins ∧
      (∀ w, classify h = .valid w → w.kind = .claim → w.malformed = false → w.claimCode = 1 → 4 ≤ w.claimSlot →
        w.claimSlot < s.len →
        t.table = if (s.entry w.claimSlot).owner = none then
            s.table.set w.claimSlot { s.entry w.claimSlot with owner := some w.sender, silence := 0 }
          else s.table) ∧
      (if r.cancel = false ∧ r.lost + 1 < 64 then
        t.claims.records = { r with lost := r.lost + 1, effective := r.base - (r.lost + 1) / 16 } :: rs ∧
        eventsOf .claimDone es = [] ∧
        ((r.lost + 1) % 16 = 0 → exec (.claimAging h) s = .next t)
      else
        t.claims.records = rs ∧
        eventsOf .claimDone es =
          [{ Event.of .claimDone s.timer.frame with
             tag := some r.tag, result := some (.claim (if r.cancel then .cancelled else .expired)),
             slot := r.request.named, count := some (r.lost + 1) }] ∧
        (r.cancel = false → exec (.claimExpired h) s = .next t))

/-! ### Chapter 5: the allocation table -/

/-- SET_ROLE by the first line of its table that applies (R86): of an own slot in MEMBER or LEAVING the role becomes the
one given, and when BULK leaves the slot its job is suspended (R81, R148); the same role again changes nothing; a fifth slot
for a channel is refused with LIMIT. -/
def Obligations.SetRoleChangesRole : Prop :=
  ∀ (s : State) (n : Nat) (ra : RoleArg), s.host.state = .request →
    (s.control.state ≠ .member → s.control.state ≠ .leaving →
      exec (.setRole n ra) s = .next (s.replied (.setRole n ra) (.refused .state))) ∧
    ((s.control.state = .member ∨ s.control.state = .leaving) →
      (¬(4 ≤ n ∧ n < s.len) ∨ (∃ c, 8 ≤ c ∧ ra = .stream c) ∨ ra = .absent ∨ ∃ k, ra = .undefined k) →
      exec (.setRole n ra) s = .next (s.replied (.setRole n ra) (.refused .range))) ∧
    ∀ role : Role, (s.control.state = .member ∨ s.control.state = .leaving) → 4 ≤ n → n < s.len →
      (ra = .spare ∧ role = .spare ∨ ra = .bulk ∧ role = .bulk ∨ ∃ c < 8, ra = .stream c ∧ role = .stream c) →
      exec (.setRole n ra) s = .next
        (if (s.entry n).owner ≠ some s.self then s.replied (.setRole n ra) (.refused .notHeld)
        else if (s.entry n).role = some role then s.replied (.setRole n ra) (.done .nothing)
        else if (match role with
            | .stream c =>
              decide (4 ≤
                ((List.range s.len).filter (fun m => decide (4 ≤ m ∧ (s.entry m).role = some (.stream c)))).length)
            | _ => false) = true then
          s.replied (.setRole n ra) (.refused .limit)
        else
          ({ s with
            table := s.table.set n { s.entry n with role := some role }
            jobs := if (s.entry n).role = some .bulk then
                s.jobs.map (fun j => if j.slot = some n then
                  { j with state := .queued, headDue := true, resume := true, timer := 0, slot := none } else j)
              else s.jobs } : State).replied (.setRole n ra) (.done .nothing))

/-- The eighth silent occurrence in a row of an owned slot frees it, with SLOT_LAPSED: a peer's slot, and an own slot in
which self's word was DISTURBED, which counts as corrupt too; a job assigned to the slot is suspended (R73, R74, R75, R78,
R81). SLOT_LAPSED is a data slot end, as the model reads the table (log 2). That an event at the end of the last slot
carries the number of the frame that ends there is the model's choice (log 38). -/
def Obligations.SilentSlotsLapse : Prop :=
  ∀ (s : State) (n k : Nat), s.passes n → 4 ≤ n → n < s.len → s.len ≤ 96 → s.control.state.onTrunk = true →
    s.control.observing = false → s.port.word ≠ some (BitVec.allOnes 40) → (s.entry n).owner = some k →
    (s.entry n).silence = 7 →
    ∃ (t : State) (es : List Event), exec (.slotLapsed (BitVec.allOnes 40)) s = .next t ∧
      exec (.dataSlotEnd (BitVec.allOnes 40)) s = .next t ∧
      t.table = s.table.set n { s.entry n with
        owner := none, silence := 0, lastKind := some .silent, role := none
        corrupt := if s.port.word = none then (s.entry n).corrupt
          else if (s.entry n).corrupt < 255 then (s.entry n).corrupt + 1 else 255 } ∧
      t.jobs = (if (s.entry n).role = some .bulk then
          s.jobs.map (fun j => if j.slot = some n then
            { j with state := .queued, headDue := true, resume := true, timer := 0, slot := none } else j)
        else s.jobs) ∧
      t.events = s.events.postAll es ∧
      eventsOf .slotLapsed es = [{ Event.of .slotLapsed s.timer.frame with slot := some n, station := some k }] ∧
      t.roster = s.roster ∧ t.claims = s.claims ∧ t.tx = s.tx ∧ t.answers = s.answers ∧ t.buffer = s.buffer ∧
      t.host = s.host ∧ t.pins = s.pins

/-- A data-kind word of a peer in a slot that neither that peer nor self owns, self sending nothing: a PRESENT peer becomes
the owner, with SLOT_CORRECTED; for an ABSENT one its stray count rises (R67, R76). In the observation frame of a JOINING
station every data slot's owner is recorded from the word heard, without event, and the last slot completes the observation
(R41, R83). Self's word in an own slot DISPLACED: a PRESENT peer whose data-kind word is heard becomes the owner, and for
any other word the slot is freed, with the stray count of an ABSENT peer raised; role and job leave the slot, and SLOT_LOST
is posted (R79, R81). Self's word DISTURBED: owner and role stand whatever is heard, the corrupt count rises, and the
silence run follows SILENT alone; no window acts on a HEAD with destination self heard there with self's address (R74, R78,
R157). That SLOT_LOST at a realigning MARK carries the number of the frame that the MARK cuts short is the model's reading
(log 15). That an event at the end of the last slot carries the number of the frame that ends there is the model's choice
(log 38). -/
def Obligations.OwnersFollowTheLine : Prop :=
  (∀ (s : State) (h : SlotBits) (w : SlotWord) (n : Nat), s.windowsOk → s.passes n → 4 ≤ n → n < s.len → s.len ≤ 96 →
    (s.control.state = .member ∨ s.control.state = .leaving) → s.control.observing = false → s.port.word = none →
    classify h = .valid w → (w.kind = .data ∨ w.kind = .fill ∨ w.kind = .head ∨ w.kind = .bulk ∨ w.kind = .tail) →
    w.sender ≠ s.self → (s.entry n).owner ≠ some w.sender → (s.entry n).owner ≠ some s.self →
    ∃ (t : State) (es : List Event), exec (.dataSlotEnd h) s = .next t ∧ t.events = s.events.postAll es ∧
      t.jobs = s.jobs ∧ t.claims = s.claims ∧ t.tx = s.tx ∧ t.host = s.host ∧ t.pins = s.pins ∧
      (if s.isPresent w.sender then
        t.table = s.table.set n { s.entry n with
          owner := some w.sender, silence := 0, lastKind := some (.kind w.kind) } ∧
        t.roster = s.roster ∧
        eventsOf .slotCorrected es =
          [{ Event.of .slotCorrected s.timer.frame with
             slot := some n, station := some w.sender, result := (s.entry n).owner.map EventResult.number }]
      else
        t.table = s.table.set n { s.entry n with
          silence := if (s.entry n).owner = none then (s.entry n).silence else 0, lastKind := some (.kind w.kind) } ∧
        t.roster = s.roster.set w.sender { s.rosterEntry w.sender with
          stray := if (s.rosterEntry w.sender).stray < 255 then (s.rosterEntry w.sender).stray + 1 else 255 } ∧
        eventsOf .slotCorrected es = [])) ∧
  (∀ (s : State) (h : SlotBits) (n : Nat), s.passes n → 4 ≤ n → n < s.len → s.len ≤ 96 → s.control.state = .joining →
    s.control.observing = true → s.port.word = none → (∀ w, classify h = .valid w → w.sender ≠ s.self) →
    (∀ w, classify h = .valid w → w.kind ≠ .mark) →
    ∃ (t : State) (es : List Event), exec (.dataSlotEnd h) s = .next t ∧
      t.table = s.table.set n { s.entry n with
        owner := (match classify h with
          | .valid w => if w.kind.isDataKind then some w.sender else none
          | _ => none)
        silence := 0
        lastKind := some (match classify h with
          | .silent => .silent
          | .corrupt => .corrupt
          | .valid w => .kind w.kind)
        corrupt := if classify h = .corrupt ∧ (s.entry n).corrupt < 255 then (s.entry n).corrupt + 1
          else if classify h = .corrupt then 255 else (s.entry n).corrupt } ∧
      (t.control.observed = true ↔ s.control.observed = true ∨ n + 1 = s.len) ∧
      t.events = s.events.postAll es ∧ eventsOf .slotCorrected es = [] ∧ eventsOf .slotLapsed es = []) ∧
  (∀ (s : State) (h b : SlotBits) (n : Nat), s.windowsOk → s.passes n → 4 ≤ n → n < s.len → s.len ≤ 96 →
    (s.control.state = .member ∨ s.control.state = .leaving) → s.control.observing = false → s.port.word = some b →
    outcomeOf b h = .displaced → (∀ w, classify h = .valid w → w.sender ≠ s.self) →
    (s.entry n).owner = some s.self →
    ∃ (t : State) (es : List Event) (heir : Option SlotWord), exec (.dataSlotEnd h) s = .next t ∧
      heir = (match classify h with
        | .valid w => if w.kind = .data ∨ w.kind = .fill ∨ w.kind = .head ∨ w.kind = .bulk ∨ w.kind = .tail then some w
          else none
        | _ => none) ∧
      (∀ w, heir = some w → s.isPresent w.sender = true →
        t.table = s.table.set n { s.entry n with
          owner := some w.sender, silence := 0, lastKind := some (.kind w.kind), role := none } ∧
        t.roster = s.roster ∧
        eventsOf .slotLost es =
          [{ Event.of .slotLost s.timer.frame with
             slot := some n, station := some w.sender, result := some .displaced }]) ∧
      ((∀ w, heir = some w → s.isPresent w.sender = false) →
        t.table = s.table.set n { s.entry n with
          owner := none, silence := 0, role := none
          lastKind := some (match classify h with
            | .valid w => .kind w.kind
            | _ => .corrupt)
          corrupt := if classify h ≠ .corrupt then (s.entry n).corrupt
            else if (s.entry n).corrupt < 255 then (s.entry n).corrupt + 1 else 255 } ∧
        t.roster = (match heir with
          | none => s.roster
          | some w => s.roster.set w.sender { s.rosterEntry w.sender with
              stray := if (s.rosterEntry w.sender).stray < 255 then (s.rosterEntry w.sender).stray + 1 else 255 }) ∧
        eventsOf .slotLost es =
          [{ Event.of .slotLost s.timer.frame with slot := some n, result := some .displaced }]) ∧
      t.jobs = (if (s.entry n).role = some .bulk then
          s.jobs.map (fun j => if j.slot = some n then
            { j with state := .queued, headDue := true, resume := true, timer := 0, slot := none } else j)
        else s.jobs) ∧
      t.events = s.events.postAll es ∧ t.claims = s.claims ∧ t.tx = s.tx ∧ t.host = s.host ∧ t.pins = s.pins) ∧
  ∀ (s : State) (h b : SlotBits) (n : Nat), s.windowsOk → s.passes n → 4 ≤ n → n < s.len → s.len ≤ 96 →
    (s.control.state = .member ∨ s.control.state = .leaving) → s.control.observing = false → s.port.word = some b →
    outcomeOf b h = .disturbed → (s.entry n).owner = some s.self → (s.entry n).silence < 7 →
    ∃ (t : State) (es : List Event), exec (.dataSlotEnd h) s = .next t ∧
      t.table = s.table.set n { s.entry n with
        silence := if classify h = .silent then (s.entry n).silence + 1 else 0
        corrupt := if (s.entry n).corrupt < 255 then (s.entry n).corrupt + 1 else 255
        lastKind := some (match classify h with
          | .silent => .silent
          | .corrupt => .corrupt
          | .valid w => .kind w.kind) } ∧
      t.events = s.events.postAll es ∧
      (∀ e ∈ es, e.kind ≠ .slotLost ∧ e.kind ≠ .slotLapsed ∧ e.kind ≠ .slotCorrected) ∧
      (∀ w, classify h = .valid w → w.kind = .head → w.malformed = false → w.headDest = s.self → w.sender = s.self →
        t.windows = s.windows ∧ t.answers = s.answers ∧ t.buffer = s.buffer) ∧
      t.jobs = s.jobs ∧ t.roster = s.roster ∧ t.claims = s.claims ∧ t.tx = s.tx ∧ t.host = s.host ∧ t.pins = s.pins

/-! ### Chapter 7: stream channels -/

/-- BIND_RX, UNBIND_RX, PUSH and PULL by the first line of their tables that applies (R113, R118, R119, R122): a binding
is made or removed; PUSH adds what fits of its samples to the tail and clears the starved flag; PULL removes and returns
the oldest entries and clears the overrun flag. -/
def Obligations.ChannelCommands : Prop :=
  ∀ (s : State) (c : Nat), s.host.state = .request →
    (∀ (n : Nat) (expected : Option Nat) (policy : Policy) (gaps : Bool),
      ((s.control.state = .off ∨ s.control.state = .fault) →
        exec (.bindRx c n expected policy gaps) s = .next (s.replied (.bindRx c n expected policy gaps) (.refused .state))) ∧
      (s.control.state ≠ .off → s.control.state ≠ .fault →
        (8 ≤ c ∨ n < 4 ∨ s.len ≤ n ∨ ∃ k, expected = some k ∧ (k = 0 ∨ 30 < k ∨ k = s.self)) →
        exec (.bindRx c n expected policy gaps) s = .next (s.replied (.bindRx c n expected policy gaps) (.refused .range))) ∧
      (s.control.state ≠ .off → s.control.state ≠ .fault → c < 8 → 4 ≤ n → n < s.len →
        (∀ k, expected = some k → 1 ≤ k ∧ k ≤ 30 ∧ k ≠ s.self) →
        exec (.bindRx c n expected policy gaps) s = .next
          (if (s.rxAt c).binding ≠ none then s.replied (.bindRx c n expected policy gaps) (.refused .busy)
          else if (s.entry n).owner = some s.self then s.replied (.bindRx c n expected policy gaps) (.refused .ownSlot)
          else ({ s with rx := s.rx.set c { s.rxAt c with
              binding := some { slot := n, expected := expected, policy := policy, gaps := gaps } } } : State).replied
            (.bindRx c n expected policy gaps) (.done .nothing)))) ∧
    exec (.unbindRx c) s = .next
      (if s.control.state = .off ∨ s.control.state = .fault then s.replied (.unbindRx c) (.refused .state)
      else if 8 ≤ c then s.replied (.unbindRx c) (.refused .range)
      else if (s.rxAt c).binding = none then s.replied (.unbindRx c) (.refused .noSuch)
      else ({ s with rx := s.rx.set c { s.rxAt c with binding := none } } : State).replied (.unbindRx c) (.done .nothing)) ∧
    (∀ samples : List DataWord,
      exec (.push c samples) s = .next
        (if s.control.state = .off ∨ s.control.state = .fault then s.replied (.push c samples) (.refused .state)
        else if 8 ≤ c ∨ samples.length < 1 ∨ 16 < samples.length then s.replied (.push c samples) (.refused .range)
        else ({ s with tx := s.tx.set c { s.txAt c with
            queue := (s.txAt c).queue ++ samples.take (min samples.length (16 - (s.txAt c).queue.length))
            starved := false } } : State).replied
          (.push c samples) (.done (.accepted (min samples.length (16 - (s.txAt c).queue.length)))))) ∧
    ∀ n, exec (.pull c n) s = .next
      (if s.control.state = .off then s.replied (.pull c n) (.refused .state)
      else if 8 ≤ c ∨ n < 1 ∨ 16 < n then s.replied (.pull c n) (.refused .range)
      else ({ s with rx := s.rx.set c { s.rxAt c with
          queue := (s.rxAt c).queue.drop n, overrunFlag := false } } : State).replied
        (.pull c n) (.done (.entries ((s.rxAt c).queue.take n))))

/-- The start of a data slot (R77, R114): an own STREAM(c) slot sends the channel's oldest sample as DATA, or FILL with an
underrun counted and TX_STARVED once; a SPARE slot sends FILL; a slot that is not self's sends nothing. -/
def Obligations.StreamSlotsSupplySamples : Prop :=
  ∀ (s : State) (n : Nat), s.awaits n → 4 ≤ n → n < s.len →
    (∀ c v rest, (s.control.state = .member ∨ s.control.state = .leaving) → (s.entry n).owner = some s.self →
      (s.entry n).role = some (.stream c) → (s.txAt c).queue = v :: rest →
      exec .dataSlotStart s = .next
        { s with
          tx := s.tx.set c { s.txAt c with queue := rest }
          port := { s.port with word := some (dataWord s.self v).bits, bitsDone := 0, displaced := false,
                                lineError := false, drove := true }
          timer := { s.timer with passing := true } }) ∧
    (∀ c, (s.control.state = .member ∨ s.control.state = .leaving) → (s.entry n).owner = some s.self →
      (s.entry n).role = some (.stream c) → (s.txAt c).queue = [] →
      ∃ count, count = (if (s.txAt c).underrun < 65535 then (s.txAt c).underrun + 1 else 65535) ∧
        exec .dataSlotStart s = .next
          { s with
            tx := s.tx.set c { s.txAt c with underrun := count, starved := true }
            port := { s.port with word := some (fillWord s.self).bits, bitsDone := 0, displaced := false,
                                  lineError := false, drove := true }
            timer := { s.timer with passing := true }
            events := if (s.txAt c).starved then s.events
              else s.events.post { Event.of .txStarved s.timer.frame with
                channel := some c, slot := some n, count := some count } }) ∧
    ((s.control.state = .member ∨ s.control.state = .leaving) → (s.entry n).owner = some s.self →
      (s.entry n).role = some .spare →
      exec .dataSlotStart s = .next
        { s with
          port := { s.port with word := some (fillWord s.self).bits, bitsDone := 0, displaced := false,
                                lineError := false, drove := true }
          timer := { s.timer with passing := true } }) ∧
    ((¬(s.control.state = .member ∨ s.control.state = .leaving) ∨ (s.entry n).owner ≠ some s.self) →
      exec .dataSlotStart s = .next
        { s with
          port := { s.port with word := none, bitsDone := 0, displaced := false, lineError := false, drove := false }
          timer := { s.timer with passing := true } })

/-- What the end of a source slot's occurrence gives a receive channel (R120, R121): a value, a gap with gap marking on (a
MARK heard there among the OTHER gaps), or a mismatch; a full queue gives up its oldest entry or the new one, and counts the
overrun, with RX_OVERRUN when the overrun flag was clear; other channels stay, and post none. At a realigning MARK the entry
carries the number of the frame that the MARK cuts short (R120); that RX_OVERRUN does so too is the model's reading (log
15), and that at the end of the last slot it carries the number of the frame that ends there its choice (log 38). -/
def Obligations.ReceiveChannelsHear : Prop :=
  ∀ (s t : State) (h : SlotBits) (n c : Nat), s.passes n → 4 ≤ n → n < s.len → s.control.state.onTrunk = true →
    (∀ w, classify h = .valid w → w.sender ≠ s.self ∧
      (w.kind = .mark → w.malformed = false → w.markLength = some s.len ∨ s.control.state ≠ .joining)) →
    exec (.dataSlotEnd h) s = .next t → c < 8 →
    ∃ (es overruns : List Event), t.events = s.events.postAll es ∧
      overruns = (eventsOf .rxOverrun es).filter (fun e => e.channel == some c) ∧
      ((∀ b, (s.rxAt c).binding = some b → b.slot ≠ n) → t.rxAt c = s.rxAt c ∧ overruns = []) ∧
      ∀ b, (s.rxAt c).binding = some b → b.slot = n →
        (∀ w k, classify h = .valid w → w.kind = .data → b.expected = some k → w.sender ≠ k →
          t.rxAt c = { s.rxAt c with
            mismatch := if (s.rxAt c).mismatch < 65535 then (s.rxAt c).mismatch + 1 else 65535 } ∧ overruns = []) ∧
        ((∀ w, classify h = .valid w → w.kind ≠ .data) → b.gaps = false → t.rxAt c = s.rxAt c ∧ overruns = []) ∧
        ∀ entry : RxEntry, entry.frame = s.timer.frame →
          ((∃ w, classify h = .valid w ∧ w.kind = .data ∧ (∀ k, b.expected = some k → w.sender = k) ∧
              entry.content = .value w.body) ∨
           (b.gaps = true ∧
            (classify h = .silent ∧ entry.content = .gap .silent ∨ classify h = .corrupt ∧ entry.content = .gap .corrupt ∨
             (∃ w, classify h = .valid w ∧ w.kind = .fill ∧ entry.content = .gap .fill) ∨
             ∃ w, classify h = .valid w ∧ w.kind ≠ .data ∧ w.kind ≠ .fill ∧ entry.content = .gap .other))) →
          if (s.rxAt c).queue.length < 16 then
            t.rxAt c = { s.rxAt c with queue := (s.rxAt c).queue ++ [entry] } ∧ overruns = []
          else
            ∃ lost, lost = (if (s.rxAt c).overrun < 65535 then (s.rxAt c).overrun + 1 else 65535) ∧
              t.rxAt c = { s.rxAt c with
                queue := if b.policy = .keepNewest then (s.rxAt c).queue.tail ++ [entry] else (s.rxAt c).queue
                overrun := lost
                overrunFlag := true } ∧
              overruns = if (s.rxAt c).overrunFlag then [] else
                [{ Event.of .rxOverrun s.timer.frame with channel := some c, slot := some n, count := some lost }]

/-! ### Chapter 8: bulk sending -/

/-- BULK_POST, BULK_CANCEL and BULK_COLLECT by the first line of their tables that applies (R132, R133, R135): BULK_POST
fills the lowest free record at the newest place, BULK_CANCEL ends a live job, and BULK_COLLECT frees a final one and
reports it. That a cancelled job keeps answer timer, head-due and resume is the model's choice (log 32). -/
def Obligations.JobsArePostedAndCollected : Prop :=
  ∀ s : State, s.host.state = .request →
    (∀ dest win base len,
      (s.control.state ≠ .member →
        exec (.bulkPost dest win base len) s = .next (s.replied (.bulkPost dest win base len) (.refused .state))) ∧
      (s.control.state = .member →
        (dest = 0 ∨ 30 < dest ∨ dest = s.self ∨ 4 ≤ win ∨ 8192 ≤ base ∨ len = 0 ∨ 4096 < len ∨ 8192 < base + len) →
        exec (.bulkPost dest win base len) s = .next (s.replied (.bulkPost dest win base len) (.refused .range))) ∧
      (s.control.state = .member → 1 ≤ dest → dest ≤ 30 → dest ≠ s.self → win < 4 → 1 ≤ len → len ≤ 4096 →
        base + len ≤ 8192 →
        ((∀ id < 4, s.job id ≠ none) →
          exec (.bulkPost dest win base len) s = .next (s.replied (.bulkPost dest win base len) (.refused .queueFull))) ∧
        ∀ id < 4, s.job id = none → (∀ i < id, s.job i ≠ none) →
          exec (.bulkPost dest win base len) s = .next
            (({ s with jobs := s.jobs ++
                [{ id := id, state := .queued, dest := dest, window := win, base := base, length := len, next := 0,
                   headDue := true, resume := false, rewinds := 0, resends := 0, timer := 0, slot := none,
                   result := none }] } : State).replied (.bulkPost dest win base len) (.accepted (.job id))))) ∧
    (∀ (id : Nat) (x : Reason),
      (s.control.state = .off ∧ x = .state ∨ s.control.state ≠ .off ∧ 4 ≤ id ∧ x = .range ∨
        s.control.state ≠ .off ∧ id < 4 ∧ s.job id = none ∧ x = .noSuch) →
      exec (.bulkCancel id) s = .next (s.replied (.bulkCancel id) (.refused x)) ∧
      exec (.bulkCollect id) s = .next (s.replied (.bulkCollect id) (.refused x))) ∧
    ∀ before j after, s.control.state ≠ .off → s.jobs = before ++ j :: after → j.id < 4 →
      (∀ x ∈ before ++ after, x.id ≠ j.id) →
      ((j.state = .queued ∨ j.state = .sending ∨ j.state = .awaitAnswer) →
        exec (.bulkCancel j.id) s = .next
          (({ s with jobs := before ++ { j with state := .cancelled, slot := none } :: after } : State).replied
            (.bulkCancel j.id) (.done .nothing)) ∧
        exec (.bulkCollect j.id) s = .next (s.replied (.bulkCollect j.id) (.refused .state))) ∧
      ((j.state = .done ∨ j.state = .failed ∨ j.state = .cancelled) →
        exec (.bulkCollect j.id) s = .next
          (({ s with jobs := before ++ after } : State).replied (.bulkCollect j.id)
            (.done (.collected j.state j.result j.next j.rewinds j.resends))) ∧
        exec (.bulkCancel j.id) s = .next (s.replied (.bulkCancel j.id) (.refused .state)))

/-- The words of an own BULK slot (R137, R139, R140): the assigned SENDING job's HEAD, BULK or TAIL word, else the oldest
QUEUED job takes the slot and sends HEAD, else FILL; no other job changes. -/
def Obligations.BulkSlotsSupplyWords : Prop :=
  ∀ (s : State) (n : Nat), s.jobsOk → s.awaits n → 4 ≤ n → n < s.len →
    (s.control.state = .member ∨ s.control.state = .leaving) → (s.entry n).owner = some s.self →
    (s.entry n).role = some .bulk →
    ∃ (word : SlotWord) (t : State), exec .dataSlotStart s = .next t ∧
      t = { s with
            jobs := t.jobs
            port := { s.port with word := some word.bits, bitsDone := 0, displaced := false, lineError := false,
                                  drove := true }
            timer := { s.timer with passing := true }
            events := t.events } ∧
      (∀ before j after, s.jobs = before ++ j :: after → j.slot = some n → j.state = .sending →
        t.events = s.events ∧
        (if j.headDue then
          word = headWord s.self j.dest j.window (decide (0 < j.next ∨ j.resume = true)) j.next ∧
          t.jobs = before ++ { j with headDue := false } :: after
        else if j.next < j.length then
          word = bulkWord s.self (s.buffer.read (j.base + j.next)) ∧
          t.jobs = before ++ { j with next := j.next + 1 } :: after
        else
          word = tailWord s.self j.length ∧
          t.jobs = before ++ { j with state := .awaitAnswer, timer := 0 } :: after)) ∧
      (∀ before j after, s.jobs = before ++ j :: after → j.state = .queued → j.headDue = true →
        (∀ x ∈ before, x.state ≠ .queued) → (∀ x ∈ s.jobs, x.slot ≠ some n) →
        word = headWord s.self j.dest j.window (decide (0 < j.next ∨ j.resume = true)) j.next ∧
        t.jobs = before ++ { j with state := .sending, slot := some n, headDue := false } :: after ∧
        t.events = s.events) ∧
      ((∀ x ∈ s.jobs, x.state ≠ .queued ∧ x.slot ≠ some n) →
        word = fillWord s.self ∧ t.jobs = s.jobs ∧ t.events = s.events)

/-- A job in AWAIT_ANSWER (R142): FILL while the answer timer is below 16; then its TAIL again, four times; then it
fails with NO_ANSWER and the slot is served in that same occurrence as one with no job: the oldest QUEUED job takes it and
sends its HEAD, else FILL (R137). TAIL_RESEND and JOB_NO_ANSWER are data slot starts, as
the model reads the table (log 2), and the failed job keeps its answer timer by the model's choice (log 32). -/
def Obligations.JobsWaitForTheirAnswer : Prop :=
  ∀ (s : State) (n : Nat) (before : List Job) (j : Job) (after : List Job), s.jobsOk → s.awaits n → 4 ≤ n → n < s.len →
    (s.control.state = .member ∨ s.control.state = .leaving) → (s.entry n).owner = some s.self →
    (s.entry n).role = some .bulk → s.jobs = before ++ j :: after → j.slot = some n → j.state = .awaitAnswer →
    (j.timer < 16 →
      exec .dataSlotStart s = .next
        { s with
          jobs := before ++ { j with timer := j.timer + 1 } :: after
          port := { s.port with word := some (fillWord s.self).bits, bitsDone := 0, displaced := false,
                                lineError := false, drove := true }
          timer := { s.timer with passing := true } }) ∧
    (j.timer = 16 → j.resends < 4 →
      exec .tailResend s = .next
        { s with
          jobs := before ++ { j with resends := j.resends + 1, timer := 0 } :: after
          port := { s.port with word := some (tailWord s.self j.length).bits, bitsDone := 0, displaced := false,
                                lineError := false, drove := true }
          timer := { s.timer with passing := true } } ∧
      exec .dataSlotStart s = exec .tailResend s) ∧
    (j.timer = 16 → j.resends = 4 → (∀ x ∈ before ++ after, x.state ≠ .queued) →
      exec .jobNoAnswer s = .next
        { s with
          jobs := before ++ { j with state := .failed, result := some .noAnswer, slot := none } :: after
          port := { s.port with word := some (fillWord s.self).bits, bitsDone := 0, displaced := false,
                                lineError := false, drove := true }
          timer := { s.timer with passing := true }
          events := s.events.post
            { Event.of .jobFailed s.timer.frame with
              job := some j.id, station := some j.dest, window := some j.window, result := some (.job .noAnswer),
              count := some j.length } } ∧
      exec .dataSlotStart s = exec .jobNoAnswer s) ∧
    (j.timer = 16 → j.resends = 4 →
      ∀ (first : List Job) (q : Job) (rest : List Job),
        before ++ { j with state := .failed, result := some .noAnswer, slot := none } :: after = first ++ q :: rest →
        q.state = .queued → q.headDue = true → (∀ x ∈ first, x.state ≠ .queued) →
        exec .jobNoAnswer s = .next
          { s with
            jobs := first ++ { q with state := .sending, slot := some n, headDue := false } :: rest
            port := { s.port with
              word := some (headWord s.self q.dest q.window (decide (0 < q.next ∨ q.resume = true)) q.next).bits
              bitsDone := 0, displaced := false, lineError := false, drove := true }
            timer := { s.timer with passing := true }
            events := s.events.post
              { Event.of .jobFailed s.timer.frame with
                job := some j.id, station := some j.dest, window := some j.window, result := some (.job .noAnswer),
                count := some j.length } } ∧
        exec .dataSlotStart s = exec .jobNoAnswer s)

/-- An ANSWER addressed to self acts on the live job earliest in posting order whose destination and window it names: DONE
ends it, REWIND sets its offset up to eight times and then fails it, REFUSE fails it (R143, R144, R145, R146). That a job
which ends keeps answer timer, head-due and resume is the model's choice (log 32). -/
def Obligations.AnswersEndOrRewindJobs : Prop :=
  ∀ (s : State) (h : SlotBits) (w : SlotWord) (before : List Job) (j : Job) (after : List Job), s.passes 3 → 4 < s.len →
    (s.control.state = .member ∨ s.control.state = .leaving) → s.port.word = none → s.answers.contending = false →
    classify h = .valid w → w.kind = .answer → w.malformed = false → w.sender ≠ s.self → w.answerTarget = s.self →
    s.jobs = before ++ j :: after → (∀ x ∈ before ++ after, x.id ≠ j.id) → j.live = true → j.dest = w.sender →
    j.window = w.answerWindow → (∀ x ∈ before, ¬(x.live = true ∧ x.dest = w.sender ∧ x.window = w.answerWindow)) →
    ∃ j' es, exec (.answerSlotEnd h) s = .next
        { s with
          port := s.port.listened (.valid w)
          timer := s.timer.next 3
          jobs := before ++ j' :: after
          events := s.events.postAll es
          happening := s.happening + 1 } ∧
      (w.answerCode = 1 → j' = { j with state := .done, result := some (.done w.answerCount), slot := none } ∧
        es = [{ Event.of .jobDone s.timer.frame with
                job := some j.id, station := some j.dest, window := some j.window, count := some w.answerCount }]) ∧
      (w.answerCode = 2 → j.rewinds < 8 →
        j' = { j with
          next := min w.answerCount j.length, rewinds := j.rewinds + 1, headDue := true, resume := true
          state := if j.state = .awaitAnswer then .sending else j.state
          timer := if j.state = .awaitAnswer then 0 else j.timer } ∧ es = []) ∧
      (∀ cause, (w.answerCode = 2 ∧ 8 ≤ j.rewinds ∧ cause = JobResult.rewinds ∨
          w.answerCode = 3 ∧ (w.answerReason = 0 ∧ cause = .refused .busy ∨ w.answerReason = 1 ∧ cause = .refused .closed ∨
            w.answerReason = 2 ∧ cause = .refused .overrun ∨ w.answerReason = 3 ∧ cause = .refused .sender)) →
        j' = { j with state := .failed, result := some cause, slot := none } ∧
        es = [{ Event.of .jobFailed s.timer.frame with
                job := some j.id, station := some j.dest, window := some j.window, result := some (.job cause),
                count := some j.next }])

/-! ### Chapter 9: windows and answers -/

/-- WINDOW_OPEN and WINDOW_CLOSE by the first line of their tables that applies (R153, R154): WINDOW_OPEN opens a CLOSED
window, and WINDOW_CLOSE closes a window in any state and removes its pending answer, a CLOSED window's too as the model
reads R154 (log 33). -/
def Obligations.WindowsOpenAndClose : Prop :=
  ∀ (s : State) (n : Nat), s.host.state = .request →
    (∀ base cap allowed,
      ((s.control.state = .off ∨ s.control.state = .fault) →
        exec (.windowOpen n base cap allowed) s = .next (s.replied (.windowOpen n base cap allowed) (.refused .state))) ∧
      (s.control.state ≠ .off → s.control.state ≠ .fault →
        (4 ≤ n ∨ 8192 ≤ base ∨ cap = 0 ∨ 4096 < cap ∨ 8192 < base + cap ∨
          ∃ k, allowed = some k ∧ (k = 0 ∨ 30 < k ∨ k = s.self)) →
        exec (.windowOpen n base cap allowed) s = .next (s.replied (.windowOpen n base cap allowed) (.refused .range))) ∧
      (s.control.state ≠ .off → s.control.state ≠ .fault → n < 4 → 1 ≤ cap → cap ≤ 4096 → base + cap ≤ 8192 →
        (∀ k, allowed = some k → 1 ≤ k ∧ k ≤ 30 ∧ k ≠ s.self) →
        exec (.windowOpen n base cap allowed) s = .next
          (if (s.windowAt n).state = .closed then
            ({ s with
                windows := s.windows.set n
                  (⟨.opened, some base, some cap, allowed, none, none, 0, none, 0, none, none⟩ : Window)
              } : State).replied (.windowOpen n base cap allowed) (.done .nothing)
          else s.replied (.windowOpen n base cap allowed) (.refused .busy)))) ∧
    (s.control.state = .off → exec (.windowClose n) s = .next (s.replied (.windowClose n) (.refused .state))) ∧
    (s.control.state ≠ .off → 4 ≤ n → exec (.windowClose n) s = .next (s.replied (.windowClose n) (.refused .range))) ∧
    (s.control.state ≠ .off → n < 4 →
      ∃ t : State, exec (.windowClose n) s = .next t ∧
        t = ({ s with
            windows := s.windows.set n (⟨.closed, none, none, none, none, none, 0, none, 0, none, none⟩ : Window)
            answers := t.answers } : State).replied (.windowClose n) (.done .nothing) ∧
        t.answers.answers = s.answers.answers.filter (fun a => a.window != n))

/-- In slot 3 the head answer contends in MEMBER and LEAVING; a SENT answer is removed, and one that is not SENT has its
lost count raised, and at 32 it is dropped with ANSWER_DROPPED (R38, R167). ANSWER_DROPPED is a slot 3 end, as the model
reads the table (log 2). -/
def Obligations.AnswersContend : Prop :=
  (∀ s : State, s.awaits 3 →
    ∃ word : Option SlotWord, exec .answerSlotStart s = .next
        { s with
          port := { s.port with word := word.map SlotWord.bits, bitsDone := 0, displaced := false, lineError := false,
                                drove := word.isSome }
          timer := { s.timer with passing := true }
          answers := { s.answers with contending := word.isSome } } ∧
      word = if s.control.state = .member ∨ s.control.state = .leaving then
          s.answers.answers.head?.map (fun a => answerWord s.self a.target a.window
            (match a.verdict with
              | .done => 1
              | .rewind => 2
              | .refuse _ => 3)
            (match a.verdict with
              | .refuse .closed => 1
              | .refuse .overrun => 2
              | .refuse .sender => 3
              | _ => 0) a.count)
        else none) ∧
  ∀ (s : State) (h b : SlotBits) (a : Answer) (rest : List Answer), s.passes 3 → 4 < s.len →
    (s.control.state = .member ∨ s.control.state = .leaving) → s.port.word = some b → s.answers.contending = true →
    s.answers.answers = a :: rest → (∀ w, classify h = .valid w → w.kind ≠ .mark) →
    (∀ w, classify h = .valid w → w.kind = .answer → w.answerTarget ≠ s.self) →
    (h = b →
      exec (.answerSlotEnd h) s = .next
        { s with
          port := s.port.sentWhole (classify h)
          timer := s.timer.next 3
          answers := { answers := rest, contending := false }
          happening := s.happening + 1 }) ∧
    (h ≠ b → (∀ w, classify h = .valid w → w.sender ≠ s.self) →
      ∃ t, exec (.answerSlotEnd h) s = .next t ∧
        t = { s with
              port := t.port
              timer := s.timer.next 3
              answers := { answers := if a.lost + 1 < 32 then { a with lost := a.lost + 1 } :: rest else rest
                           contending := false }
              events := if a.lost + 1 < 32 then s.events
                else s.events.post { Event.of .answerDropped s.timer.frame with
                  window := some a.window, station := some a.target, result := some (.verdict a.verdict),
                  count := some a.count }
              happening := s.happening + 1 } ∧
        (32 ≤ a.lost + 1 → exec (.answerDropped h) s = .next t))

/-- A HEAD for self with offset 0 from a sender that an OPEN window allows starts a block, one with an offset above 0 calls
for REWIND(0), one from another sender is refused with SENDER, and a CLOSED or FAILED window refuses every HEAD with CLOSED
(R158). In RECEIVING, GAP or STALLED its sender's HEAD resumes the block at an offset up to the count, with WINDOW_RESTARTED
for a fresh one at 0, and puts the window in GAP with REWIND for an offset above it; another station's is refused with BUSY
(R159). In COMPLETE a resuming HEAD of the sender at the recorded length is answered DONE and gives the window its slot, and
any other is refused with BUSY (R160). A HEAD of the sender, in the sender slot, that names another station or another
window withdraws the slot and leaves the window STALLED, or COMPLETE (R161). A TAIL of the sender in its slot completes the
block when its length is the count, calls for a REWIND when the count is below it or words are missing, and fails the window
with OVERRUN when the count is above it; a COMPLETE window answers it with DONE or REFUSE(BUSY) (R163); each sets the stall
count to 0 (R165). A CORRUPT occurrence of the sender slot puts a window that has missed no word in GAP with REWIND (R164).
The statement is about a window that is alone in that sender slot; what a FAILED window keeps is the model's reading (log
20), and another station's HEAD in the sender slot of a window in RECEIVING or GAP is left out (log 14). That an event at
the end of the last slot carries the number of the frame that ends there is the model's choice (log 38). -/
def Obligations.HeadsOpenAndTailsComplete : Prop :=
  ∀ (s : State) (h : SlotBits) (x : Window) (n p : Nat), x = s.windowAt n → s.passes p → 4 ≤ p → p < s.len →
    (s.control.state = .member ∨ s.control.state = .leaving) → s.port.word = none → n < 4 →
    (∀ w, classify h = .valid w → w.sender ≠ s.self ∧ w.kind ≠ .bulk) →
    (∀ m < 4, m ≠ n → (s.windowAt m).senderSlot ≠ some p) →
    ∃ (t : State) (es : List Event), exec (.dataSlotEnd h) s = .next t ∧ t.buffer = s.buffer ∧
      t.events = s.events.postAll es ∧
      (∀ m < 4, m ≠ n →
        (∀ w, classify h = .valid w → w.kind = .head → w.malformed = false → w.headDest = s.self → w.headWindow ≠ m) →
        t.windowAt m = s.windowAt m ∧ t.answers.ofWindow m = s.answers.ofWindow m) ∧
      (∀ w, classify h = .valid w → w.kind = .head → w.malformed = false → w.headDest = s.self → w.headWindow = n →
        (x.state = .opened → (x.allowed = none ∨ x.allowed = some w.sender) →
          if w.headOffset = 0 then
            t.windowAt n = { x with
              state := .receiving, sender := some w.sender, senderSlot := some p, count := 0, stall := 0 } ∧
            t.answers = s.answers
          else
            t.windowAt n = x ∧ t.answers.ofWindow n =
              some { window := n, target := w.sender, verdict := .rewind, count := 0, lost := 0 }) ∧
        (∀ reason,
          (x.state = .opened ∧ x.allowed ≠ none ∧ x.allowed ≠ some w.sender ∧ reason = RefuseReason.sender ∨
            (x.state = .closed ∨ x.state = .failed) ∧ reason = .closed) →
          t.windowAt n = x ∧ t.answers.ofWindow n =
            some { window := n, target := w.sender, verdict := .refuse reason, count := x.count, lost := 0 }) ∧
        ((x.state = .receiving ∨ x.state = .gap ∨ x.state = .stalled) →
          (x.sender = some w.sender → w.headOffset ≤ x.count →
            t.windowAt n = { x with
              state := .receiving, senderSlot := some p, count := w.headOffset, stall := 0, origin := none } ∧
            t.answers = s.answers ∧
            eventsOf .windowRestarted es =
              (if w.headResume = false ∧ w.headOffset = 0 then
                [{ Event.of .windowRestarted s.timer.frame with
                   window := some n, station := some w.sender, count := some x.count }]
              else [])) ∧
          (x.sender = some w.sender → x.count < w.headOffset →
            t.windowAt n = { x with state := .gap, senderSlot := some p, stall := 0, origin := none } ∧
            t.answers.ofWindow n =
              some { window := n, target := w.sender, verdict := .rewind, count := x.count, lost := 0 }) ∧
          (x.sender ≠ some w.sender → (x.state = .stalled ∨ x.senderSlot ≠ some p) →
            t.windowAt n = x ∧ t.answers.ofWindow n =
              some { window := n, target := w.sender, verdict := .refuse .busy, count := x.count, lost := 0 })) ∧
        (x.state = .complete →
          if x.sender = some w.sender ∧ w.headResume = true ∧ x.recorded = some w.headOffset then
            t.windowAt n = { x with senderSlot := some p } ∧ t.answers.ofWindow n =
              some { window := n, target := w.sender, verdict := .done, count := w.headOffset, lost := 0 }
          else
            t.windowAt n = x ∧ t.answers.ofWindow n =
              some { window := n, target := w.sender, verdict := .refuse .busy, count := x.count, lost := 0 })) ∧
      (∀ w, classify h = .valid w → w.kind = .head → w.malformed = false → (w.headDest ≠ s.self ∨ w.headWindow ≠ n) →
        x.sender = some w.sender → x.senderSlot = some p →
        (x.state = .receiving ∨ x.state = .gap →
          t.windowAt n = { x with state := .stalled, senderSlot := none, origin := some .gap } ∧
          t.answers.ofWindow n = s.answers.ofWindow n ∧
          eventsOf .windowStalled es =
            [{ Event.of .windowStalled s.timer.frame with
               window := some n, station := some w.sender, count := some x.count }]) ∧
        (x.state = .stalled →
          t.windowAt n = { x with senderSlot := none, origin := some .gap } ∧
          t.answers.ofWindow n = s.answers.ofWindow n ∧ eventsOf .windowStalled es = []) ∧
        (x.state = .complete →
          t.windowAt n = { x with senderSlot := none } ∧ t.answers.ofWindow n = s.answers.ofWindow n)) ∧
      (∀ w, classify h = .valid w → w.kind = .tail → w.malformed = false → x.sender = some w.sender →
        x.senderSlot = some p →
        (x.state = .receiving ∨ x.state = .stalled ∧ x.origin = some .receiving →
          (x.count = w.tailLength →
            t.windowAt n = { x with state := .complete, recorded := some w.tailLength, stall := 0, origin := none } ∧
            eventsOf .windowComplete es =
              [{ Event.of .windowComplete s.timer.frame with
                 window := some n, station := some w.sender, count := some w.tailLength }] ∧
            t.answers.ofWindow n =
              some { window := n, target := w.sender, verdict := .done, count := w.tailLength, lost := 0 }) ∧
          (x.count < w.tailLength →
            t.windowAt n = { x with state := .gap, stall := 0, origin := none } ∧ t.answers.ofWindow n =
              some { window := n, target := w.sender, verdict := .rewind, count := x.count, lost := 0 }) ∧
          (w.tailLength < x.count →
            t.windowAt n = { x with state := .failed, cause := some .overrun, stall := 0, origin := none } ∧
            eventsOf .windowFailed es =
              [{ Event.of .windowFailed s.timer.frame with
                 window := some n, station := some w.sender, count := some x.count, result := some (.window .overrun) }] ∧
            t.answers.ofWindow n =
              some { window := n, target := w.sender, verdict := .refuse .overrun, count := x.count, lost := 0 })) ∧
        (x.state = .gap ∨ x.state = .stalled ∧ x.origin = some .gap →
          t.windowAt n = { x with state := .gap, stall := 0, origin := none } ∧ t.answers.ofWindow n =
            some { window := n, target := w.sender, verdict := .rewind, count := x.count, lost := 0 }) ∧
        (x.state = .complete →
          t.windowAt n = { x with stall := 0 } ∧ t.answers.ofWindow n =
            some (if x.recorded = some w.tailLength then
              { window := n, target := w.sender, verdict := .done, count := w.tailLength, lost := 0 }
            else { window := n, target := w.sender, verdict := .refuse .busy, count := x.count, lost := 0 }))) ∧
      (∀ k, classify h = .corrupt → x.sender = some k → x.senderSlot = some p →
        (x.state = .receiving ∨ x.state = .stalled ∧ x.origin = some .receiving →
          t.windowAt n = { x with state := .gap, stall := 0, origin := none } ∧ t.answers.ofWindow n =
            some { window := n, target := k, verdict := .rewind, count := x.count, lost := 0 }) ∧
        (x.state = .stalled ∧ x.origin = some .gap → t.windowAt n = x ∧ t.answers = s.answers))

/-- A window in RECEIVING, or STALLED without a missed word, takes its sender's BULK word in its sender slot: below its
capacity the word is written at base plus count and the count rises; at its capacity the window fails with OVERRUN, posts
WINDOW_FAILED and answers REFUSE(OVERRUN). A window STALLED after a missed word discards it, goes to GAP and answers REWIND
(R162). The statement is about a window that is alone in that sender slot: the other windows stay as they are, and no other
buffer word changes. That the FAILED window keeps its base, capacity, sender, sender slot, count and stall count is the
model's reading (log 20). That an event at the end of the last slot carries the number of the frame that ends there is the
model's choice (log 38). -/
def Obligations.BulkWordsAreWritten : Prop :=
  ∀ (s : State) (h : SlotBits) (w : SlotWord) (x : Window) (n p base cap : Nat), s.windowsOk → x = s.windowAt n →
    s.passes p → 4 ≤ p → p < s.len → (s.control.state = .member ∨ s.control.state = .leaving) → s.port.word = none →
    classify h = .valid w → w.kind = .bulk → w.sender ≠ s.self → n < 4 → x.sender = some w.sender →
    x.senderSlot = some p → x.base = some base → x.capacity = some cap →
    (∀ m < 4, m ≠ n → (s.windowAt m).senderSlot ≠ some p) →
    (x.state = .receiving ∨ x.state = .stalled ∧ x.origin ≠ none) →
    ∃ (t : State) (es : List Event), exec (.dataSlotEnd h) s = .next t ∧ t.events = s.events.postAll es ∧
      (∀ m < 4, m ≠ n → t.windowAt m = s.windowAt m) ∧
      (x.state = .receiving ∨ x.origin = some .receiving →
        if x.count < cap then
          t.windowAt n = { x with state := .receiving, count := x.count + 1, stall := 0, origin := none } ∧
          t.buffer.read (base + x.count) = w.body ∧
          (∀ a, a ≠ base + x.count → t.buffer.read a = s.buffer.read a) ∧ t.answers = s.answers ∧
          eventsOf .windowFailed es = []
        else
          t.windowAt n = { x with state := .failed, origin := none, cause := some .overrun } ∧
          t.buffer = s.buffer ∧
          eventsOf .windowFailed es =
            [{ Event.of .windowFailed s.timer.frame with
               window := some n, station := some w.sender, count := some x.count, result := some (.window .overrun) }] ∧
          t.answers.ofWindow n =
            some { window := n, target := w.sender, verdict := .refuse .overrun, count := x.count, lost := 0 }) ∧
      (x.state = .stalled → x.origin = some .gap →
        t.windowAt n = { x with state := .gap, stall := 0, origin := none } ∧ t.buffer = s.buffer ∧
        eventsOf .windowFailed es = [] ∧
        t.answers.ofWindow n =
          some { window := n, target := w.sender, verdict := .rewind, count := x.count, lost := 0 })

/-- Every occurrence of its sender slot without an accepted word raises the stall count of a window in RECEIVING or GAP by
1, and the sixty-fourth in a row stalls it: STALLED, with the state it left as stall origin, WINDOW_STALLED posted, and
count, sender, sender slot and pending answer kept (R165). Such an occurrence is SILENT, in GAP also CORRUPT and a BULK word
of the sender, a malformed HEAD or TAIL, a word of another kind, and any word of another station (R162, R164) but for a HEAD
with destination self, which the model leaves free (log 14). The other windows, the answer queue and buffer memory stay
where no other window has that sender slot. WINDOW_STALLED is a data slot end, as the model reads the table (log 2), and at
a realigning MARK it carries the number of the frame that the MARK cuts short (log 15). That an event at the end of the last
slot carries the number of the frame that ends there is the model's choice (log 38). -/
def Obligations.SilentSendersStallWindows : Prop :=
  ∀ (s : State) (h : SlotBits) (x : Window) (n p : Nat) (from_ : StallOrigin), s.windowsOk → x = s.windowAt n →
    s.passes p → 4 ≤ p → p < s.len → (s.control.state = .member ∨ s.control.state = .leaving) → n < 4 →
    (x.state = .receiving ∧ from_ = .receiving ∨ x.state = .gap ∧ from_ = .gap) → x.senderSlot = some p →
    (∀ w, classify h = .valid w → w.sender = s.self → ∃ b, s.port.word = some b ∧ outcomeOf b h ≠ .displaced) →
    (classify h = .silent ∨ classify h = .corrupt ∧ from_ = .gap ∨
      ∃ w, classify h = .valid w ∧
        (w.kind = .head → w.malformed = true ∨ w.headDest ≠ s.self ∧ x.sender ≠ some w.sender) ∧
        (x.sender = some w.sender →
          (w.kind = .bulk → from_ = .gap) ∧ (w.kind = .tail → w.malformed = true))) →
    ∃ (t : State) (es : List Event), exec (.dataSlotEnd h) s = .next t ∧ t.events = s.events.postAll es ∧
      t.answers.ofWindow n = s.answers.ofWindow n ∧
      ((∀ m < 4, m ≠ n → (s.windowAt m).senderSlot ≠ some p) →
        (∀ m < 4, m ≠ n → t.windowAt m = s.windowAt m) ∧ t.answers = s.answers ∧ t.buffer = s.buffer) ∧
      (x.stall < 63 →
        t.windowAt n = { x with stall := x.stall + 1 } ∧
        (eventsOf .windowStalled es).filter (fun e => e.window == some n) = []) ∧
      (x.stall = 63 →
        t.windowAt n = { x with state := .stalled, stall := 64, origin := some from_ } ∧
        (eventsOf .windowStalled es).filter (fun e => e.window == some n) =
          [{ Event.of .windowStalled s.timer.frame with
             window := some n, station := x.sender, count := some x.count }] ∧
        exec (.windowStalled h) s = .next t)

/-! ### Chapter 10: buffer memory and events -/

/-- MEMORY_WRITE within buffer memory writes every word of its request and no other, and outside it is refused with RANGE;
a MEMORY_READ of those addresses, taken in a later selection with buffer memory as the write left it, returns the words
written (R175). -/
def Obligations.MemoryHoldsWhatIsWritten : Prop :=
  ∀ (s : State) (a : Nat) (words : List DataWord), s.host.state = .request →
    (1 ≤ words.length → words.length ≤ 64 → a + words.length ≤ 8192 →
      ∃ t : State, exec (.memoryWrite a words) s = .next t ∧
        t = ({ s with buffer := t.buffer } : State).replied (.memoryWrite a words) (.done (.written words.length)) ∧
        (∀ b, t.buffer.read b = if a ≤ b then words[b - a]?.getD (s.buffer.read b) else s.buffer.read b) ∧
        ∀ u : State, u.buffer = t.buffer → u.host.state = .request →
          exec (.memoryRead a words.length) u =
            .next (u.replied (.memoryRead a words.length) (.done (.words words)))) ∧
    ((words.length < 1 ∨ 64 < words.length ∨ 8192 < a + words.length) →
      exec (.memoryWrite a words) s = .next (s.replied (.memoryWrite a words) (.refused .range)))

/-- EVENT_READ of 1 to 8 removes and returns the oldest records, an EVENTS_LOST record last, and reports how many are
left; the attention line is asserted as long as some are (R178, R179). A posted event is stored while fewer than 31 records
stand and no EVENTS_LOST does; the first that is not stored adds EVENTS_LOST with count 1 and its own frame number, and every
later one raises that count up to 65535 (R177). -/
def Obligations.EventsAreReadAndCounted : Prop :=
  (∀ (s : State) (n : Nat), s.host.state = .request →
    (1 ≤ n → n ≤ 8 →
      ∃ t : State, exec (.eventRead n) s = .next t ∧
        t = ({ s with events := t.events } : State).replied (.eventRead n)
          (.done (.events (s.events.all.take n) (s.events.all.length - n))) ∧
        t.events.all = s.events.all.drop n ∧ (t.attention = true ↔ n < s.events.all.length)) ∧
    (¬(1 ≤ n ∧ n ≤ 8) → exec (.eventRead n) s = .next (s.replied (.eventRead n) (.refused .range)))) ∧
  (∀ s : State, s.attention = true ↔ s.events.all ≠ []) ∧
  ∀ (q : EventQueue) (e : Event),
    (∀ l, q.lost = some l →
      q.post e = { q with lost := some { l with count := if l.count < 65535 then l.count + 1 else 65535 } }) ∧
    (q.lost = none → q.records.length < 31 → (q.post e).all = q.all ++ [e]) ∧
    (q.lost = none → q.records.length = 31 →
      (q.post e).all = q.records ++ [{ Event.of .eventsLost e.frame with count := some 1 }])

/-! ### Invariants that every step keeps -/

/-- The state after reset is sound in every block, the roster with every entry at its reset value (R57); log 5 names the pins
and counters it rests on. -/
def Obligations.ResetStateIsSound : Prop := State.reset.sound

/-- Buffer memory keeps its canonical form, the event queue its capacity, the channels' queues and counts their ranges, and
the claim queue at most 8 records with no two of one tag, whatever command runs (R90, R112, R117, R175, R177). -/
def Obligations.MemoryAndQueuesStayBounded : Prop :=
  ∀ s t : State, step s = .next t →
    (s.bufferOk → t.bufferOk) ∧ (s.events.ok → t.events.ok) ∧ (s.channelsOk → t.channelsOk) ∧ (s.claims.ok → t.claims.ok)

/-- The job table keeps the bounds of R130, one record for each id, and at most one job for each slot (R130, R137). -/
def Obligations.JobTableStaysSound : Prop := ∀ s t : State, s.jobsOk → step s = .next t → t.jobsOk

/-- The windows keep count within capacity and capacity within buffer memory, and the answer queue at most one answer for
each window (R151, R166). -/
def Obligations.WindowsAndAnswersStaySound : Prop := ∀ s t : State, s.windowsOk → step s = .next t → t.windowsOk

/-- Station controller, frame timer, trunk port and host port keep agreeing: configuration with state, alignment with
state, position with frame length, frame numbers below 240, the holder flag set in JOINING, MEMBER and LEAVING alone and then
with self as holder and no missed mark, host port with its reply, reset line with OFF (R16, R35, R170, R181). The roster keeps
its bounds and its place 0, the own entry PRESENT exactly in MEMBER and LEAVING, and every entry at its reset value off the
trunk (R56, R57). -/
def Obligations.StationStaysSound : Prop :=
  (∀ s t : State, s.stationOk → step s = .next t → t.stationOk) ∧
  ∀ s t : State, s.stationOk → s.limitOk → s.rosterOk → step s = .next t → t.rosterOk

/-- A slot has a role exactly when self owns it, self owns slots in MEMBER and LEAVING alone, no channel has more than four
slots, and no receive channel is bound to an own slot (R41, R85, R117). -/
def Obligations.RolesFollowOwnership : Prop :=
  ∀ s t : State, s.stationOk → s.tableOk → step s = .next t → t.tableOk

/-- Holdings and queued SLOT and ANY records never exceed 16 (R71, R94). -/
def Obligations.HoldingsStayWithinLimit : Prop :=
  ∀ s t : State, s.stationOk → s.claims.ok → s.tableOk → s.limitOk → step s = .next t → t.limitOk

/-- No command ever stops the part: with job table and windows sound, every step answers a next state, in which they are
sound again. The premises rule out the one fault of the model (log 19). -/
def Obligations.NoCommandStopsThePart : Prop :=
  ∀ s : State, s.jobsOk → s.windowsOk → ∃ t, step s = .next t ∧ t.jobsOk ∧ t.windowsOk
end

