-- ==== Sys2Proof/Laws/Bank.lean ====
section
/-! SUPPORT. The laws of a bank: what a place holds after a write, a fill and a map. -/

namespace Sys2Proof.Machine

variable {α : Type} {n : Nat}

/-- Two banks that list the same things are the same. -/
theorem Bank.ext_items {b c : Bank α n} (h : b.items = c.items) : b = c := by
  cases b; cases c; simp_all

/-- Reading after writing one place. -/
theorem Bank.get_set (b : Bank α n) (i j : Nat) (x d : α) :
    (b.set i x).get j d = if i = j ∧ i < n then x else b.get j d := by
  have hs := b.size
  simp only [Bank.get, Bank.set, List.getD_eq_getElem?_getD, List.getElem?_set]
  by_cases h : i = j
  · subst h
    by_cases h2 : i < n
    · simp [h2, hs]
    · simp [h2, hs]
  · simp [h]

/-- Reading the place that was written. -/
@[simp] theorem Bank.get_set_self (b : Bank α n) (i : Nat) (x d : α) (h : i < n) : (b.set i x).get i d = x := by
  simp [Bank.get_set, h]

/-- Reading a place other than the one written. -/
@[simp] theorem Bank.get_set_ne (b : Bank α n) (i j : Nat) (x d : α) (h : i ≠ j) : (b.set i x).get j d = b.get j d := by
  simp [Bank.get_set, h]

/-- Writing one place twice keeps the second value. -/
@[simp] theorem Bank.set_set (b : Bank α n) (i : Nat) (x y : α) : (b.set i x).set i y = b.set i y :=
  Bank.ext_items (by simp [Bank.set, List.set_set])

/-- Reading a place that is not there. -/
theorem Bank.get_out (b : Bank α n) (i : Nat) (d : α) (h : n ≤ i) : b.get i d = d := by
  have hs := b.size
  simp [Bank.get, List.getD_eq_getElem?_getD, List.getElem?_eq_none (by omega : b.items.length ≤ i)]

/-- Every place of a fill holds the filled value, when it is the one read where there is no place. -/
@[simp] theorem Bank.get_fill (n i : Nat) (d : α) : (Bank.fill n d).get i d = d := by
  simp only [Bank.get, Bank.fill, List.getD_eq_getElem?_getD, List.getElem?_replicate]
  split <;> rfl

/-- Reading after a map that keeps the default. -/
theorem Bank.get_map (b : Bank α n) (f : α → α) (i : Nat) (d : α) (hd : f d = d) :
    (b.map f).get i d = f (b.get i d) := by
  simp only [Bank.get, Bank.map, List.getD_eq_getElem?_getD, List.getElem?_map]
  cases b.items[i]? <;> simp [hd]

/-- Reading a place of a map. -/
theorem Bank.get_map_lt (b : Bank α n) (f : α → α) (i : Nat) (d : α) (h : i < n) :
    (b.map f).get i d = f (b.get i d) := by
  have hs := b.size
  simp [Bank.get, Bank.map, List.getD_eq_getElem?_getD, List.getElem?_eq_getElem (by omega : i < b.items.length)]

/-- The things of a bank are those at its places. -/
theorem Bank.forall_items (b : Bank α n) (p : α → Prop) (d : α) : (∀ x ∈ b.items, p x) ↔ ∀ i < n, p (b.get i d) := by
  have hs := b.size
  constructor
  · intro h i hi
    have hl : i < b.items.length := by omega
    have := h _ (List.getElem_mem hl)
    simpa [Bank.get, List.getD_eq_getElem?_getD, List.getElem?_eq_getElem hl] using this
  · intro h x hx
    obtain ⟨i, hi, rfl⟩ := List.getElem_of_mem hx
    have := h i (by omega)
    simpa [Bank.get, List.getD_eq_getElem?_getD, List.getElem?_eq_getElem hi] using this

/-- Two banks with the same thing at every place are the same. -/
theorem Bank.ext_get {b c : Bank α n} (d : α) (h : ∀ i < n, b.get i d = c.get i d) : b = c := by
  have hb := b.size
  have hc := c.size
  refine Bank.ext_items (List.ext_getElem (by omega) fun i h1 h2 => ?_)
  have := h i (by omega)
  simpa [Bank.get, List.getD_eq_getElem?_getD, List.getElem?_eq_getElem h1, List.getElem?_eq_getElem h2] using this

/-- A property of every thing is kept by writing a thing that has it. -/
theorem Bank.forall_set {b : Bank α n} {p : α → Prop} {i : Nat} {x : α} (h : ∀ y ∈ b.items, p y) (hx : p x) :
    ∀ y ∈ (b.set i x).items, p y := by
  intro y hy
  rcases List.mem_or_eq_of_mem_set hy with h1 | h1
  · exact h y h1
  · exact h1 ▸ hx

/-- A property of every thing after a map. -/
theorem Bank.forall_map {b : Bank α n} {p : α → Prop} {f : α → α} (h : ∀ y ∈ b.items, p (f y)) :
    ∀ y ∈ (b.map f).items, p y := by
  intro y hy
  obtain ⟨x, hx, rfl⟩ := List.mem_map.mp hy
  exact h x hx

end Sys2Proof.Machine
end

