-- ==== Sys2Proof/Laws/Events.lean ====
section
/-! SUPPORT. The laws of the event queue and of the free order in which several blocks post. -/

namespace Sys2Proof.Machine

@[simp] theorem EventQueue.postAll_nil (q : EventQueue) : q.postAll [] = q := rfl

@[simp] theorem EventQueue.postAll_cons (q : EventQueue) (e : Event) (es : List Event) :
    q.postAll (e :: es) = (q.post e).postAll es := rfl

/-- Posting in two goes. -/
theorem EventQueue.postAll_append (q : EventQueue) (xs ys : List Event) :
    q.postAll (xs ++ ys) = (q.postAll xs).postAll ys := List.foldl_append ..

@[simp] theorem shuffle_zero (h i : Nat) (xs ys : List Event) : shuffle h 0 i xs ys = [] := rfl

/-- One block alone keeps its order. -/
theorem shuffle_right (h : Nat) : ∀ (n i : Nat) (ys : List Event), n = ys.length → shuffle h n i [] ys = ys := by
  intro n
  induction n with
  | zero => intro i ys hn; simp [List.length_eq_zero_iff.mp hn.symm]
  | succ n ih =>
    intro i ys hn
    cases ys with
    | nil => simp at hn
    | cons y ys => simp only [List.length_cons, Nat.add_right_cancel_iff] at hn; simp [shuffle, fromFirst, ih _ _ hn]

/-- One block alone keeps its order. -/
theorem shuffle_left (h : Nat) : ∀ (n i : Nat) (xs : List Event), n = xs.length → shuffle h n i xs [] = xs := by
  intro n
  induction n with
  | zero => intro i xs hn; simp [List.length_eq_zero_iff.mp hn.symm]
  | succ n ih =>
    intro i xs hn
    cases xs with
    | nil => simp at hn
    | cons x xs => simp only [List.length_cons, Nat.add_right_cancel_iff] at hn; simp [shuffle, fromFirst, ih _ _ hn]

/-- A free order posts every event of both blocks once. -/
theorem shuffle_perm (h : Nat) : ∀ (n i : Nat) (xs ys : List Event), n = xs.length + ys.length →
    (shuffle h n i xs ys).Perm (xs ++ ys) := by
  intro n
  induction n with
  | zero =>
    intro i xs ys hn
    have h1 : xs = [] := List.length_eq_zero_iff.mp (by omega)
    have h2 : ys = [] := List.length_eq_zero_iff.mp (by omega)
    simp [h1, h2]
  | succ n ih =>
    intro i xs ys hn
    cases xs with
    | nil => simp only [List.nil_append]; rw [shuffle_right _ _ _ _ (by simpa using hn)]
    | cons x xs =>
      cases ys with
      | nil => rw [shuffle_left _ _ _ _ (by simpa using hn)]; simp
      | cons y ys =>
        simp only [List.length_cons] at hn
        simp only [shuffle, fromFirst]
        rcases (Bool.eq_false_or_eq_true (Config.freeChoice h i)).symm with hc | hc
        · simp only [hc, Bool.false_eq_true, if_false, List.headD_cons, List.tail_cons]
          have := ih (i + 1) (x :: xs) ys (by simp; omega)
          refine (List.Perm.cons y this).trans ?_
          exact (List.perm_middle (a := y) (l₁ := x :: xs) (l₂ := ys)).symm
        · simp only [hc, if_true, List.headD_cons, List.tail_cons, List.cons_append]
          exact List.Perm.cons x (ih (i + 1) xs (y :: ys) (by simp; omega))

/-- Events of one kind keep their order within a block: when the second block posts none of them, the first block's stand
in its order. -/
theorem shuffle_filter_left (p : Event → Bool) (h : Nat) : ∀ (n i : Nat) (xs ys : List Event), n = xs.length + ys.length →
    ys.filter p = [] → (shuffle h n i xs ys).filter p = xs.filter p := by
  intro n
  induction n with
  | zero =>
    intro i xs ys hn _
    have h1 : xs = [] := List.length_eq_zero_iff.mp (by omega)
    simp [h1]
  | succ n ih =>
    intro i xs ys hn hy
    cases xs with
    | nil => rw [shuffle_right _ _ _ _ (by simpa using hn)]; simpa using hy
    | cons x xs =>
      cases ys with
      | nil => rw [shuffle_left _ _ _ _ (by simpa using hn)]
      | cons y ys =>
        simp only [List.length_cons] at hn
        have hy2 : p y = false ∧ ys.filter p = [] := by
          simp only [List.filter_cons] at hy
          by_cases hp : p y = true <;> simp_all
        simp only [shuffle, fromFirst]
        rcases (Bool.eq_false_or_eq_true (Config.freeChoice h i)).symm with hc | hc
        · simp only [hc, Bool.false_eq_true, if_false, List.headD_cons, List.tail_cons, List.filter_cons, hy2.1]
          have := ih (i + 1) (x :: xs) ys (by simp; omega) hy2.2
          simpa [List.filter_cons] using this
        · simp only [hc, if_true, List.headD_cons, List.tail_cons, List.filter_cons]
          rw [ih (i + 1) xs (y :: ys) (by simp; omega) hy]

/-- The same with the blocks changed round. -/
theorem shuffle_filter_right (p : Event → Bool) (h : Nat) : ∀ (n i : Nat) (xs ys : List Event),
    n = xs.length + ys.length → xs.filter p = [] → (shuffle h n i xs ys).filter p = ys.filter p := by
  intro n
  induction n with
  | zero =>
    intro i xs ys hn _
    have h1 : ys = [] := List.length_eq_zero_iff.mp (by omega)
    simp [h1]
  | succ n ih =>
    intro i xs ys hn hx
    cases xs with
    | nil => rw [shuffle_right _ _ _ _ (by simpa using hn)]
    | cons x xs =>
      cases ys with
      | nil => rw [shuffle_left _ _ _ _ (by simpa using hn)]; simpa using hx
      | cons y ys =>
        simp only [List.length_cons] at hn
        have hx2 : p x = false ∧ xs.filter p = [] := by
          simp only [List.filter_cons] at hx
          by_cases hp : p x = true <;> simp_all
        simp only [shuffle, fromFirst]
        rcases (Bool.eq_false_or_eq_true (Config.freeChoice h i)).symm with hc | hc
        · simp only [hc, Bool.false_eq_true, if_false, List.headD_cons, List.tail_cons, List.filter_cons]
          rw [ih (i + 1) (x :: xs) ys (by simp; omega) hx]
        · simp only [hc, if_true, List.headD_cons, List.tail_cons, List.filter_cons, hx2.1]
          have := ih (i + 1) xs (y :: ys) (by simp; omega) hx2.2
          simpa [List.filter_cons] using this

@[simp] theorem mergeAll_nil (h base : Nat) : mergeAll h base [] = [] := rfl

/-- A free order of several blocks posts every event once. -/
theorem mergeAll_perm (h : Nat) (gs : List (List Event)) : ∀ base, (mergeAll h base gs).Perm gs.flatten := by
  induction gs with
  | nil => intro base; simp
  | cons g gs ih =>
    intro base
    have hl : (mergeAll h (base + 64) gs).length = (gs.map List.length).sum := by
      rw [(ih (base + 64)).length_eq, List.length_flatten]
    refine (shuffle_perm h _ _ _ _ (by rw [hl])).trans ?_
    simpa using List.Perm.append_left g (ih (base + 64))

/-- A free order is as long as its blocks together. -/
theorem mergeAll_length (h base : Nat) (gs : List (List Event)) :
    (mergeAll h base gs).length = (gs.map List.length).sum := by
  rw [(mergeAll_perm h gs base).length_eq, List.length_flatten]

/-- A block that posts nothing does not count. -/
@[simp] theorem mergeAll_nil_cons (h base : Nat) (gs : List (List Event)) :
    mergeAll h base ([] :: gs) = mergeAll h (base + 64) gs :=
  shuffle_right h _ _ _ (by simp [mergeAll_length])

/-- A block alone keeps its order. -/
theorem mergeAll_alone (h base : Nat) (g : List Event) (gs : List (List Event)) (hg : gs.flatten = []) :
    mergeAll h base (g :: gs) = g := by
  have hm : mergeAll h (base + 64) gs = [] := by
    have := (mergeAll_perm h gs (base + 64)).length_eq
    rw [hg] at this
    exact List.length_eq_zero_iff.mp this
  have hs : (gs.map List.length).sum = 0 := by rw [← List.length_flatten, hg]; rfl
  simp only [mergeAll, hm, hs]
  exact shuffle_left h _ _ _ (by simp)

/-- Nothing posted by any block is nothing posted. -/
theorem mergeAll_empty (h base : Nat) (gs : List (List Event)) (hg : gs.flatten = []) : mergeAll h base gs = [] := by
  have := (mergeAll_perm h gs base).length_eq
  rw [hg] at this
  exact List.length_eq_zero_iff.mp this

/-- Events that only one block posts keep that block's order. -/
theorem mergeAll_filter_head (p : Event → Bool) (h base : Nat) (g : List Event) (gs : List (List Event))
    (hg : gs.flatten.filter p = []) : (mergeAll h base (g :: gs)).filter p = g.filter p := by
  have hm : (mergeAll h (base + 64) gs).filter p = [] := by
    have := ((mergeAll_perm h gs (base + 64)).filter p).length_eq
    rw [hg] at this
    exact List.length_eq_zero_iff.mp this
  exact shuffle_filter_left p h _ _ _ _ (by simp [mergeAll_length]) hm

/-- Events that the first block does not post keep the order of the others. -/
theorem mergeAll_filter_tail (p : Event → Bool) (h base : Nat) (g : List Event) (gs : List (List Event))
    (hg : g.filter p = []) : (mergeAll h base (g :: gs)).filter p = (mergeAll h (base + 64) gs).filter p :=
  shuffle_filter_right p h _ _ _ _ (by simp [mergeAll_length]) hg

end Sys2Proof.Machine
end

