-- ==== Sys2Proof/Laws/Memory.lean ====
section
/-! SUPPORT. The laws of buffer memory: reading after writing, and the canonical form. -/

namespace Sys2Proof.Machine

/-- Looking up after inserting: the inserted address gives the word, every other address what it gave. -/
theorem lookupCell_insertCell (cs : List (Nat × DataWord)) (a b : Nat) (w : DataWord) :
    lookupCell (insertCell a w cs) b = if a = b then some w else lookupCell cs b := by
  induction cs with
  | nil => simp [insertCell, lookupCell]
  | cons c cs ih =>
    simp only [insertCell]
    split
    · simp [lookupCell]
    · split
      · rename_i h1 h2
        subst h2
        simp only [lookupCell]
        split <;> simp_all
      · rename_i h1 h2
        simp only [lookupCell, ih]
        split <;> split <;> simp_all

/-- Writing a buffer address keeps the canonical form. -/
theorem cellsWf_insertCell (cs : List (Nat × DataWord)) (a : Nat) (w : DataWord) (ha : a < Config.bufferWords)
    (h : cellsWf cs = true) : cellsWf (insertCell a w cs) = true := by
  induction cs with
  | nil => simpa [insertCell, cellsWf] using ha
  | cons c cs ih =>
    cases cs with
    | nil =>
      simp only [cellsWf, decide_eq_true_eq] at h
      simp only [insertCell]
      split
      · simp_all [cellsWf]
      · split
        · simpa [cellsWf] using ha
        · have : c.1 < a := by omega
          simp [cellsWf, this, ha]
    | cons d ds =>
      simp only [cellsWf, Bool.and_eq_true, decide_eq_true_eq] at h
      have h2 := ih h.2
      simp only [insertCell] at h2 ⊢
      split
      · simp_all [cellsWf]
      · split
        · rename_i h3 h4
          subst h4
          simp_all [cellsWf]
        · have h5 : c.1 < a := by omega
          split at h2
          · simp_all [cellsWf]
          · rename_i h7
            rw [if_neg h7]
            split at h2
            · simp_all [cellsWf]
            · simp_all [cellsWf]

/-- One word written keeps the canonical form. -/
theorem Buffer.wf_write (b : Buffer) (a : Nat) (w : DataWord) (ha : a < Config.bufferWords) (h : b.wf = true) :
    (b.write a w).wf = true := cellsWf_insertCell _ _ _ ha h

/-- Reading after one write: the written address gives the word, every other address what it gave. -/
theorem Buffer.read_write (b : Buffer) (a c : Nat) (w : DataWord) :
    (b.write a w).read c = if a = c then w else b.read c := by
  simp only [Buffer.read, Buffer.write, lookupCell_insertCell]
  split <;> simp

/-- A write does not count power-ons. -/
@[simp] theorem Buffer.powerOns_write (b : Buffer) (a : Nat) (w : DataWord) : (b.write a w).powerOns = b.powerOns := rfl

/-- Consecutive words written keep the canonical form. -/
theorem Buffer.wf_writeAll (ws : List DataWord) : ∀ (b : Buffer) (a : Nat), a + ws.length ≤ Config.bufferWords →
    b.wf = true → (b.writeAll a ws).wf = true := by
  induction ws with
  | nil => intro b a _ h; simpa [Buffer.writeAll] using h
  | cons w ws ih =>
    intro b a ha h
    simp only [List.length_cons] at ha
    exact ih _ _ (by omega) (Buffer.wf_write b a w (by omega) h)

/-- Reading after consecutive writes. -/
theorem Buffer.read_writeAll (ws : List DataWord) : ∀ (b : Buffer) (a c : Nat),
    (b.writeAll a ws).read c = if a ≤ c then ws[c - a]?.getD (b.read c) else b.read c := by
  induction ws with
  | nil => intro b a c; simp [Buffer.writeAll]
  | cons w ws ih =>
    intro b a c
    simp only [Buffer.writeAll, ih _ (a + 1) c, Buffer.read_write b a c w]
    by_cases h1 : a = c
    · subst h1; simp
    · by_cases h2 : a ≤ c
      · have h3 : a + 1 ≤ c := by omega
        have h4 : c - a = (c - (a + 1)) + 1 := by omega
        simp [h1, h2, h3, h4]
      · have h3 : ¬ a + 1 ≤ c := by omega
        simp [h1, h2, h3]

/-- Consecutive writes do not count power-ons. -/
@[simp] theorem Buffer.powerOns_writeAll (ws : List DataWord) : ∀ (b : Buffer) (a : Nat),
    (b.writeAll a ws).powerOns = b.powerOns := by
  induction ws with
  | nil => intro b a; rfl
  | cons w ws ih => intro b a; simp [Buffer.writeAll, ih]

end Sys2Proof.Machine
end

