-- ==== Sys2Proof/Laws/State.lean ====
section
/-! SUPPORT. What each update of the state changes and what it leaves: one lemma for each field and update, and for the
reads that rest on the configuration. All hold by unfolding the update, so that later proofs need not. -/

namespace Sys2Proof.Machine

/-! Slot `n`'s entry is written: the table alone. -/

@[simp] theorem State.setEntry_port (s : State) (n : Nat) (e : SlotEntry) : (s.setEntry n e).port = s.port := rfl
@[simp] theorem State.setEntry_timer (s : State) (n : Nat) (e : SlotEntry) : (s.setEntry n e).timer = s.timer := rfl
@[simp] theorem State.setEntry_control (s : State) (n : Nat) (e : SlotEntry) :
    (s.setEntry n e).control = s.control := rfl
@[simp] theorem State.setEntry_roster (s : State) (n : Nat) (e : SlotEntry) : (s.setEntry n e).roster = s.roster := rfl
@[simp] theorem State.setEntry_table (s : State) (n : Nat) (e : SlotEntry) :
    (s.setEntry n e).table = s.table.set n e := rfl
@[simp] theorem State.setEntry_claims (s : State) (n : Nat) (e : SlotEntry) : (s.setEntry n e).claims = s.claims := rfl
@[simp] theorem State.setEntry_tx (s : State) (n : Nat) (e : SlotEntry) : (s.setEntry n e).tx = s.tx := rfl
@[simp] theorem State.setEntry_rx (s : State) (n : Nat) (e : SlotEntry) : (s.setEntry n e).rx = s.rx := rfl
@[simp] theorem State.setEntry_jobs (s : State) (n : Nat) (e : SlotEntry) : (s.setEntry n e).jobs = s.jobs := rfl
@[simp] theorem State.setEntry_windows (s : State) (n : Nat) (e : SlotEntry) :
    (s.setEntry n e).windows = s.windows := rfl
@[simp] theorem State.setEntry_answers (s : State) (n : Nat) (e : SlotEntry) :
    (s.setEntry n e).answers = s.answers := rfl
@[simp] theorem State.setEntry_buffer (s : State) (n : Nat) (e : SlotEntry) : (s.setEntry n e).buffer = s.buffer := rfl
@[simp] theorem State.setEntry_events (s : State) (n : Nat) (e : SlotEntry) : (s.setEntry n e).events = s.events := rfl
@[simp] theorem State.setEntry_host (s : State) (n : Nat) (e : SlotEntry) : (s.setEntry n e).host = s.host := rfl
@[simp] theorem State.setEntry_pins (s : State) (n : Nat) (e : SlotEntry) : (s.setEntry n e).pins = s.pins := rfl
@[simp] theorem State.setEntry_happening (s : State) (n : Nat) (e : SlotEntry) :
    (s.setEntry n e).happening = s.happening := rfl
@[simp] theorem State.setEntry_pending (s : State) (n : Nat) (e : SlotEntry) :
    (s.setEntry n e).pending = s.pending := rfl
@[simp] theorem State.setEntry_self (s : State) (n : Nat) (e : SlotEntry) : (s.setEntry n e).self = s.self := rfl
@[simp] theorem State.setEntry_len (s : State) (n : Nat) (e : SlotEntry) : (s.setEntry n e).len = s.len := rfl
@[simp] theorem State.setEntry_eligible (s : State) (n : Nat) (e : SlotEntry) : (s.setEntry n e).eligible = s.eligible := rfl

/-! A roster entry is written: the roster alone. -/

@[simp] theorem State.setRoster_port (s : State) (a : Nat) (e : RosterEntry) : (s.setRoster a e).port = s.port := rfl
@[simp] theorem State.setRoster_timer (s : State) (a : Nat) (e : RosterEntry) : (s.setRoster a e).timer = s.timer := rfl
@[simp] theorem State.setRoster_control (s : State) (a : Nat) (e : RosterEntry) :
    (s.setRoster a e).control = s.control := rfl
@[simp] theorem State.setRoster_roster (s : State) (a : Nat) (e : RosterEntry) :
    (s.setRoster a e).roster = s.roster.set a e := rfl
@[simp] theorem State.setRoster_table (s : State) (a : Nat) (e : RosterEntry) : (s.setRoster a e).table = s.table := rfl
@[simp] theorem State.setRoster_claims (s : State) (a : Nat) (e : RosterEntry) :
    (s.setRoster a e).claims = s.claims := rfl
@[simp] theorem State.setRoster_tx (s : State) (a : Nat) (e : RosterEntry) : (s.setRoster a e).tx = s.tx := rfl
@[simp] theorem State.setRoster_rx (s : State) (a : Nat) (e : RosterEntry) : (s.setRoster a e).rx = s.rx := rfl
@[simp] theorem State.setRoster_jobs (s : State) (a : Nat) (e : RosterEntry) : (s.setRoster a e).jobs = s.jobs := rfl
@[simp] theorem State.setRoster_windows (s : State) (a : Nat) (e : RosterEntry) :
    (s.setRoster a e).windows = s.windows := rfl
@[simp] theorem State.setRoster_answers (s : State) (a : Nat) (e : RosterEntry) :
    (s.setRoster a e).answers = s.answers := rfl
@[simp] theorem State.setRoster_buffer (s : State) (a : Nat) (e : RosterEntry) :
    (s.setRoster a e).buffer = s.buffer := rfl
@[simp] theorem State.setRoster_events (s : State) (a : Nat) (e : RosterEntry) :
    (s.setRoster a e).events = s.events := rfl
@[simp] theorem State.setRoster_host (s : State) (a : Nat) (e : RosterEntry) : (s.setRoster a e).host = s.host := rfl
@[simp] theorem State.setRoster_pins (s : State) (a : Nat) (e : RosterEntry) : (s.setRoster a e).pins = s.pins := rfl
@[simp] theorem State.setRoster_happening (s : State) (a : Nat) (e : RosterEntry) :
    (s.setRoster a e).happening = s.happening := rfl
@[simp] theorem State.setRoster_pending (s : State) (a : Nat) (e : RosterEntry) :
    (s.setRoster a e).pending = s.pending := rfl
@[simp] theorem State.setRoster_self (s : State) (a : Nat) (e : RosterEntry) : (s.setRoster a e).self = s.self := rfl
@[simp] theorem State.setRoster_len (s : State) (a : Nat) (e : RosterEntry) : (s.setRoster a e).len = s.len := rfl
@[simp] theorem State.setRoster_eligible (s : State) (a : Nat) (e : RosterEntry) : (s.setRoster a e).eligible = s.eligible := rfl

/-! A transmit channel is written: the transmit channels alone. -/

@[simp] theorem State.setTx_port (s : State) (c : Nat) (x : TxChannel) : (s.setTx c x).port = s.port := rfl
@[simp] theorem State.setTx_timer (s : State) (c : Nat) (x : TxChannel) : (s.setTx c x).timer = s.timer := rfl
@[simp] theorem State.setTx_control (s : State) (c : Nat) (x : TxChannel) : (s.setTx c x).control = s.control := rfl
@[simp] theorem State.setTx_roster (s : State) (c : Nat) (x : TxChannel) : (s.setTx c x).roster = s.roster := rfl
@[simp] theorem State.setTx_table (s : State) (c : Nat) (x : TxChannel) : (s.setTx c x).table = s.table := rfl
@[simp] theorem State.setTx_claims (s : State) (c : Nat) (x : TxChannel) : (s.setTx c x).claims = s.claims := rfl
@[simp] theorem State.setTx_tx (s : State) (c : Nat) (x : TxChannel) : (s.setTx c x).tx = s.tx.set c x := rfl
@[simp] theorem State.setTx_rx (s : State) (c : Nat) (x : TxChannel) : (s.setTx c x).rx = s.rx := rfl
@[simp] theorem State.setTx_jobs (s : State) (c : Nat) (x : TxChannel) : (s.setTx c x).jobs = s.jobs := rfl
@[simp] theorem State.setTx_windows (s : State) (c : Nat) (x : TxChannel) : (s.setTx c x).windows = s.windows := rfl
@[simp] theorem State.setTx_answers (s : State) (c : Nat) (x : TxChannel) : (s.setTx c x).answers = s.answers := rfl
@[simp] theorem State.setTx_buffer (s : State) (c : Nat) (x : TxChannel) : (s.setTx c x).buffer = s.buffer := rfl
@[simp] theorem State.setTx_events (s : State) (c : Nat) (x : TxChannel) : (s.setTx c x).events = s.events := rfl
@[simp] theorem State.setTx_host (s : State) (c : Nat) (x : TxChannel) : (s.setTx c x).host = s.host := rfl
@[simp] theorem State.setTx_pins (s : State) (c : Nat) (x : TxChannel) : (s.setTx c x).pins = s.pins := rfl
@[simp] theorem State.setTx_happening (s : State) (c : Nat) (x : TxChannel) :
    (s.setTx c x).happening = s.happening := rfl
@[simp] theorem State.setTx_pending (s : State) (c : Nat) (x : TxChannel) : (s.setTx c x).pending = s.pending := rfl
@[simp] theorem State.setTx_self (s : State) (c : Nat) (x : TxChannel) : (s.setTx c x).self = s.self := rfl
@[simp] theorem State.setTx_len (s : State) (c : Nat) (x : TxChannel) : (s.setTx c x).len = s.len := rfl
@[simp] theorem State.setTx_eligible (s : State) (c : Nat) (x : TxChannel) : (s.setTx c x).eligible = s.eligible := rfl

/-! A receive channel is written: the receive channels alone. -/

@[simp] theorem State.setRx_port (s : State) (c : Nat) (x : RxChannel) : (s.setRx c x).port = s.port := rfl
@[simp] theorem State.setRx_timer (s : State) (c : Nat) (x : RxChannel) : (s.setRx c x).timer = s.timer := rfl
@[simp] theorem State.setRx_control (s : State) (c : Nat) (x : RxChannel) : (s.setRx c x).control = s.control := rfl
@[simp] theorem State.setRx_roster (s : State) (c : Nat) (x : RxChannel) : (s.setRx c x).roster = s.roster := rfl
@[simp] theorem State.setRx_table (s : State) (c : Nat) (x : RxChannel) : (s.setRx c x).table = s.table := rfl
@[simp] theorem State.setRx_claims (s : State) (c : Nat) (x : RxChannel) : (s.setRx c x).claims = s.claims := rfl
@[simp] theorem State.setRx_tx (s : State) (c : Nat) (x : RxChannel) : (s.setRx c x).tx = s.tx := rfl
@[simp] theorem State.setRx_rx (s : State) (c : Nat) (x : RxChannel) : (s.setRx c x).rx = s.rx.set c x := rfl
@[simp] theorem State.setRx_jobs (s : State) (c : Nat) (x : RxChannel) : (s.setRx c x).jobs = s.jobs := rfl
@[simp] theorem State.setRx_windows (s : State) (c : Nat) (x : RxChannel) : (s.setRx c x).windows = s.windows := rfl
@[simp] theorem State.setRx_answers (s : State) (c : Nat) (x : RxChannel) : (s.setRx c x).answers = s.answers := rfl
@[simp] theorem State.setRx_buffer (s : State) (c : Nat) (x : RxChannel) : (s.setRx c x).buffer = s.buffer := rfl
@[simp] theorem State.setRx_events (s : State) (c : Nat) (x : RxChannel) : (s.setRx c x).events = s.events := rfl
@[simp] theorem State.setRx_host (s : State) (c : Nat) (x : RxChannel) : (s.setRx c x).host = s.host := rfl
@[simp] theorem State.setRx_pins (s : State) (c : Nat) (x : RxChannel) : (s.setRx c x).pins = s.pins := rfl
@[simp] theorem State.setRx_happening (s : State) (c : Nat) (x : RxChannel) :
    (s.setRx c x).happening = s.happening := rfl
@[simp] theorem State.setRx_pending (s : State) (c : Nat) (x : RxChannel) : (s.setRx c x).pending = s.pending := rfl
@[simp] theorem State.setRx_self (s : State) (c : Nat) (x : RxChannel) : (s.setRx c x).self = s.self := rfl
@[simp] theorem State.setRx_len (s : State) (c : Nat) (x : RxChannel) : (s.setRx c x).len = s.len := rfl
@[simp] theorem State.setRx_eligible (s : State) (c : Nat) (x : RxChannel) : (s.setRx c x).eligible = s.eligible := rfl

/-! A window is written: the windows alone. -/

@[simp] theorem State.setWindow_port (s : State) (w : Nat) (x : Window) : (s.setWindow w x).port = s.port := rfl
@[simp] theorem State.setWindow_timer (s : State) (w : Nat) (x : Window) : (s.setWindow w x).timer = s.timer := rfl
@[simp] theorem State.setWindow_control (s : State) (w : Nat) (x : Window) :
    (s.setWindow w x).control = s.control := rfl
@[simp] theorem State.setWindow_roster (s : State) (w : Nat) (x : Window) : (s.setWindow w x).roster = s.roster := rfl
@[simp] theorem State.setWindow_table (s : State) (w : Nat) (x : Window) : (s.setWindow w x).table = s.table := rfl
@[simp] theorem State.setWindow_claims (s : State) (w : Nat) (x : Window) : (s.setWindow w x).claims = s.claims := rfl
@[simp] theorem State.setWindow_tx (s : State) (w : Nat) (x : Window) : (s.setWindow w x).tx = s.tx := rfl
@[simp] theorem State.setWindow_rx (s : State) (w : Nat) (x : Window) : (s.setWindow w x).rx = s.rx := rfl
@[simp] theorem State.setWindow_jobs (s : State) (w : Nat) (x : Window) : (s.setWindow w x).jobs = s.jobs := rfl
@[simp] theorem State.setWindow_windows (s : State) (w : Nat) (x : Window) :
    (s.setWindow w x).windows = s.windows.set w x := rfl
@[simp] theorem State.setWindow_answers (s : State) (w : Nat) (x : Window) :
    (s.setWindow w x).answers = s.answers := rfl
@[simp] theorem State.setWindow_buffer (s : State) (w : Nat) (x : Window) : (s.setWindow w x).buffer = s.buffer := rfl
@[simp] theorem State.setWindow_events (s : State) (w : Nat) (x : Window) : (s.setWindow w x).events = s.events := rfl
@[simp] theorem State.setWindow_host (s : State) (w : Nat) (x : Window) : (s.setWindow w x).host = s.host := rfl
@[simp] theorem State.setWindow_pins (s : State) (w : Nat) (x : Window) : (s.setWindow w x).pins = s.pins := rfl
@[simp] theorem State.setWindow_happening (s : State) (w : Nat) (x : Window) :
    (s.setWindow w x).happening = s.happening := rfl
@[simp] theorem State.setWindow_pending (s : State) (w : Nat) (x : Window) :
    (s.setWindow w x).pending = s.pending := rfl
@[simp] theorem State.setWindow_self (s : State) (w : Nat) (x : Window) : (s.setWindow w x).self = s.self := rfl
@[simp] theorem State.setWindow_len (s : State) (w : Nat) (x : Window) : (s.setWindow w x).len = s.len := rfl
@[simp] theorem State.setWindow_eligible (s : State) (w : Nat) (x : Window) : (s.setWindow w x).eligible = s.eligible := rfl

/-! A job record is written: the job table alone. -/

@[simp] theorem State.setJob_port (s : State) (j : Job) : (s.setJob j).port = s.port := rfl
@[simp] theorem State.setJob_timer (s : State) (j : Job) : (s.setJob j).timer = s.timer := rfl
@[simp] theorem State.setJob_control (s : State) (j : Job) : (s.setJob j).control = s.control := rfl
@[simp] theorem State.setJob_roster (s : State) (j : Job) : (s.setJob j).roster = s.roster := rfl
@[simp] theorem State.setJob_table (s : State) (j : Job) : (s.setJob j).table = s.table := rfl
@[simp] theorem State.setJob_claims (s : State) (j : Job) : (s.setJob j).claims = s.claims := rfl
@[simp] theorem State.setJob_tx (s : State) (j : Job) : (s.setJob j).tx = s.tx := rfl
@[simp] theorem State.setJob_rx (s : State) (j : Job) : (s.setJob j).rx = s.rx := rfl
@[simp] theorem State.setJob_jobs (s : State) (j : Job) :
    (s.setJob j).jobs = s.jobs.map (fun x => if x.id = j.id then j else x) := rfl
@[simp] theorem State.setJob_windows (s : State) (j : Job) : (s.setJob j).windows = s.windows := rfl
@[simp] theorem State.setJob_answers (s : State) (j : Job) : (s.setJob j).answers = s.answers := rfl
@[simp] theorem State.setJob_buffer (s : State) (j : Job) : (s.setJob j).buffer = s.buffer := rfl
@[simp] theorem State.setJob_events (s : State) (j : Job) : (s.setJob j).events = s.events := rfl
@[simp] theorem State.setJob_host (s : State) (j : Job) : (s.setJob j).host = s.host := rfl
@[simp] theorem State.setJob_pins (s : State) (j : Job) : (s.setJob j).pins = s.pins := rfl
@[simp] theorem State.setJob_happening (s : State) (j : Job) : (s.setJob j).happening = s.happening := rfl
@[simp] theorem State.setJob_pending (s : State) (j : Job) : (s.setJob j).pending = s.pending := rfl
@[simp] theorem State.setJob_self (s : State) (j : Job) : (s.setJob j).self = s.self := rfl
@[simp] theorem State.setJob_len (s : State) (j : Job) : (s.setJob j).len = s.len := rfl
@[simp] theorem State.setJob_eligible (s : State) (j : Job) : (s.setJob j).eligible = s.eligible := rfl

/-! Events are posted: the event queue alone. -/

@[simp] theorem State.postAll_port (s : State) (es : List Event) : (s.postAll es).port = s.port := rfl
@[simp] theorem State.postAll_timer (s : State) (es : List Event) : (s.postAll es).timer = s.timer := rfl
@[simp] theorem State.postAll_control (s : State) (es : List Event) : (s.postAll es).control = s.control := rfl
@[simp] theorem State.postAll_roster (s : State) (es : List Event) : (s.postAll es).roster = s.roster := rfl
@[simp] theorem State.postAll_table (s : State) (es : List Event) : (s.postAll es).table = s.table := rfl
@[simp] theorem State.postAll_claims (s : State) (es : List Event) : (s.postAll es).claims = s.claims := rfl
@[simp] theorem State.postAll_tx (s : State) (es : List Event) : (s.postAll es).tx = s.tx := rfl
@[simp] theorem State.postAll_rx (s : State) (es : List Event) : (s.postAll es).rx = s.rx := rfl
@[simp] theorem State.postAll_jobs (s : State) (es : List Event) : (s.postAll es).jobs = s.jobs := rfl
@[simp] theorem State.postAll_windows (s : State) (es : List Event) : (s.postAll es).windows = s.windows := rfl
@[simp] theorem State.postAll_answers (s : State) (es : List Event) : (s.postAll es).answers = s.answers := rfl
@[simp] theorem State.postAll_buffer (s : State) (es : List Event) : (s.postAll es).buffer = s.buffer := rfl
@[simp] theorem State.postAll_events (s : State) (es : List Event) : (s.postAll es).events = s.events.postAll es := rfl
@[simp] theorem State.postAll_host (s : State) (es : List Event) : (s.postAll es).host = s.host := rfl
@[simp] theorem State.postAll_pins (s : State) (es : List Event) : (s.postAll es).pins = s.pins := rfl
@[simp] theorem State.postAll_happening (s : State) (es : List Event) : (s.postAll es).happening = s.happening := rfl
@[simp] theorem State.postAll_pending (s : State) (es : List Event) : (s.postAll es).pending = s.pending := rfl
@[simp] theorem State.postAll_self (s : State) (es : List Event) : (s.postAll es).self = s.self := rfl
@[simp] theorem State.postAll_len (s : State) (es : List Event) : (s.postAll es).len = s.len := rfl
@[simp] theorem State.postAll_eligible (s : State) (es : List Event) : (s.postAll es).eligible = s.eligible := rfl

/-! Several blocks post: the event queue alone. -/

@[simp] theorem State.postGroups_port (s : State) (base : Nat) (gs : List (List Event)) :
    (s.postGroups base gs).port = s.port := rfl
@[simp] theorem State.postGroups_timer (s : State) (base : Nat) (gs : List (List Event)) :
    (s.postGroups base gs).timer = s.timer := rfl
@[simp] theorem State.postGroups_control (s : State) (base : Nat) (gs : List (List Event)) :
    (s.postGroups base gs).control = s.control := rfl
@[simp] theorem State.postGroups_roster (s : State) (base : Nat) (gs : List (List Event)) :
    (s.postGroups base gs).roster = s.roster := rfl
@[simp] theorem State.postGroups_table (s : State) (base : Nat) (gs : List (List Event)) :
    (s.postGroups base gs).table = s.table := rfl
@[simp] theorem State.postGroups_claims (s : State) (base : Nat) (gs : List (List Event)) :
    (s.postGroups base gs).claims = s.claims := rfl
@[simp] theorem State.postGroups_tx (s : State) (base : Nat) (gs : List (List Event)) :
    (s.postGroups base gs).tx = s.tx := rfl
@[simp] theorem State.postGroups_rx (s : State) (base : Nat) (gs : List (List Event)) :
    (s.postGroups base gs).rx = s.rx := rfl
@[simp] theorem State.postGroups_jobs (s : State) (base : Nat) (gs : List (List Event)) :
    (s.postGroups base gs).jobs = s.jobs := rfl
@[simp] theorem State.postGroups_windows (s : State) (base : Nat) (gs : List (List Event)) :
    (s.postGroups base gs).windows = s.windows := rfl
@[simp] theorem State.postGroups_answers (s : State) (base : Nat) (gs : List (List Event)) :
    (s.postGroups base gs).answers = s.answers := rfl
@[simp] theorem State.postGroups_buffer (s : State) (base : Nat) (gs : List (List Event)) :
    (s.postGroups base gs).buffer = s.buffer := rfl
@[simp] theorem State.postGroups_events (s : State) (base : Nat) (gs : List (List Event)) :
    (s.postGroups base gs).events = s.events.postAll (mergeAll s.happening base gs) := rfl
@[simp] theorem State.postGroups_host (s : State) (base : Nat) (gs : List (List Event)) :
    (s.postGroups base gs).host = s.host := rfl
@[simp] theorem State.postGroups_pins (s : State) (base : Nat) (gs : List (List Event)) :
    (s.postGroups base gs).pins = s.pins := rfl
@[simp] theorem State.postGroups_happening (s : State) (base : Nat) (gs : List (List Event)) :
    (s.postGroups base gs).happening = s.happening := rfl
@[simp] theorem State.postGroups_pending (s : State) (base : Nat) (gs : List (List Event)) :
    (s.postGroups base gs).pending = s.pending := rfl
@[simp] theorem State.postGroups_self (s : State) (base : Nat) (gs : List (List Event)) : (s.postGroups base gs).self = s.self := rfl
@[simp] theorem State.postGroups_len (s : State) (base : Nat) (gs : List (List Event)) : (s.postGroups base gs).len = s.len := rfl
@[simp] theorem State.postGroups_eligible (s : State) (base : Nat) (gs : List (List Event)) : (s.postGroups base gs).eligible = s.eligible := rfl

/-! The next happening: its number alone. -/

@[simp] theorem State.nextHappening_port (s : State) : (s.nextHappening).port = s.port := rfl
@[simp] theorem State.nextHappening_timer (s : State) : (s.nextHappening).timer = s.timer := rfl
@[simp] theorem State.nextHappening_control (s : State) : (s.nextHappening).control = s.control := rfl
@[simp] theorem State.nextHappening_roster (s : State) : (s.nextHappening).roster = s.roster := rfl
@[simp] theorem State.nextHappening_table (s : State) : (s.nextHappening).table = s.table := rfl
@[simp] theorem State.nextHappening_claims (s : State) : (s.nextHappening).claims = s.claims := rfl
@[simp] theorem State.nextHappening_tx (s : State) : (s.nextHappening).tx = s.tx := rfl
@[simp] theorem State.nextHappening_rx (s : State) : (s.nextHappening).rx = s.rx := rfl
@[simp] theorem State.nextHappening_jobs (s : State) : (s.nextHappening).jobs = s.jobs := rfl
@[simp] theorem State.nextHappening_windows (s : State) : (s.nextHappening).windows = s.windows := rfl
@[simp] theorem State.nextHappening_answers (s : State) : (s.nextHappening).answers = s.answers := rfl
@[simp] theorem State.nextHappening_buffer (s : State) : (s.nextHappening).buffer = s.buffer := rfl
@[simp] theorem State.nextHappening_events (s : State) : (s.nextHappening).events = s.events := rfl
@[simp] theorem State.nextHappening_host (s : State) : (s.nextHappening).host = s.host := rfl
@[simp] theorem State.nextHappening_pins (s : State) : (s.nextHappening).pins = s.pins := rfl
@[simp] theorem State.nextHappening_happening (s : State) : (s.nextHappening).happening = s.happening + 1 := rfl
@[simp] theorem State.nextHappening_pending (s : State) : (s.nextHappening).pending = s.pending := rfl
@[simp] theorem State.nextHappening_self (s : State) : (s.nextHappening).self = s.self := rfl
@[simp] theorem State.nextHappening_len (s : State) : (s.nextHappening).len = s.len := rfl
@[simp] theorem State.nextHappening_eligible (s : State) : (s.nextHappening).eligible = s.eligible := rfl

/-! An occurrence begins: trunk port and frame timer alone. -/

@[simp] theorem State.beginWith_port (s : State) (w : Option SlotWord) : (s.beginWith w).port = s.port.begin w := rfl
@[simp] theorem State.beginWith_timer (s : State) (w : Option SlotWord) :
    (s.beginWith w).timer = { s.timer with passing := true } := rfl
@[simp] theorem State.beginWith_control (s : State) (w : Option SlotWord) : (s.beginWith w).control = s.control := rfl
@[simp] theorem State.beginWith_roster (s : State) (w : Option SlotWord) : (s.beginWith w).roster = s.roster := rfl
@[simp] theorem State.beginWith_table (s : State) (w : Option SlotWord) : (s.beginWith w).table = s.table := rfl
@[simp] theorem State.beginWith_claims (s : State) (w : Option SlotWord) : (s.beginWith w).claims = s.claims := rfl
@[simp] theorem State.beginWith_tx (s : State) (w : Option SlotWord) : (s.beginWith w).tx = s.tx := rfl
@[simp] theorem State.beginWith_rx (s : State) (w : Option SlotWord) : (s.beginWith w).rx = s.rx := rfl
@[simp] theorem State.beginWith_jobs (s : State) (w : Option SlotWord) : (s.beginWith w).jobs = s.jobs := rfl
@[simp] theorem State.beginWith_windows (s : State) (w : Option SlotWord) : (s.beginWith w).windows = s.windows := rfl
@[simp] theorem State.beginWith_answers (s : State) (w : Option SlotWord) : (s.beginWith w).answers = s.answers := rfl
@[simp] theorem State.beginWith_buffer (s : State) (w : Option SlotWord) : (s.beginWith w).buffer = s.buffer := rfl
@[simp] theorem State.beginWith_events (s : State) (w : Option SlotWord) : (s.beginWith w).events = s.events := rfl
@[simp] theorem State.beginWith_host (s : State) (w : Option SlotWord) : (s.beginWith w).host = s.host := rfl
@[simp] theorem State.beginWith_pins (s : State) (w : Option SlotWord) : (s.beginWith w).pins = s.pins := rfl
@[simp] theorem State.beginWith_happening (s : State) (w : Option SlotWord) :
    (s.beginWith w).happening = s.happening := rfl
@[simp] theorem State.beginWith_pending (s : State) (w : Option SlotWord) : (s.beginWith w).pending = s.pending := rfl
@[simp] theorem State.beginWith_self (s : State) (w : Option SlotWord) : (s.beginWith w).self = s.self := rfl
@[simp] theorem State.beginWith_len (s : State) (w : Option SlotWord) : (s.beginWith w).len = s.len := rfl
@[simp] theorem State.beginWith_eligible (s : State) (w : Option SlotWord) : (s.beginWith w).eligible = s.eligible := rfl

/-! The trunk port ends an occurrence: the port alone. -/

@[simp] theorem State.portEnd_port (s : State) (h : SlotBits) : (s.portEnd h).port = s.port.finish h := rfl
@[simp] theorem State.portEnd_timer (s : State) (h : SlotBits) : (s.portEnd h).timer = s.timer := rfl
@[simp] theorem State.portEnd_control (s : State) (h : SlotBits) : (s.portEnd h).control = s.control := rfl
@[simp] theorem State.portEnd_roster (s : State) (h : SlotBits) : (s.portEnd h).roster = s.roster := rfl
@[simp] theorem State.portEnd_table (s : State) (h : SlotBits) : (s.portEnd h).table = s.table := rfl
@[simp] theorem State.portEnd_claims (s : State) (h : SlotBits) : (s.portEnd h).claims = s.claims := rfl
@[simp] theorem State.portEnd_tx (s : State) (h : SlotBits) : (s.portEnd h).tx = s.tx := rfl
@[simp] theorem State.portEnd_rx (s : State) (h : SlotBits) : (s.portEnd h).rx = s.rx := rfl
@[simp] theorem State.portEnd_jobs (s : State) (h : SlotBits) : (s.portEnd h).jobs = s.jobs := rfl
@[simp] theorem State.portEnd_windows (s : State) (h : SlotBits) : (s.portEnd h).windows = s.windows := rfl
@[simp] theorem State.portEnd_answers (s : State) (h : SlotBits) : (s.portEnd h).answers = s.answers := rfl
@[simp] theorem State.portEnd_buffer (s : State) (h : SlotBits) : (s.portEnd h).buffer = s.buffer := rfl
@[simp] theorem State.portEnd_events (s : State) (h : SlotBits) : (s.portEnd h).events = s.events := rfl
@[simp] theorem State.portEnd_host (s : State) (h : SlotBits) : (s.portEnd h).host = s.host := rfl
@[simp] theorem State.portEnd_pins (s : State) (h : SlotBits) : (s.portEnd h).pins = s.pins := rfl
@[simp] theorem State.portEnd_happening (s : State) (h : SlotBits) : (s.portEnd h).happening = s.happening := rfl
@[simp] theorem State.portEnd_pending (s : State) (h : SlotBits) : (s.portEnd h).pending = s.pending := rfl
@[simp] theorem State.portEnd_self (s : State) (h : SlotBits) : (s.portEnd h).self = s.self := rfl
@[simp] theorem State.portEnd_len (s : State) (h : SlotBits) : (s.portEnd h).len = s.len := rfl
@[simp] theorem State.portEnd_eligible (s : State) (h : SlotBits) : (s.portEnd h).eligible = s.eligible := rfl

/-! Self takes up holding: the frame timer alone. -/

@[simp] theorem State.hold_port (s : State) : (s.hold).port = s.port := rfl
@[simp] theorem State.hold_timer (s : State) :
    (s.hold).timer = { s.timer with holderFlag := true, holder := some s.self, missed := 0 } := rfl
@[simp] theorem State.hold_control (s : State) : (s.hold).control = s.control := rfl
@[simp] theorem State.hold_roster (s : State) : (s.hold).roster = s.roster := rfl
@[simp] theorem State.hold_table (s : State) : (s.hold).table = s.table := rfl
@[simp] theorem State.hold_claims (s : State) : (s.hold).claims = s.claims := rfl
@[simp] theorem State.hold_tx (s : State) : (s.hold).tx = s.tx := rfl
@[simp] theorem State.hold_rx (s : State) : (s.hold).rx = s.rx := rfl
@[simp] theorem State.hold_jobs (s : State) : (s.hold).jobs = s.jobs := rfl
@[simp] theorem State.hold_windows (s : State) : (s.hold).windows = s.windows := rfl
@[simp] theorem State.hold_answers (s : State) : (s.hold).answers = s.answers := rfl
@[simp] theorem State.hold_buffer (s : State) : (s.hold).buffer = s.buffer := rfl
@[simp] theorem State.hold_events (s : State) : (s.hold).events = s.events := rfl
@[simp] theorem State.hold_host (s : State) : (s.hold).host = s.host := rfl
@[simp] theorem State.hold_pins (s : State) : (s.hold).pins = s.pins := rfl
@[simp] theorem State.hold_happening (s : State) : (s.hold).happening = s.happening := rfl
@[simp] theorem State.hold_pending (s : State) : (s.hold).pending = s.pending := rfl
@[simp] theorem State.hold_self (s : State) : (s.hold).self = s.self := rfl
@[simp] theorem State.hold_len (s : State) : (s.hold).len = s.len := rfl
@[simp] theorem State.hold_eligible (s : State) : (s.hold).eligible = s.eligible := rfl

/-! A peer's slots are freed: the table alone. -/

@[simp] theorem State.freeAllOf_port (s : State) (a : Nat) : (s.freeAllOf a).port = s.port := rfl
@[simp] theorem State.freeAllOf_timer (s : State) (a : Nat) : (s.freeAllOf a).timer = s.timer := rfl
@[simp] theorem State.freeAllOf_control (s : State) (a : Nat) : (s.freeAllOf a).control = s.control := rfl
@[simp] theorem State.freeAllOf_roster (s : State) (a : Nat) : (s.freeAllOf a).roster = s.roster := rfl
@[simp] theorem State.freeAllOf_table (s : State) (a : Nat) :
    (s.freeAllOf a).table = s.table.map (fun e => if e.owner = some a then e.freed else e) := rfl
@[simp] theorem State.freeAllOf_claims (s : State) (a : Nat) : (s.freeAllOf a).claims = s.claims := rfl
@[simp] theorem State.freeAllOf_tx (s : State) (a : Nat) : (s.freeAllOf a).tx = s.tx := rfl
@[simp] theorem State.freeAllOf_rx (s : State) (a : Nat) : (s.freeAllOf a).rx = s.rx := rfl
@[simp] theorem State.freeAllOf_jobs (s : State) (a : Nat) : (s.freeAllOf a).jobs = s.jobs := rfl
@[simp] theorem State.freeAllOf_windows (s : State) (a : Nat) : (s.freeAllOf a).windows = s.windows := rfl
@[simp] theorem State.freeAllOf_answers (s : State) (a : Nat) : (s.freeAllOf a).answers = s.answers := rfl
@[simp] theorem State.freeAllOf_buffer (s : State) (a : Nat) : (s.freeAllOf a).buffer = s.buffer := rfl
@[simp] theorem State.freeAllOf_events (s : State) (a : Nat) : (s.freeAllOf a).events = s.events := rfl
@[simp] theorem State.freeAllOf_host (s : State) (a : Nat) : (s.freeAllOf a).host = s.host := rfl
@[simp] theorem State.freeAllOf_pins (s : State) (a : Nat) : (s.freeAllOf a).pins = s.pins := rfl
@[simp] theorem State.freeAllOf_happening (s : State) (a : Nat) : (s.freeAllOf a).happening = s.happening := rfl
@[simp] theorem State.freeAllOf_pending (s : State) (a : Nat) : (s.freeAllOf a).pending = s.pending := rfl
@[simp] theorem State.freeAllOf_self (s : State) (a : Nat) : (s.freeAllOf a).self = s.self := rfl
@[simp] theorem State.freeAllOf_len (s : State) (a : Nat) : (s.freeAllOf a).len = s.len := rfl
@[simp] theorem State.freeAllOf_eligible (s : State) (a : Nat) : (s.freeAllOf a).eligible = s.eligible := rfl

/-! Roster and table are cleared: these two alone. -/

@[simp] theorem State.clearTables_port (s : State) : (s.clearTables).port = s.port := rfl
@[simp] theorem State.clearTables_timer (s : State) : (s.clearTables).timer = s.timer := rfl
@[simp] theorem State.clearTables_control (s : State) : (s.clearTables).control = s.control := rfl
@[simp] theorem State.clearTables_roster (s : State) : (s.clearTables).roster = Bank.fill 31 RosterEntry.reset := rfl
@[simp] theorem State.clearTables_table (s : State) : (s.clearTables).table = Bank.fill 96 SlotEntry.reset := rfl
@[simp] theorem State.clearTables_claims (s : State) : (s.clearTables).claims = s.claims := rfl
@[simp] theorem State.clearTables_tx (s : State) : (s.clearTables).tx = s.tx := rfl
@[simp] theorem State.clearTables_rx (s : State) : (s.clearTables).rx = s.rx := rfl
@[simp] theorem State.clearTables_jobs (s : State) : (s.clearTables).jobs = s.jobs := rfl
@[simp] theorem State.clearTables_windows (s : State) : (s.clearTables).windows = s.windows := rfl
@[simp] theorem State.clearTables_answers (s : State) : (s.clearTables).answers = s.answers := rfl
@[simp] theorem State.clearTables_buffer (s : State) : (s.clearTables).buffer = s.buffer := rfl
@[simp] theorem State.clearTables_events (s : State) : (s.clearTables).events = s.events := rfl
@[simp] theorem State.clearTables_host (s : State) : (s.clearTables).host = s.host := rfl
@[simp] theorem State.clearTables_pins (s : State) : (s.clearTables).pins = s.pins := rfl
@[simp] theorem State.clearTables_happening (s : State) : (s.clearTables).happening = s.happening := rfl
@[simp] theorem State.clearTables_pending (s : State) : (s.clearTables).pending = s.pending := rfl
@[simp] theorem State.clearTables_self (s : State) : (s.clearTables).self = s.self := rfl
@[simp] theorem State.clearTables_len (s : State) : (s.clearTables).len = s.len := rfl
@[simp] theorem State.clearTables_eligible (s : State) : (s.clearTables).eligible = s.eligible := rfl

/-! LISTEN is entered: station controller and hunting window alone. -/

@[simp] theorem State.listening_port (s : State) : (s.listening).port = { s.port with window := none } := rfl
@[simp] theorem State.listening_timer (s : State) : (s.listening).timer = s.timer := rfl
@[simp] theorem State.listening_control (s : State) :
    (s.listening).control =
      { s.control with state := .listen, listenCount := 0, observed := false, observing := false, noTrunkReady := true } := rfl
@[simp] theorem State.listening_roster (s : State) : (s.listening).roster = s.roster := rfl
@[simp] theorem State.listening_table (s : State) : (s.listening).table = s.table := rfl
@[simp] theorem State.listening_claims (s : State) : (s.listening).claims = s.claims := rfl
@[simp] theorem State.listening_tx (s : State) : (s.listening).tx = s.tx := rfl
@[simp] theorem State.listening_rx (s : State) : (s.listening).rx = s.rx := rfl
@[simp] theorem State.listening_jobs (s : State) : (s.listening).jobs = s.jobs := rfl
@[simp] theorem State.listening_windows (s : State) : (s.listening).windows = s.windows := rfl
@[simp] theorem State.listening_answers (s : State) : (s.listening).answers = s.answers := rfl
@[simp] theorem State.listening_buffer (s : State) : (s.listening).buffer = s.buffer := rfl
@[simp] theorem State.listening_events (s : State) : (s.listening).events = s.events := rfl
@[simp] theorem State.listening_host (s : State) : (s.listening).host = s.host := rfl
@[simp] theorem State.listening_pins (s : State) : (s.listening).pins = s.pins := rfl
@[simp] theorem State.listening_happening (s : State) : (s.listening).happening = s.happening := rfl
@[simp] theorem State.listening_pending (s : State) : (s.listening).pending = s.pending := rfl
@[simp] theorem State.listening_self (s : State) : (s.listening).self = s.self := rfl
@[simp] theorem State.listening_len (s : State) : (s.listening).len = s.len := rfl
@[simp] theorem State.listening_eligible (s : State) : (s.listening).eligible = s.eligible := rfl

/-! JOINING is entered: station controller and hunting window alone. -/

@[simp] theorem State.toJoining_port (s : State) : (s.toJoining).port = { s.port with window := none } := rfl
@[simp] theorem State.toJoining_timer (s : State) : (s.toJoining).timer = s.timer := rfl
@[simp] theorem State.toJoining_control (s : State) :
    (s.toJoining).control = { s.control with state := .joining, observed := false, observing := false } := rfl
@[simp] theorem State.toJoining_roster (s : State) : (s.toJoining).roster = s.roster := rfl
@[simp] theorem State.toJoining_table (s : State) : (s.toJoining).table = s.table := rfl
@[simp] theorem State.toJoining_claims (s : State) : (s.toJoining).claims = s.claims := rfl
@[simp] theorem State.toJoining_tx (s : State) : (s.toJoining).tx = s.tx := rfl
@[simp] theorem State.toJoining_rx (s : State) : (s.toJoining).rx = s.rx := rfl
@[simp] theorem State.toJoining_jobs (s : State) : (s.toJoining).jobs = s.jobs := rfl
@[simp] theorem State.toJoining_windows (s : State) : (s.toJoining).windows = s.windows := rfl
@[simp] theorem State.toJoining_answers (s : State) : (s.toJoining).answers = s.answers := rfl
@[simp] theorem State.toJoining_buffer (s : State) : (s.toJoining).buffer = s.buffer := rfl
@[simp] theorem State.toJoining_events (s : State) : (s.toJoining).events = s.events := rfl
@[simp] theorem State.toJoining_host (s : State) : (s.toJoining).host = s.host := rfl
@[simp] theorem State.toJoining_pins (s : State) : (s.toJoining).pins = s.pins := rfl
@[simp] theorem State.toJoining_happening (s : State) : (s.toJoining).happening = s.happening := rfl
@[simp] theorem State.toJoining_pending (s : State) : (s.toJoining).pending = s.pending := rfl
@[simp] theorem State.toJoining_self (s : State) : (s.toJoining).self = s.self := rfl
@[simp] theorem State.toJoining_len (s : State) : (s.toJoining).len = s.len := rfl
@[simp] theorem State.toJoining_eligible (s : State) : (s.toJoining).eligible = s.eligible := rfl

/-! Target select changes: the pins alone. -/

@[simp] theorem State.setSelect_port (s : State) (b : Bool) : (s.setSelect b).port = s.port := rfl
@[simp] theorem State.setSelect_timer (s : State) (b : Bool) : (s.setSelect b).timer = s.timer := rfl
@[simp] theorem State.setSelect_control (s : State) (b : Bool) : (s.setSelect b).control = s.control := rfl
@[simp] theorem State.setSelect_roster (s : State) (b : Bool) : (s.setSelect b).roster = s.roster := rfl
@[simp] theorem State.setSelect_table (s : State) (b : Bool) : (s.setSelect b).table = s.table := rfl
@[simp] theorem State.setSelect_claims (s : State) (b : Bool) : (s.setSelect b).claims = s.claims := rfl
@[simp] theorem State.setSelect_tx (s : State) (b : Bool) : (s.setSelect b).tx = s.tx := rfl
@[simp] theorem State.setSelect_rx (s : State) (b : Bool) : (s.setSelect b).rx = s.rx := rfl
@[simp] theorem State.setSelect_jobs (s : State) (b : Bool) : (s.setSelect b).jobs = s.jobs := rfl
@[simp] theorem State.setSelect_windows (s : State) (b : Bool) : (s.setSelect b).windows = s.windows := rfl
@[simp] theorem State.setSelect_answers (s : State) (b : Bool) : (s.setSelect b).answers = s.answers := rfl
@[simp] theorem State.setSelect_buffer (s : State) (b : Bool) : (s.setSelect b).buffer = s.buffer := rfl
@[simp] theorem State.setSelect_events (s : State) (b : Bool) : (s.setSelect b).events = s.events := rfl
@[simp] theorem State.setSelect_host (s : State) (b : Bool) : (s.setSelect b).host = s.host := rfl
@[simp] theorem State.setSelect_pins (s : State) (b : Bool) : (s.setSelect b).pins = { s.pins with select := b } := rfl
@[simp] theorem State.setSelect_happening (s : State) (b : Bool) : (s.setSelect b).happening = s.happening := rfl
@[simp] theorem State.setSelect_pending (s : State) (b : Bool) : (s.setSelect b).pending = s.pending := rfl
@[simp] theorem State.setSelect_self (s : State) (b : Bool) : (s.setSelect b).self = s.self := rfl
@[simp] theorem State.setSelect_len (s : State) (b : Bool) : (s.setSelect b).len = s.len := rfl
@[simp] theorem State.setSelect_eligible (s : State) (b : Bool) : (s.setSelect b).eligible = s.eligible := rfl

@[simp] theorem State.drivesNothing_port (s : State) : s.drivesNothing.port = s.port := rfl
@[simp] theorem State.drivesNothing_timer (s : State) : s.drivesNothing.timer = s.timer := rfl
@[simp] theorem State.drivesNothing_control (s : State) : s.drivesNothing.control = s.control := rfl
@[simp] theorem State.drivesNothing_roster (s : State) : s.drivesNothing.roster = s.roster := rfl
@[simp] theorem State.drivesNothing_table (s : State) : s.drivesNothing.table = s.table := rfl
@[simp] theorem State.drivesNothing_claims (s : State) : s.drivesNothing.claims = s.claims := rfl
@[simp] theorem State.drivesNothing_tx (s : State) : s.drivesNothing.tx = s.tx := rfl
@[simp] theorem State.drivesNothing_rx (s : State) : s.drivesNothing.rx = s.rx := rfl
@[simp] theorem State.drivesNothing_jobs (s : State) : s.drivesNothing.jobs = s.jobs := rfl
@[simp] theorem State.drivesNothing_windows (s : State) : s.drivesNothing.windows = s.windows := rfl
@[simp] theorem State.drivesNothing_answers (s : State) : s.drivesNothing.answers = s.answers := rfl
@[simp] theorem State.drivesNothing_buffer (s : State) : s.drivesNothing.buffer = s.buffer := rfl
@[simp] theorem State.drivesNothing_events (s : State) : s.drivesNothing.events = s.events := rfl
@[simp] theorem State.drivesNothing_host (s : State) : s.drivesNothing.host = s.host := rfl
@[simp] theorem State.drivesNothing_happening (s : State) : s.drivesNothing.happening = s.happening := rfl
@[simp] theorem State.drivesNothing_pending (s : State) : s.drivesNothing.pending = s.pending := rfl
@[simp] theorem State.drivesNothing_self (s : State) : s.drivesNothing.self = s.self := rfl
@[simp] theorem State.drivesNothing_len (s : State) : s.drivesNothing.len = s.len := rfl
@[simp] theorem State.drivesNothing_eligible (s : State) : s.drivesNothing.eligible = s.eligible := rfl
@[simp] theorem State.drivesNothing_pins (s : State) : s.drivesNothing.pins = { s.pins with serialOut := none } := rfl

end Sys2Proof.Machine
end

