-- ==== Sys2Proof/Laws/Operations.lean ====
section
/-! SUPPORT. What each shared operation does, said once: the taking of a transaction, the start and the end of an
occurrence, the faults and realignments found in one, the freeing of slots, and the entries into LEAVING, DETACHED and
FAULT. Proofs cite these and do not unfold the operations. -/

namespace Sys2Proof.Machine

/-! ### The taking of a transaction -/

/-- In REQUEST a transaction is judged and its reply is formed. -/
theorem State.take_request {s : State} (h : s.host.state = .request) (i : Instr) (j : State × TxResult) :
    s.take i j = s.replyWith i (requestWords i) j := by simp [State.take, h]

/-- Outside REQUEST nothing is taken. -/
theorem State.take_elsewhere {s : State} (h : s.host.state ≠ .request) (i : Instr) (j : State × TxResult) :
    s.take i j = s := by simp [State.take, h]

/-- A refused transaction leaves everything but the host port. -/
theorem State.replyWith_refuse (s : State) (i : Instr) (r : Reason) :
    s.replyWith i (requestWords i) (s.refuse r) = s.replied i (.refused r) := rfl

/-- A transaction that only reports leaves everything but the host port. -/
theorem State.replyWith_done (s : State) (i : Instr) (d : ReplyData) :
    s.replyWith i (requestWords i) (s.doneWith d) = s.replied i (.done d) := rfl

/-! ### Counters -/

/-- A saturating counter stays within its range. -/
theorem satSucc_le {top n : Nat} (_ : n ≤ top) : satSucc top n ≤ top := by
  unfold satSucc; split <;> omega

/-- A saturating counter that has counted is not 0. -/
theorem one_le_satSucc {top n : Nat} (_ : 1 ≤ top) : 1 ≤ satSucc top n := by
  unfold satSucc; split <;> omega

/-! ### The start of an occurrence -/

/-- The awaited occurrence may start, at the tests that its position meets. -/
theorem State.startsAt_of_awaits {s : State} {p : Nat} (h : s.awaits p) (test : Nat → Bool) : s.startsAt test = test p := by
  obtain ⟨h1, h2, h3⟩ := h
  simp [State.startsAt, h1, h2, h3]

/-- The passing occurrence may end, at the tests that its position meets. -/
theorem State.endsAt_of_passes {s : State} {p : Nat} (h : s.passes p) (test : Nat → Bool) : s.endsAt test = test p := by
  obtain ⟨h1, h2, h3⟩ := h
  simp [State.endsAt, h1, h2, h3]

/-- A word that starts an occurrence. -/
@[simp] theorem TrunkPort.begin_some (p : TrunkPort) (w : SlotWord) :
    p.begin (some w) =
      { p with word := some w.bits, bitsDone := 0, displaced := false, lineError := false, drove := true } := rfl

/-- An occurrence that starts without a word. -/
@[simp] theorem TrunkPort.begin_none (p : TrunkPort) :
    p.begin none = { p with word := none, bitsDone := 0, displaced := false, lineError := false, drove := false } := rfl

/-- An occurrence that starts with a word or without. -/
theorem TrunkPort.begin_eq (p : TrunkPort) (w : Option SlotWord) :
    p.begin w =
      { p with word := w.map SlotWord.bits, bitsDone := 0, displaced := false, lineError := false, drove := w.isSome } := rfl

/-! ### The end of an occurrence -/

/-- The port at the end of an occurrence in which it sent nothing. -/
theorem TrunkPort.finish_of_none {p : TrunkPort} (h : p.word = none) (bits : SlotBits) :
    p.finish bits = p.listened (classify bits) := by simp [TrunkPort.finish, TrunkPort.listened, h]

/-- The port at the end of an occurrence in which it sent. -/
theorem TrunkPort.finish_of_some {p : TrunkPort} {w : SlotBits} (h : p.word = some w) (bits : SlotBits) :
    p.finish bits =
      { p with word := none, bitsDone := 40, displaced := (readBack w bits).displaced,
               lineError := (readBack w bits).lineError, heard := some (classify bits) } := by simp [TrunkPort.finish, h]

/-- The port ends every occurrence without a word. -/
@[simp] theorem TrunkPort.finish_word (p : TrunkPort) (bits : SlotBits) : (p.finish bits).word = none := by
  unfold TrunkPort.finish; split <;> simp_all

/-- The port's hunting window is no matter of occurrences. -/
@[simp] theorem TrunkPort.finish_window (p : TrunkPort) (bits : SlotBits) : (p.finish bits).window = p.window := by
  unfold TrunkPort.finish; split <;> simp_all

@[simp] theorem State.occurrence_heard (s : State) (bits : SlotBits) : (s.occurrence bits).heard = classify bits := rfl
@[simp] theorem State.occurrence_frame (s : State) (bits : SlotBits) : (s.occurrence bits).frame = s.timer.frame := rfl
@[simp] theorem State.occurrence_sent (s : State) (bits : SlotBits) : (s.occurrence bits).sent = s.port.word := rfl
@[simp] theorem State.occurrence_outcome (s : State) (bits : SlotBits) :
    (s.occurrence bits).outcome = s.port.word.map (fun w => outcomeOf w bits) := rfl

/-- The occurrence that ends has the slot position. -/
theorem State.occurrence_slot_of_passes {s : State} {p : Nat} (h : s.passes p) (bits : SlotBits) :
    (s.occurrence bits).slot = p := by simp [State.occurrence, h.2.2]

/-- Nothing driven on the line is heard as silence (R6). -/
theorem classify_allOnes : classify (BitVec.allOnes 40) = .silent := rfl

/-- An acceptable word of a kind, read from what was heard. -/
theorem Heard.acceptable_valid (w : SlotWord) (k : Kind) :
    (Heard.valid w).acceptable k = if w.kind = k ∧ w.malformed = false then some w else none := rfl

@[simp] theorem Heard.acceptable_silent (k : Kind) : Heard.silent.acceptable k = none := rfl
@[simp] theorem Heard.acceptable_corrupt (k : Kind) : Heard.corrupt.acceptable k = none := rfl

/-- Everything an acceptable word is. -/
theorem Heard.acceptable_eq_some {h : Heard} {k : Kind} {w : SlotWord} :
    h.acceptable k = some w ↔ h = .valid w ∧ w.kind = k ∧ w.malformed = false := by
  cases h with
  | silent => simp
  | corrupt => simp
  | valid v =>
    simp only [Heard.acceptable, Heard.valid.injEq]
    constructor
    · intro h; split at h <;> simp_all
    · rintro ⟨rfl, h1, h2⟩; simp [h1, h2]

/-- A heard word that is no MARK is no acceptable one. -/
theorem Heard.acceptable_none_of_kind {h : Heard} {k : Kind} (hk : ∀ w, h = .valid w → w.kind ≠ k) :
    h.acceptable k = none := by
  cases h with
  | silent => rfl
  | corrupt => rfl
  | valid w => simp [Heard.acceptable, hk w rfl]

@[simp] theorem Heard.carries_silent (a : Nat) : Heard.silent.carries a = false := rfl
@[simp] theorem Heard.carries_corrupt (a : Nat) : Heard.corrupt.carries a = false := rfl
@[simp] theorem Heard.carries_valid (w : SlotWord) (a : Nat) : (Heard.valid w).carries a = (w.sender == a) := rfl

/-- A heard word with another address, or none, carries no own address. -/
theorem Heard.carries_eq_false {h : Heard} {a : Nat} (ha : ∀ w, h = .valid w → w.sender ≠ a) : h.carries a = false := by
  cases h with
  | silent => rfl
  | corrupt => rfl
  | valid w => simpa using ha w rfl

/-- An occurrence without self's address and without an acceptable MARK brings no fault. -/
theorem State.faultIn_none {s : State} {o : Occurrence} (hc : o.heard.carries s.self = false)
    (hm : o.heard.acceptable .mark = none) : s.faultIn o = none := by
  simp [State.faultIn, Occurrence.duplicate, hc, Occurrence.lengthFault, Heard.otherLength, hm]

/-- The fault of an occurrence does not depend on the trunk port. -/
@[simp] theorem State.faultIn_portEnd (s : State) (bits : SlotBits) (o : Occurrence) :
    (s.portEnd bits).faultIn o = s.faultIn o := rfl

/-- A fault found is one of the two causes, and why. -/
theorem State.faultIn_eq_some {s : State} {o : Occurrence} {c : FaultCause} (h : s.faultIn o = some c) :
    (c = .duplicateAddress ∧ o.duplicate s.self = true) ∨
      (c = .frameLength ∧ o.duplicate s.self = false ∧ o.lengthFault s.control.state s.len = true) := by
  unfold State.faultIn at h
  split at h
  · exact .inl ⟨(Option.some.inj h).symm, ‹_›⟩
  · split at h
    · exact .inr ⟨(Option.some.inj h).symm, by simp_all, ‹_›⟩
    · simp at h

/-! ### MARKs outside slot 0, and the passage to the next occurrence -/

/-- Without an acceptable MARK there is no realignment. -/
theorem State.realignsTo_none {s : State} {o : Occurrence} (hm : o.heard.acceptable .mark = none) :
    s.realignsTo o = none := by simp [State.realignsTo, hm]

/-- In slot 0 there is no realignment. -/
theorem State.realignsTo_slot0 {s : State} {o : Occurrence} (h0 : o.slot = 0) : s.realignsTo o = none := by
  unfold State.realignsTo; split <;> simp [h0]

/-- Everything a realignment rests on. -/
theorem State.realignsTo_eq_some {s : State} {o : Occurrence} {w : SlotWord} (h : s.realignsTo o = some w) :
    o.heard = .valid w ∧ w.kind = .mark ∧ w.malformed = false ∧ o.slot ≠ 0 ∧ w.sender ≠ s.self ∧
      w.markLength = some s.len ∧ s.atOrBelowHolder w.sender = true := by
  unfold State.realignsTo at h
  split at h
  · simp at h
  · rename_i v hv
    split at h
    · obtain rfl := Option.some.inj h
      obtain ⟨h1, h2, h3⟩ := Heard.acceptable_eq_some.mp hv
      rename_i hc
      exact ⟨h1, h2, h3, hc⟩
    · simp at h

/-- Without an acceptable MARK the frame timer posts nothing outside slot 0. -/
theorem State.offSlotEvents_nil {s : State} {o : Occurrence} (hm : o.heard.acceptable .mark = none) :
    s.offSlotEvents o = [] := by simp [State.offSlotEvents, State.realignsTo_none hm, hm]

/-- Without a realignment the position moves on, and a completed observation frame is noted (R11, R17, R41). -/
theorem State.passOn_none {s : State} {o : Occurrence} (h : s.realignsTo o = none) :
    s.passOn o = { s with timer := s.timer.advanced s.len o.slot, control := s.control.lastSlot s.len o.slot } := by
  simp [State.passOn, h]

/-- With a realignment the position is that after the MARK (R32). -/
theorem State.passOn_some {s : State} {o : Occurrence} {w : SlotWord} (h : s.realignsTo o = some w) :
    s.passOn o = s.realign w := by simp [State.passOn, h]

/-- Either way only the frame timer and the station controller's observation change. -/
theorem State.passOn_eq (s : State) (o : Occurrence) :
    ∃ t c, s.passOn o = { s with timer := t, control := c } ∧ c.state = s.control.state ∧ c.config = s.control.config ∧
      c.cause = s.control.cause ∧ c.listenCount = s.control.listenCount ∧ c.noTrunkReady = s.control.noTrunkReady := by
  unfold State.passOn
  split
  · refine ⟨_, _, rfl, ?_⟩
    split <;> simp
  · refine ⟨_, _, rfl, ?_⟩
    unfold StationControl.lastSlot
    split
    · simp
    · split <;> simp

/-- A slot that is not the last of its frame. -/
theorem FrameTimer.advanced_of_lt {t : FrameTimer} {len slot : Nat} (h : slot + 1 < len) :
    t.advanced len slot = t.next slot := by simp [FrameTimer.advanced, FrameTimer.next, h]

/-- A slot that is not the last of its frame. -/
theorem StationControl.lastSlot_of_lt {c : StationControl} {len slot : Nat} (h : slot + 1 < len) :
    c.lastSlot len slot = c := by simp [StationControl.lastSlot, h]

/-- Outside the observation frame. -/
theorem StationControl.lastSlot_of_not {c : StationControl} {len slot : Nat} (h : c.observing = false) :
    c.lastSlot len slot = c := by simp [StationControl.lastSlot, h]

/-! ### Freed slots and loss notices -/

/-- The slot-loss notice changes the job table alone, and only for a BULK slot (R81, R148). -/
theorem State.lossNotice_eq (s : State) (role : Option Role) (n : Nat) :
    s.lossNotice role n =
      { s with jobs := if role = some .bulk then s.jobs.map (fun j => if j.slot = some n then j.suspend else j)
                       else s.jobs } := by
  unfold State.lossNotice; split <;> rfl

/-- A freed slot changes the table, and the job table when its role was BULK (R73, R81). -/
theorem State.freeSlot_eq (s : State) (n : Nat) :
    s.freeSlot n =
      { s with
        table := s.table.set n (s.entry n).freed
        jobs := if (s.entry n).role = some .bulk then s.jobs.map (fun j => if j.slot = some n then j.suspend else j)
                else s.jobs } := by
  rw [State.freeSlot, State.lossNotice_eq]; rfl

/-- The entry of a slot after its own or another's entry was written. -/
theorem State.entry_setEntry (s : State) (n m : Nat) (e : SlotEntry) :
    (s.setEntry n e).entry m = if n = m ∧ n < 96 then e else s.entry m := Bank.get_set ..

/-- The roster entry of an address after its own or another's was written. -/
theorem State.rosterEntry_setRoster (s : State) (a b : Nat) (e : RosterEntry) :
    (s.setRoster a e).rosterEntry b = if a = b ∧ a < 31 then e else s.rosterEntry b := Bank.get_set ..

/-! ### Entries into LEAVING, DETACHED and FAULT, and the resets -/

/-- Everything that entry into LEAVING changes (R47). -/
theorem State.enterLeaving_eq (s : State) :
    s.enterLeaving =
      { s with
        control := { s.control with state := .leaving }
        claims := { s.claims with records := [], contending := false }
        jobs := failLive .leaving s.jobs
        events := s.events.postAll (mergeAll s.happening 0
          [[s.stateChanged .leaving], claimsEndEvents s.timer.frame .leaving s.claims.records,
            failLiveEvents .leaving s.timer.frame s.jobs])
        happening := s.happening + 1 } := rfl

/-- Everything that entry into DETACHED changes (R50). -/
theorem State.enterDetached_eq (s : State) (others : List (List Event)) :
    s.enterDetached others =
      { s with
        control := { s.control with state := .detached, observed := false, observing := false }
        port := TrunkPort.reset
        timer := s.timer.dropped
        roster := Bank.fill 31 RosterEntry.reset
        table := Bank.fill 96 SlotEntry.reset
        claims := { s.claims with records := [], contending := false }
        windows := s.windows.map Window.detached
        answers := AnswerQueue.reset
        events := s.events.postAll (mergeAll s.happening 0 ([s.stateChanged .detached] :: s.detachEvents :: others))
        happening := s.happening + 1 } := rfl

/-- Everything that entry into FAULT changes (R53). -/
theorem State.enterFault_eq (s : State) (cause : FaultCause) :
    s.enterFault cause =
      { s with
        control := { s.control with state := .fault, cause := some cause, observed := false, observing := false }
        port := TrunkPort.reset
        timer := s.timer.dropped
        roster := Bank.fill 31 RosterEntry.reset
        table := Bank.fill 96 SlotEntry.reset
        claims := { s.claims with records := [], contending := false }
        jobs := failLive .fault s.jobs
        windows := s.windows.map Window.faulted
        answers := AnswerQueue.reset
        events := s.events.postAll (mergeAll s.happening 0
          [[{ Event.of .stateChanged s.timer.frame with result := some (.fault cause) }],
            claimsEndEvents s.timer.frame .fault s.claims.records, failLiveEvents .fault s.timer.frame s.jobs,
            s.faultWindowEvents])
        happening := s.happening + 1 } := rfl

/-- Everything that a part reset changes (R181, R182). -/
theorem State.partReset_eq (s : State) :
    s.partReset =
      { State.reset with buffer := s.buffer, pins := s.pins, happening := s.happening, pending := s.pending } := rfl

/-- Whatever R163 makes of a TAIL, the window's stall count is 0 after it (R165). -/
theorem Window.tail_stall (x : Window) (n : Nat) (o : Occurrence) (w : SlotWord) : (x.tail n o w).window.stall = 0 := by
  unfold Window.tail Window.tailByState
  split_ifs <;> rfl

end Sys2Proof.Machine
end

