-- ==== Sys2Proof/Tests/Slice0.lean ====
section
/-! SUPPORT. The model's own tests: the smoke tests of WellFormed, values worked out by hand from the spec, one small step
for each command, and for each statement with hypotheses a state and operands that meet them (`witness` in the name). -/

open Sys2Proof Sys2Proof.Machine

set_option maxRecDepth 20000

namespace Sys2Proof.Tests

/-! ### Small states -/

/-- Station 5 of a 24-slot trunk, in a station state. -/
def part (st : StationState) : State :=
  { State.reset with
    control := { StationControl.reset with
      state := st, config := if st = .off then none else some { addr := 5, len := 24, eligible := true } } }

/-- The same with a selection open and its request empty. -/
def asked (st : StationState) : State := { part st with host := { HostPort.reset with state := .request } }

/-- The same in frame 4, station 5's turn to roll, at a slot position; station 2 holds timing. -/
def inSlot (st : StationState) (p : Nat) (passing : Bool) : State :=
  { part st with
    timer := { FrameTimer.reset with aligned := true, position := some p, passing := passing, frame := 4, holder := some 2 } }

/-- Slot 7 belongs to self, with a role. -/
def owning (role : Role) (s : State) : State :=
  s.setEntry 7 { SlotEntry.reset with owner := some 5, role := some role }

/-- A job in slot 7. -/
def job (st : JobState) (next timer resends rewinds : Nat) (headDue : Bool) : Job :=
  { Job.posted 1 9 2 100 3 with
    state := st, next := next, timer := timer, resends := resends, rewinds := rewinds, headDue := headDue
    slot := if st = .sending ∨ st = .awaitAnswer then some 7 else none }

/-- A window of two words at address 8190, in a state, with station 9 as its sender in slot 7. -/
def window (st : WindowState) (count stall : Nat) : Window :=
  { Window.openedWith 8190 2 none with state := st, sender := some 9, senderSlot := some 7, count := count, stall := stall }

/-- A state with one job. -/
def withJob (j : Job) (s : State) : State := { s with jobs := [j] }

/-- A state with window 2. -/
def withWindow (x : Window) (s : State) : State := s.setWindow 2 x

/-- A claim record. -/
def record (request : ClaimRequest) (lost : Nat) (cancel : Bool) : ClaimRecord :=
  { tag := 3, request := request, base := 2, effective := 2, lost := lost, role := some (.stream 1), cancel := cancel }

/-- A claim queue of one contending record. -/
def contending (r : ClaimRecord) (s : State) : State :=
  { s with claims := { records := [r], tagCounter := 4, contending := true } }

/-- The silent line. -/
def silence : SlotBits := BitVec.allOnes 40

/-- The silent line carries no word. -/
theorem silence_word {p : SlotWord → Prop} : ∀ w, classify silence = .valid w → p w := by
  intro w h; rw [silence, classify_allOnes] at h; cases h

/-- A property of the one word that was heard. -/
theorem of_heard {b : SlotBits} {v : SlotWord} {p : SlotWord → Prop} (h : classify b = .valid v) (hp : p v) :
    ∀ w, classify b = .valid w → p w := by
  intro w hw; rw [h] at hw; cases hw; exact hp

/-! ### WellFormed: each check refuses an ill-formed term -/

theorem test_wf_station_field : (Instr.start 32 24 true).wf = false := by decide
theorem test_wf_length : (Instr.start 1 25 true).wf = false := by decide
theorem test_wf_claim_slot : (Instr.claim (.slot 128) 0 .absent).wf = false := by decide
theorem test_wf_claim_code : (Instr.claim (.undefined 1) 0 .absent).wf = false := by decide
theorem test_wf_priority : (Instr.claim .any 4 .absent).wf = false := by decide
theorem test_wf_role_channel : (Instr.claim .any 0 (.stream 8)).wf = false := by decide
theorem test_wf_role_code : (Instr.setRole 4 (.undefined 2)).wf = false := by decide
theorem test_wf_slot_fields : (Instr.release 128).wf = false ∧ (Instr.readSlot 128).wf = false := by decide
theorem test_wf_tag : (Instr.claimCancel 256).wf = false := by decide
theorem test_wf_channel :
    (Instr.bindRx 8 4 none .keepNewest true).wf = false ∧ (Instr.unbindRx 8).wf = false ∧
      (Instr.channelStatus .tx 8).wf = false ∧ (Instr.push 8 [1]).wf = false ∧ (Instr.pull 8 1).wf = false := by decide
theorem test_wf_optional_station :
    (Instr.bindRx 0 4 (some 0) .keepNewest true).wf = false ∧ (Instr.windowOpen 0 0 1 (some 32)).wf = false := by decide
theorem test_wf_bulk_fields :
    (Instr.bulkPost 32 0 0 1).wf = false ∧ (Instr.bulkPost 1 4 0 1).wf = false ∧ (Instr.bulkPost 1 0 8192 1).wf = false ∧
      (Instr.bulkPost 1 0 0 8192).wf = false := by decide
theorem test_wf_job_id :
    (Instr.bulkCancel 4).wf = false ∧ (Instr.bulkStatus 4).wf = false ∧ (Instr.bulkCollect 4).wf = false := by decide
theorem test_wf_window_number :
    (Instr.windowOpen 4 0 1 none).wf = false ∧ (Instr.windowClose 4).wf = false ∧ (Instr.windowStatus 4).wf = false := by
  decide
theorem test_wf_roster_address : (Instr.readRoster 32).wf = false := by decide
theorem test_wf_push_count : (Instr.push 0 []).wf = false ∧ (Instr.push 0 (List.replicate 17 0)).wf = false := by decide
theorem test_wf_memory : (Instr.memoryWrite 8192 [0]).wf = false ∧ (Instr.memoryRead 0 128).wf = false := by decide
theorem test_wf_defined_header : (Instr.undefinedHeader 0x700000).wf = false := by decide

/-! ### Slot words: values worked out by hand from the spec -/

/-- The check register over a single bit of degree 0: x^5 leaves x^2 + 1 (R7). -/
theorem test_check_of_one : checkField 1 = 0b00101#5 := by decide

/-- FILL of station 5: kind 1001, rank 00, station 00101, body 0 (R2, R184, R185). -/
theorem test_fill_payload : (fillWord 5).payload = 0b10010000101000000000000000000000000#35 := by decide

/-- MARK of station 2, frame 200, length 48: code 0001, body 11001000 10 and zeros (R185). -/
theorem test_mark_payload : (markWord 2 200 48).payload = 0b00010000010110010001000000000000000#35 := by decide

/-- CLAIM of station 9, rank 1, SLOT 30: code 0011, body 01 0011110 and zeros (R185). -/
theorem test_claim_payload : (claimWord 9 1 1 30).payload = 0b00110101001010011110000000000000000#35 := by decide

/-- An unused kind code and the addresses 0 and 31 are CORRUPT, whatever the check (R6). -/
theorem test_corrupt_words :
    classify (fillWord 0).bits = .corrupt ∧ classify (fillWord 31).bits = .corrupt ∧ classify 0 = .corrupt := by decide

/-- Two claims of stations 9 and 4 at ranks 1 and 2: the lower rank survives, whatever the addresses (R5). -/
theorem test_lower_rank_survives :
    lineWord [(claimWord 9 1 1 30).bits, (claimWord 4 2 1 31).bits] = (claimWord 9 1 1 30).bits ∧
      outcomeOf (claimWord 4 2 1 31).bits (claimWord 9 1 1 30).bits = .displaced := by decide

/-- A 0 heard as 1 before the loss makes the outcome DISTURBED (R3, R4). -/
theorem test_line_error_first : outcomeOf 0b0111#40 0b1011#40 = .disturbed := by decide

/-- The body fields at the ends of their ranges are read back (R185). -/
theorem test_body_bounds_witness :
    (markWord 30 239 96).markFrame = 239 ∧ (markWord 30 239 96).markLength = some 96 ∧
      (rollWord 30 true 16 true).rollHeld = 16 ∧ (claimWord 30 3 3 95).claimSlot = 95 ∧
      (answerWord 30 30 3 3 3 4096).answerCount = 4096 ∧ (headWord 30 30 3 true 4096).headOffset = 4096 ∧
      (tailWord 30 4096).tailLength = 4096 ∧ (tailWord 30 1).tailLength = 1 := by decide

/-- One above each range is malformed (R8). -/
theorem test_body_malformed :
    (markWord 1 240 24).malformed = true ∧ (markWord 1 0 25).malformed = true ∧ (rollWord 1 false 17 true).malformed = true ∧
      (claimWord 1 0 1 96).malformed = true ∧ (claimWord 1 0 0 4).malformed = true ∧
      (answerWord 1 31 0 1 0 0).malformed = true ∧ (headWord 1 1 0 false 4097).malformed = true ∧
      (tailWord 1 0).malformed = true := by decide

/-! ### Requests and replies: words written out from R187 and R188 -/

/-- START 30, L 96, eligible: kind 1, command 1; parameters 11110 11 1 and zeros. -/
theorem test_start_words : requestWords (.start 30 96 true) = [0x104000#24, 0xF70000#24, 0#24] := by decide

/-- BULK_POST 9, window 2, base 100, length 3: 01001 10 0000001100100 0000 across word 2, 000000011 in word 3. -/
theorem test_bulk_post_words : requestWords (.bulkPost 9 2 100 3) = [0x12C000#24, 0x4C0640#24, 0x018000#24] := by decide

/-- PUSH 3 of one sample: kind 2, count 1 in bits 11 to 17; channel 011; the sample. -/
theorem test_push_words : requestWords (.push 3 [0xABCDEF]) = [0x200080#24, 0x600000#24, 0#24, 0xABCDEF#24] := by decide

/-- STATUS is kind 7 without parameters, and a request of kind 0 is complete at its first word. -/
theorem test_status_words :
    decodeRequest [0x700000, 0, 0] = .complete .status ∧ decodeRequest [0x700000, 0] = .incomplete ∧
      decodeRequest [0x0FFFFF] = .complete (.undefinedHeader 0x0FFFFF) := by decide

/-- The STATUS reply of a DETACHED station 5 with L 48: kind 7, DONE, frame 4; state 0110, station 00101, presence 1 and
length code 10, frame 00000100; the holder does not fit and begins the next word, with holdings, claims and events 0. -/
theorem test_status_reply :
    ({ kind := 7, frame := 4, result := .done (.status .detached (some 5) (some 48) 4 none 0 0 0) } : Reply).words =
      [0x740100#24, 0x62E040#24, 0#24] := by decide

/-- CLAIM_DONE(GRANTED) of tag 3 in frame 9, slot 7, count 2: 001110 00001001 10000111 00; 0000111 and zeros; 00000011
00010000 and zeros; the count in 16 bits and zeros. -/
theorem test_event_words :
    ({ Event.of .claimDone 9 with slot := some 7, tag := some 3, result := some (.claim .granted), count := some 2 }).words =
      [0x38261C#24, 0x0E0000#24, 0x031000#24, 0x000200#24] := by decide

/-- The checks of the FILL words of stations 6 and 5, as worked in chapter 1. -/
theorem test_check_of_fill : checkField (fillWord 6).payload = 0b11011#5 ∧ checkField (fillWord 5).payload = 0#5 := by
  decide

/-- Two stations in one data slot, as worked in chapter 1: DATA of 12 survives FILL of 7, FILL of 7 survives FILL of 12. -/
theorem test_two_stations :
    lineWord [(fillWord 7).bits, (dataWord 12 77).bits] = (dataWord 12 77).bits ∧
      lineWord [(fillWord 7).bits, (fillWord 12).bits] = (fillWord 7).bits ∧
      outcomeOf (fillWord 12).bits (fillWord 7).bits = .displaced := by decide

/-! ### One small step for each command -/

/-- The state after a command. -/
def after (i : Instr) (s : State) : Option State :=
  match exec i s with
  | .next t => some t
  | .fault _ => none
  | .refused _ => none

/-- The result that the reply to a transaction carries. -/
def resultOf (i : Instr) (s : State) : Option TxResult := (after i s).bind (fun t => t.host.reply.map Reply.result)

/-- One field of the state after a command. -/
def see {α : Type} (f : State → α) (i : Instr) (s : State) : Option α := (after i s).map f

theorem test_start : see (fun t => t.control.state) (.start 30 96 true) (asked .off) = some .listen := by decide
theorem test_start_range : resultOf (.start 31 24 true) (asked .off) = some (.refused .range) := by decide
theorem test_join : see (fun t => t.control.state) .join (asked .detached) = some .listen := by decide
theorem test_leave_member : see (fun t => t.control.state) .leave (asked .member) = some .leaving := by decide
theorem test_leave_listen : see (fun t => t.control.state) .leave (asked .listen) = some .detached := by decide
/-- Sixteen holdings leave no room for a claim (R94). -/
theorem test_claim_limit :
    resultOf (.claim .any 0 .absent)
      { asked .member with table := (Bank.fill 96 { SlotEntry.reset with owner := some 5, role := some .spare }) } =
      some (.refused .limit) := by decide
theorem test_claim : see (fun t => (t.claims.records.map ClaimRecord.tag, t.claims.tagCounter)) (.claim (.slot 23) 3 .bulk)
    { asked .member with claims := { records := [record .any 0 false], tagCounter := 255, contending := false } } =
      some ([3, 255], 0) := by decide
theorem test_release : resultOf (.release 8) (owning .spare (asked .member)) = some (.refused .notHeld) := by decide
theorem test_claim_cancel :
    see (fun t => t.claims.records.map ClaimRecord.cancel) (.claimCancel 3) (contending (record .any 0 false) (asked .member)) =
      some [true] := by decide
theorem test_set_role : see (fun t => (t.entry 7).role) (.setRole 7 (.stream 7)) (owning .bulk (asked .leaving)) =
    some (some (.stream 7)) := by decide
theorem test_bind_rx : resultOf (.bindRx 0 7 none .keepNewest true) (owning .spare (asked .member)) = some (.refused .ownSlot) := by
  decide
theorem test_unbind_rx : resultOf (.unbindRx 0) (asked .listen) = some (.refused .noSuch) := by decide
theorem test_channel_status : resultOf (.channelStatus .tx 1) (owning (.stream 1) (asked .member)) =
    some (.done (.txChannel 0 [7] 0 false)) := by decide
theorem test_bulk_post : resultOf (.bulkPost 9 2 8191 1) (asked .member) = some (.accepted (.job 0)) := by decide
theorem test_bulk_post_self : resultOf (.bulkPost 5 2 0 1) (asked .member) = some (.refused .range) := by decide
theorem test_bulk_cancel : see (fun t => t.jobs.map Job.state) (.bulkCancel 1) (withJob (job .sending 0 0 0 0 true) (asked .fault)) =
    some [.cancelled] := by decide
theorem test_bulk_status : resultOf (.bulkStatus 0) (withJob (job .queued 0 0 0 0 true) (asked .member)) =
    some (.refused .noSuch) := by decide
theorem test_bulk_collect : resultOf (.bulkCollect 1) (withJob (job .awaitAnswer 3 0 0 0 false) (asked .member)) =
    some (.refused .state) := by decide
theorem test_window_open_edge : resultOf (.windowOpen 3 8191 2 none) (asked .member) = some (.refused .range) := by decide
theorem test_window_open : see (fun t => (t.windowAt 3).capacity) (.windowOpen 3 4096 4096 (some 30)) (asked .listen) =
    some (some 4096) := by decide
theorem test_window_close : see (fun t => (t.windowAt 2).state) (.windowClose 2) (withWindow (window .stalled 1 64) (asked .fault)) =
    some .closed := by decide
theorem test_window_status : resultOf (.windowStatus 4) (asked .member) = some (.refused .range) := by decide
theorem test_read_slot : resultOf (.readSlot 24) (asked .member) = some (.refused .range) := by decide
theorem test_read_roster : resultOf (.readRoster 5) (owning .spare (asked .member)) =
    some (.done (.roster 5 true RosterEntry.reset 1)) := by decide
theorem test_reset_part : see (fun t => (t.host.resetArmed, t.control.state)) .resetPart (asked .member) = some (true, .member) := by
  decide
/-- Two samples into a queue with room for one (R113). -/
theorem test_push_count_in_fault :
    resultOf (.push 1 (List.replicate 17 7)) (asked .fault) = some (.refused .state) := by decide
theorem test_push : resultOf (.push 1 [7, 8]) ((asked .member).setTx 1 { TxChannel.reset with queue := List.replicate 15 0 }) =
    some (.done (.accepted 1)) := by decide
theorem test_pull_empty : resultOf (.pull 0 16) (asked .fault) = some (.done (.entries [])) := by decide
theorem test_memory_write : see (fun t => (t.buffer.read 8191, t.buffer.read 8190)) (.memoryWrite 8190 [1, 2]) (asked .off) =
    some (2, 1) := by decide
theorem test_memory_read : resultOf (.memoryRead 8191 2) (asked .off) = some (.refused .range) := by decide
theorem test_event_read : resultOf (.eventRead 8) (asked .off) = some (.done (.events [] 0)) := by decide
theorem test_status : resultOf .status (owning .spare (asked .member)) =
    some (.done (.status .member (some 5) (some 24) 0 none 1 0 0)) := by decide
theorem test_undefined_header : resultOf (.undefinedHeader 0x154000#24) (asked .member) = some (.refused .range) := by decide
theorem test_select : see (fun t => t.host.state) .targetSelectAsserted (part .off) = some .request := by decide
theorem test_deselect : see (fun t => (t.host.state, t.host.request)) .targetSelectReleased
    { asked .off with host := { HostPort.reset with state := .request, request := [0x700000#24] } } = some (.deselected, []) := by
  decide

/-- A RESET_PART has been taken and its reply is not yet out. -/
def armed : State :=
  { part .member with
    host := { state := .reply, request := [], position := 0, resetArmed := true
              reply := some { kind := 1, frame := 0, result := .done .nothing } } }

theorem test_reset_takes_hold : see (fun t => t.control.state) (.resetPartTakesHold .replyShiftedOut) armed = some .off := by decide
theorem test_reset_line :
    see (fun t => (t.control.state, t.pins.resetLine, t.pins.serialOut)) .resetLineAsserted
      { part .member with pins := { State.reset.pins with serialOut := some 5 } } = some (.off, true, none) := by decide
theorem test_reset_line_released : see (fun t => t.pins.resetLine) .resetLineReleased
    { part .off with pins := { State.reset.pins with resetLine := true } } = some false := by decide
theorem test_power_on : see (fun t => (t.pins.lineRate, t.control.config)) (.powerOnReset 2) (part .member) = some (2, none) := by decide
theorem test_hunting : see (fun t => (t.timer.frame, t.timer.position)) (.huntingCandidate (markWord 9 239 24).bits) (part .listen) =
    some (239, some 1) := by decide
theorem test_hunting_length : see (fun t => t.control.cause) (.huntingCandidate (markWord 9 0 48).bits) (part .listen) =
    some (some .frameLength) := by decide
/-- The listen window after its second frame time. -/
def nearlyHeard : State := { part .listen with control := { (part .listen).control with listenCount := 2 } }
theorem test_listen_window_passes : see (fun t => (t.timer.frame, t.timer.position)) .listenWindowPasses nearlyHeard =
    some (0, some 0) := by decide
theorem test_listen_frame_time : see (fun t => t.control.listenCount) .listenWindowFrameTime (part .listen) = some 1 := by decide

/-- A holder's state at a slot position. -/
def holding (p : Nat) (passing : Bool) : State :=
  { inSlot .member p passing with
    timer := { (inSlot .member p passing).timer with holderFlag := true, holder := some 5 } }

theorem test_mark_start : see (fun t => t.port.word) .markSlotStart (holding 0 false) = some (some (markWord 5 4 24).bits) := by decide
theorem test_mark_end : see (fun t => (t.timer.frame, t.timer.holder)) (.markSlotEnd (markWord 9 77 24).bits) (inSlot .member 0 true) =
    some (77, some 9) := by decide

/-- Marks have been missed, in slot 0, with self PRESENT and eligible in its own roster. -/
def missing (st : StationState) (n : Nat) : State :=
  { (inSlot st 0 true).setRoster 5 { RosterEntry.reset with present := true, eligible := some true } with
    timer := { (inSlot st 0 true).timer with missed := n } }

theorem test_candidate : see (fun t => t.timer.holderFlag) (.candidateRule silence) (missing .member 1) = some true := by decide
theorem test_escalation : see (fun t => (t.timer.holderFlag, t.timer.missed)) (.escalation silence) (missing .member 3) =
    some (true, 0) := by decide
theorem test_joining_to_listen : see (fun t => (t.control.state, t.timer.frame)) (.joiningToListen silence) (missing .joining 3) =
    some (.listen, 4) := by decide
theorem test_roll_start : see (fun t => t.port.word) .rollSlotStart (owning .spare (inSlot .leaving 1 false)) =
    some (some (rollWord 5 true 1 true).bits) := by decide

/-- Frame 8, in which station 9's turn to roll comes, with station 9 PRESENT after missed rolls. -/
def rolling (missed : Nat) : State :=
  { (inSlot .member 1 true).setRoster 9 { RosterEntry.reset with present := true, missed := missed } with
    timer := { (inSlot .member 1 true).timer with frame := 8 } }

theorem test_roll_end : see (fun t => (t.rosterEntry 9).held) (.rollSlotEnd (rollWord 9 false 16 true).bits) (rolling 1) =
    some (some 16) := by decide
theorem test_station_lost : see (fun t => t.isPresent 9) (.stationLost silence) (rolling 1) = some false := by decide
theorem test_claim_start : see (fun t => t.port.word) .claimSlotStart
    { inSlot .member 2 false with claims := { records := [record .any 0 false], tagCounter := 4, contending := false } } =
      some (some (claimWord 5 2 2 0).bits) := by decide

/-- A contending head in slot 2, with its word on the line. -/
def claiming (r : ClaimRecord) (word : SlotWord) : State :=
  { contending r (inSlot .member 2 true) with
    port := { TrunkPort.reset with word := some word.bits, drove := true } }

theorem test_claim_end : see (fun t => ((t.entry 4).owner, (t.entry 4).role)) (.claimSlotEnd (claimWord 5 2 2 0).bits)
    (claiming (record .any 0 false) (claimWord 5 2 2 0)) = some (some 5, some (.stream 1)) := by decide
theorem test_claim_aging : see (fun t => t.claims.records.map ClaimRecord.effective) (.claimAging (claimWord 9 1 1 30).bits)
    (claiming (record .any 15 false) (claimWord 5 2 2 0)) = some [1] := by decide
theorem test_claim_expired : see (fun t => t.claims.records) (.claimExpired (claimWord 9 0 1 30).bits)
    (claiming (record .any 63 false) (claimWord 5 2 2 0)) = some [] := by decide

/-- A pending answer, contending or not. -/
def answering (p : Nat) (passing : Bool) (lost : Nat) : State :=
  { inSlot .member p passing with
    answers := { answers := [{ window := 2, target := 9, verdict := .done, count := 4096, lost := lost }], contending := passing }
    port := { TrunkPort.reset with word := if passing then some (answerWord 5 9 2 1 0 4096).bits else none } }

theorem test_answer_start : see (fun t => t.port.word) .answerSlotStart (answering 3 false 0) =
    some (some (answerWord 5 9 2 1 0 4096).bits) := by decide
theorem test_answer_end : see (fun t => t.answers.answers) (.answerSlotEnd (answerWord 5 9 2 1 0 4096).bits) (answering 3 true 0) =
    some [] := by decide
theorem test_answer_dropped : see (fun t => t.answers.answers) (.answerDropped silence) (answering 3 true 31) = some [] := by decide
theorem test_data_start : see (fun t => t.port.word) .dataSlotStart
    ((owning (.stream 1) (inSlot .member 7 false)).setTx 1 { TxChannel.reset with queue := [77, 78] }) =
      some (some (dataWord 5 77).bits) := by decide

/-- A job waiting for its answer, at the start of its slot. -/
def waiting (resends : Nat) : State := withJob (job .awaitAnswer 3 16 resends 0 false) (owning .bulk (inSlot .member 7 false))

theorem test_tail_resend : see (fun t => t.port.word) .tailResend (waiting 3) = some (some (tailWord 5 3).bits) := by decide
theorem test_job_no_answer : see (fun t => (t.jobs.map Job.result, t.port.word)) .jobNoAnswer (waiting 4) =
    some ([some .noAnswer], some (fillWord 5).bits) := by decide

/-- The eighth silent occurrence of slot 7, which station 9 owns. -/
def lapsing : State := (inSlot .member 7 true).setEntry 7 { SlotEntry.reset with owner := some 9, silence := 7 }

theorem test_data_end : see (fun t => (t.entry 7).lastKind) (.dataSlotEnd (dataWord 9 1).bits) lapsing =
    some (some (.kind .data)) := by decide
theorem test_slot_lapsed : see (fun t => ((t.entry 7).owner, (t.entry 7).silence)) (.slotLapsed silence) lapsing = some (none, 0) := by
  decide
theorem test_window_stalled : see (fun t => (t.windowAt 2).state) (.windowStalled silence)
    (withWindow (window .receiving 1 63) (inSlot .member 7 true)) = some .stalled := by decide
/-- A TAIL is an accepted word (R165), the one that fails the window too. -/
theorem test_tail_past_count : see (fun t => ((t.windowAt 2).state, (t.windowAt 2).stall)) (.dataSlotEnd (tailWord 9 1).bits)
    (withWindow (window .receiving 2 63) (inSlot .member 7 true)) = some (.failed, 0) := by decide
theorem test_request_word : see (fun t => t.host.request) (.requestWordShiftedIn 0x700000#24) (asked .off) = some [0x700000#24] := by
  decide
theorem test_reply_word : see (fun t => t.pins.serialOut) .replyWordShiftedOut armed = some (some 0x140000#24) := by decide

/-! ### Witnesses: for each statement with hypotheses, a state and operands that meet them -/

theorem witness_step : ({ part .off with pending := [.status, .join] } : State).pending = [.status, .join] ∧
    State.reset.pending = [] := by decide
theorem witness_queue_and_pins : ∃ t, exec .status (asked .off) = .next t := ⟨_, rfl⟩

/-- The first bit and the last bit of a word. -/
theorem witness_first_difference :
    (39 < 40 ∧ (∀ j, 39 < j → j < 40 → (0x8000000000#40).getLsbD j = (0#40).getLsbD j) ∧
      (0x8000000000#40).getLsbD 39 ≠ (0#40).getLsbD 39) ∧
    0 < 40 ∧ (∀ j, 0 < j → j < 40 → (0#40).getLsbD j = (1#40).getLsbD j) ∧ (0#40).getLsbD 0 ≠ (1#40).getLsbD 0 :=
  ⟨⟨by decide, fun _ _ _ => by omega, by decide⟩, by decide, fun j _ _ => by interval_cases j <;> rfl, by decide⟩
theorem witness_smallest_word : [(fillWord 7).bits, (fillWord 7).bits] ≠ [] ∧ [silence] ≠ [] := by decide
theorem witness_words_heard : 1 ≤ (fillWord 1).sender ∧ (fillWord 1).sender ≤ 30 ∧ 1 ≤ (tailWord 30 1).sender ∧
    (tailWord 30 1).sender ≤ 30 := by decide

/-- Commands at the ends of their fields: the shortest request, and the longest. -/
theorem witness_requests :
    Instr.status.isTransaction = true ∧ Instr.status.wf = true ∧ 2 < (requestWords .status).length ∧
    (Instr.bindRx 7 127 (some 31) .keepOldest true).isTransaction = true ∧
    (Instr.bindRx 7 127 (some 31) .keepOldest true).wf = true ∧
    (Instr.memoryWrite 8191 (List.replicate 64 5)).isTransaction = true ∧
    (Instr.memoryWrite 8191 (List.replicate 64 5)).wf = true ∧
    66 < (requestWords (.memoryWrite 8191 (List.replicate 64 5))).length ∧
    headerUndefined 0x800000#24 = true ∧ headerUndefined 0x402000#24 = false := by decide
theorem witness_plain_bodies : (bulkWord 9 1).kind = .bulk ∧ (dataWord 9 1).kind = .data ∧ (fillWord 9).kind = .fill := by
  decide
theorem witness_status_length : ∀ x : Nat, some 96 = some x → x = 24 ∨ x = 48 ∨ x = 96 := by
  intro x h; cases h; decide
theorem witness_last_request_word :
    Instr.status.isTransaction = true ∧ Instr.status.wf = true ∧
    ({ asked .off with host := { HostPort.reset with state := .request, request := [0x700000#24, 0#24] } } : State).host.state =
      .request ∧
    [0x700000#24, 0#24] ++ [0#24] = requestWords .status := by decide

/-- A reply of one word to shift out, no reset armed. -/
def replyingState : State := { armed with host := { armed.host with resetArmed := false } }

theorem witness_port_words :
    (part .off).pins.select = false ∧ (part .off).host.resetArmed = false ∧ (asked .off).host.state = .request ∧
    decodeRequest ((asked .off).host.request ++ [0x700000#24]) = .incomplete ∧ (part .off).host.state ≠ .request ∧
    (part .off).host.state = .deselected ∧ replyingState.host.state = .reply ∧ replyingState.host.reply = some { kind := 1, frame := 0, result := .done .nothing } ∧
    replyingState.host.resetArmed = false := by decide
theorem witness_answered :
    Instr.status.isTransaction = true ∧ (asked .off).host.state = .request ∧
    (∀ h, Instr.status = .undefinedHeader h → headerUndefined h = true ∧ (asked .off).host.request = []) ∧
    headerUndefined 0x154000#24 = true ∧ (asked .off).host.request = [] ∧
    (∃ t, exec .join (asked .off) = .next t ∧
      t.host.reply = some { kind := 1, frame := 0, result := .refused .state }) := by
  refine ⟨by decide, by decide, ?_, by decide, by decide, ⟨_, rfl, by decide⟩⟩
  intro h hh; cases hh
theorem witness_refusals :
    (Instr.push 8 (List.replicate 17 5)).isTransaction = true ∧ (asked .fault).host.state = .request ∧
    takenIn (.push 8 (List.replicate 17 5)) (asked .fault).control.state = false ∧
    takenIn .join (asked .off).control.state = false ∧ takenIn (.windowOpen 0 0 1 none) (asked .fault).control.state = false ∧
    headerUndefined 0#24 = true ∧ (asked .fault).host.request = [] := by decide
theorem witness_resets :
    ({ part .off with pins := { State.reset.pins with resetLine := true } } : State).pins.resetLine = true ∧
    armed.host.resetArmed = true ∧ armed.host.state = .reply ∧
    armed.host.reply = some { kind := 1, frame := 0, result := .done .nothing } ∧
    ({ kind := 1, frame := 0, result := .done .nothing } : Reply).words.length ≤ armed.host.position + 1 ∧
    (asked .leaving).host.state = .request := by decide
theorem witness_reads : (asked .off).host.state = .request ∧ (asked .member).host.state = .request ∧
    (withJob (job .done 3 0 0 0 false) (asked .member)).host.state = .request := by decide

/-! #### Station states -/

theorem witness_start_join :
    (asked .off).host.state = .request ∧ (asked .off).control.state = .off ∧ (asked .listen).control.state ≠ .off ∧
    (asked .listen).control.state ≠ .detached ∧ (asked .detached).host.state = .request ∧
    (asked .detached).control.state = .detached := by decide
theorem witness_leave :
    (withWindow (window .gap 1 3) (asked .listen)).host.state = .request ∧
    (withWindow (window .gap 1 3) (asked .listen)).control.state = .listen ∧
    (asked .joining).control.state = .joining ∧
    (contending (record .any 3 false) (withJob (job .sending 1 0 0 0 false) (asked .member))).host.state = .request ∧
    (contending (record .any 3 false) (withJob (job .sending 1 0 0 0 false) (asked .member))).control.state = .member := by
  decide
theorem witness_transitions :
    State.alignmentOk { asked .member with
      pending := [.leave]
      timer := { FrameTimer.reset with aligned := true, position := some 4, frame := 4, holder := some 2 } } ∧
    (∃ t, step { asked .member with
      pending := [.leave]
      timer := { FrameTimer.reset with aligned := true, position := some 4, frame := 4, holder := some 2 } } = .next t ∧
      t.control.state = .leaving) := ⟨by decide, _, rfl, rfl⟩
theorem witness_configuration :
    (asked .member).control.state ≠ .off ∧
    (asked .member).control.config = some { addr := 5, len := 24, eligible := true } ∧
    ∃ t, step { asked .member with pending := [.leave] } = .next t := ⟨by decide, by decide, _, rfl⟩

/-- A state with self's word on the line. -/
def sending (w : SlotWord) (s : State) : State := { s with port := { TrunkPort.reset with word := some w.bits, drove := true } }

/-- At each kind of slot, in each of the three states; and self's own word displaced. -/
theorem witness_duplicate :
    ((inSlot .joining 0 true).passes 0 ∧ 0 < (inSlot .joining 0 true).len ∧ (inSlot .joining 0 true).port.word = none ∧
      (inSlot .joining 0 true).control.state.onTrunk = true ∧
      (inSlot .member 3 true).passes 3 ∧ (inSlot .leaving 23 true).passes 23 ∧ 23 < (inSlot .leaving 23 true).len ∧
      (inSlot .leaving 23 true).port.word = none ∧ classify (fillWord 5).bits = .valid (fillWord 5) ∧
      (fillWord 5).sender = (inSlot .joining 0 true).self) ∧
    ((sending (fillWord 5) (inSlot .leaving 23 true)).passes 23 ∧
      (sending (fillWord 5) (inSlot .leaving 23 true)).port.word = some (fillWord 5).bits ∧
      outcomeOf (fillWord 5).bits (dataWord 5 1).bits = .displaced ∧ classify (dataWord 5 1).bits = .valid (dataWord 5 1) ∧
      (dataWord 5 1).sender = (sending (fillWord 5) (inSlot .leaving 23 true)).self) ∧
    ((sending (markWord 5 4 24) (inSlot .listen 0 true)).passes 0 ∧
      (sending (markWord 5 4 24) (inSlot .listen 0 true)).control.state = .listen ∧
      outcomeOf (markWord 5 4 24).bits (markWord 5 3 24).bits = .displaced ∧
      (markWord 5 3 24).sender = (sending (markWord 5 4 24) (inSlot .listen 0 true)).self) := by decide

/-- A MARK of another length: as the winner over a founding MARK, unsent in slot 0, and in the last slot. -/
theorem witness_frame_length :
    (classify (markWord 2 0 96).bits = .valid (markWord 2 0 96) ∧ (markWord 2 0 96).kind = .mark ∧
      (markWord 2 0 96).malformed = false ∧ (markWord 2 0 96).sender ≠ (inSlot .joining 0 true).self ∧
      (markWord 2 0 96).markLength ≠ some (inSlot .joining 0 true).len) ∧
    ((sending (markWord 5 4 24) (inSlot .listen 0 true)).passes 0 ∧
      0 < (sending (markWord 5 4 24) (inSlot .listen 0 true)).len ∧
      outcomeOf (markWord 5 4 24).bits (markWord 2 0 96).bits = .displaced) ∧
    ((inSlot .joining 0 true).control.state = .joining ∧ (inSlot .joining 0 true).port.word = none ∧
      (inSlot .joining 23 true).passes 23 ∧ 23 < (inSlot .joining 23 true).len ∧ 23 ≠ 0) := by decide

/-! #### Frame timing -/

theorem witness_hunting :
    ((part .listen).control.state = .listen ∧ (part .listen).timer.aligned = false) ∧
    (classify (markWord 9 239 24).bits = .valid (markWord 9 239 24) ∧ (markWord 9 239 24).kind = .mark ∧
      (markWord 9 239 24).malformed = false ∧ (markWord 9 239 24).sender ≠ (part .listen).self ∧
      (markWord 9 239 24).markLength = some (part .listen).len) ∧
    (classify (markWord 5 0 24).bits = .valid (markWord 5 0 24) ∧ (markWord 5 0 24).malformed = false ∧
      (markWord 5 0 24).sender = (part .listen).self) ∧
    (classify (markWord 9 0 96).bits = .valid (markWord 9 0 96) ∧ (markWord 9 0 96).malformed = false ∧
      (markWord 9 0 96).markLength ≠ some (part .listen).len) := by decide
theorem witness_hunting_other : ∀ w, classify silence = .valid w → w.kind = .mark → w.malformed = true := silence_word
theorem witness_listen_window :
    (part .listen).control.state = .listen ∧ (part .listen).timer.aligned = false ∧ (part .listen).control.listenCount < 2 ∧
    nearlyHeard.control.state = .listen ∧ nearlyHeard.timer.aligned = false ∧ nearlyHeard.control.listenCount = 2 := by decide
theorem witness_mark_and_roll_starts :
    (holding 0 false).awaits 0 ∧ (inSlot .listen 0 false).awaits 0 ∧ (inSlot .joining 1 false).awaits 1 := by decide

/-- A founder in LISTEN whose MARK is on the line. -/
def founding : State := sending (markWord 5 4 24) (inSlot .listen 0 true)

/-- The line stuck at 0 carries no word. -/
theorem corrupt_word {p : SlotWord → Prop} : ∀ w, classify (0#40) = .valid w → p w := by
  intro w h; rw [show classify (0#40) = .corrupt by decide] at h; cases h

theorem witness_marks_followed :
    ((inSlot .joining 0 true).passes 0 ∧ 1 < (inSlot .joining 0 true).len ∧
      (inSlot .joining 0 true).control.state = .joining ∧ (inSlot .joining 0 true).port.word = none ∧
      classify (markWord 9 77 24).bits = .valid (markWord 9 77 24) ∧ (markWord 9 77 24).kind = .mark ∧
      (markWord 9 77 24).malformed = false ∧ (markWord 9 77 24).sender ≠ (inSlot .joining 0 true).self ∧
      (markWord 9 77 24).markLength = some (inSlot .joining 0 true).len) ∧
    (founding.passes 0 ∧ 1 < founding.len ∧ founding.control.state = .listen ∧
      founding.port.word = some (markWord 5 4 24).bits) := by decide

/-- A holder with its MARK on the line. -/
def marking : State := sending (markWord 5 4 24) (holding 0 true)

theorem witness_holder_marks :
    (marking.passes 0 ∧ 1 < marking.len ∧ marking.control.state.onTrunk = true ∧
      marking.port.word = some (markWord 5 4 24).bits ∧ outcomeOf (markWord 5 4 24).bits (markWord 5 4 24).bits ≠ .displaced ∧
      outcomeOf (markWord 5 4 24).bits silence ≠ .displaced) ∧
    (outcomeOf (markWord 5 4 24).bits (markWord 2 239 24).bits = .displaced ∧
      classify (markWord 2 239 24).bits = .valid (markWord 2 239 24) ∧ (markWord 2 239 24).kind = .mark ∧
      (markWord 2 239 24).malformed = false ∧ (markWord 2 239 24).sender ≠ marking.self ∧
      (markWord 2 239 24).markLength = some marking.len ∧ (markWord 2 239 24).sender ≠ founding.self ∧
      (markWord 2 239 24).markLength = some founding.len) := by decide

/-- CORRUPT, and in MEMBER a MARK of another length, as the words that displace a MARK. -/
theorem witness_marks_displaced :
    outcomeOf (markWord 5 4 24).bits (0#40) = .displaced ∧
    (∀ w, classify (0#40) = .valid w → w.sender ≠ 5 ∧ (w.kind = .mark → w.malformed = true)) ∧
    (∀ w, classify (0#40) = .valid w → w.kind = .mark → w.malformed = false →
      w.markLength ≠ some 24 ∧ marking.control.state ≠ .joining) ∧
    outcomeOf (markWord 5 4 24).bits (markWord 2 0 96).bits = .displaced ∧
    (∀ w, classify (markWord 2 0 96).bits = .valid w → w.sender ≠ marking.self) ∧
    ∀ w, classify (markWord 2 0 96).bits = .valid w → w.kind = .mark → w.malformed = false →
      w.markLength ≠ some marking.len ∧ marking.control.state ≠ .joining := by
  have h : classify (markWord 2 0 96).bits = .valid (markWord 2 0 96) := by decide
  exact ⟨by decide, corrupt_word, corrupt_word, by decide, of_heard h (by decide), of_heard h (by decide)⟩

/-- A MARK at the holder address itself, in slot 1 and in the last slot. -/
theorem witness_realignment :
    (inSlot .joining 1 true).passes 1 ∧ (inSlot .member 23 true).passes 23 ∧ 23 < (inSlot .member 23 true).len ∧
    (inSlot .member 23 true).control.state.onTrunk = true ∧ (inSlot .member 23 true).port.word = none ∧
    classify (markWord 2 77 24).bits = .valid (markWord 2 77 24) ∧ (markWord 2 77 24).kind = .mark ∧
    (markWord 2 77 24).malformed = false ∧ (markWord 2 77 24).sender ≠ (inSlot .member 23 true).self ∧
    (markWord 2 77 24).markLength = some (inSlot .member 23 true).len ∧
    (∀ k, (inSlot .member 23 true).timer.holder = some k → (markWord 2 77 24).sender ≤ k) := by
  refine ⟨by decide, by decide, by decide, by decide, by decide, by decide, by decide, by decide, by decide, by decide, ?_⟩
  intro k hk; cases hk; decide
theorem witness_frames_advance :
    ((inSlot .member 23 true).passes 23 ∧ 23 < (inSlot .member 23 true).len ∧ 1 < (inSlot .member 23 true).len ∧
      (inSlot .member 23 true).control.state.onTrunk = true) ∧
    (∀ w, classify silence = .valid w → w.kind ≠ .mark) ∧
    ∃ t, exec (endCommand 23 silence) (inSlot .member 23 true) = .next t ∧ t.control.state.onTrunk = true :=
  ⟨by decide, silence_word, _, rfl, by decide⟩

/-- A MARK above the holder address in slot 1 and in the last slot, and one of another length in the last slot. -/
theorem witness_ignored_marks :
    ((inSlot .joining 1 true).passes 1 ∧ 1 < (inSlot .joining 1 true).len ∧
      (inSlot .joining 1 true).control.state.onTrunk = true ∧ (inSlot .joining 1 true).port.word = none ∧
      classify (markWord 3 0 24).bits = .valid (markWord 3 0 24) ∧ (markWord 3 0 24).kind = .mark ∧
      (markWord 3 0 24).malformed = false ∧ (markWord 3 0 24).sender ≠ (inSlot .joining 1 true).self ∧
      (markWord 3 0 24).markLength = some (inSlot .joining 1 true).len ∧
      (inSlot .joining 1 true).timer.holder = some 2 ∧ 2 < (markWord 3 0 24).sender) ∧
    ((inSlot .leaving 23 true).passes 23 ∧ 23 < (inSlot .leaving 23 true).len ∧
      (inSlot .leaving 23 true).control.state ≠ .joining ∧
      classify (markWord 2 0 96).bits = .valid (markWord 2 0 96) ∧ (markWord 2 0 96).malformed = false ∧
      (markWord 2 0 96).sender ≠ (inSlot .leaving 23 true).self ∧
      (markWord 2 0 96).markLength ≠ some (inSlot .leaving 23 true).len) := by decide
/-- The hypotheses on a missed mark that self's own state settles. -/
abbrev mayMiss (s : State) : Prop :=
  s.passes 0 ∧ 1 < s.len ∧ s.control.state.onTrunk = true ∧ s.port.word = none ∧ 1 ≤ s.self ∧ s.self ≤ 30 ∧
  (s.control.state = .joining → s.timer.missed ≠ 3)

theorem witness_missed_marks :
    (∀ s ∈ [missing .member 1, missing .member 3, missing .leaving 3, missing .leaving 4, missing .joining 0,
      missing .joining 2], mayMiss s) ∧
    ((missing .joining 3).passes 0 ∧ 1 < (missing .joining 3).len ∧ (missing .joining 3).port.word = none ∧
      (missing .joining 3).timer.missed = 3 ∧ (missing .joining 3).control.state = .joining) ∧
    (∀ w, classify silence = .valid w → w.sender ≠ 5 ∧ (w.kind = .mark → w.malformed = true)) ∧
    (∀ w, classify (0#40) = .valid w → w.sender ≠ 5 ∧ (w.kind = .mark → w.malformed = true)) ∧
    ∀ w, classify (markWord 2 0 96).bits = .valid w → w.sender ≠ (missing .leaving 3).self ∧
      (w.kind = .mark → w.malformed = true ∨
        w.markLength ≠ some (missing .leaving 3).len ∧ (missing .leaving 3).control.state ≠ .joining) := by
  have h : classify (markWord 2 0 96).bits = .valid (markWord 2 0 96) := by decide
  exact ⟨by decide, by decide, silence_word, corrupt_word, of_heard h (by decide)⟩

/-- The candidate rule and escalation take up holding, and a station that is not PRESENT in its own roster does not. -/
theorem witness_takeover :
    ((missing .member 1).control.state = .member ∧ (missing .member 1).timer.missed = 1 ∧
      (missing .member 1).eligible = true ∧ (missing .member 1).isPresent (missing .member 1).self = true ∧
      (missing .member 1).timer.holder ≠ some (missing .member 1).self ∧
      ∀ a < (missing .member 1).self, 1 ≤ a → ¬((missing .member 1).isPresent a = true ∧
        ((missing .member 1).rosterEntry a).eligible = some true ∧ (missing .member 1).timer.holder ≠ some a)) ∧
    ((missing .member 3).timer.missed = 3 ∧ (missing .member 3).eligible = true ∧
      (missing .member 3).timer.holderFlag = false) ∧
    (mayMiss ((missing .member 1).setRoster 5 RosterEntry.reset) ∧
      ((missing .member 1).setRoster 5 RosterEntry.reset).isPresent 5 = false) := by decide

/-- Station 9, the holder, rolls LEAVING in its turn, with self the candidate and without. -/
def holderGoing (present : Bool) : State :=
  { (rolling 0).setRoster 5 { RosterEntry.reset with present := present } with
    timer := { (rolling 0).timer with holder := some 9 } }

theorem witness_holder_leaves :
    ((holderGoing true).passes 1 ∧ 2 < (holderGoing true).len ∧ (holderGoing true).control.state = .member ∧
      (holderGoing true).port.word = none ∧ 1 ≤ (holderGoing true).self ∧ (holderGoing true).self ≤ 30 ∧
      classify (rollWord 9 true 0 true).bits = .valid (rollWord 9 true 0 true) ∧ (rollWord 9 true 0 true).kind = .roll ∧
      (rollWord 9 true 0 true).malformed = false ∧ (rollWord 9 true 0 true).rollLeaving = true ∧
      (rollWord 9 true 0 true).sender ≠ (holderGoing true).self ∧
      (rollWord 9 true 0 true).sender = (holderGoing true).timer.frame % 30 + 1 ∧
      (holderGoing true).timer.holder = some (rollWord 9 true 0 true).sender) ∧
    (holderGoing true).isPresent (holderGoing true).self = true ∧
    (holderGoing false).isPresent (holderGoing false).self = false := by decide

/-! #### Roster -/

/-- Self's own ROLL is on the line in its turn, in frame 4. -/
def entering (st : StationState) : State := sending (rollWord 5 (decide (st = .leaving)) 0 true) (inSlot st 1 true)

theorem witness_rolls :
    ((rolling 1).passes 1 ∧ 2 < (rolling 1).len ∧ classify (rollWord 9 false 16 true).bits = .valid (rollWord 9 false 16 true) ∧
      (rollWord 9 false 16 true).kind = .roll ∧ (rollWord 9 false 16 true).malformed = false ∧
      (rollWord 9 false 16 true).rollLeaving = false ∧ (rollWord 9 false 16 true).sender = (rolling 1).timer.frame % 30 + 1 ∧
      (rollWord 9 false 16 true).sender ≠ (rolling 1).self ∧ (rolling 1).port.word = none ∧
      (rolling 1).control.state.onTrunk = true) ∧
    ((entering .joining).passes 1 ∧ 2 < (entering .joining).len ∧
      classify (rollWord 5 false 0 true).bits = .valid (rollWord 5 false 0 true) ∧
      (rollWord 5 false 0 true).sender = (entering .joining).timer.frame % 30 + 1 ∧
      (rollWord 5 false 0 true).sender = (entering .joining).self ∧
      (entering .joining).port.word = some (rollWord 5 false 0 true).bits ∧ (entering .joining).control.state = .joining ∧
      (entering .member).port.word = some (rollWord 5 false 0 true).bits ∧ (entering .member).control.state = .member) := by
  decide
/-- A holder whose own ROLL is DISTURBED and heard as LEAVING goes on holding (R31, R60). -/
theorem test_own_roll_disturbed :
    see (fun t => (t.timer.holder, t.events.records)) (.rollSlotEnd (rollWord 5 true 0 true).bits)
      { entering .member with timer := { (entering .member).timer with holder := some 5, holderFlag := true } } =
      some (some 5, []) := by decide

theorem witness_leaving_rolls :
    (classify (rollWord 9 true 0 false).bits = .valid (rollWord 9 true 0 false) ∧ (rollWord 9 true 0 false).kind = .roll ∧
      (rollWord 9 true 0 false).malformed = false ∧ (rollWord 9 true 0 false).rollLeaving = true ∧
      (rollWord 9 true 0 false).sender = (rolling 1).timer.frame % 30 + 1 ∧
      (rolling 1).timer.holder ≠ some (rollWord 9 true 0 false).sender) ∧
    ((entering .leaving).passes 1 ∧ 2 < (entering .leaving).len ∧ (entering .leaving).control.state = .leaving ∧
      (entering .leaving).timer.frame % 30 + 1 = (entering .leaving).self ∧
      (entering .leaving).port.word = some (rollWord 5 true 0 true).bits ∧
      classify (rollWord 5 true 0 true).bits = .valid (rollWord 5 true 0 true) ∧ (rollWord 5 true 0 true).kind = .roll ∧
      (rollWord 5 true 0 true).rollLeaving = true ∧
      outcomeOf (rollWord 5 true 0 true).bits (rollWord 5 true 0 true).bits ≠ .displaced ∧
      outcomeOf (rollWord 5 true 0 true).bits silence ≠ .displaced ∧
      outcomeOf (rollWord 5 true 0 true).bits (rollWord 2 false 0 true).bits = .displaced ∧
      outcomeOf (rollWord 5 true 0 true).bits (markWord 2 77 24).bits = .displaced) ∧
    (∀ w, classify (rollWord 2 false 0 true).bits = .valid w → w.sender ≠ (entering .leaving).self) ∧
    ∀ w, classify (markWord 2 77 24).bits = .valid w → w.sender ≠ (entering .leaving).self := by
  have h : classify (rollWord 2 false 0 true).bits = .valid (rollWord 2 false 0 true) := by decide
  have hm : classify (markWord 2 77 24).bits = .valid (markWord 2 77 24) := by decide
  exact ⟨by decide, by decide, of_heard h (by decide), of_heard hm (by decide)⟩

/-- Silence, a peer's ROLL in another's turn and a word of another kind, as missed rolls. -/
theorem witness_missed_rolls :
    ((rolling 1).passes 1 ∧ 2 < (rolling 1).len ∧ (rolling 1).control.state.onTrunk = true ∧ (rolling 1).port.word = none ∧
      9 = (rolling 1).timer.frame % 30 + 1 ∧ 9 ≠ (rolling 1).self ∧ (rolling 1).isPresent 9 = true ∧
      1 ≤ ((rolling 1).rosterEntry 9).missed ∧ ¬(1 ≤ ((rolling 0).rosterEntry 9).missed) ∧
      (rolling 0).isPresent 9 = true) ∧
    (∀ w, classify silence = .valid w → w.sender ≠ (rolling 1).self ∧ (w.kind = .roll → w.malformed = true ∨ w.sender ≠ 9) ∧
      (w.kind = .mark → w.malformed = true ∨ w.markLength = some (rolling 1).len)) ∧
    (∀ w, classify (rollWord 11 false 0 true).bits = .valid w → w.sender ≠ (rolling 1).self ∧
      (w.kind = .roll → w.malformed = true ∨ w.sender ≠ 9) ∧
      (w.kind = .mark → w.malformed = true ∨ w.markLength = some (rolling 1).len)) ∧
    ∀ w, classify (dataWord 9 1).bits = .valid w → w.sender ≠ (rolling 1).self ∧
      (w.kind = .roll → w.malformed = true ∨ w.sender ≠ 9) ∧
      (w.kind = .mark → w.malformed = true ∨ w.markLength = some (rolling 1).len) := by
  have h1 : classify (rollWord 11 false 0 true).bits = .valid (rollWord 11 false 0 true) := by decide
  have h2 : classify (dataWord 9 1).bits = .valid (dataWord 9 1) := by decide
  exact ⟨by decide, silence_word, of_heard h1 (by decide), of_heard h2 (by decide)⟩

/-- Self's own turn: its ROLL displaced by a peer's, or DISTURBED, and no ROLL of its own. -/
theorem witness_own_turns :
    ((entering .member).passes 1 ∧ 2 < (entering .member).len ∧
      (entering .member).timer.frame % 30 + 1 = (entering .member).self ∧
      (entering .member).port.word = some (rollWord 5 false 0 true).bits ∧
      outcomeOf (rollWord 5 false 0 true).bits (rollWord 2 false 0 true).bits = .displaced ∧
      outcomeOf (rollWord 5 false 0 true).bits (rollWord 9 false 0 true).bits = .disturbed ∧
      (inSlot .joining 1 true).port.word = none ∧
      (inSlot .joining 1 true).timer.frame % 30 + 1 = (inSlot .joining 1 true).self) ∧
    (∀ w, classify (rollWord 2 false 0 true).bits = .valid w → w.kind ≠ .mark) ∧
    (∀ w, classify (rollWord 9 false 0 true).bits = .valid w → w.kind ≠ .mark) ∧
    (∀ w, classify (rollWord 2 false 0 true).bits = .valid w → w.sender ≠ (entering .member).self) ∧
    ∀ b, (inSlot .joining 1 true).port.word = some b → outcomeOf b silence ≠ .sent := by
  have h1 : classify (rollWord 2 false 0 true).bits = .valid (rollWord 2 false 0 true) := by decide
  have h2 : classify (rollWord 9 false 0 true).bits = .valid (rollWord 9 false 0 true) := by decide
  refine ⟨by decide, of_heard h1 (by decide), of_heard h2 (by decide), of_heard h1 (by decide), ?_⟩
  intro b hb; cases hb

/-! #### Claims -/

/-- A MEMBER with `n` claim records of tags 0 up. -/
def queued (n : Nat) : State :=
  { asked .member with
    claims := { records := (List.range n).map (fun i => { record .any 0 false with tag := i }), tagCounter := 255
                contending := true } }

theorem witness_claims :
    ((asked .joining).host.state = .request ∧ (asked .joining).control.state ≠ .member) ∧
    ((asked .member).host.state = .request ∧ (asked .member).control.state = .member ∧ 3 < 4 ∧
      ¬(4 ≤ 3 ∧ 3 < (asked .member).len) ∧ ¬(4 ≤ 24 ∧ 24 < (asked .member).len)) ∧
    ((queued 8).host.state = .request ∧ (queued 8).control.state = .member ∧ 8 ≤ (queued 8).claims.records.length) ∧
    ((queued 7).host.state = .request ∧ (queued 7).control.state = .member ∧ (queued 7).claims.records.length < 8) ∧
    (3 ≤ 3 ∧ 4 ≤ 23 ∧ 23 < (queued 7).len ∧ ClaimArg.slot 23 = .slot 23 ∧ ClaimRequest.slot 23 = .slot 23 ∧ 7 < 8) := by decide
theorem witness_claim_cancel :
    ((asked .leaving).host.state = .request ∧ (asked .leaving).control.state ≠ .member) ∧
    ((queued 2).control.state = .member ∧ (∀ r ∈ (queued 2).claims.records, r.tag ≠ 255)) ∧
    ((queued 2).claims.records = { record .any 0 false with tag := 0 } :: [{ record .any 0 false with tag := 1 }] ∧
      (queued 2).claims.contending = true) ∧
    ((queued 2).claims.records = [{ record .any 0 false with tag := 0 }] ++ { record .any 0 false with tag := 1 } :: [] ∧
      (∀ x ∈ [{ record .any 0 false with tag := 0 }], x.tag ≠ 1) ∧ [{ record .any 0 false with tag := 0 }] ≠ []) := by decide
theorem witness_claim_start :
    (inSlot .member 2 false).awaits 2 ∧ (inSlot .member 2 false).control.state = .member ∧ (inSlot .leaving 2 false).awaits 2 ∧
    (inSlot .leaving 2 false).control.state ≠ .member := by decide
theorem witness_claim_words_own :
    ((claiming (record .any 0 false) (claimWord 5 2 2 0)).passes 2 ∧
      (claiming (record .any 0 false) (claimWord 5 2 2 0)).len ≤ 96 ∧
      (claiming (record .any 0 false) (claimWord 5 2 2 0)).control.state = .member ∧
      1 ≤ (claiming (record .any 0 false) (claimWord 5 2 2 0)).self ∧
      (claiming (record .any 0 false) (claimWord 5 2 2 0)).self ≤ 30 ∧
      (claiming (record .any 0 false) (claimWord 5 2 2 0)).claims.records = record .any 0 false :: [] ∧
      (claiming (record .any 0 false) (claimWord 5 2 2 0)).claims.contending = true ∧
      ((claiming (record .any 0 false) (claimWord 5 2 2 0)).entry 4).owner = none ∧
      (∀ m < 4, 4 ≤ m → ((claiming (record .any 0 false) (claimWord 5 2 2 0)).entry m).owner ≠ none) ∧
      (claiming (record .any 0 false) (claimWord 5 2 2 0)).port.word = some (claimWord (part .member).self 2 2 0).bits) ∧
    ((claiming (record (.slot 23) 0 false) (claimWord 5 2 1 23)).claims.records = record (.slot 23) 0 false :: [] ∧
      ((claiming (record (.slot 23) 0 false) (claimWord 5 2 1 23)).entry 23).owner = none ∧
      (claiming (record (.slot 23) 0 false) (claimWord 5 2 1 23)).port.word =
        some (claimWord (part .member).self 2 1 23).bits) := by decide

/-- Self's RELEASE of slot 7 on the line, the slot in role BULK. -/
def releasing : State := owning .bulk (claiming (record (.release 7) 0 false) (claimWord 5 0 3 7))

theorem witness_claim_words_release :
    releasing.passes 2 ∧ releasing.len ≤ 96 ∧ releasing.control.state = .member ∧ 1 ≤ releasing.self ∧ releasing.self ≤ 30 ∧
    releasing.claims.records = record (.release 7) 0 false :: [] ∧ releasing.claims.contending = true ∧ 4 ≤ 7 ∧
    7 < releasing.len ∧ (record (.release 7) 0 false).request = .release 7 ∧ (releasing.entry 7).owner = some releasing.self ∧
    releasing.port.word = some (claimWord releasing.self 0 3 7).bits := by decide

/-- Slot 2 with slot 23 owned by station 9. -/
def released : State := (inSlot .joining 2 true).setEntry 23 { SlotEntry.reset with owner := some 9 }

theorem witness_claim_words_peer :
    (released.passes 2 ∧ 3 < released.len ∧ released.len ≤ 96 ∧ released.control.state.onTrunk = true ∧
      released.port.word = none ∧ released.claims.contending = false) ∧
    (classify (claimWord 9 0 1 4).bits = .valid (claimWord 9 0 1 4) ∧ (claimWord 9 0 1 4).malformed = false ∧
      (claimWord 9 0 1 4).sender ≠ released.self ∧ (claimWord 9 0 1 4).claimCode = 1 ∧ (claimWord 9 0 1 4).claimSlot = 4 ∧
      (released.entry 4).owner = none) ∧
    (classify (claimWord 9 3 2 0).bits = .valid (claimWord 9 3 2 0) ∧ (claimWord 9 3 2 0).claimCode = 2 ∧
      ∀ m < 4, 4 ≤ m → (released.entry m).owner ≠ none) ∧
    (classify (claimWord 11 0 1 23).bits = .valid (claimWord 11 0 1 23) ∧ (claimWord 11 0 1 23).claimSlot = 23 ∧
      (released.entry 23).owner ≠ none) ∧
    (classify (claimWord 9 0 3 23).bits = .valid (claimWord 9 0 3 23) ∧ (claimWord 9 0 3 23).claimCode = 3 ∧
      (claimWord 9 0 3 23).claimSlot = 23 ∧ (released.entry 23).owner = some (claimWord 9 0 3 23).sender ∧
      (released.entry 23).role = none) := by decide

/-- No data slot is free, and slot 23 is not station 11's to release. -/
theorem witness_claim_words_idle :
    ({ released with table := Bank.fill 96 { SlotEntry.reset with owner := some 9 } } : State).passes 2 ∧
    (∀ m < 24, 4 ≤ m →
      (({ released with table := Bank.fill 96 { SlotEntry.reset with owner := some 9 } } : State).entry m).owner ≠ none) ∧
    classify (claimWord 11 0 3 23).bits = .valid (claimWord 11 0 3 23) ∧ (claimWord 11 0 3 23).claimCode = 3 ∧
    (claimWord 11 0 3 23).claimSlot = 23 ∧ (released.entry 23).owner ≠ some (claimWord 11 0 3 23).sender := by decide
theorem witness_lost_claims :
    (claiming (record .any 63 false) (claimWord 5 2 2 0)).tableOk ∧
    ((claiming (record .any 63 false) (claimWord 5 2 2 0)).passes 2 ∧
      3 < (claiming (record .any 63 false) (claimWord 5 2 2 0)).len ∧
      (claiming (record .any 63 false) (claimWord 5 2 2 0)).len ≤ 96 ∧
      (claiming (record .any 63 false) (claimWord 5 2 2 0)).control.state = .member ∧
      (claiming (record .any 63 false) (claimWord 5 2 2 0)).claims.records = record .any 63 false :: [] ∧
      (claiming (record .any 63 false) (claimWord 5 2 2 0)).claims.contending = true) ∧
    (claiming (record .any 62 true) (claimWord 5 2 2 0)).claims.records = record .any 62 true :: [] ∧
    (∀ b, (claiming (record .any 63 false) (claimWord 5 2 2 0)).port.word = some b → b ≠ silence) ∧
    (∀ w, classify silence = .valid w → w.sender ≠ 5) ∧
    (∀ b, (claiming (record .any 63 false) (claimWord 5 2 2 0)).port.word = some b → b ≠ (claimWord 9 0 1 23).bits) ∧
    (∀ w, classify (claimWord 9 0 1 23).bits = .valid w → w.sender ≠ 5) ∧
    (classify (claimWord 9 0 1 23).bits = .valid (claimWord 9 0 1 23) ∧ (claimWord 9 0 1 23).malformed = false ∧
      (claimWord 9 0 1 23).claimCode = 1 ∧ (claimWord 9 0 1 23).claimSlot = 23) := by
  have h : classify (claimWord 9 0 1 23).bits = .valid (claimWord 9 0 1 23) := by decide
  refine ⟨⟨by decide, by decide, by decide, by decide⟩, by decide, by decide, ?_, silence_word, ?_, of_heard h (by decide),
    by decide⟩
  · intro b hb; cases hb; decide
  · intro b hb; cases hb; decide

/-! #### Allocation table -/

theorem witness_set_role :
    ((asked .joining).host.state = .request ∧ (asked .joining).control.state ≠ .member ∧
      (asked .joining).control.state ≠ .leaving) ∧
    ((asked .member).control.state = .member ∧ ¬(4 ≤ 3 ∧ 3 < (asked .member).len) ∧ 8 ≤ 8) ∧
    ((owning .bulk (asked .leaving)).host.state = .request ∧ (owning .bulk (asked .leaving)).control.state = .leaving ∧
      4 ≤ 7 ∧ 7 < (owning .bulk (asked .leaving)).len ∧ 7 < 8) := by decide
theorem witness_lapse :
    lapsing.passes 7 ∧ 4 ≤ 7 ∧ 7 < lapsing.len ∧ lapsing.len ≤ 96 ∧ lapsing.control.state.onTrunk = true ∧
    lapsing.control.observing = false ∧ lapsing.port.word ≠ some (BitVec.allOnes 40) ∧ (lapsing.entry 7).owner = some 9 ∧
    (lapsing.entry 7).silence = 7 := by decide

/-- Self's word in its own slot, with station 9 PRESENT. -/
def displaced (w : SlotWord) : State :=
  sending w ((owning .bulk (inSlot .leaving 7 true)).setRoster 9 { RosterEntry.reset with present := true })

theorem witness_own_lapse :
    ((displaced (fillWord 5)).setEntry 7 { SlotEntry.reset with owner := some 5, silence := 7, role := some .bulk }).passes 7 ∧
    ((displaced (fillWord 5)).setEntry 7
      { SlotEntry.reset with owner := some 5, silence := 7, role := some .bulk }).port.word ≠ some (BitVec.allOnes 40) ∧
    (((displaced (fillWord 5)).setEntry 7
      { SlotEntry.reset with owner := some 5, silence := 7, role := some .bulk }).entry 7).silence = 7 := by decide
theorem witness_owners_windows : lapsing.windowsOk ∧ (displaced (fillWord 5)).windowsOk := ⟨by decide, by decide⟩
theorem witness_owners :
    (lapsing.passes 7 ∧ lapsing.control.state = .member ∧ lapsing.control.observing = false ∧
      lapsing.port.word = none ∧ classify (tailWord 11 1).bits = .valid (tailWord 11 1) ∧ (tailWord 11 1).kind = .tail ∧
      (tailWord 11 1).sender ≠ lapsing.self ∧ (lapsing.entry 7).owner ≠ some (tailWord 11 1).sender ∧
      (lapsing.entry 7).owner ≠ some lapsing.self) ∧
    ((displaced (fillWord 5)).passes 7 ∧ (displaced (fillWord 5)).len ≤ 96 ∧
      (displaced (fillWord 5)).control.state = .leaving ∧ (displaced (fillWord 5)).control.observing = false ∧
      (displaced (fillWord 5)).port.word = some (fillWord 5).bits ∧
      outcomeOf (fillWord 5).bits (dataWord 9 1).bits = .displaced ∧ classify (dataWord 9 1).bits = .valid (dataWord 9 1) ∧
      (dataWord 9 1).kind = .data ∧ (displaced (fillWord 5)).isPresent (dataWord 9 1).sender = true ∧
      ((displaced (fillWord 5)).entry 7).owner = some (displaced (fillWord 5)).self) := by decide

/-- A PRESENT peer's word, an ABSENT one's, a word of another kind and CORRUPT, as what displaces self's word. -/
theorem witness_displaced_owners :
    (∀ w, classify (dataWord 9 1).bits = .valid w → w.sender ≠ (displaced (fillWord 5)).self) ∧
    (∀ w, classify (dataWord 11 1).bits = .valid w → w.sender ≠ (displaced (fillWord 5)).self) ∧
    (∀ w, classify (rollWord 2 false 0 true).bits = .valid w → w.sender ≠ (displaced (fillWord 5)).self) ∧
    (∀ w, classify (0#40) = .valid w → w.sender ≠ (displaced (fillWord 5)).self) ∧
    (outcomeOf (fillWord 5).bits (dataWord 11 1).bits = .displaced ∧
      outcomeOf (fillWord 5).bits (rollWord 2 false 0 true).bits = .displaced ∧
      outcomeOf (fillWord 5).bits (0#40) = .displaced ∧ (displaced (fillWord 5)).isPresent 11 = false) := by
  have h1 : classify (dataWord 9 1).bits = .valid (dataWord 9 1) := by decide
  have h2 : classify (dataWord 11 1).bits = .valid (dataWord 11 1) := by decide
  have h3 : classify (rollWord 2 false 0 true).bits = .valid (rollWord 2 false 0 true) := by decide
  exact ⟨of_heard h1 (by decide), of_heard h2 (by decide), of_heard h3 (by decide), corrupt_word, by decide⟩

/-- Silence in place of self's word, and a HEAD with self's address and destination in place of another HEAD. -/
theorem witness_disturbed_owners :
    ((displaced (fillWord 5)).passes 7 ∧ outcomeOf (fillWord 5).bits silence = .disturbed ∧
      ((displaced (fillWord 5)).entry 7).owner = some (displaced (fillWord 5)).self ∧
      ((displaced (fillWord 5)).entry 7).silence < 7) ∧
    ((displaced (headWord 5 1 2 false 0)).passes 7 ∧
      (displaced (headWord 5 1 2 false 0)).port.word = some (headWord 5 1 2 false 0).bits ∧
      outcomeOf (headWord 5 1 2 false 0).bits (headWord 5 5 2 false 0).bits = .disturbed ∧
      classify (headWord 5 5 2 false 0).bits = .valid (headWord 5 5 2 false 0) ∧ (headWord 5 5 2 false 0).kind = .head ∧
      (headWord 5 5 2 false 0).malformed = false ∧
      (headWord 5 5 2 false 0).headDest = (displaced (headWord 5 1 2 false 0)).self ∧
      (headWord 5 5 2 false 0).sender = (displaced (headWord 5 1 2 false 0)).self) := by decide
theorem witness_disturbed_windows : (displaced (headWord 5 1 2 false 0)).windowsOk := by decide

/-- A HEAD with self's own address as sender and destination opens no window (R157). -/
theorem test_head_of_own_address :
    see (fun t => (t.windowAt 2).state) (.dataSlotEnd (headWord 5 5 2 false 0).bits)
      (withWindow (Window.openedWith 8190 2 none) (displaced (headWord 5 1 2 false 0))) = some .opened := by decide

/-- The last data slot of the observation frame. -/
def observing : State :=
  { inSlot .joining 23 true with control := { (inSlot .joining 23 true).control with observing := true } }

theorem witness_observation :
    (observing.passes 23 ∧ 4 ≤ 23 ∧ 23 < observing.len ∧ observing.len ≤ 96 ∧ observing.control.state = .joining ∧
      observing.control.observing = true ∧ observing.port.word = none) ∧
    (∀ w, classify (dataWord 9 1).bits = .valid w → w.sender ≠ 5) ∧
    (∀ w, classify (dataWord 9 1).bits = .valid w → w.kind ≠ .mark) := by
  have h : classify (dataWord 9 1).bits = .valid (dataWord 9 1) := by decide
  exact ⟨by decide, of_heard h (by decide), of_heard h (by decide)⟩

/-! #### Stream channels -/

theorem witness_channel_commands :
    ((asked .off).host.state = .request ∧ (asked .off).control.state = .off ∧ (asked .fault).control.state = .fault) ∧
    ((asked .listen).host.state = .request ∧ (asked .listen).control.state ≠ .off ∧ (asked .listen).control.state ≠ .fault ∧
      8 ≤ 8 ∧ 3 < 4 ∧ (asked .listen).len ≤ 24 ∧ 5 = (asked .listen).self) ∧
    7 < 8 ∧ 4 ≤ 23 ∧ 23 < (asked .listen).len ∧ 1 ≤ 30 ∧ 30 ≤ 30 ∧ 30 ≠ (asked .listen).self := by decide
theorem witness_stream_slots :
    ((owning (.stream 1) (inSlot .member 7 false)).awaits 7 ∧ 4 ≤ 7 ∧ 7 < (owning (.stream 1) (inSlot .member 7 false)).len ∧
      (owning (.stream 1) (inSlot .member 7 false)).control.state = .member ∧
      ((owning (.stream 1) (inSlot .member 7 false)).entry 7).owner = some (owning (.stream 1) (inSlot .member 7 false)).self ∧
      ((owning (.stream 1) (inSlot .member 7 false)).entry 7).role = some (.stream 1) ∧
      ((owning (.stream 1) (inSlot .member 7 false)).txAt 1).queue = []) ∧
    (((owning (.stream 1) (inSlot .member 7 false)).setTx 1 { TxChannel.reset with queue := [77, 78] }).txAt 1).queue =
      77 :: [78] ∧
    ((owning .spare (inSlot .leaving 7 false)).awaits 7 ∧
      ((owning .spare (inSlot .leaving 7 false)).entry 7).role = some .spare) ∧
    ((inSlot .member 23 false).awaits 23 ∧ ((inSlot .member 23 false).entry 23).owner ≠ some (inSlot .member 23 false).self) ∧
    (inSlot .joining 4 false).awaits 4 ∧ ¬((inSlot .joining 4 false).control.state = .member) := by decide

/-- Channel 7 bound to slot 7, with `n` entries held. -/
def bound (n : Nat) (gaps : Bool) : State :=
  (inSlot .joining 7 true).setRx 7
    { RxChannel.reset with
      binding := some { slot := 7, expected := some 9, policy := .keepOldest, gaps := gaps }
      queue := List.replicate n { frame := 1, content := .value 1 } }

theorem witness_receive :
    ((bound 16 true).passes 7 ∧ 4 ≤ 7 ∧ 7 < (bound 16 true).len ∧ (bound 16 true).control.state.onTrunk = true ∧
      ((bound 16 true).rxAt 7).binding = some { slot := 7, expected := some 9, policy := .keepOldest, gaps := true } ∧
      ((bound 16 true).rxAt 0).binding = none) ∧
    (classify (dataWord 11 1).bits = .valid (dataWord 11 1) ∧ (dataWord 11 1).kind = .data ∧ (dataWord 11 1).sender ≠ 9) ∧
    (classify (dataWord 9 1).bits = .valid (dataWord 9 1) ∧ (dataWord 9 1).sender = 9) ∧
    (classify (fillWord 9).bits = .valid (fillWord 9) ∧ classify (tailWord 9 1).bits = .valid (tailWord 9 1) ∧
      classify (0#40) = .corrupt ∧ classify silence = .silent) ∧
    ((bound 0 false).rxAt 7).binding = some { slot := 7, expected := some 9, policy := .keepOldest, gaps := false } ∧
    ({ frame := (bound 16 true).timer.frame, content := .gap .silent } : RxEntry).frame = (bound 16 true).timer.frame := by
  decide
theorem witness_receive_next :
    (∀ w, classify silence = .valid w → w.sender ≠ 5 ∧
      (w.kind = .mark → w.malformed = false → w.markLength = some (bound 16 true).len ∨ (bound 16 true).control.state ≠ .joining)) ∧
    (∀ w, classify silence = .valid w → w.kind ≠ .data) ∧
    (∀ w, classify (dataWord 9 1).bits = .valid w → w.sender ≠ 5 ∧
      (w.kind = .mark → w.malformed = false → w.markLength = some (bound 16 true).len ∨ (bound 16 true).control.state ≠ .joining)) ∧
    (∀ w, classify (markWord 2 0 24).bits = .valid w → w.sender ≠ 5 ∧
      (w.kind = .mark → w.malformed = false → w.markLength = some (bound 16 true).len ∨ (bound 16 true).control.state ≠ .joining)) ∧
    (classify (markWord 2 0 24).bits = .valid (markWord 2 0 24) ∧ (markWord 2 0 24).kind ≠ .data ∧
      (markWord 2 0 24).kind ≠ .fill) ∧
    (∃ t, exec (.dataSlotEnd silence) (bound 16 true) = .next t) ∧
    (∃ t, exec (.dataSlotEnd (markWord 2 0 24).bits) (bound 16 true) = .next t) ∧
    ∃ t, exec (.dataSlotEnd (dataWord 9 1).bits) (bound 16 true) = .next t := by
  have h : classify (dataWord 9 1).bits = .valid (dataWord 9 1) := by decide
  have h2 : classify (markWord 2 0 24).bits = .valid (markWord 2 0 24) := by decide
  exact ⟨silence_word, silence_word, of_heard h (by decide), of_heard h2 (by decide), by decide, ⟨_, rfl⟩, ⟨_, rfl⟩, ⟨_, rfl⟩⟩

/-! #### Bulk sender -/

/-- Four used records. -/
def fullTable : State :=
  { asked .member with jobs := [0, 1, 2, 3].map (fun i => { job .done 3 0 0 0 false with id := i }) }

theorem witness_job_commands :
    ((asked .leaving).host.state = .request ∧ (asked .leaving).control.state ≠ .member) ∧
    ((asked .member).control.state = .member ∧ 30 < 31 ∧ 5 = (asked .member).self ∧ 8192 < 8191 + 2) ∧
    (1 ≤ 30 ∧ 30 ≤ 30 ∧ 30 ≠ (asked .member).self ∧ 3 < 4 ∧ 1 ≤ 4096 ∧ 4096 ≤ 4096 ∧ 4096 + 4096 ≤ 8192 ∧
      (asked .member).job 0 = none) ∧
    (fullTable.host.state = .request ∧ fullTable.control.state = .member ∧ (∀ id < 4, fullTable.job id ≠ none)) ∧
    ((asked .off).control.state = .off ∧ 4 ≤ 4 ∧ (asked .member).job 3 = none) ∧
    ((withJob (job .awaitAnswer 3 16 4 8 false) (asked .fault)).control.state ≠ .off ∧
      (withJob (job .awaitAnswer 3 16 4 8 false) (asked .fault)).jobs = [] ++ job .awaitAnswer 3 16 4 8 false :: [] ∧
      (job .awaitAnswer 3 16 4 8 false).id < 4 ∧ (job .awaitAnswer 3 16 4 8 false).state = .awaitAnswer ∧
      (∀ x ∈ ([] : List Job) ++ [], x.id ≠ (job .awaitAnswer 3 16 4 8 false).id)) ∧
    (job .cancelled 0 0 0 0 true).state = .cancelled := by decide

/-- A job and its own BULK slot, about to begin. -/
def bulkTurn (j : Job) : State := withJob j (owning .bulk (inSlot .member 7 false))

theorem witness_bulk_slots_jobs :
    (bulkTurn (job .sending 3 0 0 0 false)).jobsOk ∧ (bulkTurn (job .sending 0 0 0 0 true)).jobsOk ∧
    (bulkTurn (job .sending 2 0 0 0 false)).jobsOk ∧ (bulkTurn (job .queued 3 0 0 0 true)).jobsOk ∧
    (bulkTurn (job .done 3 0 0 0 false)).jobsOk := ⟨by decide, by decide, by decide, by decide, by decide⟩
theorem witness_bulk_slots :
    ((bulkTurn (job .sending 3 0 0 0 false)).awaits 7 ∧
      7 < (bulkTurn (job .sending 3 0 0 0 false)).len ∧ (bulkTurn (job .sending 3 0 0 0 false)).control.state = .member ∧
      ((bulkTurn (job .sending 3 0 0 0 false)).entry 7).owner = some (bulkTurn (job .sending 3 0 0 0 false)).self ∧
      ((bulkTurn (job .sending 3 0 0 0 false)).entry 7).role = some .bulk ∧
      (bulkTurn (job .sending 3 0 0 0 false)).jobs = [] ++ job .sending 3 0 0 0 false :: [] ∧
      (job .sending 3 0 0 0 false).slot = some 7 ∧ (job .sending 3 0 0 0 false).state = .sending) ∧
    ((bulkTurn (job .queued 3 0 0 0 true)).jobs = [] ++ job .queued 3 0 0 0 true :: [] ∧
      (job .queued 3 0 0 0 true).state = .queued ∧ (job .queued 3 0 0 0 true).headDue = true ∧
      (∀ x ∈ (bulkTurn (job .queued 3 0 0 0 true)).jobs, x.slot ≠ some 7)) ∧
    (∀ x ∈ (bulkTurn (job .done 3 0 0 0 false)).jobs, x.state ≠ .queued ∧ x.slot ≠ some 7) := by decide
theorem witness_waiting :
    ((waiting 4).jobsOk ∧ (waiting 4).awaits 7 ∧ 7 < (waiting 4).len ∧ (waiting 4).control.state = .member ∧
      ((waiting 4).entry 7).owner = some (waiting 4).self ∧ ((waiting 4).entry 7).role = some .bulk ∧
      (waiting 4).jobs = [] ++ job .awaitAnswer 3 16 4 0 false :: [] ∧ (job .awaitAnswer 3 16 4 0 false).slot = some 7 ∧
      (job .awaitAnswer 3 16 4 0 false).state = .awaitAnswer ∧ (job .awaitAnswer 3 16 4 0 false).timer = 16 ∧
      (job .awaitAnswer 3 16 4 0 false).resends = 4) ∧
    ((waiting 3).jobsOk ∧ (job .awaitAnswer 3 16 3 0 false).resends < 4) ∧
    ((bulkTurn (job .awaitAnswer 3 15 0 0 false)).jobsOk ∧ (bulkTurn (job .awaitAnswer 3 15 0 0 false)).awaits 7 ∧
      (job .awaitAnswer 3 15 0 0 false).timer < 16) := by decide

/-- The job that waits in slot 7, with a QUEUED job posted before it. -/
def relieved : State :=
  { waiting 4 with jobs := [{ job .queued 3 0 0 0 true with id := 0 }, job .awaitAnswer 3 16 4 0 false] }

theorem witness_waiting_relieved :
    relieved.jobsOk ∧ relieved.awaits 7 ∧ 7 < relieved.len ∧ relieved.control.state = .member ∧
    (relieved.entry 7).owner = some relieved.self ∧ (relieved.entry 7).role = some .bulk ∧
    relieved.jobs = [{ job .queued 3 0 0 0 true with id := 0 }] ++ job .awaitAnswer 3 16 4 0 false :: [] ∧
    [{ job .queued 3 0 0 0 true with id := 0 }] ++
        { job .awaitAnswer 3 16 4 0 false with state := .failed, result := some .noAnswer, slot := none } :: [] =
      [] ++ { job .queued 3 0 0 0 true with id := 0 } ::
        [{ job .awaitAnswer 3 16 4 0 false with state := .failed, result := some .noAnswer, slot := none }] ∧
    ({ job .queued 3 0 0 0 true with id := 0 } : Job).state = .queued ∧
    ({ job .queued 3 0 0 0 true with id := 0 } : Job).headDue = true := by decide

/-- A job in an answer slot. -/
def hearing (j : Job) : State := withJob j (inSlot .member 3 true)

theorem witness_answers_to_jobs :
    ((hearing (job .awaitAnswer 3 0 0 7 false)).passes 3 ∧ 4 < (hearing (job .awaitAnswer 3 0 0 7 false)).len ∧
      (hearing (job .awaitAnswer 3 0 0 7 false)).control.state = .member ∧
      (hearing (job .awaitAnswer 3 0 0 7 false)).port.word = none ∧
      (hearing (job .awaitAnswer 3 0 0 7 false)).answers.contending = false ∧
      (hearing (job .awaitAnswer 3 0 0 7 false)).jobs = [] ++ job .awaitAnswer 3 0 0 7 false :: [] ∧
      (job .awaitAnswer 3 0 0 7 false).live = true ∧ (job .awaitAnswer 3 0 0 7 false).dest = 9 ∧
      (job .awaitAnswer 3 0 0 7 false).window = 2 ∧ (job .awaitAnswer 3 0 0 7 false).rewinds < 8 ∧
      8 ≤ (job .sending 3 0 0 8 false).rewinds) ∧
    (classify (answerWord 9 5 2 1 0 4096).bits = .valid (answerWord 9 5 2 1 0 4096) ∧
      (answerWord 9 5 2 1 0 4096).kind = .answer ∧ (answerWord 9 5 2 1 0 4096).malformed = false ∧
      (answerWord 9 5 2 1 0 4096).sender = 9 ∧ (answerWord 9 5 2 1 0 4096).answerTarget = 5 ∧
      (answerWord 9 5 2 1 0 4096).answerWindow = 2 ∧ (answerWord 9 5 2 1 0 4096).answerCode = 1) ∧
    (classify (answerWord 9 5 2 2 0 0).bits = .valid (answerWord 9 5 2 2 0 0) ∧ (answerWord 9 5 2 2 0 0).answerCode = 2) ∧
    (classify (answerWord 9 5 2 3 3 0).bits = .valid (answerWord 9 5 2 3 3 0) ∧ (answerWord 9 5 2 3 3 0).answerCode = 3 ∧
      (answerWord 9 5 2 3 3 0).answerReason = 3) := by decide

/-! #### Bulk receiver -/

theorem witness_window_commands :
    ((asked .fault).host.state = .request ∧ (asked .fault).control.state = .fault ∧ (asked .off).control.state = .off) ∧
    ((asked .listen).control.state ≠ .off ∧ (asked .listen).control.state ≠ .fault ∧ 8192 < 8191 + 2 ∧ 4096 < 4097 ∧
      5 = (asked .listen).self) ∧
    (3 < 4 ∧ 1 ≤ 4096 ∧ 4096 ≤ 4096 ∧ 4096 + 4096 ≤ 8192 ∧ 1 ≤ 30 ∧ 30 ≠ (asked .listen).self) ∧
    4 ≤ 4 := by decide
theorem witness_answers_contend :
    ((answering 3 false 0).awaits 3 ∧ (answering 3 true 31).passes 3 ∧ 4 < (answering 3 true 31).len ∧
      (answering 3 true 31).control.state = .member ∧
      (answering 3 true 31).port.word = some (answerWord 5 9 2 1 0 4096).bits ∧ (answering 3 true 31).answers.contending = true ∧
      (answering 3 true 31).answers.answers =
        { window := 2, target := 9, verdict := .done, count := 4096, lost := 31 } :: []) ∧
    (∀ w, classify (answerWord 5 9 2 1 0 4096).bits = .valid w → w.kind ≠ .mark) ∧
    (∀ w, classify (answerWord 5 9 2 1 0 4096).bits = .valid w → w.kind = .answer → w.answerTarget ≠ 5) ∧
    (∀ w, classify silence = .valid w → w.kind ≠ .mark) ∧
    (∀ w, classify silence = .valid w → w.kind = .answer → w.answerTarget ≠ 5) ∧
    silence ≠ (answerWord 5 9 2 1 0 4096).bits ∧ ∀ w, classify silence = .valid w → w.sender ≠ 5 := by
  have h : classify (answerWord 5 9 2 1 0 4096).bits = .valid (answerWord 5 9 2 1 0 4096) := by decide
  exact ⟨by decide, of_heard h (by decide), of_heard h (by decide), silence_word, silence_word, by decide, silence_word⟩

/-- Window 2 as given, the occurrence of slot 7 passing. -/
def receiving (x : Window) : State := withWindow x (inSlot .member 7 true)

/-- An OPEN window of two words that a station may be bound to. -/
def openWindow (allowed : Option Nat) : Window := Window.openedWith 8190 2 allowed

/-- The hypotheses on window 2 that the state settles: it alone has slot 7 as its sender slot. -/
abbrev alone (x : Window) : Prop :=
  (receiving x).windowAt 2 = x ∧ (receiving x).passes 7 ∧ 7 < (receiving x).len ∧ (receiving x).control.state = .member ∧
  (receiving x).port.word = none ∧ ∀ m < 4, m ≠ 2 → ((receiving x).windowAt m).senderSlot ≠ some 7

/-- A COMPLETE window, and a STALLED one with its stall origin. -/
def completed : Window := { window .complete 2 0 with recorded := some 2 }
def stalledFrom (origin : StallOrigin) : Window := { window .stalled 1 64 with origin := some origin }

/-- Words of station 9 in slot 7 that may be heard: none is self's and none is BULK. -/
theorem heard_from {v : SlotWord} (h : classify v.bits = .valid v) (hs : v.sender ≠ 5) (hk : v.kind ≠ .bulk) :
    ∀ w, classify v.bits = .valid w → w.sender ≠ 5 ∧ w.kind ≠ .bulk := of_heard h ⟨hs, hk⟩

theorem witness_heads :
    (∀ x ∈ [openWindow none, openWindow (some 11), Window.closed, completed], alone x) ∧
    (classify (headWord 9 5 2 false 0).bits = .valid (headWord 9 5 2 false 0) ∧ (headWord 9 5 2 false 0).kind = .head ∧
      (headWord 9 5 2 false 0).malformed = false ∧ (headWord 9 5 2 false 0).sender ≠ 5 ∧ (headWord 9 5 2 false 0).headDest = 5 ∧
      (headWord 9 5 2 false 0).headWindow = 2 ∧ (headWord 9 5 2 false 0).headOffset = 0 ∧ (openWindow none).state = .opened ∧
      (openWindow none).allowed = none ∧ (openWindow (some 11)).allowed ≠ none ∧
      (openWindow (some 11)).allowed ≠ some (headWord 9 5 2 false 0).sender ∧ Window.closed.state = .closed) ∧
    (classify (headWord 9 5 2 true 2).bits = .valid (headWord 9 5 2 true 2) ∧ (headWord 9 5 2 true 2).malformed = false ∧
      (headWord 9 5 2 true 2).headOffset ≠ 0 ∧ completed.state = .complete ∧
      completed.sender = some (headWord 9 5 2 true 2).sender ∧ (headWord 9 5 2 true 2).headResume = true ∧
      completed.recorded = some (headWord 9 5 2 true 2).headOffset) := by decide

theorem witness_heads_in_block :
    (∀ x ∈ [window .gap 1 0, window .receiving 1 0, stalledFrom .gap], alone x) ∧
    (classify (headWord 9 5 2 true 1).bits = .valid (headWord 9 5 2 true 1) ∧
      (window .gap 1 0).sender = some (headWord 9 5 2 true 1).sender ∧
      (headWord 9 5 2 true 1).headOffset ≤ (window .gap 1 0).count) ∧
    (window .receiving 1 0).count < (headWord 9 5 2 true 2).headOffset ∧
    (classify (headWord 11 5 2 false 0).bits = .valid (headWord 11 5 2 false 0) ∧
      (stalledFrom .gap).sender ≠ some (headWord 11 5 2 false 0).sender ∧ (stalledFrom .gap).state = .stalled) ∧
    (classify (headWord 9 5 3 false 0).bits = .valid (headWord 9 5 3 false 0) ∧ (headWord 9 5 3 false 0).malformed = false ∧
      (headWord 9 5 3 false 0).headWindow ≠ 2 ∧ (headWord 9 5 3 false 0).sender ≠ 5 ∧
      classify (headWord 9 11 2 false 0).bits = .valid (headWord 9 11 2 false 0) ∧ (headWord 9 11 2 false 0).headDest ≠ 5 ∧
      (window .receiving 1 0).senderSlot = some 7) := by decide

theorem witness_tails :
    (∀ x ∈ [window .receiving 2 63, stalledFrom .receiving, completed, window .gap 1 0], alone x) ∧
    (classify (tailWord 9 2).bits = .valid (tailWord 9 2) ∧ (tailWord 9 2).kind = .tail ∧ (tailWord 9 2).malformed = false ∧
      (window .receiving 2 63).sender = some (tailWord 9 2).sender ∧ (window .receiving 2 63).senderSlot = some 7 ∧
      (window .receiving 2 63).count = (tailWord 9 2).tailLength ∧ (stalledFrom .receiving).count < (tailWord 9 2).tailLength ∧
      completed.recorded = some (tailWord 9 2).tailLength) ∧
    (classify (tailWord 9 1).bits = .valid (tailWord 9 1) ∧ (tailWord 9 1).malformed = false ∧
      (tailWord 9 1).tailLength < (window .receiving 2 63).count ∧ completed.recorded ≠ some (tailWord 9 1).tailLength) ∧
    classify (0#40) = .corrupt ∧
    (∀ w, classify (0#40) = .valid w → w.sender ≠ 5 ∧ w.kind ≠ .bulk) ∧
    (∀ w, classify (headWord 9 5 2 false 0).bits = .valid w → w.sender ≠ 5 ∧ w.kind ≠ .bulk) ∧
    ∀ w, classify (tailWord 9 2).bits = .valid w → w.sender ≠ 5 ∧ w.kind ≠ .bulk :=
  ⟨by decide, by decide, by decide, by decide, corrupt_word, heard_from (by decide) (by decide) (by decide),
    heard_from (by decide) (by decide) (by decide)⟩

/-- The last word of the window, at buffer address 8191, a word past its capacity, and a word in each kind of stall. -/
theorem witness_bulk_words_windows :
    (receiving (window .receiving 1 0)).windowsOk ∧ (receiving (window .receiving 2 0)).windowsOk ∧
    (receiving (stalledFrom .gap)).windowsOk ∧ (receiving (stalledFrom .receiving)).windowsOk :=
  ⟨by decide, by decide, by decide, by decide⟩
theorem witness_bulk_words :
    (∀ x ∈ [window .receiving 1 0, window .receiving 2 0, stalledFrom .gap, stalledFrom .receiving], alone x) ∧
    (classify (bulkWord 9 77).bits = .valid (bulkWord 9 77) ∧ (bulkWord 9 77).kind = .bulk ∧ (bulkWord 9 77).sender ≠ 5 ∧
      (window .receiving 1 0).sender = some (bulkWord 9 77).sender ∧ (window .receiving 1 0).senderSlot = some 7 ∧
      (window .receiving 1 0).base = some 8190 ∧ (window .receiving 1 0).capacity = some 2 ∧
      (window .receiving 1 0).count < 2 ∧ ¬(window .receiving 2 0).count < 2 ∧ (stalledFrom .gap).state = .stalled ∧
      (stalledFrom .gap).origin = some .gap ∧ (stalledFrom .receiving).origin = some .receiving) := by decide

/-- SILENT, CORRUPT and a BULK word in GAP, another station's HEAD for another station, a realigning MARK, and a word of
self's own, below the threshold and at it. -/
theorem witness_stalls :
    (∀ x ∈ [window .receiving 1 63, window .gap 1 63, window .receiving 1 62], alone x) ∧
    (receiving (window .receiving 1 63)).windowsOk ∧ (receiving (window .gap 1 63)).windowsOk ∧
    (receiving (window .receiving 1 62)).windowsOk ∧
    (classify silence = .silent ∧ classify (0#40) = .corrupt ∧ classify (bulkWord 9 77).bits = .valid (bulkWord 9 77) ∧
      (bulkWord 9 77).kind ≠ .head ∧ (bulkWord 9 77).kind ≠ .tail ∧ (window .gap 1 63).sender = some (bulkWord 9 77).sender ∧
      classify (headWord 11 9 2 false 0).bits = .valid (headWord 11 9 2 false 0) ∧ (headWord 11 9 2 false 0).headDest ≠ 5 ∧
      (window .receiving 1 63).sender ≠ some (headWord 11 9 2 false 0).sender ∧
      classify (markWord 2 77 24).bits = .valid (markWord 2 77 24) ∧ (markWord 2 77 24).kind = .mark ∧
      (window .receiving 1 63).sender ≠ some (markWord 2 77 24).sender) ∧
    (∀ w, classify silence = .valid w → w.sender = 5 → ∃ b, (receiving (window .receiving 1 63)).port.word = some b ∧
      outcomeOf b silence ≠ .displaced) ∧
    ∀ w, classify (fillWord 5).bits = .valid w → w.sender = 5 →
      ∃ b, (sending (fillWord 5) (receiving (window .receiving 1 63))).port.word = some b ∧
        outcomeOf b (fillWord 5).bits ≠ .displaced :=
  ⟨by decide, by decide, by decide, by decide, by decide, silence_word, fun _ _ _ => ⟨_, rfl, by decide⟩⟩

/-! #### Buffer memory and events -/

theorem witness_memory :
    (asked .off).host.state = .request ∧ 1 ≤ (List.replicate 64 (5 : DataWord)).length ∧
    (List.replicate 64 (5 : DataWord)).length ≤ 64 ∧ 8128 + (List.replicate 64 (5 : DataWord)).length ≤ 8192 ∧
    8192 < 8129 + (List.replicate 64 (5 : DataWord)).length := by decide
theorem witness_memory_read_back :
    ∃ t u : State, exec (.memoryWrite 8191 [5]) (asked .off) = .next t ∧ u.buffer = t.buffer ∧ u.host.state = .request :=
  ⟨_, { asked .off with buffer := (Buffer.mk [(8191, 5)] 0) }, rfl, rfl, rfl⟩
theorem witness_events :
    ((asked .off).host.state = .request ∧ 1 ≤ 8 ∧ 8 ≤ 8 ∧ ¬(1 ≤ 9 ∧ 9 ≤ 8) ∧ ¬(1 ≤ 0 ∧ 0 ≤ 8)) ∧
    (EventQueue.reset.lost = none ∧ EventQueue.reset.records.length < 31) ∧
    (({ records := List.replicate 31 (Event.of .noTrunk 0), lost := none } : EventQueue).records.length = 31) ∧
    ({ records := [], lost := some { frame := 1, count := 65535 } } : EventQueue).lost = some { frame := 1, count := 65535 } := by
  decide

/-! #### Invariants: a busy MEMBER, in the occurrence of slot 7 -/

/-- A record contends, a job sends, a window receives, an answer waits, a word of buffer memory is written and an event
stands. -/
def busy : State :=
  { (receiving (window .receiving 1 63)).setRoster 5 { RosterEntry.reset with present := true, held := some 0 } with
    claims := { records := [record .any 63 false], tagCounter := 4, contending := true }
    jobs := [job .queued 1 0 0 0 true]
    answers := { answers := [{ window := 2, target := 9, verdict := .rewind, count := 1, lost := 31 }], contending := false }
    buffer := { cells := [(8190, 77)], powerOns := 0 }
    events := { records := [Event.of .noTrunk 0], lost := none }
    pending := [.dataSlotEnd silence] }

theorem witness_busy_sound : busy.sound :=
  ⟨by decide, ⟨by decide, by decide⟩, by decide, by decide, by decide, by decide,
   ⟨by decide, by decide, by decide, by decide, by decide, by decide, by decide⟩,
   ⟨by decide, by decide, by decide, by decide, by decide⟩, ⟨by decide, by decide, by decide, by decide⟩, by decide⟩
theorem witness_busy_steps : ∃ t, step busy = .next t := ⟨_, rfl⟩

end Sys2Proof.Tests
end

