-- ==== Sys2Proof/Proofs/SlotWords.lean ====
section
/-! Slot words: readback (R3, R4), contention (R5), the check field (R7), classification (R6) and bodies (R8, R185). -/

namespace Sys2Proof.Machine

/-! ### Readback (R3, R4) -/

/-- A port that has been displaced compares nothing more. -/
theorem readBits_displaced (sent heard : SlotBits) (n : Nat) : ∀ r : ReadBack, r.displaced = true →
    readBits n sent heard r = r := by
  induction n with
  | zero => intro r _; rfl
  | succ n ih => intro r hr; simp [readBits, readBit, hr, ih]

/-- Bits that agree leave readback as it was. -/
theorem readBit_same (r : ReadBack) (b : Bool) : readBit r b b = r := by
  unfold readBit
  split_ifs
  · rfl
  · cases b <;> rfl

/-- Where the bits above place `m` agree, readback of `n` bits has come to place `m` unchanged. -/
theorem readBits_agree {sent heard : SlotBits} {n m : Nat} (hm : m ≤ n)
    (h : ∀ j, m ≤ j → j < n → sent.getLsbD j = heard.getLsbD j) (r : ReadBack) :
    readBits n sent heard r = readBits m sent heard r := by
  induction n, hm using Nat.le_induction with
  | base => rfl
  | succ n hmn ih =>
    rw [readBits, h n hmn (Nat.lt_succ_self n), readBit_same]
    exact ih fun j hj hjn => h j hj (by omega)

/-- A line error stays noted to the end of the word. -/
theorem readBits_lineError (sent heard : SlotBits) (n : Nat) : ∀ r : ReadBack, r.lineError = true →
    (readBits n sent heard r).lineError = true := by
  induction n with
  | zero => intro r hr; exact hr
  | succ n ih =>
    intro r hr
    refine ih _ ?_
    unfold readBit
    split_ifs
    · exact hr
    · cases sent.getLsbD n <;> cases heard.getLsbD n <;> simp [hr]

/-- A word heard as it was sent is SENT (R4). -/
theorem outcomeOf_self (w : SlotBits) : outcomeOf w w = .sent := by
  rw [outcomeOf, readBack, readBits_agree (Nat.zero_le 40) (fun _ _ _ => rfl)]
  rfl

/-- The first difference decides the outcome: a 1 heard as 0 is a displacement, a 0 heard as 1 a line error (R4). -/
theorem outcomeOf_first_difference {sent heard : SlotBits} {k : Nat} (hk : k < 40)
    (hagree : ∀ j, k < j → j < 40 → sent.getLsbD j = heard.getLsbD j) (hdiff : sent.getLsbD k ≠ heard.getLsbD k) :
    outcomeOf sent heard = if sent.getLsbD k then .displaced else .disturbed := by
  rw [outcomeOf, readBack, readBits_agree (Nat.succ_le_of_lt hk) (fun j hj => hagree j hj), readBits]
  cases hs : sent.getLsbD k with
  | true =>
    have hh : heard.getLsbD k = false := by simpa [hs] using hdiff
    rw [hh, readBits_displaced _ _ _ _ rfl]
    rfl
  | false =>
    have hh : heard.getLsbD k = true := by simpa [hs] using hdiff
    rw [hh, ReadBack.outcome, if_pos (readBits_lineError _ _ _ _ rfl)]
    rfl

/-! ### The line (R5) -/

/-- The number on the line is the smallest of the drivers' numbers over the bits that are left. -/
theorem lineNumber_is_least (n : Nat) : ∀ drivers : List SlotBits, drivers ≠ [] →
    (∃ d ∈ drivers, lineNumber n drivers = d.toNat % 2 ^ n) ∧ ∀ d ∈ drivers, lineNumber n drivers ≤ d.toNat % 2 ^ n := by
  induction n with
  | zero =>
    intro drivers hne
    obtain ⟨d, hd⟩ := List.exists_mem_of_ne_nil _ hne
    exact ⟨⟨d, hd, by simp [lineNumber, Nat.mod_one]⟩, fun _ _ => by simp [lineNumber]⟩
  | succ n ih =>
    intro drivers hne
    have split_bit (d : SlotBits) : d.toNat % 2 ^ (n + 1) = d.toNat % 2 ^ n + 2 ^ n * (d.getLsbD n).toNat :=
      (Nat.mod_pow_succ).trans (by rw [BitVec.getLsbD, Nat.toNat_testBit])
    rw [lineNumber]
    split_ifs with hall
    · have one (d) (hd : d ∈ drivers) : d.getLsbD n = true := List.all_eq_true.mp hall d hd
      obtain ⟨⟨d, hd, heq⟩, hle⟩ := ih drivers hne
      refine ⟨⟨d, hd, ?_⟩, fun d hd => ?_⟩
      · rw [split_bit, one d hd, heq, Bool.toNat_true]; omega
      · have := hle d hd
        rw [split_bit, one d hd, Bool.toNat_true]; omega
    · obtain ⟨z, hz, hz0⟩ : ∃ z ∈ drivers, z.getLsbD n = false := by simpa using hall
      have hzf : z ∈ drivers.filter (fun d => !d.getLsbD n) := List.mem_filter.mpr ⟨hz, by simp [hz0]⟩
      obtain ⟨⟨d, hd, heq⟩, hle⟩ := ih _ (List.ne_nil_of_mem hzf)
      obtain ⟨hd, hd0⟩ := List.mem_filter.mp hd
      refine ⟨⟨d, hd, ?_⟩, fun e he => ?_⟩
      · rw [split_bit, heq, show d.getLsbD n = false by simpa using hd0]; simp
      · rw [split_bit]
        cases he0 : e.getLsbD n with
        | false => have := hle e (List.mem_filter.mpr ⟨he, by simp [he0]⟩); omega
        | true =>
          have := Nat.mod_lt d.toNat (Nat.two_pow_pos n)
          rw [heq, Bool.toNat_true]; omega

/-- The word on the line is one of the words sent, and no sender's word is smaller (R5). -/
theorem lineWord_is_least {drivers : List SlotBits} (hne : drivers ≠ []) :
    lineWord drivers ∈ drivers ∧ ∀ d ∈ drivers, (lineWord drivers).toNat ≤ d.toNat := by
  obtain ⟨⟨d, hd, heq⟩, hle⟩ := lineNumber_is_least 40 drivers hne
  have hw : lineWord drivers = d := by
    rw [lineWord, heq, Nat.mod_eq_of_lt d.isLt, BitVec.ofNat_toNat, BitVec.setWidth_eq]
  refine ⟨hw ▸ hd, fun e he => ?_⟩
  have := hle e he
  rwa [heq, Nat.mod_eq_of_lt d.isLt, Nat.mod_eq_of_lt e.isLt, ← hw] at this

/-- A sender that hears a smaller word than its own is DISPLACED: at the first difference it sends 1 and hears 0. -/
theorem outcomeOf_of_lt {sent heard : SlotBits} (h : heard.toNat < sent.toNat) : outcomeOf sent heard = .displaced := by
  have hx : sent.toNat ^^^ heard.toNat ≠ 0 := by rw [Ne, Nat.xor_eq_zero_iff]; omega
  obtain ⟨k, hk, habove⟩ := Nat.exists_most_significant_bit hx
  rw [Nat.testBit_xor] at hk
  have hdiff : sent.getLsbD k ≠ heard.getLsbD k := fun he => by
    simp only [BitVec.getLsbD] at he
    simp [he] at hk
  have hk40 : k < 40 := by
    by_contra hge
    exact hdiff (by rw [BitVec.getLsbD_of_ge _ _ (by omega), BitVec.getLsbD_of_ge _ _ (by omega)])
  have hagree (j : Nat) (hj : k < j) : sent.getLsbD j = heard.getLsbD j := by
    have := habove j hj
    rw [Nat.testBit_xor] at this
    simpa [BitVec.getLsbD] using this
  rw [outcomeOf_first_difference hk40 (fun j hj _ => hagree j hj) hdiff, if_pos]
  by_contra hs
  have hs0 : sent.getLsbD k = false := by simpa using hs
  have hh1 : heard.getLsbD k = true := by simpa [hs0] using hdiff
  have : sent.toNat < heard.toNat := Nat.lt_of_testBit k hs0 hh1 (fun j hj => hagree j hj)
  omega

/-! ### The check field (R7) -/

/-- One step of the remainder register is linear. -/
theorem checkStep_xor (r q : BitVec 5) (a b : Bool) : checkStep (r ^^^ q) (a ^^ b) = checkStep r a ^^^ checkStep q b := by
  have shifted : (r ^^^ q) <<< 1 = r <<< 1 ^^^ q <<< 1 := BitVec.shiftLeft_xor_distrib r q 1
  have top : ((a ^^ b) ^^ (r ^^^ q).getLsbD 4) = ((a ^^ r.getLsbD 4) ^^ (b ^^ q.getLsbD 4)) := by
    rw [BitVec.getLsbD_xor, Bool.xor_assoc, Bool.xor_assoc, Bool.xor_left_comm b]
  unfold checkStep
  rw [top, shifted]
  generalize r <<< 1 = x
  generalize q <<< 1 = y
  cases a ^^ r.getLsbD 4 <;> cases b ^^ q.getLsbD 4
  case false.false => rfl
  case false.true => exact BitVec.xor_assoc x y _
  case true.false =>
    change x ^^^ y ^^^ 5#5 = x ^^^ 5#5 ^^^ y
    ac_rfl
  case true.true =>
    change x ^^^ y = x ^^^ 5#5 ^^^ (y ^^^ 5#5)
    calc x ^^^ y = x ^^^ y ^^^ (5#5 ^^^ 5#5) := by rw [BitVec.xor_self, BitVec.xor_zero]
      _ = x ^^^ 5#5 ^^^ (y ^^^ 5#5) := by ac_rfl

/-- The register over a payload is linear. -/
theorem checkBits_xor (n : Nat) (p q : BitVec 35) : ∀ r t : BitVec 5,
    checkBits n (p ^^^ q) (r ^^^ t) = checkBits n p r ^^^ checkBits n q t := by
  induction n with
  | zero => intro r t; rfl
  | succ n ih => intro r t; rw [checkBits, checkBits, checkBits, BitVec.getLsbD_xor, checkStep_xor, ih]

/-- The check field is linear. -/
theorem checkField_xor (p q : BitVec 35) : checkField (p ^^^ q) = checkField p ^^^ checkField q :=
  checkBits_xor 35 p q 0 0

section Remainder
open Polynomial

/-- The polynomial of the `n` least significant bits of a word, over the integers modulo 2. -/
noncomputable def bitPoly {w : Nat} (n : Nat) (b : BitVec w) : (ZMod 2)[X] :=
  ∑ i ∈ Finset.range n, if b.getLsbD i then (X : (ZMod 2)[X]) ^ i else 0

/-- The generator of the check field (R7). -/
noncomputable def generator : (ZMod 2)[X] := X ^ 5 + X ^ 2 + 1

/-- One more bit at the top. -/
theorem bitPoly_succ {w : Nat} (n : Nat) (b : BitVec w) :
    bitPoly (n + 1) b = bitPoly n b + if b.getLsbD n then X ^ n else 0 := Finset.sum_range_succ ..

/-- The polynomial of an exclusive or is the sum of the polynomials. -/
theorem bitPoly_xor {w : Nat} (n : Nat) (a b : BitVec w) : bitPoly n (a ^^^ b) = bitPoly n a + bitPoly n b := by
  rw [bitPoly, bitPoly, bitPoly, ← Finset.sum_add_distrib]
  refine Finset.sum_congr rfl fun i _ => ?_
  rw [BitVec.getLsbD_xor]
  cases a.getLsbD i <;> cases b.getLsbD i <;> simp [CharTwo.add_self_eq_zero]

/-- Shifting by one place multiplies by `x`; the bit shifted out is lost. -/
theorem bitPoly_shiftLeft_one {w : Nat} (b : BitVec (w + 1)) : bitPoly (w + 1) (b <<< 1) = X * bitPoly w b := by
  rw [bitPoly, Finset.sum_range_succ', bitPoly, Finset.mul_sum]
  have low : (b <<< 1).getLsbD 0 = false := by simp
  rw [low, if_neg Bool.false_ne_true, add_zero]
  refine Finset.sum_congr rfl fun i hi => ?_
  have next : (b <<< 1).getLsbD (i + 1) = b.getLsbD i := by
    rw [BitVec.getLsbD_shiftLeft]
    simp [Nat.lt_succ_of_lt (Finset.mem_range.mp hi), Finset.mem_range.mp hi]
  rw [next, mul_ite, mul_zero, ← pow_succ']

/-- What the register takes in when the bit shifted out and the incoming bit differ. -/
theorem bitPoly_feedback : bitPoly 5 (0b00101#5) = X ^ 2 + 1 := by
  simp [bitPoly, Finset.sum_range_succ, add_comm]

/-- One step of the register: multiplied by `x`, the incoming bit taken in at x^5, reduced by the generator. -/
theorem bitPoly_checkStep (r : BitVec 5) (b : Bool) :
    bitPoly 5 (checkStep r b) =
      X * bitPoly 5 r + (if b then X ^ 5 else 0) + if (b ^^ r.getLsbD 4) then generator else 0 := by
  have top : X * bitPoly 5 r = X * bitPoly 4 r + if r.getLsbD 4 then X ^ 5 else 0 := by
    rw [bitPoly_succ, mul_add, mul_ite, mul_zero, ← pow_succ']
  have once (f : (ZMod 2)[X]) : f + X ^ 5 + generator = f + (X ^ 2 + 1) := by
    rw [generator]; linear_combination CharTwo.add_self_eq_zero (X ^ 5 : (ZMod 2)[X])
  rw [checkStep, top]
  cases b <;> cases r.getLsbD 4
  case false.false => simp [bitPoly_shiftLeft_one]
  case false.true => simp [bitPoly_xor, bitPoly_shiftLeft_one, bitPoly_feedback, once]
  case true.false => simp [bitPoly_xor, bitPoly_shiftLeft_one, bitPoly_feedback, once]
  case true.true => simp [bitPoly_shiftLeft_one, add_assoc, CharTwo.add_self_eq_zero]

/-- The register after `n` bits is the remainder of what it held and of those bits, by the generator. -/
theorem generator_dvd_checkBits (p : BitVec 35) (n : Nat) : ∀ r : BitVec 5,
    generator ∣ X ^ n * bitPoly 5 r + X ^ 5 * bitPoly n p + bitPoly 5 (checkBits n p r) := by
  induction n with
  | zero =>
    intro r
    have h : X ^ 0 * bitPoly 5 r + X ^ 5 * bitPoly 0 p + bitPoly 5 r = 0 := by
      simp [bitPoly, CharTwo.add_self_eq_zero]
    exact h ▸ dvd_zero _
  | succ n ih =>
    intro r
    obtain ⟨k, hk⟩ := ih (checkStep r (p.getLsbD n))
    rw [bitPoly_checkStep] at hk
    refine ⟨k - X ^ n * (if (p.getLsbD n ^^ r.getLsbD 4) then 1 else 0), ?_⟩
    rw [checkBits, bitPoly_succ n p, mul_sub, ← hk]
    cases p.getLsbD n <;> cases r.getLsbD 4 <;> simp <;> ring

/-- The check field is the remainder of the payload times x^5 (R7). -/
theorem generator_dvd_checkField (p : BitVec 35) : generator ∣ X ^ 5 * bitPoly 35 p + bitPoly 5 (checkField p) := by
  have start : bitPoly 5 (0 : BitVec 5) = 0 := by simp [bitPoly]
  have h := generator_dvd_checkBits p 35 0
  rwa [start, mul_zero, zero_add] at h

end Remainder

/-! ### Words as sent, and classification (R2, R6) -/

@[simp] theorem SlotWord.bits_payload (w : SlotWord) : w.bits.extractLsb' 5 35 = w.payload :=
  BitVec.extractLsb'_append_eq_left

@[simp] theorem SlotWord.bits_check (w : SlotWord) : w.bits.extractLsb' 0 5 = checkField w.payload :=
  BitVec.extractLsb'_append_eq_right

/-- The 16 bits of a word before its body. -/
theorem SlotWord.bits_kind (w : SlotWord) : w.bits.extractLsb' 36 4 = w.kind.code := by
  rw [bits, payload, BitVec.extractLsb'_append_eq_of_le (by decide), BitVec.extractLsb'_append_eq_of_le (by decide),
    BitVec.extractLsb'_append_eq_of_le (by decide)]
  exact BitVec.extractLsb'_append_eq_left

theorem SlotWord.bits_rank (w : SlotWord) : w.bits.extractLsb' 34 2 = w.rank := by
  rw [bits, payload, BitVec.extractLsb'_append_eq_of_le (by decide), BitVec.extractLsb'_append_eq_of_le (by decide),
    BitVec.extractLsb'_append_eq_of_le (by decide)]
  exact BitVec.extractLsb'_append_eq_right

theorem SlotWord.bits_station (w : SlotWord) : w.bits.extractLsb' 29 5 = w.station := by
  rw [bits, payload, BitVec.extractLsb'_append_eq_of_le (by decide), BitVec.extractLsb'_append_eq_of_le (by decide)]
  exact BitVec.extractLsb'_append_eq_right

theorem SlotWord.bits_body (w : SlotWord) : w.bits.extractLsb' 5 24 = w.body := by
  rw [bits, payload, BitVec.extractLsb'_append_eq_of_le (by decide)]
  exact BitVec.extractLsb'_append_eq_right

/-- Every kind is read back from its code (R184). -/
@[simp] theorem Kind.ofCode_code (k : Kind) : Kind.ofCode k.code = some k := by cases k <;> rfl

/-- The all-ones code is no kind's (R184). -/
theorem Kind.code_ne_ones (k : Kind) : k.code ≠ BitVec.allOnes 4 := by cases k <;> decide

/-- The station field is neither 0 nor 31 exactly for the addresses 1 to 30 (R6). -/
theorem SlotWord.station_ok_iff (w : SlotWord) : ¬(w.station = 0 ∨ w.station = 31) ↔ 1 ≤ w.sender ∧ w.sender ≤ 30 := by
  have := w.station.isLt
  simp only [← BitVec.toNat_inj, SlotWord.sender, BitVec.ofNat_eq_ofNat, BitVec.toNat_ofNat]
  omega

/-- A word with a station address is heard as it was sent (R6). -/
theorem classify_bits {w : SlotWord} (h1 : 1 ≤ w.sender) (h30 : w.sender ≤ 30) : classify w.bits = .valid w := by
  have notSilent : w.bits ≠ BitVec.allOnes 40 := fun h => by
    have hk := w.bits_kind
    rw [h] at hk
    exact w.kind.code_ne_ones (hk.symm.trans (by decide))
  rw [classify, if_neg notSilent, if_neg (by simp), SlotWord.bits_kind, Kind.ofCode_code]
  simp only [SlotWord.bits_station, SlotWord.bits_rank, SlotWord.bits_body, if_neg (w.station_ok_iff.mpr ⟨h1, h30⟩)]

/-- Everything that a word heard VALID is: its station is an address (R6). -/
theorem classify_sender {b : SlotBits} {w : SlotWord} (h : classify b = .valid w) : 1 ≤ w.sender ∧ w.sender ≤ 30 := by
  rw [← w.station_ok_iff]
  unfold classify at h
  split_ifs at h with _ _ hs
  · split at h <;> cases h
  · split at h
    · cases h
    · cases h
      exact hs

/-- Bits whose check field is not that of their payload are CORRUPT, unless the line is silent (R6). -/
theorem classify_corrupt {b : SlotBits} (hs : b ≠ BitVec.allOnes 40)
    (hc : checkField (b.extractLsb' 5 35) ≠ b.extractLsb' 0 5) : classify b = .corrupt := by
  rw [classify, if_neg hs, if_pos hc]

set_option maxRecDepth 8000 in
/-- A word of one bit is no code word: its check field is not that of its payload. -/
theorem single_bit_not_checked : ∀ i < 40,
    checkField ((BitVec.ofNat 40 (2 ^ i)).extractLsb' 5 35) ≠ (BitVec.ofNat 40 (2 ^ i)).extractLsb' 0 5 := by decide

/-- A word of one bit has nothing in its kind field or nothing in its station field. -/
theorem single_bit_kind_or_station : ∀ i < 40,
    (BitVec.ofNat 40 (2 ^ i)).extractLsb' 36 4 = 0#4 ∨ (BitVec.ofNat 40 (2 ^ i)).extractLsb' 29 5 = 0#5 := by decide

/-- A word with a station address and one bit changed is CORRUPT: the check field is linear, and no word of one bit has
its own; nor is it all ones, which takes a change of kind and of station (R6, R7). -/
theorem classify_bits_flip {w : SlotWord} (h1 : 1 ≤ w.sender) (h30 : w.sender ≤ 30) {i : Nat} (hi : i < 40) :
    classify (w.bits ^^^ BitVec.ofNat 40 (2 ^ i)) = .corrupt := by
  refine classify_corrupt (fun hones => ?_) (fun heq => ?_)
  · have hkind := congrArg (BitVec.extractLsb' 36 4) hones
    have hstation := congrArg (BitVec.extractLsb' 29 5) hones
    rw [BitVec.extractLsb'_xor, SlotWord.bits_kind] at hkind
    rw [BitVec.extractLsb'_xor, SlotWord.bits_station] at hstation
    rcases single_bit_kind_or_station i hi with hz | hz
    · rw [hz, BitVec.xor_zero] at hkind
      exact w.kind.code_ne_ones (hkind.trans (by decide))
    · rw [hz, BitVec.xor_zero] at hstation
      exact w.station_ok_iff.mpr ⟨h1, h30⟩ (.inr (hstation.trans (by decide)))
  · rw [BitVec.extractLsb'_xor, BitVec.extractLsb'_xor, checkField_xor, SlotWord.bits_payload, SlotWord.bits_check,
      BitVec.xor_right_inj] at heq
    exact single_bit_not_checked i hi heq

/-! ### Bodies (R8, R185) -/

/-- A number that fits a field is read back from it. -/
theorem toNat_ofNat_of_lt {n w : Nat} (h : n < 2 ^ w) : (BitVec.ofNat w n).toNat = n := by
  rw [BitVec.toNat_ofNat, Nat.mod_eq_of_lt h]

@[simp] theorem slotWord_body (k : Kind) (rank addr : Nat) (body : BitVec 24) : (slotWord k rank addr body).body = body := rfl
@[simp] theorem slotWord_kind (k : Kind) (rank addr : Nat) (body : BitVec 24) : (slotWord k rank addr body).kind = k := rfl

/-! The fields of a MARK (R25). -/

theorem markWord_markFrame (addr frame len : Nat) (h : frame < 2 ^ 8) :
    (markWord addr frame len).markFrame = frame := by
  simp (disch := decide) only [markWord, SlotWord.markFrame, slotWord_body, BitVec.extractLsb'_append_eq_of_le, Nat.reduceSub,
    BitVec.extractLsb'_eq_self]
  exact toNat_ofNat_of_lt h

theorem markWord_markLength (addr frame : Nat) {len : Nat} (hl : len = 24 ∨ len = 48 ∨ len = 96) :
    (markWord addr frame len).markLength = some len := by
  rw [SlotWord.markLength, markWord, slotWord_body, BitVec.extractLsb'_append_eq_of_le (by decide),
    BitVec.extractLsb'_append_eq_right]
  obtain rfl | rfl | rfl := hl <;> rfl

/-! The fields of a ROLL (R59). -/

theorem rollWord_rollHeld (addr held : Nat) (leaving eligible : Bool) (h : held < 2 ^ 5) :
    (rollWord addr leaving held eligible).rollHeld = held := by
  simp (disch := decide) only [rollWord, SlotWord.rollHeld, slotWord_body, BitVec.extractLsb'_append_eq_of_le, Nat.reduceSub,
    BitVec.extractLsb'_append_eq_right]
  exact toNat_ofNat_of_lt h

theorem rollWord_rollLeaving (addr held : Nat) (leaving eligible : Bool) :
    (rollWord addr leaving held eligible).rollLeaving = leaving := by
  simp only [rollWord, SlotWord.rollLeaving, slotWord_body, BitVec.getLsbD_append]
  simp

theorem rollWord_rollEligible (addr held : Nat) (leaving eligible : Bool) :
    (rollWord addr leaving held eligible).rollEligible = eligible := by
  simp only [rollWord, SlotWord.rollEligible, slotWord_body, BitVec.getLsbD_append]
  simp

/-! The fields of a CLAIM (R99). -/

theorem claimWord_rank (addr rank code slot : Nat) (h : rank < 2 ^ 2) : (claimWord addr rank code slot).rank.toNat = rank :=
  toNat_ofNat_of_lt h

theorem claimWord_claimCode (addr rank code slot : Nat) (h : code < 2 ^ 2) :
    (claimWord addr rank code slot).claimCode = code := by
  simp (disch := decide) only [claimWord, SlotWord.claimCode, slotWord_body, BitVec.extractLsb'_append_eq_of_le, Nat.reduceSub,
    BitVec.extractLsb'_eq_self]
  exact toNat_ofNat_of_lt h

theorem claimWord_claimSlot (addr rank code slot : Nat) (h : slot < 2 ^ 7) :
    (claimWord addr rank code slot).claimSlot = slot := by
  simp (disch := decide) only [claimWord, SlotWord.claimSlot, slotWord_body, BitVec.extractLsb'_append_eq_of_le, Nat.reduceSub,
    BitVec.extractLsb'_append_eq_right]
  exact toNat_ofNat_of_lt h

/-! The fields of an ANSWER (R167). -/

theorem answerWord_answerTarget (addr target window code reason count : Nat) (h : target < 2 ^ 5) :
    (answerWord addr target window code reason count).answerTarget = target := by
  simp (disch := decide) only [answerWord, SlotWord.answerTarget, slotWord_body, BitVec.extractLsb'_append_eq_of_le, Nat.reduceSub,
    BitVec.extractLsb'_eq_self]
  exact toNat_ofNat_of_lt h

theorem answerWord_answerWindow (addr target window code reason count : Nat) (h : window < 2 ^ 2) :
    (answerWord addr target window code reason count).answerWindow = window := by
  simp (disch := decide) only [answerWord, SlotWord.answerWindow, slotWord_body, BitVec.extractLsb'_append_eq_of_le, Nat.reduceSub,
    BitVec.extractLsb'_append_eq_right]
  exact toNat_ofNat_of_lt h

theorem answerWord_answerCode (addr target window code reason count : Nat) (h : code < 2 ^ 2) :
    (answerWord addr target window code reason count).answerCode = code := by
  simp (disch := decide) only [answerWord, SlotWord.answerCode, slotWord_body, BitVec.extractLsb'_append_eq_of_le, Nat.reduceSub,
    BitVec.extractLsb'_append_eq_right]
  exact toNat_ofNat_of_lt h

theorem answerWord_answerReason (addr target window code reason count : Nat) (h : reason < 2 ^ 2) :
    (answerWord addr target window code reason count).answerReason = reason := by
  simp (disch := decide) only [answerWord, SlotWord.answerReason, slotWord_body, BitVec.extractLsb'_append_eq_of_le, Nat.reduceSub,
    BitVec.extractLsb'_append_eq_right]
  exact toNat_ofNat_of_lt h

theorem answerWord_answerCount (addr target window code reason count : Nat) (h : count < 2 ^ 13) :
    (answerWord addr target window code reason count).answerCount = count := by
  simp (disch := decide) only [answerWord, SlotWord.answerCount, slotWord_body, BitVec.extractLsb'_append_eq_right]
  exact toNat_ofNat_of_lt h

/-! The fields of a HEAD and of a TAIL (R139). -/

theorem headWord_headDest (addr dest window offset : Nat) (resume : Bool) (h : dest < 2 ^ 5) :
    (headWord addr dest window resume offset).headDest = dest := by
  simp (disch := decide) only [headWord, SlotWord.headDest, slotWord_body, BitVec.extractLsb'_append_eq_of_le, Nat.reduceSub,
    BitVec.extractLsb'_eq_self]
  exact toNat_ofNat_of_lt h

theorem headWord_headWindow (addr dest window offset : Nat) (resume : Bool) (h : window < 2 ^ 2) :
    (headWord addr dest window resume offset).headWindow = window := by
  simp (disch := decide) only [headWord, SlotWord.headWindow, slotWord_body, BitVec.extractLsb'_append_eq_of_le, Nat.reduceSub,
    BitVec.extractLsb'_append_eq_right]
  exact toNat_ofNat_of_lt h

theorem headWord_headOffset (addr dest window offset : Nat) (resume : Bool) (h : offset < 2 ^ 13) :
    (headWord addr dest window resume offset).headOffset = offset := by
  simp (disch := decide) only [headWord, SlotWord.headOffset, slotWord_body, BitVec.extractLsb'_append_eq_of_le, Nat.reduceSub,
    BitVec.extractLsb'_append_eq_right]
  exact toNat_ofNat_of_lt h

theorem headWord_headResume (addr dest window offset : Nat) (resume : Bool) :
    (headWord addr dest window resume offset).headResume = resume := by
  simp only [headWord, SlotWord.headResume, slotWord_body, BitVec.getLsbD_append]
  simp

theorem tailWord_tailLength (addr length : Nat) (h : length < 2 ^ 13) :
    (tailWord addr length).tailLength = length := by
  simp (disch := decide) only [tailWord, SlotWord.tailLength, slotWord_body, BitVec.extractLsb'_append_eq_of_le, Nat.reduceSub,
    BitVec.extractLsb'_eq_self]
  exact toNat_ofNat_of_lt h

/-! Values in range are not malformed (R8). -/

theorem markWord_malformed (addr : Nat) {frame len : Nat} (hf : frame < 240) (hl : len = 24 ∨ len = 48 ∨ len = 96) :
    (markWord addr frame len).malformed = false := by
  have hkind : (markWord addr frame len).kind = .mark := rfl
  have hframe := markWord_markFrame addr frame len (by omega)
  simp only [SlotWord.malformed, hkind, hframe, markWord_markLength addr frame hl, Option.isNone_some, Bool.or_false,
    decide_eq_false_iff_not]
  omega

theorem rollWord_malformed (addr : Nat) (leaving eligible : Bool) {held : Nat} (hh : held ≤ 16) :
    (rollWord addr leaving held eligible).malformed = false := by
  have hkind : (rollWord addr leaving held eligible).kind = .roll := rfl
  have hheld := rollWord_rollHeld addr held leaving eligible (by omega)
  simp only [SlotWord.malformed, hkind, hheld, decide_eq_false_iff_not]
  omega

theorem claimWord_malformed (addr rank : Nat) {code slot : Nat} (h1 : 1 ≤ code) (h3 : code < 4) (hs : slot < 96) :
    (claimWord addr rank code slot).malformed = false := by
  have hkind : (claimWord addr rank code slot).kind = .claim := rfl
  have hcode := claimWord_claimCode addr rank code slot h3
  have hslot := claimWord_claimSlot addr rank code slot (by omega)
  simp only [SlotWord.malformed, hkind, hcode, hslot, Bool.or_eq_false_iff, beq_eq_false_iff_ne, decide_eq_false_iff_not]
  omega

theorem answerWord_malformed (addr window reason : Nat) {target code count : Nat} (h1 : 1 ≤ target) (h30 : target ≤ 30)
    (hc1 : 1 ≤ code) (hc3 : code < 4) (hn : count ≤ 4096) :
    (answerWord addr target window code reason count).malformed = false := by
  have hkind : (answerWord addr target window code reason count).kind = .answer := rfl
  have htarget := answerWord_answerTarget addr target window code reason count (by omega)
  have hcode := answerWord_answerCode addr target window code reason count hc3
  have hcount := answerWord_answerCount addr target window code reason count (by omega)
  simp only [SlotWord.malformed, hkind, htarget, hcode, hcount, Bool.or_eq_false_iff, beq_eq_false_iff_ne,
    decide_eq_false_iff_not]
  omega

theorem headWord_malformed (addr window : Nat) (resume : Bool) {dest offset : Nat} (h1 : 1 ≤ dest) (h30 : dest ≤ 30)
    (ho : offset ≤ 4096) : (headWord addr dest window resume offset).malformed = false := by
  have hkind : (headWord addr dest window resume offset).kind = .head := rfl
  have hdest := headWord_headDest addr dest window offset resume (by omega)
  have hoffset := headWord_headOffset addr dest window offset resume (by omega)
  simp only [SlotWord.malformed, hkind, hdest, hoffset, Bool.or_eq_false_iff, beq_eq_false_iff_ne, decide_eq_false_iff_not]
  omega

theorem tailWord_malformed (addr : Nat) {length : Nat} (h1 : 1 ≤ length) (hl : length ≤ 4096) :
    (tailWord addr length).malformed = false := by
  have hkind : (tailWord addr length).kind = .tail := rfl
  have hlength := tailWord_tailLength addr length (by omega)
  simp only [SlotWord.malformed, hkind, hlength, Bool.or_eq_false_iff, beq_eq_false_iff_ne, decide_eq_false_iff_not]
  omega

/-- BULK, DATA and FILL carry a value of 24 bits or nothing: no body of theirs is malformed. -/
theorem malformed_of_free_body {w : SlotWord} (h : w.kind = .bulk ∨ w.kind = .data ∨ w.kind = .fill) :
    w.malformed = false := by
  obtain h | h | h := h <;> simp only [SlotWord.malformed, h]

end Sys2Proof.Machine

/-! ### What the statements ask -/

open Sys2Proof Sys2Proof.Machine

/-- Settles O3: readback comes to the first difference unchanged and decides there. -/
theorem firstDifferenceDecidesOutcome : Obligations.FirstDifferenceDecidesOutcome :=
  ⟨outcomeOf_self, fun _ _ _ hk hagree hdiff => outcomeOf_first_difference hk hagree hdiff⟩

/-- Settles O4: the line carries the least of the numbers sent, and a sender of another word first differs where it sends
1 and hears 0. -/
theorem smallestWordSurvives : Obligations.SmallestWordSurvives := by
  intro drivers hne
  obtain ⟨hmem, hle⟩ := lineWord_is_least hne
  refine ⟨hmem, hle, fun d hd => ?_⟩
  split_ifs with heq
  · rw [← heq, outcomeOf_self]
  · have : (lineWord drivers).toNat ≠ d.toNat := fun h => heq (BitVec.eq_of_toNat_eq h.symm)
    exact outcomeOf_of_lt (by have := hle d hd; omega)

/-- Settles O5: the remainder register reduces by the generator at every bit. -/
theorem checkFieldIsRemainder : Obligations.CheckFieldIsRemainder := by
  intro p
  have h := generator_dvd_checkField p
  rw [bitPoly, Finset.mul_sum] at h
  simpa only [generator, bitPoly, mul_ite, mul_zero, ← pow_add, add_comm 5] using h

/-- Settles O6: the check field of a changed word is not that of its payload, since the check field is linear. -/
theorem wordsAreHeardWholeOrCorrupt : Obligations.WordsAreHeardWholeOrCorrupt :=
  fun _ h1 h30 => ⟨classify_bits h1 h30, fun _ hi => classify_bits_flip h1 h30 hi⟩

/-- Settles O7: each field stands in its own bits of the body. -/
theorem bodyFieldsAreReadBack : Obligations.BodyFieldsAreReadBack := by
  intro addr
  refine ⟨fun frame len hf hl => ?mark, fun leaving held eligible hh => ?roll, fun rank code slot hr hc1 hc3 hs => ?claim,
    fun target window code reason count ht1 ht30 hw hc1 hc3 hr hn => ?answer,
    fun dest window resume offset hd1 hd30 hw ho => ?head, fun length h1 hl => ?tail, fun v => ⟨rfl, rfl, rfl⟩,
    fun w hw => malformed_of_free_body hw⟩
  case mark =>
    exact ⟨markWord_malformed addr hf hl, markWord_markFrame addr frame len (by omega), markWord_markLength addr frame hl⟩
  case roll =>
    exact ⟨rollWord_malformed addr leaving eligible hh, rollWord_rollLeaving .., rollWord_rollHeld addr _ _ _ (by omega),
      rollWord_rollEligible ..⟩
  case claim =>
    exact ⟨claimWord_malformed addr rank hc1 hc3 hs, claimWord_rank _ _ _ _ hr, claimWord_claimCode _ _ _ _ hc3,
      claimWord_claimSlot _ _ _ _ (by omega)⟩
  case answer =>
    exact ⟨answerWord_malformed addr window reason ht1 ht30 hc1 hc3 hn, answerWord_answerTarget _ _ _ _ _ _ (by omega),
      answerWord_answerWindow _ _ _ _ _ _ hw, answerWord_answerCode _ _ _ _ _ _ hc3,
      answerWord_answerReason _ _ _ _ _ _ hr, answerWord_answerCount _ _ _ _ _ _ (by omega)⟩
  case head =>
    exact ⟨headWord_malformed addr window resume hd1 hd30 ho, headWord_headDest _ _ _ _ _ (by omega),
      headWord_headWindow _ _ _ _ _ hw, headWord_headResume .., headWord_headOffset _ _ _ _ _ (by omega)⟩
  case tail => exact ⟨tailWord_malformed addr h1 hl, tailWord_tailLength _ _ (by omega)⟩
end

