-- ==== Sys2Proof/Proofs/Front.lean ====
section
/-! The front of the part: the blocks that the soundness of the station rests on, and what each operation on the other
blocks leaves of them. -/

namespace Sys2Proof.Machine

/-- The blocks between the trunk and the host, with the event queue: station controller, frame timer, trunk port, host
port, pins and events. The roster is left out, so that what the roster does leaves the front as it is. -/
structure Front where
  control : StationControl
  timer : FrameTimer
  port : TrunkPort
  host : HostPort
  pins : Pins
  events : EventQueue

/-- The front of a state. -/
def State.front (s : State) : Front :=
  { control := s.control, timer := s.timer, port := s.port, host := s.host, pins := s.pins, events := s.events }

/-- Two states have the same front exactly when they agree in each of its blocks. -/
theorem State.front_eq_iff {s t : State} :
    t.front = s.front ↔ t.control = s.control ∧ t.timer = s.timer ∧ t.port = s.port ∧ t.host = s.host ∧ t.pins = s.pins ∧
      t.events = s.events := by
  simp [State.front]

/-- Self and frame length are read from the front. -/
theorem State.self_congr {s t : State} (h : t.control = s.control) : t.self = s.self := by simp [State.self, h]
theorem State.len_congr {s t : State} (h : t.control = s.control) : t.len = s.len := by simp [State.len, h]

/-! ### Writes to the other blocks -/

@[simp] theorem State.front_setEntry (s : State) (n : Nat) (e : SlotEntry) : (s.setEntry n e).front = s.front := rfl
@[simp] theorem State.front_setRoster (s : State) (a : Nat) (e : RosterEntry) : (s.setRoster a e).front = s.front := rfl
@[simp] theorem State.front_setTx (s : State) (c : Nat) (x : TxChannel) : (s.setTx c x).front = s.front := rfl
@[simp] theorem State.front_setRx (s : State) (c : Nat) (x : RxChannel) : (s.setRx c x).front = s.front := rfl
@[simp] theorem State.front_setWindow (s : State) (w : Nat) (x : Window) : (s.setWindow w x).front = s.front := rfl
@[simp] theorem State.front_setJob (s : State) (j : Job) : (s.setJob j).front = s.front := rfl
@[simp] theorem State.front_nextHappening (s : State) : s.nextHappening.front = s.front := rfl
@[simp] theorem State.front_freeAllOf (s : State) (a : Nat) : (s.freeAllOf a).front = s.front := rfl
@[simp] theorem State.front_countStray (s : State) (k : Nat) : (s.countStray k).front = s.front := rfl
@[simp] theorem State.front_applyAct (s : State) (n : Nat) (a : WindowAct) : (s.applyAct n a).front = s.front := rfl
@[simp] theorem State.roster_applyAct (s : State) (n : Nat) (a : WindowAct) : (s.applyAct n a).roster = s.roster := rfl

@[simp] theorem State.front_lossNotice (s : State) (r : Option Role) (n : Nat) : (s.lossNotice r n).front = s.front := by
  rw [State.lossNotice_eq]; rfl
@[simp] theorem State.roster_lossNotice (s : State) (r : Option Role) (n : Nat) : (s.lossNotice r n).roster = s.roster := by
  rw [State.lossNotice_eq]
@[simp] theorem State.front_freeSlot (s : State) (n : Nat) : (s.freeSlot n).front = s.front := by
  rw [State.freeSlot_eq]; rfl
@[simp] theorem State.roster_freeSlot (s : State) (n : Nat) : (s.freeSlot n).roster = s.roster := by
  rw [State.freeSlot_eq]

/-! ### The ROLL slot -/

/-- A missed roll writes roster and table (R63). -/
@[simp] theorem State.front_rollMissed (s : State) (o : Occurrence) (a : Nat) : (s.rollMissed o a).1.front = s.front := by
  unfold State.rollMissed
  split_ifs <;> rfl

/-- A peer's turn writes roster and table (R58 to R65). -/
@[simp] theorem State.front_peerTurn (s : State) (o : Occurrence) (a : Nat) : (s.peerTurn o a).1.front = s.front := by
  unfold State.peerTurn
  split
  · split_ifs <;> rfl
  · exact s.front_rollMissed o a

/-- Self's own turn writes the roster, and a SENT roll may take the station to MEMBER (R43, R60). -/
theorem State.front_ownTurn (s : State) (o : Occurrence) :
    ∃ st, (s.ownTurn o).1.front = { s.front with control := { s.control with state := st } } ∧
      (o.outcome = none → st = s.control.state) := by
  unfold State.ownTurn
  split
  · rename_i hsent _
    split
    · exact ⟨.member, rfl, by simp [hsent]⟩
    all_goals exact ⟨s.control.state, rfl, fun _ => rfl⟩
  · exact ⟨s.control.state, rfl, fun _ => rfl⟩
  · exact ⟨s.control.state, rfl, fun _ => rfl⟩

/-- The ROLL slot's turn, whoever has it (R58). -/
theorem State.front_rollTurn (s : State) (o : Occurrence) :
    ∃ st, (s.rollTurn o).1.front = { s.front with control := { s.control with state := st } } ∧
      (o.outcome = none → st = s.control.state) := by
  unfold State.rollTurn
  split_ifs
  · exact s.front_ownTurn o
  · exact ⟨s.control.state, s.front_peerTurn o _, fun _ => rfl⟩

/-! ### The CLAIM slot -/

/-- Applying a CLAIM word writes table, receive channels and jobs (R104 to R108). -/
@[simp] theorem State.front_applyClaim (s : State) (o : Occurrence) (role : Option Role) :
    (s.applyClaim o role).1.front = s.front ∧ (s.applyClaim o role).1.roster = s.roster := by
  unfold State.applyClaim
  cases s.appliedClaim o with
  | none => exact ⟨rfl, rfl⟩
  | some w =>
    cases hg : s.givenSlot w with
    | some n =>
      by_cases hw : w.sender = s.self
      · simp [hg, hw, State.grantSelf, State.front]
      · simp [hg, hw, State.grantPeer]
    | none => cases hr : s.releasedSlot w <;> simp [hg, hr]

/-- The outcome of the contending head writes the claim queue (R100 to R102). -/
@[simp] theorem State.front_claimOutcome (s : State) (o : Occurrence) (given : Option Nat) :
    (s.claimOutcome o given).1.front = s.front ∧ (s.claimOutcome o given).1.roster = s.roster := by
  unfold State.claimOutcome
  cases s.contendingHead <;> exact ⟨rfl, rfl⟩

/-! ### The ANSWER slot -/

/-- The outcome of the contending answer writes the answer queue (R167). -/
@[simp] theorem State.front_answerOutcome (s : State) (o : Occurrence) :
    (s.answerOutcome o).1.front = s.front ∧ (s.answerOutcome o).1.roster = s.roster := by
  unfold State.answerOutcome
  split
  · exact ⟨rfl, rfl⟩
  · split_ifs <;> exact ⟨rfl, rfl⟩

/-- A heard ANSWER writes the job table (R143). -/
@[simp] theorem State.front_applyAnswer (s : State) (o : Occurrence) :
    (s.applyAnswer o).1.front = s.front ∧ (s.applyAnswer o).1.roster = s.roster := by
  unfold State.applyAnswer
  split <;> exact ⟨rfl, rfl⟩

/-! ### The start of a data slot -/

/-- The arbiter writes the job table (R137). -/
@[simp] theorem State.front_arbitrate (s : State) (n : Nat) :
    (s.arbitrate n).1.front = s.front ∧ (s.arbitrate n).1.roster = s.roster := by
  unfold State.arbitrate
  cases s.oldestQueued <;> exact ⟨rfl, rfl⟩

/-- The bulk sender writes the job table (R137 to R142). -/
@[simp] theorem State.front_bulkSupply (s : State) (n : Nat) :
    (s.bulkSupply n).1.front = s.front ∧ (s.bulkSupply n).1.roster = s.roster := by
  unfold State.bulkSupply
  split
  · simp
  · split_ifs <;> simp

/-- A stream channel writes itself (R114). -/
@[simp] theorem State.front_streamSupply (s : State) (c n : Nat) :
    (s.streamSupply c n).1.front = s.front ∧ (s.streamSupply c n).1.roster = s.roster := by
  unfold State.streamSupply
  cases (s.txAt c).queue <;> exact ⟨rfl, rfl⟩

/-- The supplier of an own slot writes its own block (R77). -/
@[simp] theorem State.front_supply (s : State) (n : Nat) :
    (s.supply n).1.front = s.front ∧ (s.supply n).1.roster = s.roster := by
  unfold State.supply
  split <;> simp

/-! ### The end of a data slot -/

/-- The silence run and its lapse write table and jobs (R75). -/
@[simp] theorem State.front_silenceStep (s : State) (o : Occurrence) :
    (s.silenceStep o).1.front = s.front ∧ (s.silenceStep o).1.roster = s.roster := by
  unfold State.silenceStep
  dsimp only
  split
  · exact ⟨rfl, rfl⟩
  · split_ifs <;> simp

@[simp] theorem State.front_correct (s : State) (o : Occurrence) : (s.correct o).1.front = s.front := by
  unfold State.correct
  split
  · rfl
  · dsimp only; split_ifs <;> simp

@[simp] theorem State.front_loseSlot (s : State) (o : Occurrence) : (s.loseSlot o).1.front = s.front := by
  unfold State.loseSlot
  dsimp only
  split
  · simp
  · split_ifs <;> simp

@[simp] theorem State.front_ownerSteps (s : State) (o : Occurrence) : (s.ownerSteps o).1.front = s.front := by
  unfold State.ownerSteps
  cases o.outcome with
  | none => simp
  | some x => cases x <;> simp [apply_ite, ite_self]

@[simp] theorem State.front_tableEnd (s : State) (o : Occurrence) : (s.tableEnd o).1.front = s.front := by
  unfold State.tableEnd
  split_ifs <;> simp

@[simp] theorem State.front_markPresent (s : State) (o : Occurrence) : (s.markPresent o).1.front = s.front := by
  unfold State.markPresent
  split_ifs
  · split
    · rfl
    · split_ifs <;> rfl
  · rfl

/-- Roster and table leave the front in either order (R67). -/
@[simp] theorem State.front_rosterAndTable (s : State) (o : Occurrence) : (s.rosterAndTable o).1.front = s.front := by
  unfold State.rosterAndTable
  split_ifs <;> simp

/-- What the windows do one after the other leaves the front and the roster. -/
theorem State.front_foldl_applyAct (a : Nat → WindowAct) (ns : List Nat) : ∀ s : State,
    (ns.foldl (fun t n => t.applyAct n (a n)) s).front = s.front ∧
    (ns.foldl (fun t n => t.applyAct n (a n)) s).roster = s.roster := by
  induction ns with
  | nil => exact fun s => ⟨rfl, rfl⟩
  | cons n ns ih => intro s; simp only [List.foldl_cons]; obtain ⟨hf, hr⟩ := ih (s.applyAct n (a n)); simp [hf, hr]

@[simp] theorem State.front_windowsEnd (s : State) (o : Occurrence) :
    (s.windowsEnd o).front = s.front ∧ (s.windowsEnd o).roster = s.roster :=
  State.front_foldl_applyAct _ _ s

/-- The receive channels that hear before a fault leave the front and the roster (R54). -/
@[simp] theorem State.front_hearBeforeFault (s : State) (o : Occurrence) :
    (s.hearBeforeFault o).front = s.front ∧ (s.hearBeforeFault o).roster = s.roster := by
  have hear : ∀ (cs : List Nat) (t : State),
      (cs.foldl (fun t c => if s.choice (4104 + c) then t.setRx c ((s.rxAt c).hear o) else t) t).front = t.front ∧
      (cs.foldl (fun t c => if s.choice (4104 + c) then t.setRx c ((s.rxAt c).hear o) else t) t).roster = t.roster := by
    intro cs
    induction cs with
    | nil => exact fun t => ⟨rfl, rfl⟩
    | cons c cs ih =>
      intro t
      simp only [List.foldl_cons]
      split_ifs
      · obtain ⟨hf, hr⟩ := ih (t.setRx c ((s.rxAt c).hear o)); simp [hf, hr]
      · exact ih t
  exact hear channelIds s

end Sys2Proof.Machine
end

