-- ==== Sys2Proof/Proofs/Quiet.lean ====
section
/-! What holds of the station between two occurrences and at the end of one, once the trunk port has read back its word:
the soundness of the station in the form in which the operations of the trunk keep it. -/

namespace Sys2Proof.Machine

/-! ### The trunk side without a word -/

/-- Station controller and frame timer agree, and the trunk port holds no word. -/
structure State.Quiet (u : State) : Prop where
  control : u.control.ok
  timer : u.timer.ok u.len
  holding : u.timer.holderFlag = true →
    u.control.state.onTrunk = true ∧ u.timer.holder = some u.self ∧ u.timer.missed = 0
  offTrunk : u.control.state.onTrunk = false → u.timer.holder = none ∧ u.timer.missed = 0
  alignment : u.alignmentOk
  silent : u.port.word = none

/-- The roster but for self's word on the line. -/
structure State.RosterFits (u : State) : Prop where
  entries : ∀ a < 31, (u.rosterEntry a).ok
  placeZero : u.rosterEntry 0 = RosterEntry.reset
  own : u.isPresent u.self = true ↔ u.control.state.serving = true
  cleared : u.control.state.onTrunk = false → ∀ a < 31, u.rosterEntry a = RosterEntry.reset

/-- A state that the trunk brings about: quiet, configured, its host port sound and its reset line released; and where `R`
holds, which is what is known of the roster at first, the roster fits. -/
structure State.Running (R : Prop) (u : State) : Prop where
  quiet : u.Quiet
  configured : u.control.state ≠ .off
  host : u.host.ok
  resetLine : u.pins.resetLine = false
  roster : R → u.RosterFits

/-- A happening that begins in the sound state `s` keeps the station sound and the roster sound. -/
def State.Kept (s t : State) : Prop := t.stationOk ∧ (s.limitOk → s.rosterOk → t.rosterOk)

/-! ### Entry and exit -/

/-- Outside OFF the reset line is released (R181). -/
theorem State.resetLine_of_configured {s : State} (h : s.stationOk) (hs : s.control.state ≠ .off) :
    s.pins.resetLine = false := by
  obtain ⟨-, -, -, -, -, -, hline⟩ := h
  by_contra hc
  exact hs (hline (by simpa using hc)).1

theorem State.rosterOk_fits {s : State} (h : s.rosterOk) : s.RosterFits := ⟨h.1, h.2.1, h.2.2.1, h.2.2.2.1⟩

/-- At the end of an occurrence the port has no word: a sound state is then quiet. -/
theorem State.running_portEnd {s : State} (h : s.stationOk) (hs : s.control.state ≠ .off) (bits : SlotBits) :
    (s.portEnd bits).Running s.rosterOk where
  quiet :=
    have ⟨hcontrol, htimer, ⟨hflag, hoff⟩, halign, _⟩ := h
    { control := hcontrol, timer := htimer, offTrunk := hoff, alignment := halign, silent := by simp
      holding := fun hf => ⟨(hflag hf).1, (hflag hf).2.1, (hflag hf).2.2.1⟩ }
  configured := hs
  host := h.2.2.2.2.2.1
  resetLine := s.resetLine_of_configured h hs
  roster := fun hr => let f := State.rosterOk_fits hr; ⟨f.entries, f.placeZero, f.own, f.cleared⟩

/-- Between two occurrences the port has no word: a sound state is then quiet. -/
theorem State.running_of_not_passing {s : State} (h : s.stationOk) (hs : s.control.state ≠ .off)
    (hp : s.timer.passing = false) : s.Running s.rosterOk where
  quiet :=
    have ⟨hcontrol, htimer, ⟨hflag, hoff⟩, halign, hword, _⟩ := h
    { control := hcontrol, timer := htimer, offTrunk := hoff, alignment := halign
      silent := by
        by_contra hc
        have := (hword (Option.isSome_iff_ne_none.mpr hc)).1
        simp [hp] at this
      holding := fun hf => ⟨(hflag hf).1, (hflag hf).2.1, (hflag hf).2.2.1⟩ }
  configured := hs
  host := h.2.2.2.2.2.1
  resetLine := s.resetLine_of_configured h hs
  roster := State.rosterOk_fits

variable {R : Prop} {s u v : State}

/-- A running state is sound between two occurrences. -/
theorem State.Running.stationOk (h : u.Running R) (hp : u.timer.passing = false) : u.stationOk :=
  ⟨h.quiet.control, h.quiet.timer,
    ⟨fun hf => ⟨(h.quiet.holding hf).1, (h.quiet.holding hf).2.1, (h.quiet.holding hf).2.2, fun hc => by simp [hp] at hc⟩,
      h.quiet.offTrunk⟩,
    h.quiet.alignment, fun hw => by simp [h.quiet.silent] at hw, h.host, fun hl => by simp [h.resetLine] at hl⟩

theorem State.Running.rosterOk (h : u.Running R) (hr : R) : u.rosterOk :=
  have f := h.roster hr
  ⟨f.entries, f.placeZero, f.own, f.cleared, by simp [State.rollWordOk, h.quiet.silent]⟩

theorem State.Running.kept (h : u.Running s.rosterOk) (hp : u.timer.passing = false) : s.Kept u :=
  ⟨h.stationOk hp, fun _ hr => h.rosterOk hr⟩

/-! ### What running does not depend on -/

/-- Running rests on five blocks and the roster alone. -/
theorem State.Running.congr (h : u.Running R) (hc : v.control = u.control) (ht : v.timer = u.timer)
    (hw : v.port.word = u.port.word) (hh : v.host = u.host) (hp : v.pins = u.pins) (hr : v.roster = u.roster) :
    v.Running R := by
  have hself : v.self = u.self := State.self_congr hc
  have hentry (a : Nat) : v.rosterEntry a = u.rosterEntry a := by simp [State.rosterEntry, hr]
  obtain ⟨⟨q1, q2, q3, q4, q5, q6⟩, hs, hhost, hline, hroster⟩ := h
  refine ⟨⟨?_, ?_, ?_, ?_, ?_, ?_⟩, ?_, ?_, ?_, fun hR => ?_⟩
  · rwa [hc]
  · rwa [ht, State.len_congr hc]
  · rwa [hc, ht, hself]
  · rwa [hc, ht]
  · rwa [State.alignmentOk, hc, ht]
  · rwa [hw]
  · rwa [hc]
  · rwa [hh]
  · rwa [hp]
  · obtain ⟨f1, f2, f3, f4⟩ := hroster hR
    refine ⟨?_, ?_, ?_, ?_⟩
    · simpa only [hentry] using f1
    · rwa [hentry]
    · rwa [State.isPresent, hentry, hself, hc]
    · simpa only [hc, hentry] using f4

/-- An operation that leaves front and roster keeps running. -/
theorem State.Running.of_front (h : u.Running R) (hf : v.front = u.front ∧ v.roster = u.roster) : v.Running R := by
  obtain ⟨hc, ht, hp, hh, hpins, -⟩ := State.front_eq_iff.mp hf.1
  exact h.congr hc ht (by rw [hp]) hh hpins hf.2

theorem State.Running.postAll (h : u.Running R) (es : List Event) : (u.postAll es).Running R := h.congr rfl rfl rfl rfl rfl rfl
theorem State.Running.postGroups (h : u.Running R) (base : Nat) (gs : List (List Event)) : (u.postGroups base gs).Running R :=
  h.congr rfl rfl rfl rfl rfl rfl
theorem State.Running.nextHappening (h : u.Running R) : u.nextHappening.Running R := h.congr rfl rfl rfl rfl rfl rfl

/-! ### Self and the frame length -/

/-- A configured station has an address and a frame length in their ranges (R35). -/
theorem State.config_ranges (hok : u.control.ok) (hs : u.control.state ≠ .off) :
    (1 ≤ u.self ∧ u.self ≤ 30) ∧ (u.len = 24 ∨ u.len = 48 ∨ u.len = 96) := by
  obtain ⟨hoff, hconfig, -⟩ := hok
  cases hc : u.control.config with
  | none => exact absurd (hoff.mpr hc) hs
  | some c =>
    have := hconfig c hc
    simpa [State.self, State.len, hc] using this

theorem State.Running.self_range (h : u.Running R) : 1 ≤ u.self ∧ u.self ≤ 30 :=
  (State.config_ranges h.quiet.control h.configured).1

theorem State.Running.len_ge (h : u.Running R) : 24 ≤ u.len := by
  have := (State.config_ranges h.quiet.control h.configured).2
  omega

/-! ### Session ends (R34, R50, R53) -/

/-- A roster at its reset values fits a station that is not serving. -/
theorem State.rosterFits_of_reset (hr : ∀ a < 31, u.rosterEntry a = RosterEntry.reset) (hs : u.control.state.serving = false) :
    u.RosterFits := by
  have hentry (a : Nat) : u.rosterEntry a = RosterEntry.reset := by
    rcases Nat.lt_or_ge a 31 with h | h
    · exact hr a h
    · exact Bank.get_out _ _ _ h
  refine ⟨fun a _ => ?_, hentry 0, ?_, fun _ a _ => hentry a⟩
  · rw [hentry]; decide
  · simp [State.isPresent, hentry, hs, RosterEntry.reset]

theorem State.rosterFits_of_fill (hr : u.roster = Bank.fill 31 RosterEntry.reset) (hs : u.control.state.serving = false) :
    u.RosterFits :=
  State.rosterFits_of_reset (fun a _ => by rw [State.rosterEntry, hr, Bank.get_fill]) hs

/-- A dropped frame timer is UNALIGNED with its frame number (R34). -/
theorem FrameTimer.dropped_ok {t : FrameTimer} {len m : Nat} (h : t.ok len) : t.dropped.ok m := by
  have hframe : t.frame < 240 := h.2.2.1
  simp [FrameTimer.ok, FrameTimer.dropped, FrameTimer.reset, hframe]

/-- Entry into FAULT (R53). -/
theorem State.Running.enterFault (h : u.Running R) (cause : FaultCause) : (u.enterFault cause).Running R := by
  obtain ⟨hoff, hconfig, -, hcount, -⟩ := h.quiet.control
  have hne : u.control.config ≠ none := fun hc => h.configured (hoff.mpr hc)
  rw [State.enterFault_eq]
  exact
    { quiet :=
        { control := ⟨by simp [hne], hconfig, by simp, hcount, by simp⟩
          timer := FrameTimer.dropped_ok h.quiet.timer
          holding := by simp [FrameTimer.dropped, FrameTimer.reset]
          offTrunk := by simp [FrameTimer.dropped, FrameTimer.reset]
          alignment := by simp [State.alignmentOk, StationState.onTrunk, FrameTimer.dropped, FrameTimer.reset]
          silent := rfl }
      configured := by simp
      host := h.host
      resetLine := h.resetLine
      roster := fun _ => State.rosterFits_of_fill rfl rfl }

/-- Entry into DETACHED from any state but FAULT (R50). -/
theorem State.Running.enterDetached (h : u.Running R) (hf : u.control.state ≠ .fault) (others : List (List Event)) :
    (u.enterDetached others).Running R := by
  obtain ⟨hoff, hconfig, hcause, hcount, -⟩ := h.quiet.control
  have hne : u.control.config ≠ none := fun hc => h.configured (hoff.mpr hc)
  rw [State.enterDetached_eq]
  exact
    { quiet :=
        { control := ⟨by simp [hne], hconfig, by simpa [hf] using hcause, hcount, by simp⟩
          timer := FrameTimer.dropped_ok h.quiet.timer
          holding := by simp [FrameTimer.dropped, FrameTimer.reset]
          offTrunk := by simp [FrameTimer.dropped, FrameTimer.reset]
          alignment := by simp [State.alignmentOk, StationState.onTrunk, FrameTimer.dropped, FrameTimer.reset]
          silent := rfl }
      configured := by simp
      host := h.host
      resetLine := h.resetLine
      roster := fun _ => State.rosterFits_of_fill rfl rfl }

/-- Entry into LISTEN with a dropped frame timer and a roster at its reset values, from any state but FAULT (R34). -/
theorem State.Running.listening (h : u.Running R) (hf : u.control.state ≠ .fault) {v : State}
    (hc : v.control = { u.control with state := .listen, listenCount := 0, observed := false, observing := false,
                                       noTrunkReady := true })
    (ht : v.timer = u.timer.dropped) (hw : v.port.word = none) (hhost : v.host = u.host) (hp : v.pins = u.pins)
    (hr : R → ∀ a < 31, v.rosterEntry a = RosterEntry.reset) : v.Running R := by
  obtain ⟨hoff, hconfig, hcause, -, -⟩ := h.quiet.control
  have hne : u.control.config ≠ none := fun hc => h.configured (hoff.mpr hc)
  have hl : v.control.state = .listen := by rw [hc]
  exact
    { quiet :=
        { control := by rw [hc]; exact ⟨by simp [hne], hconfig, by simpa [hf] using hcause, by simp, by simp⟩
          timer := by rw [ht]; exact FrameTimer.dropped_ok h.quiet.timer
          holding := by simp [ht, FrameTimer.dropped, FrameTimer.reset]
          offTrunk := by simp [ht, FrameTimer.dropped, FrameTimer.reset]
          alignment := by simp [State.alignmentOk, hl, ht, StationState.onTrunk, FrameTimer.dropped, FrameTimer.reset]
          silent := hw }
      configured := by simp [hl]
      host := by rw [hhost]; exact h.host
      resetLine := by rw [hp]; exact h.resetLine
      roster := fun hR => State.rosterFits_of_reset (hr hR) (by simp [hl, StationState.serving]) }

end Sys2Proof.Machine
end

