-- ==== Sys2Proof/Proofs/Trunk.lean ====
section
/-! What the frame timer, the roster and the station controller do at the end of an occurrence keeps the station running. -/

namespace Sys2Proof.Machine

variable {R : Prop} {s u : State} {o : Occurrence} {w : SlotWord}

/-! ### The frame timer -/

/-- What a heard MARK says is in range: its frame number and its sender (R6, R8). -/
structure SlotWord.MarkFits (w : SlotWord) : Prop where
  frame : w.markFrame < 240
  low : 1 ≤ w.sender
  high : w.sender ≤ 30

/-- A MARK that is not malformed fits. -/
theorem SlotWord.markFits_of_classify {bits : SlotBits} (h : (classify bits).acceptable .mark = some w) : w.MarkFits := by
  obtain ⟨hv, hk, hm⟩ := Heard.acceptable_eq_some.mp h
  obtain ⟨h1, h30⟩ := classify_sender hv
  rw [SlotWord.malformed, hk] at hm
  simp only [Bool.or_eq_false_iff, decide_eq_false_iff_not] at hm
  exact ⟨by omega, h1, h30⟩

/-- The occurrence of which a happening speaks is one of heard bits. -/
def Occurrence.OfBits (o : Occurrence) : Prop := ∃ bits, o.heard = classify bits

theorem State.occurrence_ofBits (s : State) (bits : SlotBits) : (s.occurrence bits).OfBits := ⟨bits, rfl⟩

theorem Occurrence.OfBits.markFits (ho : o.OfBits) (h : o.heard.acceptable .mark = some w) : w.MarkFits := by
  obtain ⟨bits, hb⟩ := ho
  exact SlotWord.markFits_of_classify (hb ▸ h)

/-- Another value of the frame timer on the trunk: ALIGNED, in its ranges, and holding as self or not at all. -/
theorem State.Running.setTimer (h : u.Running R) (hon : u.control.state.onTrunk = true) {t : FrameTimer}
    (ht : t.ok u.len) (ha : t.aligned = true)
    (hold : t.holderFlag = true → t.holder = some u.self ∧ t.missed = 0) : { u with timer := t }.Running R :=
  { h with
    quiet :=
      { h.quiet with
        timer := ht
        holding := fun hf => ⟨hon, hold hf⟩
        offTrunk := fun hoff => by simp [hon] at hoff
        alignment := ⟨fun _ => ha, fun _ => .inl hon⟩ }
    roster := fun hr => let f := h.roster hr; ⟨f.entries, f.placeZero, f.own, f.cleared⟩ }

/-- Another value of the frame timer in LISTEN: in its ranges, and no holder known (R34). -/
theorem State.Running.setListenTimer (h : u.Running R) (hl : u.control.state = .listen) {t : FrameTimer}
    (ht : t.ok u.len) (hflag : t.holderFlag = false) (hholder : t.holder = none) (hmissed : t.missed = 0) :
    { u with timer := t }.Running R :=
  { h with
    quiet :=
      { h.quiet with
        timer := ht
        holding := fun hf => by simp [hflag] at hf
        offTrunk := fun _ => ⟨hholder, hmissed⟩
        alignment := ⟨fun hon => by simp [hl, StationState.onTrunk] at hon, fun _ => .inr hl⟩ }
    roster := fun hr => let f := h.roster hr; ⟨f.entries, f.placeZero, f.own, f.cleared⟩ }

/-- In LISTEN no holder is known and no mark is missed (R34). -/
theorem State.Quiet.listen (h : u.Quiet) (hl : u.control.state = .listen) :
    u.timer.holderFlag = false ∧ u.timer.holder = none ∧ u.timer.missed = 0 := by
  have hoff : u.control.state.onTrunk = false := by simp [hl, StationState.onTrunk]
  refine ⟨?_, h.offTrunk hoff⟩
  by_contra hf
  have := (h.holding (by simpa using hf)).1
  simp [hoff] at this

/-- A frame timer aligned to a MARK is in its ranges (R18, R32). -/
theorem FrameTimer.alignedTo_ok (hw : w.MarkFits) {len : Nat} (hl : 24 ≤ len) : (FrameTimer.alignedTo w).ok len := by
  refine ⟨by simp [alignedTo], ?_, hw.frame, by simp [alignedTo], ?_, by simp [alignedTo]⟩
  · rintro p ⟨⟩; omega
  · rintro k ⟨⟩; exact ⟨hw.low, hw.high⟩

/-- The advanced frame timer is in its ranges (R11, R17). -/
theorem FrameTimer.advanced_ok {t : FrameTimer} {len slot : Nat} (h : t.ok len) (ha : t.aligned = true) (hl : 24 ≤ len) :
    (t.advanced len slot).ok len := by
  obtain ⟨-, -, hframe, hmissed, hholder, -⟩ := h
  unfold FrameTimer.advanced
  split_ifs with hlt
  · exact ⟨by simp [ha], by rintro p ⟨⟩; exact hlt, hframe, hmissed, hholder, by simp⟩
  · exact ⟨by simp [ha], by rintro p ⟨⟩; omega, Nat.mod_lt _ (by decide), hmissed, hholder, by simp⟩

@[simp] theorem FrameTimer.advanced_passing (t : FrameTimer) (len slot : Nat) : (t.advanced len slot).passing = false := by
  unfold FrameTimer.advanced; split_ifs <;> rfl
@[simp] theorem FrameTimer.advanced_aligned (t : FrameTimer) (len slot : Nat) :
    (t.advanced len slot).aligned = t.aligned := by unfold FrameTimer.advanced; split_ifs <;> rfl
@[simp] theorem FrameTimer.advanced_holder (t : FrameTimer) (len slot : Nat) : (t.advanced len slot).holder = t.holder := by
  unfold FrameTimer.advanced; split_ifs <;> rfl
@[simp] theorem FrameTimer.advanced_holderFlag (t : FrameTimer) (len slot : Nat) :
    (t.advanced len slot).holderFlag = t.holderFlag := by unfold FrameTimer.advanced; split_ifs <;> rfl
@[simp] theorem FrameTimer.advanced_missed (t : FrameTimer) (len slot : Nat) : (t.advanced len slot).missed = t.missed := by
  unfold FrameTimer.advanced; split_ifs <;> rfl

/-- Another state of the observation: the station state and its record stay (R41). -/
theorem State.Running.setControl (h : u.Running R) {c : StationControl} (hst : c.state = u.control.state)
    (hconf : c.config = u.control.config) (hcause : c.cause = u.control.cause)
    (hcount : c.listenCount ≤ 3)
    (hobs : c.observing = true → c.state = .joining ∧ c.observed = false) : { u with control := c }.Running R := by
  have hself : ({ u with control := c } : State).self = u.self := by simp [State.self, hconf]
  have hlen : ({ u with control := c } : State).len = u.len := by simp [State.len, hconf]
  obtain ⟨⟨⟨c1, c2, c3, -, -⟩, q2, q3, q4, q5, q6⟩, hs, hhost, hline, hroster⟩ := h
  refine ⟨⟨⟨?_, ?_, ?_, hcount, hobs⟩, ?_, ?_, ?_, ?_, q6⟩, ?_, hhost, hline, fun hR => ?_⟩
  · rwa [hst, hconf]
  · rwa [hconf]
  · rwa [hcause, hst]
  · rwa [hlen]
  · rwa [hself, hst]
  · rwa [hst]
  · rwa [State.alignmentOk, hst]
  · rwa [hst]
  · obtain ⟨f1, f2, f3, f4⟩ := hroster hR
    refine ⟨f1, f2, ?_, ?_⟩
    · rw [hself, hst]; exact f3
    · rw [hst]; exact f4

/-- The realignment at a MARK (R32). -/
theorem State.Running.realign (h : u.Running R) (hon : u.control.state.onTrunk = true) (hw : w.MarkFits) :
    (u.realign w).Running R := by
  have h1 := h.setTimer hon (FrameTimer.alignedTo_ok hw h.len_ge) rfl (by simp [FrameTimer.alignedTo])
  unfold State.realign
  split_ifs with hj
  · exact h1.setControl rfl rfl rfl h.quiet.control.2.2.2.1 (by simp)
  · exact h1.setControl rfl rfl rfl h.quiet.control.2.2.2.1 h.quiet.control.2.2.2.2

/-- The passage to the next occurrence (R17, R32, R41). -/
theorem State.Running.passOn (h : u.Running R) (hon : u.control.state.onTrunk = true) (ho : o.OfBits) :
    (u.passOn o).Running R := by
  cases hr : u.realignsTo o with
  | some w =>
    obtain ⟨hv, hk, hm, -⟩ := State.realignsTo_eq_some hr
    rw [State.passOn_some hr]
    exact h.realign hon (ho.markFits (Heard.acceptable_eq_some.mpr ⟨hv, hk, hm⟩))
  | none =>
    have ha : u.timer.aligned = true := h.quiet.alignment.1 hon
    have h1 := h.setTimer hon (FrameTimer.advanced_ok (slot := o.slot) h.quiet.timer ha h.len_ge) (by simp [ha])
      (by simpa using fun hf => (h.quiet.holding hf).2)
    rw [State.passOn_none hr]
    have hobs := h.quiet.control.2.2.2.2
    unfold StationControl.lastSlot
    split_ifs
    · exact h1.setControl rfl rfl rfl h.quiet.control.2.2.2.1 hobs
    · exact h1.setControl rfl rfl rfl h.quiet.control.2.2.2.1 (by simp)
    · exact h1.setControl rfl rfl rfl h.quiet.control.2.2.2.1 hobs

/-- After the passage no occurrence passes (R17). -/
@[simp] theorem State.passOn_passing (u : State) (o : Occurrence) : (u.passOn o).timer.passing = false := by
  unfold State.passOn
  split
  · rfl
  · simp

/-- The end of an occurrence with what its blocks post. -/
theorem State.Running.ends (h : u.Running s.rosterOk) (hon : u.control.state.onTrunk = true) (ho : o.OfBits) :
    s.Kept ((u.passOn o).nextHappening) :=
  (h.passOn hon ho).nextHappening.kept (by simp)

/-- Self takes up holding (R28, R29, R31). -/
theorem State.Running.hold (h : u.Running R) (hon : u.control.state.onTrunk = true) : u.hold.Running R := by
  obtain ⟨halign, hpos, hframe, -, -, hpass⟩ := h.quiet.timer
  refine h.setTimer hon ⟨halign, hpos, hframe, by simp, ?_, hpass⟩ (h.quiet.alignment.1 hon) (fun _ => ⟨rfl, rfl⟩)
  rintro k ⟨⟩
  exact h.self_range

/-! ### The roster -/

/-- A roster entry written, with the own entry PRESENT as it was. -/
theorem State.Running.setRoster (h : u.Running R) (hon : u.control.state.onTrunk = true) {a : Nat} {e : RosterEntry}
    (ha : a ≠ 0) (he : u.RosterFits → e.ok) (hself : a = u.self → e.present = u.isPresent a) :
    (u.setRoster a e).Running R := by
  refine { h with quiet := ?_, roster := fun hr => ?_ }
  · exact { h.quiet with }
  · have f := h.roster hr
    have hself31 : u.self < 31 := by have := h.self_range; omega
    refine ⟨fun b hb => ?_, ?_, ?_, fun hoff => by simp [hon] at hoff⟩
    · rw [State.rosterEntry_setRoster]
      split_ifs
      · exact he f
      · exact f.entries b hb
    · rw [State.rosterEntry_setRoster, if_neg (by tauto)]
      exact f.placeZero
    · rw [State.isPresent, State.setRoster_self, State.rosterEntry_setRoster]
      split_ifs with hc
      · rw [hself hc.1, hc.1]; exact f.own
      · exact f.own

end Sys2Proof.Machine
end

