-- ==== Sys2Proof/Proofs/SlotStarts.lean ====
section
/-! Every command of the trunk keeps the station sound: hunting, the listen window, and the starts and ends of slots. -/

namespace Sys2Proof.Machine

variable {R : Prop} {s u : State} {o : Occurrence} {w : SlotWord}

/-! ### Outcomes -/

/-- Whatever state an outcome answers, the station is kept sound there. -/
def State.Keeps (s : State) (x : Host.Outcome State Fault Refusal) : Prop := ∀ t, x = .next t → s.Kept t

theorem State.Kept.next {t : State} (h : s.Kept t) : s.Keeps (.next t) := by rintro _ ⟨⟩; exact h

theorem State.keeps_self (h : s.stationOk) : s.Keeps (.next s) := State.Kept.next ⟨h, fun _ hr => hr⟩

theorem State.keeps_fault (f : Fault) : s.Keeps (.fault f) := by rintro t ⟨⟩

/-- A command that acts on a condition and is idle otherwise. -/
theorem State.keeps_ite (h : s.stationOk) {p : Prop} [Decidable p] {x : Host.Outcome State Fault Refusal}
    (hx : p → s.Keeps x) : s.Keeps (if p then x else .next s) := by
  split_ifs with hp
  · exact hx hp
  · exact State.keeps_self h

/-! ### Occasions -/

/-- An aligned station is on the trunk or founding in LISTEN. -/
theorem State.state_of_aligned (h : s.stationOk) (ha : s.timer.aligned = true) :
    s.control.state.onTrunk = true ∨ s.control.state = .listen := by
  obtain ⟨-, -, -, ⟨-, hal⟩, -⟩ := h
  exact hal ha

theorem StationState.ne_off_of_onTrunk {st : StationState} (h : st.onTrunk = true) : st ≠ .off := by rintro rfl; cases h
theorem StationState.ne_fault_of_onTrunk {st : StationState} (h : st.onTrunk = true) : st ≠ .fault := by rintro rfl; cases h

theorem State.configured_of_aligned (h : s.stationOk) (ha : s.timer.aligned = true) : s.control.state ≠ .off := by
  rcases s.state_of_aligned h ha with hon | hl
  · exact StationState.ne_off_of_onTrunk hon
  · simp [hl]

/-- A slot end comes in its occurrence. -/
theorem State.passes_of_endsAt {test : Nat → Bool} (h : s.endsAt test = true) : ∃ p, s.passes p ∧ test p = true := by
  simp only [State.endsAt, Bool.and_eq_true] at h
  obtain ⟨⟨ha, hp⟩, ht⟩ := h
  cases hpos : s.timer.position with
  | none => simp [hpos] at ht
  | some p => exact ⟨p, ⟨ha, hp, hpos⟩, by simpa [hpos] using ht⟩

/-- A slot start comes between two occurrences. -/
theorem State.awaits_of_startsAt {test : Nat → Bool} (h : s.startsAt test = true) : ∃ p, s.awaits p ∧ test p = true := by
  simp only [State.startsAt, Bool.and_eq_true, Bool.not_eq_true'] at h
  obtain ⟨⟨ha, hp⟩, ht⟩ := h
  cases hpos : s.timer.position with
  | none => simp [hpos] at ht
  | some p => exact ⟨p, ⟨ha, hp, hpos⟩, by simpa [hpos] using ht⟩

/-- The fault found at the end of an occurrence (R52). -/
theorem State.Running.faultKept (h : u.Running s.rosterOk) (cause : FaultCause) : s.Kept (u.enterFault cause) :=
  (h.enterFault cause).kept rfl

/-! ### Entry into JOINING (R18, R20, R40) -/

/-- Off the trunk the roster is at its reset values, and so fits JOINING. -/
theorem State.RosterFits.toJoining {v : State} (f : u.RosterFits) (hoff : u.control.state.onTrunk = false)
    (hr : v.roster = u.roster) (hv : v.control.state = .joining) (hself : v.self = u.self) : v.RosterFits := by
  have hentry (a : Nat) : v.rosterEntry a = u.rosterEntry a := by simp [State.rosterEntry, hr]
  obtain ⟨f1, f2, f3, -⟩ := f
  refine ⟨by simpa only [hentry] using f1, by rwa [hentry], ?_, by simp [hv, StationState.onTrunk]⟩
  rw [State.isPresent, hentry, hself, hv]
  have : u.control.state.serving = false := by
    revert hoff; cases u.control.state <;> simp [StationState.onTrunk, StationState.serving]
  rw [this] at f3
  simpa [StationState.serving, State.isPresent] using f3

/-- From LISTEN to JOINING, with a frame timer in its ranges (R40). -/
theorem State.Running.toJoining (h : u.Running R) (hl : u.control.state = .listen) {t : FrameTimer} (ht : t.ok u.len)
    (ha : t.aligned = true) (hold : t.holderFlag = true → t.holder = some u.self ∧ t.missed = 0) :
    { u.toJoining with timer := t }.Running R := by
  obtain ⟨⟨⟨c1, c2, c3, c4, -⟩, -, -, -, -, q6⟩, -, hhost, hline, hroster⟩ := h
  have hne : u.control.config ≠ none := fun hc => by simp [hl] at c1; exact c1 hc
  exact
    { quiet :=
        { control := ⟨by simpa using hne, c2, by simpa [hl] using c3, c4, by simp⟩
          timer := ht
          holding := fun hf => ⟨rfl, hold hf⟩
          offTrunk := by simp [StationState.onTrunk]
          alignment := ⟨fun _ => ha, fun _ => .inl rfl⟩
          silent := q6 }
      configured := by simp
      host := hhost
      resetLine := hline
      roster := fun hR => (hroster hR).toJoining (by simp [hl, StationState.onTrunk]) rfl rfl rfl }

/-- The frame timer aligns to a MARK and the station enters JOINING (R18, R21). -/
theorem State.Running.joinOn (h : u.Running R) (hl : u.control.state = .listen) (hw : w.MarkFits) : (u.joinOn w).Running R :=
  ((h.toJoining hl (FrameTimer.alignedTo_ok hw h.len_ge) rfl (by simp [FrameTimer.alignedTo])).postGroups ..).nextHappening

/-! ### Hunting (R12, R18) and the listen window (R20) -/

theorem State.hunting_iff : s.hunting = true ↔ s.control.state = .listen ∧ s.timer.aligned = false := by simp [State.hunting]

/-- A hunting station is running. -/
theorem State.running_of_hunting (h : s.stationOk) (hh : s.hunting = true) : s.Running s.rosterOk := by
  obtain ⟨hl, ha⟩ := State.hunting_iff.mp hh
  refine State.running_of_not_passing h (by simp [hl]) ?_
  by_contra hp
  have := h.2.1.2.2.2.2.2 (by simpa using hp)
  simp [ha] at this

/-- No occurrence passes at a hunting station. -/
theorem State.Running.not_passing_of_unaligned (h : u.Running R) (ha : u.timer.aligned = false) : u.timer.passing = false := by
  by_contra hp
  have := h.quiet.timer.2.2.2.2.2 (by simpa using hp)
  simp [ha] at this

theorem execHuntingCandidate_keeps (h : s.stationOk) (bits : SlotBits) : s.Keeps (execHuntingCandidate bits s) := by
  refine State.keeps_ite h fun hh => State.Kept.next ?_
  have hr := State.running_of_hunting h hh
  obtain ⟨hl, ha⟩ := State.hunting_iff.mp hh
  have h1 : ({ s with port := { s.port with window := some bits } } : State).Running s.rosterOk :=
    hr.congr rfl rfl rfl rfl rfl rfl
  unfold State.candidateHeard
  dsimp only
  split
  · exact h1.kept (hr.not_passing_of_unaligned ha)
  · rename_i w hw
    split_ifs
    · exact h1.faultKept _
    · exact (h1.joinOn hl (SlotWord.markFits_of_classify hw)).kept rfl
    · exact h1.faultKept _

/-- Founding begins, or NO_TRUNK is posted once (R20). -/
theorem State.Running.windowPassed (h : u.Running s.rosterOk) (hl : u.control.state = .listen)
    (hp : u.timer.passing = false) : s.Kept u.windowPassed := by
  obtain ⟨hflag, hholder, hmissed⟩ := h.quiet.listen hl
  have hlen := h.len_ge
  unfold State.windowPassed
  split_ifs
  · have ht : ({ u.timer with aligned := true, position := some 0, passing := false, frame := 0 } : FrameTimer).ok u.len :=
      ⟨by simp, by rintro p ⟨⟩; omega, by simp, by simp [hmissed], by simp [hholder], by simp⟩
    exact ((h.setListenTimer hl ht hflag hholder hmissed).congr rfl rfl rfl rfl rfl rfl : u.found.Running s.rosterOk).kept rfl
  · have h1 := h.setControl (c := { u.control with noTrunkReady := false }) rfl rfl rfl h.quiet.control.2.2.2.1
      h.quiet.control.2.2.2.2
    exact (h1.congr rfl rfl rfl rfl rfl rfl : State.Running _ { u with
      control := { u.control with noTrunkReady := false }
      events := u.events.post (Event.of .noTrunk u.timer.frame) }).kept hp
  · exact h.kept hp

/-- A frame time of the listen window (R20). -/
theorem State.frameTimePassed_kept (h : s.stationOk) (hh : s.hunting = true) (hc : s.control.listenCount < 3) :
    s.Kept s.frameTimePassed := by
  have hr := State.running_of_hunting h hh
  obtain ⟨hl, ha⟩ := State.hunting_iff.mp hh
  have hp := hr.not_passing_of_unaligned ha
  have h1 := hr.setControl (c := { s.control with listenCount := s.control.listenCount + 1 }) rfl rfl rfl
    (by dsimp only; omega) hr.quiet.control.2.2.2.2
  unfold State.frameTimePassed
  dsimp only
  split_ifs
  · exact h1.windowPassed hl hp
  · exact h1.kept hp

theorem execListenWindowFrameTime_keeps (h : s.stationOk) : s.Keeps (execListenWindowFrameTime s) := by
  refine State.keeps_ite h fun hh => State.Kept.next ?_
  simp only [Bool.and_eq_true, decide_eq_true_eq] at hh
  exact State.frameTimePassed_kept h hh.1 hh.2

theorem execListenWindowPasses_keeps (h : s.stationOk) : s.Keeps (execListenWindowPasses s) := by
  refine State.keeps_ite h fun hh => State.Kept.next ?_
  simp only [Bool.and_eq_true, beq_iff_eq] at hh
  exact State.frameTimePassed_kept h hh.1 (by omega)

/-! ### Slot starts -/

/-- Between two occurrences an aligned station is running. -/
theorem State.running_of_awaits {p : Nat} (h : s.stationOk) (ha : s.awaits p) : s.Running s.rosterOk :=
  State.running_of_not_passing h (State.configured_of_aligned h ha.1) ha.2.1

/-- An occurrence begins: in LISTEN a word is driven in slot 0 alone, in JOINING in slot 0 or after the observation in slot
1, a holder drives its MARK, and a ROLL announces at most 16 slots (R25, R38, R71). -/
theorem State.Running.begins {p : Nat} {w : Option SlotWord} (h : u.Running s.rosterOk) (ha : u.awaits p)
    (hlisten : u.control.state = .listen → w.isSome → p = 0)
    (hjoining : u.control.state = .joining → w.isSome → p = 0 ∨ p = 1 ∧ u.control.observed = true)
    (hholder : u.timer.holderFlag = true → p = 0 → w.isSome)
    (hroll : s.limitOk → p = 1 → ∀ x ∈ w, sentRollHeld x.bits ≤ 16) : s.Kept (u.beginWith w) := by
  obtain ⟨haligned, hpassing, hposition⟩ := ha
  have hword : (u.beginWith w).port.word = w.map SlotWord.bits := rfl
  obtain ⟨t1, t2, t3, t4, t5, -⟩ := h.quiet.timer
  refine ⟨⟨h.quiet.control, ⟨t1, t2, t3, t4, t5, fun _ => haligned⟩, ⟨fun hf => ?_, h.quiet.offTrunk⟩, h.quiet.alignment,
    fun hw => ?_, h.host, fun hl => ?_⟩, fun hlim hr => ?_⟩
  · obtain ⟨hon, hself, hmissed⟩ := h.quiet.holding hf
    refine ⟨hon, hself, hmissed, fun _ hpos => ?_⟩
    have h0 : p = 0 := Option.some.inj (hposition.symm.trans hpos)
    rw [hword, Option.isSome_map]
    exact hholder hf h0
  · rw [hword, Option.isSome_map] at hw
    refine ⟨rfl, fun hl => ?_, fun hj => ?_⟩
    · exact hposition.trans (congrArg some (hlisten hl hw))
    · rcases hjoining hj hw with h0 | ⟨h1, hobs⟩
      · exact .inl (hposition.trans (congrArg some h0))
      · exact .inr ⟨hposition.trans (congrArg some h1), hobs⟩
  · exact absurd hl (by simp [h.resetLine])
  · have f := h.roster hr
    refine ⟨f.entries, f.placeZero, f.own, f.cleared, ?_⟩
    rw [State.rollWordOk, hword]
    cases w with
    | none => rfl
    | some x =>
      by_cases h1 : p = 1
      · have := hroll hlim h1 x rfl
        simp [this]
      · simp [hposition, h1]

/-- An occurrence that begins without a word, at a position other than 0. -/
theorem State.Running.beginsSilent {p : Nat} (h : u.Running s.rosterOk) (ha : u.awaits p) (hp : p ≠ 0) :
    s.Kept (u.beginWith none) :=
  h.begins ha (by simp) (by simp) (fun _ h0 => absurd h0 hp) (by simp)

/-- An occurrence past slot 1 of a serving station, with whatever word. -/
theorem State.Running.beginsServing {p : Nat} {w : Option SlotWord} (h : u.Running s.rosterOk) (ha : u.awaits p)
    (hs : u.control.state.serving = true) (hp : 2 ≤ p) : s.Kept (u.beginWith w) :=
  h.begins ha (fun hl => by simp [hl, StationState.serving] at hs) (fun hj => by simp [hj, StationState.serving] at hs)
    (fun _ h0 => by omega) (fun _ h1 => by omega)

theorem execMarkSlotStart_keeps (h : s.stationOk) : s.Keeps (execMarkSlotStart s) := by
  refine State.keeps_ite h fun hh => State.Kept.next ?_
  obtain ⟨p, ha, hp⟩ := State.awaits_of_startsAt hh
  have hp0 : p = 0 := by simpa using hp
  have hr := State.running_of_awaits h ha
  have hc : ({ s with control := s.control.frameBegins } : State).Running s.rosterOk := by
    unfold StationControl.frameBegins
    split_ifs with hj
    · exact hr.setControl rfl rfl rfl hr.quiet.control.2.2.2.1 (fun _ => hj)
    · exact hr
  refine hc.begins (w := s.markToSend) ha (fun _ _ => hp0) (fun _ _ => .inl hp0) (fun hf _ => ?_) (fun _ h1 => by omega)
  have hon := (hr.quiet.holding hf).1
  simp [State.markToSend, hon, show s.timer.holderFlag = true from hf]

/-- The held count in the bits of a word is that of its body. -/
theorem sentRollHeld_bits (w : SlotWord) : sentRollHeld w.bits = w.rollHeld := by
  rw [sentRollHeld, SlotWord.rollHeld, SlotWord.bits, BitVec.extractLsb'_append_eq_of_le (by decide), SlotWord.payload,
    BitVec.extractLsb'_append_eq_of_add_le (by decide)]

/-- Self's ROLL announces its holdings (R59). -/
theorem State.rollToSend_eq_some {x : SlotWord} (h : s.rollToSend = some x) :
    ∃ leaving, x = rollWord s.self leaving s.holdings s.eligible := by
  by_cases ht : turnOf s.timer.frame = s.self
  · rw [State.rollToSend, if_pos ht] at h
    split at h
    · split_ifs at h
      exact ⟨false, (Option.some.inj h).symm⟩
    · exact ⟨false, (Option.some.inj h).symm⟩
    · exact ⟨true, (Option.some.inj h).symm⟩
    all_goals cases h
  · rw [State.rollToSend, if_neg ht] at h
    cases h

/-- In JOINING self's ROLL comes after the observation (R42). -/
theorem State.observed_of_rollToSend (hj : s.control.state = .joining) (h : s.rollToSend.isSome) :
    s.control.observed = true := by
  by_contra ho
  simp [State.rollToSend, hj, ho] at h

theorem execRollSlotStart_keeps (h : s.stationOk) : s.Keeps (execRollSlotStart s) := by
  refine State.keeps_ite h fun hh => State.Kept.next ?_
  obtain ⟨p, ha, hp⟩ := State.awaits_of_startsAt hh
  have hp1 : p = 1 := by simpa using hp
  refine (State.running_of_awaits h ha).begins ha (fun hl hw => ?_)
    (fun hj hw => .inr ⟨hp1, State.observed_of_rollToSend hj hw⟩) (fun _ h0 => by omega) (fun hlim _ x hx => ?_)
  · simp [State.rollToSend, hl] at hw
  · have hheld : s.holdings ≤ 16 := (Nat.le_add_right _ _).trans hlim.1
    obtain ⟨leaving, rfl⟩ := State.rollToSend_eq_some hx
    rw [sentRollHeld_bits, rollWord_rollHeld _ _ _ _ (by omega)]
    exact hheld

/-- The settle pass leaves the front but for its events and the word it hands over (R98). -/
theorem execClaimSlotStart_keeps (h : s.stationOk) : s.Keeps (execClaimSlotStart s) := by
  refine State.keeps_ite h fun hh => ?_
  obtain ⟨p, ha, hp⟩ := State.awaits_of_startsAt hh
  have hp2 : p = 2 := by simpa using hp
  have hr := State.running_of_awaits h ha
  split_ifs with hm
  · have h1 : ({ s.postAll (s.settleEvents s.claims.records) with
        claims := { s.claims with records := s.unsettled s.claims.records
                                  contending := !(s.unsettled s.claims.records).isEmpty } } : State).Running s.rosterOk :=
      hr.congr rfl rfl rfl rfl rfl rfl
    exact (h1.beginsServing (w := (s.unsettled s.claims.records).head?.map s.claimToSend) ha
      (by simp [hm, StationState.serving]) (by omega)).next
  · exact (hr.beginsSilent ha (by omega)).next

theorem execAnswerSlotStart_keeps (h : s.stationOk) : s.Keeps (execAnswerSlotStart s) := by
  refine State.keeps_ite h fun hh => State.Kept.next ?_
  obtain ⟨p, ha, hp⟩ := State.awaits_of_startsAt hh
  have hp3 : p = 3 := by simpa using hp
  have hr := State.running_of_awaits h ha
  have h1 : ({ s with answers := { s.answers with contending := s.answerToSend.isSome } } : State).Running s.rosterOk :=
    hr.congr rfl rfl rfl rfl rfl rfl
  by_cases hs : s.control.state.serving = true
  · exact h1.beginsServing (w := s.answerToSend) ha hs (by omega)
  · have hnone : s.answerToSend = none := by simp [State.answerToSend, hs]
    have := h1.beginsSilent ha (by omega)
    rw [State.startAnswerSlot]
    rwa [hnone] at this ⊢

/-- The start of a data slot: an own slot's word in MEMBER or LEAVING, else none (R77). -/
theorem State.dataStart_keeps {n : Nat} (h : s.stationOk) (ha : s.awaits n) (hn : 4 ≤ n) : s.Keeps (s.dataStart n) := by
  have hr := State.running_of_awaits h ha
  have hstart : s.Kept (s.startDataSlot n) := by
    unfold State.startDataSlot
    split_ifs with hs
    · have hserving : s.control.state.serving = true := (Bool.and_eq_true_iff.mp hs).1
      obtain ⟨hc, ht, -⟩ := State.front_eq_iff.mp (s.front_supply n).1
      refine ((hr.of_front (s.front_supply n)).postAll _).beginsServing (p := n) ?_ ?_ (by omega)
      · simpa only [State.awaits, State.postAll_timer, ht] using ha
      · rwa [State.postAll_control, hc]
    · exact hr.beginsSilent ha (by omega)
  unfold State.dataStart
  split
  · split_ifs
    · exact hstart.next
    · exact State.keeps_fault _
  · exact hstart.next

/-- The data slot that may start is awaited. -/
theorem State.startingSlot_eq_some {n : Nat} (h : s.startingSlot = some n) : s.awaits n ∧ 4 ≤ n := by
  unfold State.startingSlot at h
  split_ifs at h with hs
  obtain ⟨p, ha, hp⟩ := State.awaits_of_startsAt hs
  obtain rfl : p = n := Option.some.inj (ha.2.2.symm.trans h)
  simp only [isDataSlot, Bool.and_eq_true, decide_eq_true_eq] at hp
  exact ⟨ha, hp.1⟩

theorem execDataSlotStart_keeps (h : s.stationOk) : s.Keeps (execDataSlotStart s) := by
  unfold execDataSlotStart
  split
  · rename_i n hn
    exact State.dataStart_keeps h (State.startingSlot_eq_some hn).1 (State.startingSlot_eq_some hn).2
  · exact State.keeps_self h

theorem execTailResend_keeps (h : s.stationOk) : s.Keeps (execTailResend s) := by
  unfold execTailResend
  split
  · rename_i j n _ hn
    exact State.keeps_ite h fun _ => State.dataStart_keeps h (State.startingSlot_eq_some hn).1 (State.startingSlot_eq_some hn).2
  · exact State.keeps_self h

theorem execJobNoAnswer_keeps (h : s.stationOk) : s.Keeps (execJobNoAnswer s) := by
  unfold execJobNoAnswer
  split
  · rename_i j n _ hn
    split_ifs
    · exact State.keeps_self h
    · exact State.dataStart_keeps h (State.startingSlot_eq_some hn).1 (State.startingSlot_eq_some hn).2
  · exact State.keeps_self h

end Sys2Proof.Machine
end

