-- ==== Sys2Proof/Proofs/SlotEnds.lean ====
section
/-! The ends of slots keep the station sound. -/

namespace Sys2Proof.Machine

variable {R : Prop} {s u : State} {o : Occurrence} {w : SlotWord}

/-! ### The end of slot 0 (R21 to R30) -/

/-- The end of the founding slot 0 (R21). -/
theorem State.Running.foundingEnd (h : u.Running s.rosterOk) (hl : u.control.state = .listen) (ha : u.timer.aligned = true)
    (ho : o.OfBits) : s.Kept (u.foundingEnd o) := by
  obtain ⟨hflag, hholder, hmissed⟩ := h.quiet.listen hl
  obtain ⟨-, -, hframe, -, -, -⟩ := h.quiet.timer
  have hlen := h.len_ge
  unfold State.foundingEnd
  split_ifs
  · split
    · rename_i w hw
      exact (h.joinOn hl (ho.markFits hw)).kept rfl
    · have ht : ({ u.timer with aligned := false, position := none, passing := false, frame := 0 } : FrameTimer).ok u.len :=
        ⟨by simp, by simp, by simp, by simp [hmissed], by simp [hholder], by simp⟩
      have h1 := (h.setListenTimer hl ht hflag hholder hmissed).setControl (c := { u.control with listenCount := 0 })
        rfl rfl rfl (by simp) h.quiet.control.2.2.2.2
      exact (h1.congr rfl rfl rfl rfl rfl rfl : State.Running _ { u with
        timer := { u.timer with aligned := false, position := none, passing := false, frame := 0 }
        control := { u.control with listenCount := 0 }
        port := { u.port with window := none } }).kept rfl
  · have ht : ({ u.timer with holderFlag := true, holder := some u.self, position := some 1, passing := false } :
        FrameTimer).ok u.len :=
      ⟨by simp [ha], by rintro p ⟨⟩; omega, hframe, by simp [hmissed], by rintro k ⟨⟩; exact h.self_range, by simp⟩
    exact ((h.toJoining hl ht ha (fun _ => ⟨rfl, hmissed⟩)).postGroups ..).nextHappening.kept rfl

/-- A holder whose MARK was displaced yields (R26, R27); otherwise the frame timer stays. -/
theorem State.Running.holderEnd (h : u.Running R) (hon : u.control.state.onTrunk = true) (ho : o.OfBits) :
    (u.holderEnd o).1.Running R ∧ (u.holderEnd o).1.control = u.control := by
  have ha := h.quiet.alignment.1 hon
  obtain ⟨halign, hpos, hframe, -, hholder, hpass⟩ := h.quiet.timer
  unfold State.holderEnd
  split_ifs
  · split
    · rename_i w hw
      have hfits := ho.markFits hw
      split_ifs
      · refine ⟨h.setTimer hon ⟨halign, hpos, hfits.frame, by simp, ?_, hpass⟩ ha (by simp), rfl⟩
        rintro k ⟨⟩; exact ⟨hfits.low, hfits.high⟩
      · exact ⟨h.setTimer hon ⟨halign, hpos, hframe, by simp, by simp, hpass⟩ ha (by simp), rfl⟩
    · exact ⟨h.setTimer hon ⟨halign, hpos, hframe, by simp, by simp, hpass⟩ ha (by simp), rfl⟩
  · exact ⟨h, rfl⟩

/-- A station that does not hold takes a MARK (R22). -/
theorem State.Running.follow (h : u.Running R) (hon : u.control.state.onTrunk = true) (hf : u.timer.holderFlag = false)
    (hw : w.MarkFits) : (u.follow w).Running R := by
  obtain ⟨halign, hpos, -, -, -, hpass⟩ := h.quiet.timer
  refine h.setTimer hon ⟨halign, hpos, hw.frame, by simp, ?_, hpass⟩ (h.quiet.alignment.1 hon) (by simp [hf])
  rintro k ⟨⟩
  exact ⟨hw.low, hw.high⟩

/-- The missed-mark count raised, up to 4 (R24). -/
def State.countMissed (u : State) : State :=
  { u with timer := { u.timer with missed := if u.timer.missed < 4 then u.timer.missed + 1 else 4 } }

/-- A missed mark raises the count, and the station may take up holding (R24, R28, R29). -/
theorem State.missMark_cases (u : State) : u.missMark.1 = u.countMissed ∨ u.missMark.1 = u.countMissed.hold := by
  have hm : u.missMark =
      if u.control.state = .member ∧ u.timer.missed = 1 then u.countMissed.runCandidate
      else if u.control.state = .member ∧ u.timer.missed = 3 ∧ u.eligible = true ∧ u.timer.holderFlag = false then
        (u.countMissed.hold, [holderChanged u.timer.frame (some u.self)])
      else (u.countMissed, []) := rfl
  rw [hm]
  split_ifs
  · unfold State.runCandidate
    split_ifs
    · exact .inr rfl
    · exact .inl rfl
  · exact .inr rfl
  · exact .inl rfl

/-- A station that does not hold misses a mark. -/
theorem State.Running.missMark (h : u.Running R) (hon : u.control.state.onTrunk = true) (hf : u.timer.holderFlag = false) :
    u.missMark.1.Running R ∧ u.missMark.1.control = u.control := by
  obtain ⟨halign, hpos, hframe, -, hholder, hpass⟩ := h.quiet.timer
  have h1 : u.countMissed.Running R :=
    h.setTimer hon ⟨halign, hpos, hframe, by dsimp only; split_ifs <;> omega, hholder, hpass⟩ (h.quiet.alignment.1 hon)
      (by simp [hf])
  rcases u.missMark_cases with hm | hm <;> rw [hm]
  · exact ⟨h1, rfl⟩
  · exact ⟨h1.hold hon, rfl⟩

/-- The return from JOINING to LISTEN (R30, R44). -/
theorem State.Running.backToListen (h : u.Running R) (hj : u.control.state = .joining) : u.backToListen.Running R := by
  have h1 : ({ u.clearTables.listening with timer := u.timer.dropped } : State).Running R :=
    h.listening (by simp [hj]) rfl rfl h.quiet.silent rfl rfl (fun _ a _ => Bank.get_fill 31 a _)
  exact (h1.postAll _).nextHappening

/-- The end of slot 0 in JOINING, MEMBER or LEAVING; a holder has sent there. -/
theorem State.Running.markEnd (h : u.Running s.rosterOk) (hon : u.control.state.onTrunk = true) (ho : o.OfBits)
    (hf : o.outcome = none → u.timer.holderFlag = false) : s.Kept (u.markEnd o) := by
  unfold State.markEnd
  split
  · obtain ⟨h1, hc⟩ := h.holderEnd hon ho
    exact (h1.postAll _).ends (by rw [State.postAll_control, hc]; exact hon) ho
  · rename_i hnone
    have hflag := hf hnone
    split
    · rename_i w hw
      have hfits : w.MarkFits := by
        unfold State.followed at hw
        split at hw
        · cases hw
        · rename_i v hv
          split_ifs at hw
          exact Option.some.inj hw ▸ ho.markFits hv
      exact ((h.follow hon hflag hfits).postAll _).ends hon ho
    · split_ifs with hj
      · exact (h.backToListen hj.1).kept rfl
      · obtain ⟨h1, hc⟩ := h.missMark hon hflag
        exact (h1.postGroups ..).ends (by rw [State.postGroups_control, hc]; exact hon) ho

/-- The end of slot 0 (R21 to R27, R52). -/
theorem State.endMarkSlot_kept (h : s.stationOk) (hp : s.passes 0) (bits : SlotBits) : s.Kept (s.endMarkSlot bits) := by
  obtain ⟨ha, hpass, hpos⟩ := hp
  have h1 := State.running_portEnd h (State.configured_of_aligned h ha) bits
  have ho := s.occurrence_ofBits bits
  unfold State.endMarkSlot
  dsimp only
  split
  · exact (h1.postAll _).faultKept _
  · split_ifs with hl
    · exact h1.foundingEnd hl ha ho
    · have hon : s.control.state.onTrunk = true := (State.state_of_aligned h ha).resolve_right hl
      refine h1.markEnd hon ho fun hnone => ?_
      have hword : s.port.word = none := by simpa using hnone
      obtain ⟨-, -, ⟨hflag, -⟩, -⟩ := h
      by_contra hf
      have := (hflag (by simpa using hf)).2.2.2 hpass hpos
      simp [hword] at this

/-- Slot 0 passes where its end comes. -/
theorem State.endMarkSlot_keeps (h : s.stationOk) (he : s.endsAt (· == 0) = true) (bits : SlotBits) :
    s.Keeps (.next (s.endMarkSlot bits)) := by
  obtain ⟨p, hp, h0⟩ := State.passes_of_endsAt he
  obtain rfl : p = 0 := by simpa using h0
  exact (State.endMarkSlot_kept h hp bits).next

theorem execMarkSlotEnd_keeps (h : s.stationOk) (bits : SlotBits) : s.Keeps (execMarkSlotEnd bits s) :=
  State.keeps_ite h fun he => State.endMarkSlot_keeps h he bits

/-- A missed mark comes at the end of slot 0. -/
theorem State.endsAt_of_missesMark {bits : SlotBits} (h : s.missesMark bits = true) : s.endsAt (· == 0) = true := by
  simp only [State.missesMark, Bool.and_eq_true] at h
  exact h.1.1.1

theorem execCandidateRule_keeps (h : s.stationOk) (bits : SlotBits) : s.Keeps (execCandidateRule bits s) := by
  refine State.keeps_ite h fun he => State.endMarkSlot_keeps h ?_ bits
  simp only [Bool.and_eq_true] at he
  exact State.endsAt_of_missesMark he.1.1

theorem execEscalation_keeps (h : s.stationOk) (bits : SlotBits) : s.Keeps (execEscalation bits s) := by
  refine State.keeps_ite h fun he => State.endMarkSlot_keeps h ?_ bits
  simp only [Bool.and_eq_true] at he
  exact State.endsAt_of_missesMark he.1.1.1.1

theorem execJoiningToListen_keeps (h : s.stationOk) (bits : SlotBits) : s.Keeps (execJoiningToListen bits s) := by
  refine State.keeps_ite h fun he => State.endMarkSlot_keeps h ?_ bits
  simp only [Bool.and_eq_true] at he
  exact State.endsAt_of_missesMark he.1.1

/-! ### The end of slot 1 (R58 to R65) -/

/-- The station whose turn it is has an address (R58). -/
theorem turnOf_range (f : Nat) : 1 ≤ turnOf f ∧ turnOf f ≤ 30 := by
  have : f % 30 < 30 := Nat.mod_lt _ (by decide)
  unfold turnOf Config.stations
  omega

/-- An acceptable roll of the station whose turn it is. -/
theorem Occurrence.rollOf_eq_some {a : Nat} (h : o.rollOf a = some w) :
    o.heard = .valid w ∧ w.kind = .roll ∧ w.rollHeld ≤ 16 ∧ w.sender = a := by
  unfold Occurrence.rollOf at h
  split at h
  · cases h
  · rename_i v hv
    split_ifs at h with hs
    obtain rfl := Option.some.inj h
    obtain ⟨h1, h2, h3⟩ := Heard.acceptable_eq_some.mp hv
    rw [SlotWord.malformed, h2] at h3
    exact ⟨h1, h2, by simpa using h3, hs⟩

/-- A missed roll counts, or drops the peer (R63). -/
theorem State.Running.rollMissed (h : u.Running R) (hon : u.control.state.onTrunk = true) {a : Nat} (h1 : 1 ≤ a) (h30 : a ≤ 30)
    (hself : a ≠ u.self) : (u.rollMissed o a).1.Running R := by
  unfold State.rollMissed
  split_ifs with hp hlt
  · refine h.setRoster hon (by omega) (fun f => ?_) (fun hc => absurd hc hself)
    obtain ⟨-, hheld, hroll, hstray, -, habsent⟩ := f.entries a (by omega)
    exact ⟨by dsimp only; omega, hheld, hroll, hstray, fun _ => hlt, habsent⟩
  · refine (h.setRoster hon (e := { u.rosterEntry a with present := false, missed := 2, held := none, eligible := none })
      (by omega) (fun f => ?_) (fun hc => absurd hc hself)).congr rfl rfl rfl rfl rfl rfl
    obtain ⟨-, -, hroll, hstray, -, -⟩ := f.entries a (by omega)
    exact ⟨by simp, by simp, hroll, hstray, by simp, by simp⟩
  · exact h

/-- The roster in the turn of a peer (R58 to R65). -/
theorem State.Running.peerTurn (h : u.Running R) (hon : u.control.state.onTrunk = true) {a : Nat} (h1 : 1 ≤ a) (h30 : a ≤ 30)
    (hself : a ≠ u.self) (hframe : o.frame < 240) : (u.peerTurn o a).1.Running R := by
  unfold State.peerTurn
  split
  · rename_i w hw
    obtain ⟨-, -, hheld, -⟩ := Occurrence.rollOf_eq_some hw
    split_ifs
    · refine (h.setRoster hon (e := { u.rosterEntry a with present := false, missed := 0, held := none, eligible := none
                                                           lastRoll := some o.frame })
        (by omega) (fun f => ?_) (fun hc => absurd hc hself)).congr rfl rfl rfl rfl rfl rfl
      obtain ⟨-, -, -, hstray, -, -⟩ := f.entries a (by omega)
      exact ⟨by simp, by simp, by simpa using hframe, hstray, by simp, by simp⟩
    · refine h.setRoster hon (by omega) (fun f => ?_) (fun hc => absurd hc hself)
      obtain ⟨-, -, -, hstray, -, -⟩ := f.entries a (by omega)
      exact ⟨by simp, by simpa using hheld, by simpa using hframe, hstray, by simp, by simp⟩
  · exact h.rollMissed hon h1 h30 hself

/-- The entry into MEMBER: the own entry PRESENT (R43, R60). -/
theorem State.Running.toMember (h : u.Running R) (hj : u.control.state = .joining) (hobs : u.control.observing = false)
    {b : SlotBits} (hb : R → sentRollHeld b ≤ 16) (hframe : o.frame < 240) : (u.toMember o b).Running R := by
  have hon : u.control.state.onTrunk = true := by simp [hj, StationState.onTrunk]
  have hself := h.self_range
  obtain ⟨⟨⟨c1, c2, c3, c4, -⟩, q2, q3, -, q5, q6⟩, -, hhost, hline, hroster⟩ := h
  have hne : u.control.config ≠ none := fun hc => by simp [hj] at c1; exact c1 hc
  refine ⟨⟨⟨by simpa [State.toMember] using hne, c2, by simpa [State.toMember, hj] using c3, c4, ?_⟩, q2,
    fun hf => ⟨rfl, (q3 hf).2⟩, by simp [State.toMember, StationState.onTrunk], ⟨fun _ => q5.1 hon, fun _ => .inl rfl⟩, q6⟩,
    by simp [State.toMember], hhost, hline, fun hR => ?_⟩
  · intro hc
    exact absurd hc (by simp [State.toMember, hobs])
  · obtain ⟨f1, f2, -, -⟩ := hroster hR
    have hentry (a : Nat) : (u.toMember o b).rosterEntry a =
        if u.self = a ∧ u.self < 31 then
          { u.rosterEntry u.self with present := true, missed := 0, held := some (sentRollHeld b),
                                      eligible := some u.eligible, lastRoll := some o.frame }
        else u.rosterEntry a := State.rosterEntry_setRoster ..
    refine ⟨fun a ha => ?_, ?_, ?_, by simp [State.toMember, StationState.onTrunk]⟩
    · rw [hentry]
      split_ifs
      · obtain ⟨-, -, -, hstray, -, -⟩ := f1 u.self (by omega)
        exact ⟨by simp, by simpa using hb hR, by simpa using hframe, hstray, by simp, by simp⟩
      · exact f1 a ha
    · rw [hentry, if_neg (by omega)]; exact f2
    · have hs : (u.toMember o b).self = u.self := rfl
      rw [State.isPresent, hs, hentry, if_pos ⟨rfl, by omega⟩]
      simp [State.toMember, StationState.serving]

/-- The own entry after a SENT roll in MEMBER (R60). -/
theorem State.Running.ownRollSent (h : u.Running R) (hm : u.control.state = .member) {b : SlotBits}
    (hb : R → sentRollHeld b ≤ 16) (hframe : o.frame < 240) : (u.ownRollSent o b).Running R := by
  have hself := h.self_range
  by_cases hR : R
  · refine h.setRoster (by simp [hm, StationState.onTrunk]) (by omega) (fun f => ?_) (fun _ => rfl)
    obtain ⟨hmissed, -, -, hstray, hpresent, -⟩ := f.entries u.self (by omega)
    have hp : (u.rosterEntry u.self).present = true := f.own.mpr (by simp [hm, StationState.serving])
    exact ⟨hmissed, by simpa using hb hR, by simpa using hframe, hstray, hpresent, by simp [hp]⟩
  · exact { h with quiet := { h.quiet with }, roster := fun hc => absurd hc hR }

/-- What is known of self's word at the end of slot 1: in JOINING it came after the observation, and it announces at most
16 slots (R42, R71). -/
structure State.RollSent (R : Prop) (u : State) (o : Occurrence) : Prop where
  observed : u.control.state = .joining → o.sent.isSome → u.control.observing = false
  held : R → ∀ b ∈ o.sent, sentRollHeld b ≤ 16
  frame : o.frame < 240

/-- The roster in self's own turn (R43, R60). -/
theorem State.Running.ownTurn (h : u.Running R) (hon : u.control.state.onTrunk = true) (hs : u.RollSent R o) :
    (u.ownTurn o).1.Running R ∧ (u.ownTurn o).1.control.state.onTrunk = true := by
  unfold State.ownTurn
  split
  · rename_i b _ hb
    have hheld : R → sentRollHeld b ≤ 16 := fun hR => hs.held hR b hb
    split
    · rename_i hj
      exact ⟨h.toMember hj (hs.observed hj (by simp [hb])) hheld hs.frame, rfl⟩
    · rename_i hm
      exact ⟨h.ownRollSent hm hheld hs.frame, hon⟩
    all_goals exact ⟨h, hon⟩
  · exact ⟨h, hon⟩
  · exact ⟨h, hon⟩

/-- The ROLL slot's turn, whoever has it (R58). -/
theorem State.Running.rollTurn (h : u.Running R) (hon : u.control.state.onTrunk = true) (hs : u.RollSent R o) :
    (u.rollTurn o).1.Running R ∧ (u.rollTurn o).1.control.state.onTrunk = true := by
  unfold State.rollTurn
  split_ifs with ht
  · exact h.ownTurn hon hs
  · have hf := u.front_peerTurn o (turnOf o.frame)
    exact ⟨h.peerTurn hon (turnOf_range o.frame).1 (turnOf_range o.frame).2 ht hs.frame,
      by rw [(State.front_eq_iff.mp hf).1]; exact hon⟩

/-- The holder that leaves is a peer, so that self does not hold (R31). -/
theorem State.holderLeaves_peer (h : u.holderLeaves o = true) :
    turnOf o.frame ≠ u.self ∧ u.timer.holder = some (turnOf o.frame) := by
  unfold State.holderLeaves at h
  split at h
  · cases h
  · simp only [Bool.and_eq_true, bne_iff_ne, beq_iff_eq] at h
    exact ⟨h.1.2, h.2⟩

/-- The frame timer at the end of slot 1 (R31). -/
theorem State.Running.rollTimer (h : u.Running R) (hon : u.control.state.onTrunk = true) :
    (u.rollTimer o).1.Running R ∧ (u.rollTimer o).1.control = u.control := by
  unfold State.rollTimer
  split_ifs with hl
  · obtain ⟨hne, hholder⟩ := State.holderLeaves_peer hl.2
    have hflag : u.timer.holderFlag = false := by
      by_contra hf
      have := (h.quiet.holding (by simpa using hf)).2.1
      exact hne (Option.some.inj (hholder.symm.trans this))
    unfold State.holderLeft
    split_ifs
    · exact ⟨h.hold hon, rfl⟩
    · obtain ⟨t1, t2, t3, t4, -, t6⟩ := h.quiet.timer
      exact ⟨h.setTimer hon ⟨t1, t2, t3, t4, by simp, t6⟩ (h.quiet.alignment.1 hon) (by simp [hflag]), rfl⟩
  · exact ⟨h, rfl⟩

/-- The end of slot 1 where self stays on the trunk. -/
theorem State.Running.rollEnd (h : u.Running s.rosterOk) (hon : u.control.state.onTrunk = true)
    (hs : u.RollSent s.rosterOk o) (ho : o.OfBits) : s.Kept (u.rollEnd o) := by
  obtain ⟨h1, hon1⟩ := h.rollTurn hon hs
  obtain ⟨h2, hc2⟩ := h1.rollTimer (o := o) hon1
  exact (h2.postGroups ..).ends (by rw [State.postGroups_control, hc2]; exact hon1) ho

/-- The end of slot 1 that carried self's ROLL(LEAVING) (R49). -/
theorem State.Running.leaveTrunk (h : u.Running s.rosterOk) (hon : u.control.state.onTrunk = true) (ho : o.OfBits) :
    s.Kept (u.leaveTrunk o) := by
  have hne := StationState.ne_fault_of_onTrunk hon
  unfold State.leaveTrunk
  split_ifs
  · refine State.Running.kept (State.Running.enterDetached ?_ ?_ _) rfl
    · split
      · rename_i w hw
        obtain ⟨hv, hk, hm, -⟩ := State.realignsTo_eq_some hw
        exact h.realign hon (ho.markFits (Heard.acceptable_eq_some.mpr ⟨hv, hk, hm⟩))
      · exact h
    · split
      · unfold State.realign
        split_ifs <;> exact hne
      · exact hne
  · exact (h.enterDetached hne _).kept rfl

/-- The end of slot 1 (R58, R49, R52). -/
theorem State.endRollSlot_keeps (h : s.stationOk) (he : s.rollEnds = true) (bits : SlotBits) :
    s.Keeps (.next (s.endRollSlot bits)) := by
  obtain ⟨he, hon⟩ := Bool.and_eq_true_iff.mp he
  obtain ⟨p, ⟨ha, hpass, hpos⟩, h1⟩ := State.passes_of_endsAt he
  obtain rfl : p = 1 := by simpa using h1
  have hr := State.running_portEnd h (State.configured_of_aligned h ha) bits
  have ho := s.occurrence_ofBits bits
  refine State.Kept.next ?_
  unfold State.endRollSlot
  dsimp only
  split
  · exact (hr.postAll _).faultKept _
  · split_ifs
    · exact hr.leaveTrunk hon ho
    · refine hr.rollEnd hon ⟨fun hj hw => ?_, fun hR b hb => ?_, h.2.1.2.2.1⟩ ho
      · obtain ⟨⟨-, -, -, -, hobs⟩, -, -, -, hword, -⟩ := h
        have := (hword hw).2.2 hj
        simp only [hpos, Option.some.injEq, Nat.one_ne_zero, true_and, false_or] at this
        by_contra hc
        have := (hobs (by simpa using hc)).2
        simp_all
      · have := hR.2.2.2.2
        rw [State.occurrence_sent, Option.mem_def] at hb
        simpa [State.rollWordOk, hb, hpos] using this

theorem execRollSlotEnd_keeps (h : s.stationOk) (bits : SlotBits) : s.Keeps (execRollSlotEnd bits s) :=
  State.keeps_ite h fun he => State.endRollSlot_keeps h he bits

theorem execStationLost_keeps (h : s.stationOk) (bits : SlotBits) : s.Keeps (execStationLost bits s) := by
  refine State.keeps_ite h fun he => State.endRollSlot_keeps h ?_ bits
  simp only [State.losesStation, Bool.and_eq_true] at he
  exact he.1.1.1.1.1

/-! ### The end of slot 2 (R100 to R109) -/

/-- The end of an occurrence on the trunk, in a state that acts on it: running at its end. -/
theorem State.running_of_endsAt (h : s.stationOk) {test : Nat → Bool} (he : s.endsAt test = true) (bits : SlotBits) :
    (s.portEnd bits).Running s.rosterOk := by
  obtain ⟨p, hp, -⟩ := State.passes_of_endsAt he
  exact State.running_portEnd h (State.configured_of_aligned h hp.1) bits

/-- The heard CLAIM word and the head's outcome leave the front and the roster (R100, R104). -/
theorem State.front_claimActs (u : State) (o : Occurrence) (role : Option Role) (given : Option Nat) :
    ((u.applyClaim o role).1.claimOutcome o given).1.front = u.front ∧
    ((u.applyClaim o role).1.claimOutcome o given).1.roster = u.roster := by simp

/-- The end of slot 2 on the trunk, no fault found. -/
theorem State.Running.claimEnd (h : u.Running s.rosterOk) (hon : u.control.state.onTrunk = true) (ho : o.OfBits) :
    s.Kept (u.claimEnd o) := by
  have hf := u.front_claimActs o (u.contendingHead.bind ClaimRecord.role) (u.ownGrant o)
  refine ((h.of_front hf).postGroups ..).ends ?_ ho
  rw [State.postGroups_control, (State.front_eq_iff.mp hf.1).1]
  exact hon

theorem State.endClaimSlot_keeps (h : s.stationOk) (he : s.claimEnds = true) (bits : SlotBits) :
    s.Keeps (.next (s.endClaimSlot bits)) := by
  obtain ⟨he, hon⟩ := Bool.and_eq_true_iff.mp he
  have hr := State.running_of_endsAt h he bits
  refine State.Kept.next ?_
  unfold State.endClaimSlot
  dsimp only
  split
  · unfold State.claimBeforeFault
    split_ifs
    · exact ((hr.of_front (State.front_claimOutcome ..)).postAll _).faultKept _
    · exact hr.faultKept _
  · exact hr.claimEnd hon (s.occurrence_ofBits bits)

theorem execClaimSlotEnd_keeps (h : s.stationOk) (bits : SlotBits) : s.Keeps (execClaimSlotEnd bits s) :=
  State.keeps_ite h fun he => State.endClaimSlot_keeps h he bits

/-- A head loses at the end of slot 2. -/
theorem State.claimEnds_of_losingHead {bits : SlotBits} {r : ClaimRecord} (h : s.losingHead bits = some r) :
    s.claimEnds = true := by
  unfold State.losingHead at h
  dsimp only at h
  split_ifs at h with hc
  exact hc.1

theorem execClaimAging_keeps (h : s.stationOk) (bits : SlotBits) : s.Keeps (execClaimAging bits s) := by
  unfold execClaimAging
  split
  · exact State.keeps_self h
  · rename_i r hr
    exact State.keeps_ite h fun _ => State.endClaimSlot_keeps h (State.claimEnds_of_losingHead hr) bits

theorem execClaimExpired_keeps (h : s.stationOk) (bits : SlotBits) : s.Keeps (execClaimExpired bits s) := by
  unfold execClaimExpired
  split
  · exact State.keeps_self h
  · rename_i r hr
    exact State.keeps_ite h fun _ => State.endClaimSlot_keeps h (State.claimEnds_of_losingHead hr) bits

/-! ### The end of slot 3 (R143, R167) -/

theorem State.endAnswerSlot_keeps (h : s.stationOk) (he : s.answerEnds = true) (bits : SlotBits) :
    s.Keeps (.next (s.endAnswerSlot bits)) := by
  obtain ⟨he, hon⟩ := Bool.and_eq_true_iff.mp he
  have hr := State.running_of_endsAt h he bits
  refine State.Kept.next ?_
  unfold State.endAnswerSlot
  dsimp only
  split
  · exact (hr.postAll _).faultKept _
  · have hf := (s.portEnd bits).front_answerOutcome (s.occurrence bits)
    have h1 := hr.of_front hf
    have hon1 : ((s.portEnd bits).answerOutcome (s.occurrence bits)).1.control.state.onTrunk = true := by
      rw [(State.front_eq_iff.mp hf.1).1]; exact hon
    unfold State.answerEnd
    dsimp only
    split_ifs
    · have hf2 := State.front_applyAnswer ((s.portEnd bits).answerOutcome (s.occurrence bits)).1 (s.occurrence bits)
      refine ((h1.of_front hf2).postGroups ..).ends ?_ (s.occurrence_ofBits bits)
      rw [State.postGroups_control, (State.front_eq_iff.mp hf2.1).1]
      exact hon1
    · exact (h1.postGroups ..).ends hon1 (s.occurrence_ofBits bits)

theorem execAnswerSlotEnd_keeps (h : s.stationOk) (bits : SlotBits) : s.Keeps (execAnswerSlotEnd bits s) :=
  State.keeps_ite h fun he => State.endAnswerSlot_keeps h he bits

theorem execAnswerDropped_keeps (h : s.stationOk) (bits : SlotBits) : s.Keeps (execAnswerDropped bits s) := by
  refine State.keeps_ite h fun he => State.endAnswerSlot_keeps h ?_ bits
  simp only [State.dropsAnswer, Bool.and_eq_true] at he
  exact he.1.1.1

/-! ### The end of a data slot (R66, R67, R74) -/

/-- A heard data-kind word carries a station address (R6). -/
theorem Occurrence.OfBits.sender_of_dataKind (ho : o.OfBits) (h : o.heard.dataKind = some w) : 1 ≤ w.sender ∧ w.sender ≤ 30 := by
  obtain ⟨bits, hb⟩ := ho
  cases hh : o.heard with
  | silent => simp [hh, Heard.dataKind] at h
  | corrupt => simp [hh, Heard.dataKind] at h
  | valid v =>
    simp only [hh, Heard.dataKind] at h
    split_ifs at h
    obtain rfl := Option.some.inj h
    exact classify_sender (hb ▸ hh)

/-- A stray word is counted at its sender (R67). -/
theorem State.Running.countStray (h : u.Running R) (hon : u.control.state.onTrunk = true) {k : Nat} (h1 : 1 ≤ k)
    (h30 : k ≤ 30) : (u.countStray k).Running R := by
  refine h.setRoster hon (by omega) (fun f => ?_) (fun _ => rfl)
  obtain ⟨hmissed, hheld, hroll, hstray, hpresent, habsent⟩ := f.entries k (by omega)
  exact ⟨hmissed, hheld, hroll, satSucc_le hstray, hpresent, habsent⟩

/-- Owner-tag correction (R76). -/
theorem State.Running.correct (h : u.Running R) (hon : u.control.state.onTrunk = true) (ho : o.OfBits) :
    (u.correct o).1.Running R := by
  unfold State.correct
  split
  · exact h
  · rename_i w hw
    obtain ⟨h1, h30⟩ := ho.sender_of_dataKind hw
    dsimp only
    split_ifs
    · exact h
    · exact h.congr rfl rfl rfl rfl rfl rfl
    · exact h.countStray hon h1 h30

/-- Self loses a slot (R79). -/
theorem State.Running.loseSlot (h : u.Running R) (hon : u.control.state.onTrunk = true) (ho : o.OfBits) :
    (u.loseSlot o).1.Running R := by
  have hfree : (u.freeSlot o.slot).Running R := h.of_front ⟨by simp, by simp⟩
  unfold State.loseSlot
  dsimp only
  split
  · exact hfree
  · rename_i w hw
    obtain ⟨h1, h30⟩ := ho.sender_of_dataKind hw
    split_ifs
    · exact h.of_front ⟨by simp, by simp⟩
    · refine hfree.countStray ?_ h1 h30
      rw [(State.front_eq_iff.mp (u.front_freeSlot o.slot)).1]
      exact hon

/-- Steps 4 to 6 of R74. -/
theorem State.Running.ownerSteps (h : u.Running R) (hon : u.control.state.onTrunk = true) (ho : o.OfBits) :
    (u.ownerSteps o).1.Running R := by
  have h1 := h.of_front (u.front_silenceStep o)
  have hon1 : (u.silenceStep o).1.control.state.onTrunk = true := by
    rw [(State.front_eq_iff.mp (u.front_silenceStep o).1).1]; exact hon
  unfold State.ownerSteps
  split
  · exact h1.correct hon1 ho
  · split_ifs
    · exact h1.loseSlot hon1 ho
    · exact h1
  · exact h1
  · exact h1

/-- The allocation table at the end of a data slot (R74). -/
theorem State.Running.tableEnd (h : u.Running R) (hon : u.control.state.onTrunk = true) (ho : o.OfBits) :
    (u.tableEnd o).1.Running R := by
  have h1 : (u.setEntry o.slot ((u.entry o.slot).noted o)).Running R := h.of_front ⟨by simp, by simp⟩
  unfold State.tableEnd
  dsimp only
  split_ifs
  · exact h1.of_front ⟨by simp, by simp⟩
  · exact h1.ownerSteps hon ho

/-- PRESENT marking in JOINING (R66). -/
theorem State.Running.markPresent (h : u.Running R) (ho : o.OfBits) : (u.markPresent o).1.Running R := by
  unfold State.markPresent
  split_ifs with hj
  · split
    · exact h
    · rename_i w hw
      obtain ⟨h1, h30⟩ := ho.sender_of_dataKind hw
      split_ifs with hp
      · exact h
      · refine h.setRoster (by simp [hj, StationState.onTrunk]) (by omega) (fun f => ?_) (fun hc => absurd (.inl hc) hp)
        obtain ⟨-, -, hroll, hstray, -, -⟩ := f.entries w.sender (by omega)
        exact ⟨by simp, by simp, hroll, hstray, by simp, by simp⟩
  · exact h

/-- Roster and table in either order (R67). -/
theorem State.Running.rosterAndTable (h : u.Running R) (hon : u.control.state.onTrunk = true) (ho : o.OfBits) :
    (u.rosterAndTable o).1.Running R := by
  unfold State.rosterAndTable
  split_ifs
  · exact (h.markPresent ho).tableEnd (by rw [(State.front_eq_iff.mp (u.front_markPresent o)).1]; exact hon) ho
  · exact (h.tableEnd hon ho).markPresent ho

/-- The end of a data slot on the trunk, no fault found. -/
theorem State.Running.dataEnd (h : u.Running s.rosterOk) (hon : u.control.state.onTrunk = true) (ho : o.OfBits) :
    s.Kept (u.dataEnd o) := by
  have h1 : ({ (u.rosterAndTable o).1 with rx := (u.rosterAndTable o).1.rx.map (fun r => r.hear o) } : State).Running
      s.rosterOk := (h.rosterAndTable hon ho).congr rfl rfl rfl rfl rfl rfl
  have hon1 : (u.rosterAndTable o).1.control.state.onTrunk = true := by
    rw [(State.front_eq_iff.mp (u.front_rosterAndTable o)).1]; exact hon
  unfold State.dataEnd
  dsimp only
  split_ifs
  · refine ((h1.of_front (State.front_windowsEnd ..)).postGroups ..).ends ?_ ho
    rw [State.postGroups_control, (State.front_eq_iff.mp (State.front_windowsEnd ..).1).1]
    exact hon1
  · exact (h1.postGroups ..).ends hon1 ho

theorem State.dataFinish_keeps (h : s.stationOk) (he : s.dataEnds = true) (bits : SlotBits) :
    s.Keeps (s.dataFinish bits) := by
  obtain ⟨he, hon⟩ := Bool.and_eq_true_iff.mp he
  have hr := State.running_of_endsAt h he bits
  unfold State.dataFinish
  split
  · exact State.keeps_fault _
  · refine State.Kept.next ?_
    unfold State.endDataSlot
    dsimp only
    split
    · exact ((hr.of_front (State.front_hearBeforeFault ..)).postGroups ..).faultKept _
    · exact hr.dataEnd hon (s.occurrence_ofBits bits)

theorem execDataSlotEnd_keeps (h : s.stationOk) (bits : SlotBits) : s.Keeps (execDataSlotEnd bits s) :=
  State.keeps_ite h fun he => State.dataFinish_keeps h he bits

theorem execSlotLapsed_keeps (h : s.stationOk) (bits : SlotBits) : s.Keeps (execSlotLapsed bits s) := by
  refine State.keeps_ite h fun he => State.dataFinish_keeps h ?_ bits
  simp only [State.lapses, Bool.and_eq_true] at he
  exact he.1.1.1.1

theorem execWindowStalled_keeps (h : s.stationOk) (bits : SlotBits) : s.Keeps (execWindowStalled bits s) := by
  refine State.keeps_ite h fun he => State.dataFinish_keeps h ?_ bits
  simp only [State.stallsWindow, Bool.and_eq_true] at he
  exact he.1.1.1

end Sys2Proof.Machine
end

