-- ==== Sys2Proof/Proofs/HostSide.lean ====
section
/-! The host side keeps the station sound: transactions, port words, target select and the resets. With the trunk's commands
this settles that every step does. -/

namespace Sys2Proof.Machine

variable {s t : State}

/-! ### Host port and pins -/

/-- Station controller, frame timer, trunk port, pins and roster stay. -/
def State.SameStation (s t : State) : Prop :=
  t.control = s.control ∧ t.timer = s.timer ∧ t.port = s.port ∧ t.pins = s.pins ∧ t.roster = s.roster

theorem State.SameStation.refl (s : State) : s.SameStation s := ⟨rfl, rfl, rfl, rfl, rfl⟩

/-- Where only host port, pins and the other blocks change, the station is sound if those two are. -/
theorem State.kept_of_same (h : s.stationOk) (hc : t.control = s.control) (ht : t.timer = s.timer) (hp : t.port = s.port)
    (hr : t.roster = s.roster) (hh : t.host.ok)
    (hl : t.pins.resetLine = true → s.control.state = .off ∧ t.host.state = .deselected ∧ t.pins.serialOut = none) :
    s.Kept t := by
  have hself : t.self = s.self := State.self_congr hc
  have hlen : t.len = s.len := State.len_congr hc
  have hentry (a : Nat) : t.rosterEntry a = s.rosterEntry a := by simp [State.rosterEntry, hr]
  obtain ⟨h1, h2, h3, h4, h5, -, -⟩ := h
  refine ⟨⟨by rwa [hc], by rwa [ht, hlen], ?_, ?_, ?_, hh, ?_⟩, fun _ hros => ?_⟩
  · simpa only [State.holderOk, hc, ht, hp, hself] using h3
  · simpa only [State.alignmentOk, hc, ht] using h4
  · simpa only [State.wordOk, hc, ht, hp] using h5
  · simpa only [State.resetLineOk, hc] using hl
  · obtain ⟨r1, r2, r3, r4, r5⟩ := hros
    refine ⟨by simpa only [hentry] using r1, by rwa [hentry], ?_, by simpa only [hc, hentry] using r4, ?_⟩
    · simpa only [State.isPresent, hentry, hself, hc] using r3
    · simpa only [State.rollWordOk, hp, ht] using r5

/-- The port is DESELECTED under the reset line (R181). -/
theorem State.resetLine_of_selected (h : s.stationOk) (hs : s.host.state ≠ .deselected) : s.pins.resetLine = false := by
  obtain ⟨-, -, -, -, -, -, hline⟩ := h
  by_contra hc
  exact hs (hline (by simpa using hc)).2.1

theorem HostPort.reset_ok : HostPort.reset.ok := by decide

/-- A selection opens without a request word (R170). -/
theorem HostPort.selected_ok : ({ HostPort.reset with state := .request } : HostPort).ok := by decide

/-- A reply that is formed is a sound host port (R170, R172). -/
theorem HostPort.replying_ok (i : Instr) (words : List PortWord) (frame : Nat) (r : TxResult) (armed : Bool) :
    (HostPort.replying i words frame r armed).ok := by
  refine ⟨by simp [HostPort.replying], by simp [HostPort.replying], by simp [HostPort.replying], Nat.zero_le _⟩

/-- A judgement that keeps the station, but for the host port, keeps it with its reply (R172). -/
theorem State.replyWith_kept (h : s.stationOk) (hreq : s.host.state = .request) (i : Instr) (words : List PortWord)
    {j : State × TxResult} (hj : s.Kept { j.1 with host := s.host }) (hp : j.1.pins = s.pins) :
    s.Kept (s.replyWith i words j) := by
  have hline : j.1.pins.resetLine = false := by rw [hp]; exact State.resetLine_of_selected h (by simp [hreq])
  obtain ⟨hst, hros⟩ := hj
  have hk : State.Kept { j.1 with host := s.host } (s.replyWith i words j) :=
    State.kept_of_same hst rfl rfl rfl rfl (HostPort.replying_ok ..) (fun hl => by
      have : j.1.pins.resetLine = true := hl
      simp [hline] at this)
  exact ⟨hk.1, fun hlim hr => ⟨(hros hlim hr).1, (hros hlim hr).2.1, (hros hlim hr).2.2.1, (hros hlim hr).2.2.2.1,
    (hros hlim hr).2.2.2.2⟩⟩

/-- A judgement that leaves the station. -/
theorem State.replyWith_same (h : s.stationOk) (hreq : s.host.state = .request) (i : Instr) (words : List PortWord)
    {j : State × TxResult} (hj : s.SameStation j.1) : s.Kept (s.replyWith i words j) := by
  obtain ⟨hc, ht, hp, hpins, hr⟩ := hj
  exact State.replyWith_kept h hreq i words (State.kept_of_same h hc ht hp hr h.2.2.2.2.2.1 (by
    simp only [hpins]; exact h.2.2.2.2.2.2)) hpins

/-! ### What the judgements leave -/

theorem State.changeRole_same (s : State) (n : Nat) (r : Role) : s.SameStation (s.changeRole n r) := by
  unfold State.changeRole
  split_ifs
  · exact .refl s
  · rw [State.lossNotice_eq]; exact .refl s

theorem State.judgeClaim_same (s : State) (req : ClaimArg) (p : Nat) (role : RoleArg) :
    s.SameStation (s.judgeClaim req p role).1 := by
  unfold State.judgeClaim
  split
  · exact .refl s
  · split
    · exact .refl s
    · split
      · split_ifs <;> exact .refl s
      · exact .refl s

theorem State.judgeRelease_same (s : State) (n : Nat) : s.SameStation (s.judgeRelease n).1 := by
  unfold State.judgeRelease
  split_ifs <;> exact .refl s

theorem State.judgeClaimCancel_same (s : State) (tag : Nat) : s.SameStation (s.judgeClaimCancel tag).1 := by
  unfold State.judgeClaimCancel
  split
  · exact .refl s
  · split
    · exact .refl s
    · split_ifs <;> exact .refl s

theorem State.judgeSetRole_same (s : State) (n : Nat) (role : RoleArg) : s.SameStation (s.judgeSetRole n role).1 := by
  unfold State.judgeSetRole
  split
  · exact .refl s
  · split
    · exact .refl s
    · split
      · exact .refl s
      · split_ifs
        · exact .refl s
        · exact .refl s
        · exact s.changeRole_same n _

theorem State.judgeBindRx_same (s : State) (c n : Nat) (expected : Option Nat) (policy : Policy) (gaps : Bool) :
    s.SameStation (s.judgeBindRx c n expected policy gaps).1 := by
  unfold State.judgeBindRx
  split_ifs <;> exact .refl s

theorem State.judgeUnbindRx_same (s : State) (c : Nat) : s.SameStation (s.judgeUnbindRx c).1 := by
  unfold State.judgeUnbindRx
  split_ifs <;> exact .refl s

theorem State.judgeChannelStatus_same (s : State) (dir : Direction) (c : Nat) :
    s.SameStation (s.judgeChannelStatus dir c).1 := by
  unfold State.judgeChannelStatus
  split_ifs <;> exact .refl s

theorem State.judgeBulkPost_same (s : State) (dest win base len : Nat) :
    s.SameStation (s.judgeBulkPost dest win base len).1 := by
  unfold State.judgeBulkPost
  split
  · exact .refl s
  · split
    · exact .refl s
    · split <;> exact .refl s

theorem State.judgeBulkCancel_same (s : State) (id : Nat) : s.SameStation (s.judgeBulkCancel id).1 := by
  unfold State.judgeBulkCancel
  split
  · exact .refl s
  · split
    · exact .refl s
    · split
      · exact .refl s
      · split_ifs <;> exact .refl s

theorem State.judgeBulkStatus_same (s : State) (id : Nat) : s.SameStation (s.judgeBulkStatus id).1 := by
  unfold State.judgeBulkStatus
  split
  · exact .refl s
  · split
    · exact .refl s
    · split <;> exact .refl s

theorem State.judgeBulkCollect_same (s : State) (id : Nat) : s.SameStation (s.judgeBulkCollect id).1 := by
  unfold State.judgeBulkCollect
  split
  · exact .refl s
  · split
    · exact .refl s
    · split
      · exact .refl s
      · split_ifs <;> exact .refl s

theorem State.judgeWindowOpen_same (s : State) (w base cap : Nat) (allowed : Option Nat) :
    s.SameStation (s.judgeWindowOpen w base cap allowed).1 := by
  unfold State.judgeWindowOpen
  split_ifs <;> exact .refl s

theorem State.judgeWindowClose_same (s : State) (w : Nat) : s.SameStation (s.judgeWindowClose w).1 := by
  unfold State.judgeWindowClose
  split_ifs <;> exact .refl s

theorem State.judgeWindowStatus_same (s : State) (w : Nat) : s.SameStation (s.judgeWindowStatus w).1 := by
  unfold State.judgeWindowStatus
  split_ifs <;> exact .refl s

theorem State.judgeReadSlot_same (s : State) (n : Nat) : s.SameStation (s.judgeReadSlot n).1 := by
  unfold State.judgeReadSlot
  split_ifs <;> exact .refl s

theorem State.judgeReadRoster_same (s : State) (a : Nat) : s.SameStation (s.judgeReadRoster a).1 := by
  unfold State.judgeReadRoster
  split_ifs <;> exact .refl s

theorem State.judgePush_same (s : State) (c : Nat) (samples : List DataWord) : s.SameStation (s.judgePush c samples).1 := by
  unfold State.judgePush
  split_ifs <;> exact .refl s

theorem State.judgePull_same (s : State) (c n : Nat) : s.SameStation (s.judgePull c n).1 := by
  unfold State.judgePull
  split_ifs <;> exact .refl s

theorem State.judgeMemoryWrite_same (s : State) (a : Nat) (words : List DataWord) :
    s.SameStation (s.judgeMemoryWrite a words).1 := by
  unfold State.judgeMemoryWrite
  split_ifs <;> exact .refl s

theorem State.judgeMemoryRead_same (s : State) (a n : Nat) : s.SameStation (s.judgeMemoryRead a n).1 := by
  unfold State.judgeMemoryRead
  split_ifs <;> exact .refl s

theorem State.judgeEventRead_same (s : State) (n : Nat) : s.SameStation (s.judgeEventRead n).1 := by
  unfold State.judgeEventRead
  split_ifs <;> exact .refl s

/-! ### START, JOIN and LEAVE -/

/-- A transaction that changes nothing. -/
theorem State.kept_self (h : s.stationOk) : s.Kept s := ⟨h, fun _ hr => hr⟩

/-- In OFF and DETACHED no occurrence passes, and so no word is held. -/
theorem State.idle_of_unaligned (h : s.stationOk) (ha : s.timer.aligned = false) :
    s.timer.passing = false ∧ s.port.word = none := by
  obtain ⟨-, ⟨-, -, -, -, -, hpass⟩, -, -, hword, -⟩ := h
  have hp : s.timer.passing = false := by
    by_contra hc
    have := hpass (by simpa using hc)
    simp [ha] at this
  refine ⟨hp, ?_⟩
  by_contra hc
  have := (hword (Option.isSome_iff_ne_none.mpr hc)).1
  simp [hp] at this

/-- A station that is neither on the trunk nor in LISTEN is UNALIGNED. -/
theorem State.unaligned_of (h : s.stationOk) (hon : s.control.state.onTrunk = false) (hl : s.control.state ≠ .listen) :
    s.timer.aligned = false := by
  by_contra hc
  rcases s.state_of_aligned h (by simpa using hc) with h1 | h1
  · simp [hon] at h1
  · exact hl h1

/-- The part after START is sound (R37). -/
theorem State.started_kept (h : s.stationOk) (hoff : s.control.state = .off) {c : Configuration} (hc : c.ok)
    (hreset : s.pins.resetLine = false) : s.Kept (s.started c) := by
  have hon : s.control.state.onTrunk = false := by simp [hoff, StationState.onTrunk]
  obtain ⟨-, hword⟩ := State.idle_of_unaligned h (State.unaligned_of h hon (by simp [hoff]))
  obtain ⟨⟨-, -, hcause, -, -⟩, -, -, -, -, hhost, -⟩ := h
  have hlisten : (s.started c).control.state = .listen := rfl
  have hlisten_on : (s.started c).control.state.onTrunk = false := rfl
  have hport : (s.started c).port.word = none := hword
  have htimer : (s.started c).timer = FrameTimer.reset := rfl
  refine ⟨⟨⟨by simp [State.started], ?_, ?_, by simp [State.started], by simp [State.started]⟩, ?_, ⟨?_, ?_⟩,
    ⟨?_, ?_⟩, ?_, hhost, ?_⟩, fun _ hr => ?_⟩
  · rintro x ⟨⟩; exact hc
  · have : (s.started c).control.cause = s.control.cause := rfl
    simp [this, hlisten, hcause, hoff]
  · simp [htimer, FrameTimer.ok, FrameTimer.reset]
  · simp [htimer, FrameTimer.reset]
  · simp [htimer, FrameTimer.reset]
  · simp [hlisten_on]
  · simp [htimer, FrameTimer.reset]
  · simp [State.wordOk, hport]
  · exact fun hl => absurd (show s.pins.resetLine = true from hl) (by simp [hreset])
  · have hentry : ∀ a < 31, (s.started c).rosterEntry a = RosterEntry.reset := hr.2.2.2.1 hon
    have f := State.rosterFits_of_reset hentry rfl
    exact ⟨f.entries, f.placeZero, f.own, f.cleared, by simp [State.rollWordOk, hport]⟩

/-- A configuration record in range is sound (R35, R37). -/
theorem Configuration.ok_of_inRange {addr len : Nat} {eligible : Bool} (h : startInRange addr len = true) :
    ({ addr := addr, len := len, eligible := eligible } : Configuration).ok := by
  simpa [startInRange, Configuration.ok, and_assoc, or_assoc] using h

/-- START judged (R37). -/
theorem State.judgeStart_kept (h : s.stationOk) (hreq : s.host.state = .request) (addr len : Nat) (eligible : Bool) :
    s.Kept { (s.judgeStart addr len eligible).1 with host := s.host } ∧ (s.judgeStart addr len eligible).1.pins = s.pins := by
  unfold State.judgeStart
  split_ifs with hoff hrange
  · exact ⟨State.kept_self h, rfl⟩
  · exact ⟨State.kept_self h, rfl⟩
  · exact ⟨State.started_kept h (by simpa using hoff) (Configuration.ok_of_inRange (by simpa using hrange))
      (State.resetLine_of_selected h (by simp [hreq])), rfl⟩

/-- JOIN judged (R51). -/
theorem State.judgeJoin_kept (h : s.stationOk) :
    s.Kept { s.judgeJoin.1 with host := s.host } ∧ s.judgeJoin.1.pins = s.pins := by
  unfold State.judgeJoin
  split_ifs with hd
  · have hon : s.control.state.onTrunk = false := by simp [hd, StationState.onTrunk]
    obtain ⟨hp, hword⟩ := State.idle_of_unaligned h (State.unaligned_of h hon (by simp [hd]))
    have hr := State.running_of_not_passing h (by simp [hd]) hp
    have h1 : s.rejoined.Running s.rosterOk :=
      hr.listening (by simp [hd]) rfl rfl hword rfl rfl (fun hros => hros.2.2.2.1 hon)
    exact ⟨h1.kept rfl, rfl⟩
  · exact ⟨State.kept_self h, rfl⟩

/-- Entry into LEAVING keeps the station: MEMBER and LEAVING differ in nothing that its soundness speaks of (R47). -/
theorem State.enterLeaving_kept (h : s.stationOk) (hm : s.control.state = .member) : s.Kept s.enterLeaving := by
  obtain ⟨⟨c1, c2, c3, c4, c5⟩, htimer, ⟨hflag, -⟩, ⟨halign, -⟩, hword, hhost, hline⟩ := h
  have hon : s.control.state.onTrunk = true := by simp [hm, StationState.onTrunk]
  have hne : s.control.config ≠ none := fun hc => by simp [hm] at c1; exact c1 hc
  rw [State.enterLeaving_eq]
  refine ⟨⟨⟨by simpa using hne, c2, by simpa [hm] using c3, c4, fun hc => ?_⟩, htimer,
    ⟨fun hf => ⟨rfl, (hflag hf).2⟩, by simp [StationState.onTrunk]⟩, ⟨fun _ => halign hon, fun _ => .inl rfl⟩,
    fun hw => ⟨(hword hw).1, by simp, by simp⟩, hhost, fun hl => ?_⟩, fun _ hr => ?_⟩
  · simp [hm] at c5; simp [c5] at hc
  · exact absurd (hline hl).1 (by simp [hm])
  · obtain ⟨r1, r2, r3, -, r5⟩ := hr
    refine ⟨r1, r2, ?_, by simp [StationState.onTrunk], r5⟩
    rw [hm] at r3
    exact r3

/-- Entry into DETACHED from LISTEN or JOINING, in the middle of an occurrence too (R46, R50). -/
theorem State.detach_kept (h : s.stationOk) (hoff : s.control.state ≠ .off) (hf : s.control.state ≠ .fault) :
    s.Kept (s.enterDetached []) :=
  ((State.running_portEnd h hoff (BitVec.allOnes 40)).enterDetached hf []).kept rfl

/-- LEAVE judged (R46). -/
theorem State.judgeLeave_kept (h : s.stationOk) :
    s.Kept { s.judgeLeave.1 with host := s.host } ∧ s.judgeLeave.1.pins = s.pins := by
  unfold State.judgeLeave
  split
  · exact ⟨State.kept_self h, rfl⟩
  · rename_i hl; exact ⟨State.detach_kept h (by simp [hl]) (by simp [hl]), rfl⟩
  · rename_i hj; exact ⟨State.detach_kept h (by simp [hj]) (by simp [hj]), rfl⟩
  · rename_i hm; exact ⟨State.enterLeaving_kept h hm, rfl⟩
  all_goals exact ⟨State.kept_self h, rfl⟩

/-- The reply to whatever transaction is taken keeps the station (R171, R172). -/
theorem State.reply_kept (h : s.stationOk) (hreq : s.host.state = .request) (i : Instr) (words : List PortWord) :
    s.Kept (s.replyWith i words (s.judge i)) := by
  have same (j : State × TxResult) (hj : s.SameStation j.1) := State.replyWith_same h hreq i words hj
  cases i with
  | start addr len eligible =>
    exact State.replyWith_kept h hreq _ words (State.judgeStart_kept h hreq addr len eligible).1
      (State.judgeStart_kept h hreq addr len eligible).2
  | join => exact State.replyWith_kept h hreq _ words (State.judgeJoin_kept h).1 (State.judgeJoin_kept h).2
  | leave => exact State.replyWith_kept h hreq _ words (State.judgeLeave_kept h).1 (State.judgeLeave_kept h).2
  | claim req priority role => exact same _ (s.judgeClaim_same req priority role)
  | release n => exact same _ (s.judgeRelease_same n)
  | claimCancel tag => exact same _ (s.judgeClaimCancel_same tag)
  | setRole n role => exact same _ (s.judgeSetRole_same n role)
  | bindRx c n expected policy gaps => exact same _ (s.judgeBindRx_same c n expected policy gaps)
  | unbindRx c => exact same _ (s.judgeUnbindRx_same c)
  | channelStatus dir c => exact same _ (s.judgeChannelStatus_same dir c)
  | bulkPost dest win base len => exact same _ (s.judgeBulkPost_same dest win base len)
  | bulkCancel id => exact same _ (s.judgeBulkCancel_same id)
  | bulkStatus id => exact same _ (s.judgeBulkStatus_same id)
  | bulkCollect id => exact same _ (s.judgeBulkCollect_same id)
  | windowOpen w base cap allowed => exact same _ (s.judgeWindowOpen_same w base cap allowed)
  | windowClose w => exact same _ (s.judgeWindowClose_same w)
  | windowStatus w => exact same _ (s.judgeWindowStatus_same w)
  | readSlot n => exact same _ (s.judgeReadSlot_same n)
  | readRoster a => exact same _ (s.judgeReadRoster_same a)
  | push c samples => exact same _ (s.judgePush_same c samples)
  | pull c n => exact same _ (s.judgePull_same c n)
  | memoryWrite a words => exact same _ (s.judgeMemoryWrite_same a words)
  | memoryRead a n => exact same _ (s.judgeMemoryRead_same a n)
  | eventRead n => exact same _ (s.judgeEventRead_same n)
  | _ => exact same _ (.refl s)

/-- A transaction command keeps the station, taken or not. -/
theorem State.take_keeps (h : s.stationOk) (i : Instr) : s.Keeps (.next (s.take i (s.judge i))) := by
  refine State.Kept.next ?_
  by_cases hreq : s.host.state = .request
  · rw [State.take_request hreq]
    exact State.reply_kept h hreq i (requestWords i)
  · rw [State.take_elsewhere hreq]
    exact State.kept_self h

/-! ### Port words and target select (R170) -/

theorem execRequestWordShiftedIn_keeps (h : s.stationOk) (w : PortWord) : s.Keeps (execRequestWordShiftedIn w s) := by
  refine State.keeps_ite h fun hreq => State.Kept.next ?_
  have hline := State.resetLine_of_selected h (by simp [hreq])
  unfold State.wordIn
  split
  · obtain ⟨h1, h2, h3, h4⟩ := h.2.2.2.2.2.1
    have hno : s.host.reply = none := by simpa [hreq] using h2
    refine State.kept_of_same h rfl rfl rfl rfl ⟨by simp [hreq], h2, h3, ?_⟩ (fun hl => by simp [hline] at hl)
    simpa [HostPort.replyWords, hno] using h4
  · exact State.reply_kept h hreq _ _

/-- Every block that the station's soundness speaks of is at its reset value. -/
structure State.AtReset (v : State) : Prop where
  control : v.control = StationControl.reset
  timer : v.timer = FrameTimer.reset
  port : v.port = TrunkPort.reset
  roster : v.roster = Bank.fill 31 RosterEntry.reset
  host : v.host = HostPort.reset

/-- At their reset values the blocks are sound, with nothing driven back under the reset line (R181). -/
theorem State.AtReset.sound (h : t.AtReset) (hp : t.pins.resetLine = true → t.pins.serialOut = none) :
    t.stationOk ∧ t.rosterOk := by
  obtain ⟨hc, ht, hport, hr, hh⟩ := h
  have f := State.rosterFits_of_fill hr (by rw [hc]; rfl)
  have hword : t.port.word = none := by rw [hport]; rfl
  refine ⟨⟨by rw [hc]; decide, ?_, ?_, ?_, ?_, by rw [hh]; decide, fun hl => ⟨by rw [hc]; rfl, by rw [hh]; rfl, hp hl⟩⟩,
    f.entries, f.placeZero, f.own, f.cleared, by simp [State.rollWordOk, hword]⟩
  · simp [ht, FrameTimer.ok, FrameTimer.reset]
  · simp [State.holderOk, ht, FrameTimer.reset]
  · simp [State.alignmentOk, ht, hc, FrameTimer.reset, StationControl.reset, StationState.onTrunk]
  · simp [State.wordOk, hword]

theorem State.AtReset.kept (h : t.AtReset) (hp : t.pins.resetLine = true → t.pins.serialOut = none) : s.Kept t :=
  ⟨(h.sound hp).1, fun _ _ => (h.sound hp).2⟩

/-- A part reset brings the reset values (R181, R182). -/
theorem State.partReset_atReset (s : State) : s.partReset.AtReset := ⟨rfl, rfl, rfl, rfl, rfl⟩

/-- A reply word shifted out, and with the last one an armed part reset (R170, R182). -/
theorem State.shiftOut_kept (h : s.stationOk) (hrep : s.host.state = .reply) : s.Kept s.shiftOut := by
  have hline := State.resetLine_of_selected h (by simp [hrep])
  unfold State.shiftOut
  split_ifs
  · exact s.wordOut.partReset_atReset.kept (fun hl => absurd hl (by simp [State.partReset, State.wordOut, hline]))
  · obtain ⟨h1, h2, h3, -⟩ := h.2.2.2.2.2.1
    refine State.kept_of_same h rfl rfl rfl rfl ⟨by simp [State.wordOut, hrep], h2, h3, ?_⟩
      (fun hl => absurd hl (by simp [State.wordOut, hline]))
    exact Nat.min_le_right _ _

/-- With nothing driven back the station is as it was. -/
theorem State.drivesNothing_kept (h : s.stationOk) : s.Kept s.drivesNothing :=
  State.kept_of_same h rfl rfl rfl rfl h.2.2.2.2.2.1
    (fun hl => ⟨(h.2.2.2.2.2.2 hl).1, (h.2.2.2.2.2.2 hl).2.1, rfl⟩)

theorem execReplyWordShiftedOut_keeps (h : s.stationOk) : s.Keeps (execReplyWordShiftedOut s) := by
  unfold execReplyWordShiftedOut
  split
  · exact (State.drivesNothing_kept h).next
  · exact (State.drivesNothing_kept h).next
  · rename_i hrep; exact (State.shiftOut_kept h hrep).next

theorem execTargetSelectAsserted_keeps (h : s.stationOk) : s.Keeps (execTargetSelectAsserted s) := by
  unfold execTargetSelectAsserted
  split_ifs with _ hl
  · exact State.keeps_self h
  · exact State.Kept.next (State.kept_of_same h rfl rfl rfl rfl h.2.2.2.2.2.1 h.2.2.2.2.2.2)
  · exact State.Kept.next (State.kept_of_same h rfl rfl rfl rfl HostPort.selected_ok (fun hc => absurd hc hl))

/-- Target select released (R170, R182). -/
theorem State.selectReleased_kept (h : s.stationOk) : s.Kept s.selectReleased := by
  unfold State.selectReleased
  split_ifs
  · exact (s.setSelect false).partReset_atReset.kept (fun hl => (h.2.2.2.2.2.2 hl).2.2)
  · exact State.kept_of_same h rfl rfl rfl rfl HostPort.reset_ok
      (fun hl => ⟨(h.2.2.2.2.2.2 hl).1, rfl, (h.2.2.2.2.2.2 hl).2.2⟩)

theorem execResetPartTakesHold_keeps (h : s.stationOk) (trigger : ResetTrigger) :
    s.Keeps (execResetPartTakesHold trigger s) := by
  cases trigger with
  | replyShiftedOut =>
    refine State.keeps_ite h fun hc => State.Kept.next (State.shiftOut_kept h ?_)
    simp only [Bool.and_eq_true, beq_iff_eq] at hc
    exact hc.1.2
  | selectReleased => exact State.keeps_ite h fun _ => (State.selectReleased_kept h).next

/-! ### Resets (R181 to R183) -/

theorem execResetLineAsserted_keeps (s : State) : s.Keeps (execResetLineAsserted s) :=
  State.Kept.next (State.AtReset.kept ⟨rfl, rfl, rfl, rfl, rfl⟩ (fun _ => rfl))

theorem execResetLineReleased_keeps (h : s.stationOk) : s.Keeps (execResetLineReleased s) :=
  State.keeps_ite h fun _ => State.Kept.next (State.AtReset.kept ⟨rfl, rfl, rfl, rfl, rfl⟩ (fun hl => absurd hl (by simp)))

theorem execPowerOnReset_keeps (s : State) (lineRate : BitVec 2) : s.Keeps (execPowerOnReset lineRate s) :=
  State.Kept.next (State.AtReset.kept ⟨rfl, rfl, rfl, rfl, rfl⟩ (fun _ => rfl))

/-! ### Every command -/

/-- Every command keeps the station sound. -/
theorem exec_keeps (h : s.stationOk) (c : Instr) : s.Keeps (exec c s) := by
  cases c with
  | undefinedHeader header => exact State.keeps_ite h fun _ => State.take_keeps h _
  | targetSelectAsserted => exact execTargetSelectAsserted_keeps h
  | targetSelectReleased => exact (State.selectReleased_kept h).next
  | resetPartTakesHold trigger => exact execResetPartTakesHold_keeps h trigger
  | resetLineAsserted => exact execResetLineAsserted_keeps s
  | resetLineReleased => exact execResetLineReleased_keeps h
  | powerOnReset lineRate => exact execPowerOnReset_keeps s lineRate
  | huntingCandidate bits => exact execHuntingCandidate_keeps h bits
  | listenWindowPasses => exact execListenWindowPasses_keeps h
  | markSlotStart => exact execMarkSlotStart_keeps h
  | markSlotEnd heard => exact execMarkSlotEnd_keeps h heard
  | candidateRule heard => exact execCandidateRule_keeps h heard
  | escalation heard => exact execEscalation_keeps h heard
  | joiningToListen heard => exact execJoiningToListen_keeps h heard
  | rollSlotStart => exact execRollSlotStart_keeps h
  | rollSlotEnd heard => exact execRollSlotEnd_keeps h heard
  | stationLost heard => exact execStationLost_keeps h heard
  | claimSlotStart => exact execClaimSlotStart_keeps h
  | claimSlotEnd heard => exact execClaimSlotEnd_keeps h heard
  | claimAging heard => exact execClaimAging_keeps h heard
  | claimExpired heard => exact execClaimExpired_keeps h heard
  | answerSlotStart => exact execAnswerSlotStart_keeps h
  | answerSlotEnd heard => exact execAnswerSlotEnd_keeps h heard
  | answerDropped heard => exact execAnswerDropped_keeps h heard
  | dataSlotStart => exact execDataSlotStart_keeps h
  | tailResend => exact execTailResend_keeps h
  | jobNoAnswer => exact execJobNoAnswer_keeps h
  | dataSlotEnd heard => exact execDataSlotEnd_keeps h heard
  | slotLapsed heard => exact execSlotLapsed_keeps h heard
  | windowStalled heard => exact execWindowStalled_keeps h heard
  | listenWindowFrameTime => exact execListenWindowFrameTime_keeps h
  | requestWordShiftedIn word => exact execRequestWordShiftedIn_keeps h word
  | replyWordShiftedOut => exact execReplyWordShiftedOut_keeps h
  | _ => exact State.take_keeps h _

/-- Every step keeps the station sound. -/
theorem step_kept (h : s.stationOk) (hs : step s = .next t) : s.Kept t := by
  unfold step at hs
  split at hs
  · cases hs; exact State.kept_self h
  · rename_i c rest _
    exact exec_keeps (s := { s with pending := rest }) h c t hs

end Sys2Proof.Machine

open Sys2Proof Sys2Proof.Machine

/-- Settles O57: every command keeps the station sound, and with at most 16 slots announced the roster too. -/
theorem stationStaysSound : Obligations.StationStaysSound :=
  ⟨fun _ _ h hs => (step_kept h hs).1, fun _ _ h hlim hr hs => (step_kept h hs).2 hlim hr⟩
end

