-- ==== Sys2Proof/Proofs/Frames.lean ====
section
/-! How frame timing goes on: hunting candidates (R12, R18, R19), and slot position and frame number at the end of every
occurrence (R11, R17, R33). -/

namespace Sys2Proof.Machine

variable {s t u v : State} {o : Occurrence} {w : SlotWord} {p : Nat} {bits : SlotBits}

/-! ### What the end of a slot comes to -/

/-- The blocks of slot 1 have acted, and the occurrence passes: the timer may hold or forget the holder (R31), and the station
may be a MEMBER (R43). -/
theorem State.rollEnd_shape (u : State) (o : Occurrence) :
    ∃ v : State, u.rollEnd o = (((v.rollTimer o).1.postGroups 0
        [(u.rollTurn o).2.1, (u.rollTurn o).2.2, (v.rollTimer o).2]).passOn o).nextHappening ∧
      v = (u.rollTurn o).1 := ⟨_, rfl, rfl⟩

/-- The blocks of slot 2 have acted, and the occurrence passes. -/
theorem State.claimEnd_shape (u : State) (o : Occurrence) :
    ∃ v : State, u.claimEnd o = ((v.postGroups 0
        [(u.applyClaim o (u.contendingHead.bind ClaimRecord.role)).2 ++
          ((u.applyClaim o (u.contendingHead.bind ClaimRecord.role)).1.claimOutcome o (u.ownGrant o)).2,
         u.offSlotEvents o]).passOn o).nextHappening ∧ v.front = u.front :=
  ⟨_, rfl, (u.front_claimActs o _ _).1⟩

/-- The blocks of slot 3 have acted, and the occurrence passes. -/
theorem State.answerEnd_shape (u : State) (o : Occurrence) :
    ∃ (v : State) (heard : List Event), u.answerEnd o =
        ((v.postGroups 0 [(u.answerOutcome o).2, heard, u.offSlotEvents o]).passOn o).nextHappening ∧
      v.front = u.front ∧ (heard = [] ∨ heard = ((u.answerOutcome o).1.applyAnswer o).2) := by
  unfold State.answerEnd
  dsimp only
  split_ifs
  · exact ⟨_, _, rfl, by simp, .inr rfl⟩
  · exact ⟨_, _, rfl, by simp, .inl rfl⟩

/-- The blocks of a data slot have acted, and the occurrence passes. -/
theorem State.dataEnd_shape (u : State) (o : Occurrence) :
    ∃ (v : State) (windowPosts : List (List Event)), u.dataEnd o = ((v.postGroups 0
        ([(u.rosterAndTable o).2.1, (u.rosterAndTable o).2.2, u.offSlotEvents o] ++
          channelIds.map (fun c => (u.rxAt c).overrunEvents o c) ++ windowPosts)).passOn o).nextHappening ∧
      v.front = u.front ∧ (windowPosts = [] ∨ windowPosts = u.windowEvents o) := by
  have hear (x : State) (rx : Bank RxChannel 8) : ({ x with rx := rx } : State).front = x.front := rfl
  unfold State.dataEnd
  dsimp only
  split_ifs
  · exact ⟨_, _, rfl, by rw [(State.front_windowsEnd ..).1, hear, State.front_rosterAndTable], .inr rfl⟩
  · exact ⟨_, _, rfl, by rw [hear, State.front_rosterAndTable], .inl rfl⟩

/-- The frame timer at the end of slot 1 holds, forgets the holder, or stays (R31). -/
theorem State.rollTimer_cases (u : State) (o : Occurrence) :
    (u.rollTimer o).1 = u ∨ (u.rollTimer o).1 = u.hold ∨
      (u.rollTimer o).1 = { u with timer := { u.timer with holder := none } } := by
  unfold State.rollTimer
  split_ifs
  · unfold State.holderLeft
    split_ifs
    · exact .inr (.inl rfl)
    · exact .inr (.inr rfl)
  · exact .inl rfl

/-- The frame timer without a realignment (R11, R17). -/
theorem FrameTimer.advanced_eq (t : FrameTimer) (len slot : Nat) :
    t.advanced len slot = { t with
      position := some (if slot + 1 < len then slot + 1 else 0), passing := false
      frame := if slot + 1 < len then t.frame else (t.frame + 1) % 240 } := by
  unfold FrameTimer.advanced
  split_ifs <;> rfl

/-! ### Which command ends a slot -/

/-- The end of slot `p` on the trunk. -/
theorem exec_endCommand (hp : s.passes p) (hlen : p < s.len) (hon : s.control.state.onTrunk = true) :
    exec (endCommand p bits) s =
      if p = 0 then .next (s.endMarkSlot bits) else if p = 1 then .next (s.endRollSlot bits)
      else if p = 2 then .next (s.endClaimSlot bits) else if p = 3 then .next (s.endAnswerSlot bits)
      else s.dataFinish bits := by
  have ends (test : Nat → Bool) (ht : test p = true) : s.endsAt test = true := (State.endsAt_of_passes hp test).trans ht
  unfold endCommand
  split_ifs with h0 h1 h2 h3
  · exact if_pos (ends _ (by simp [h0]))
  · exact if_pos (by simp [State.rollEnds, ends (· == 1) (by simp [h1]), hon])
  · exact if_pos (by simp [State.claimEnds, ends (· == 2) (by simp [h2]), hon])
  · exact if_pos (by simp [State.answerEnds, ends (· == 3) (by simp [h3]), hon])
  · have hd : isDataSlot s.len p = true := by simp [isDataSlot, hlen]; omega
    exact if_pos (by simp [State.dataEnds, ends _ hd, hon])

/-! ### Slots without a MARK -/

/-- Slot position and frame number have gone on from slot `p` (R11, R17). -/
structure State.GoesOn (s : State) (p : Nat) (t : State) : Prop where
  aligned : t.timer.aligned = true
  passing : t.timer.passing = false
  position : t.timer.position = some (if p + 1 < s.len then p + 1 else 0)
  frame : t.timer.frame = if p + 1 < s.len then s.timer.frame else (s.timer.frame + 1) % 240

/-- Frame length, alignment and frame number are those of `s`. -/
structure State.SameFrame (s v : State) : Prop where
  len : v.len = s.len
  aligned : v.timer.aligned = s.timer.aligned
  frame : v.timer.frame = s.timer.frame

theorem State.SameFrame.of_front (hv : v.front = (s.portEnd bits).front) : s.SameFrame v := by
  obtain ⟨hc, ht, -⟩ := State.front_eq_iff.mp hv
  exact ⟨State.len_congr hc, by rw [ht]; rfl, by rw [ht]; rfl⟩

/-- An occurrence in which no realigning MARK is heard passes on. -/
theorem State.SameFrame.goesOn (hv : s.SameFrame v) (hp : s.passes p) (hslot : o.slot = p) (hr : v.realignsTo o = none) :
    s.GoesOn p (v.passOn o).nextHappening := by
  have ht : (v.passOn o).nextHappening.timer = v.timer.advanced s.len p := by
    rw [← hv.len, ← hslot, State.nextHappening_timer, State.passOn_none hr]
  rw [FrameTimer.advanced_eq, hv.frame] at ht
  exact ⟨by rw [ht]; exact hv.aligned.trans hp.1, by rw [ht], by rw [ht], by rw [ht]⟩

/-- Posting does not touch the frame. -/
theorem State.SameFrame.postGroups (hv : s.SameFrame v) (base : Nat) (gs : List (List Event)) :
    s.SameFrame (v.postGroups base gs) := ⟨hv.len, hv.aligned, hv.frame⟩
theorem State.SameFrame.postAll (hv : s.SameFrame v) (es : List Event) : s.SameFrame (v.postAll es) :=
  ⟨hv.len, hv.aligned, hv.frame⟩

/-- A holder that hears no MARK keeps the frame number (R26, R27). -/
theorem State.SameFrame.holderEnd (hv : s.SameFrame v) (hm : o.heard.acceptable .mark = none) :
    s.SameFrame (v.holderEnd o).1 := by
  unfold State.holderEnd
  split_ifs
  · rw [hm]; exact ⟨hv.len, hv.aligned, hv.frame⟩
  · exact hv

/-- A missed mark keeps the frame number (R24). -/
theorem State.SameFrame.missMark (hv : s.SameFrame v) : s.SameFrame v.missMark.1 := by
  rcases v.missMark_cases with hm | hm <;> rw [hm]
  · exact ⟨hv.len, hv.aligned, hv.frame⟩
  · exact ⟨hv.len, hv.aligned, hv.frame⟩

/-- The roster's turn and the candidate rule of slot 1 keep the frame number (R31, R43). -/
theorem State.SameFrame.rollTurn (hv : s.SameFrame v) : s.SameFrame (v.rollTurn o).1 := by
  obtain ⟨st, hf, -⟩ := v.front_rollTurn o
  have hc : (v.rollTurn o).1.control = { v.control with state := st } := congrArg Front.control hf
  have ht : (v.rollTurn o).1.timer = v.timer := congrArg Front.timer hf
  exact ⟨by simp only [State.len, hc]; exact hv.len, by rw [ht, hv.aligned], by rw [ht, hv.frame]⟩

theorem State.SameFrame.rollTimer (hv : s.SameFrame v) : s.SameFrame (v.rollTimer o).1 := by
  rcases v.rollTimer_cases o with h | h | h <;> rw [h]
  · exact hv
  · exact ⟨hv.len, hv.aligned, hv.frame⟩
  · exact ⟨hv.len, hv.aligned, hv.frame⟩

/-- Slot 0 without a MARK, in a state that stays on the trunk (R24, R26, R27). -/
theorem State.SameFrame.markEnd (hv : s.SameFrame v) (hp : s.passes p) (hslot : o.slot = p)
    (hm : o.heard.acceptable .mark = none) (hon : (v.markEnd o).control.state.onTrunk = true) : s.GoesOn p (v.markEnd o) := by
  have hr (x : State) : x.realignsTo o = none := State.realignsTo_none hm
  unfold State.markEnd at hon ⊢
  split
  · exact ((hv.holderEnd hm).postAll _).goesOn hp hslot (hr _)
  · have hfollow : v.followed o = none := by simp [State.followed, hm]
    rename_i hnone
    simp only [hnone, hfollow] at hon ⊢
    split_ifs at hon ⊢ with hj
    · exact absurd hon (by simp [State.backToListen, StationState.onTrunk])
    · exact (hv.missMark.postGroups 0 _).goesOn hp hslot (hr _)

/-! ### The end of a slot in which no fault is found, and of one in which a fault is -/

theorem State.endMarkSlot_of_none (hf : s.faultIn (s.occurrence bits) = none) (hl : s.control.state ≠ .listen) :
    s.endMarkSlot bits = (s.portEnd bits).markEnd (s.occurrence bits) := by
  unfold State.endMarkSlot
  simp [hf, hl]

theorem State.endRollSlot_of_none (hf : s.faultIn (s.occurrence bits) = none) :
    s.endRollSlot bits = if (s.portEnd bits).leavesNow (s.occurrence bits) then
      (s.portEnd bits).leaveTrunk (s.occurrence bits) else (s.portEnd bits).rollEnd (s.occurrence bits) := by
  unfold State.endRollSlot
  simp [hf]

theorem State.endClaimSlot_of_none (hf : s.faultIn (s.occurrence bits) = none) :
    s.endClaimSlot bits = (s.portEnd bits).claimEnd (s.occurrence bits) := by
  unfold State.endClaimSlot
  simp [hf]

theorem State.endAnswerSlot_of_none (hf : s.faultIn (s.occurrence bits) = none) :
    s.endAnswerSlot bits = (s.portEnd bits).answerEnd (s.occurrence bits) := by
  unfold State.endAnswerSlot
  simp [hf]

theorem State.endDataSlot_of_none (hf : s.faultIn (s.occurrence bits) = none) :
    s.endDataSlot bits = (s.portEnd bits).dataEnd (s.occurrence bits) := by
  unfold State.endDataSlot
  simp [hf]

/-- A data slot that ends has ended as its blocks say. -/
theorem State.dataFinish_next (h : s.dataFinish bits = .next t) : t = s.endDataSlot bits := by
  unfold State.dataFinish at h
  split at h
  · cases h
  · exact (Host.Outcome.next.inj h).symm

/-- A fault found at the end of any slot puts the station into FAULT (R52). -/
theorem State.fault_of_faultIn (hp : s.passes p) (hlen : p < s.len) (hon : s.control.state.onTrunk = true) {c : FaultCause}
    (hf : s.faultIn (s.occurrence bits) = some c) (he : exec (endCommand p bits) s = .next t) : t.control.state = .fault := by
  have fault (x : State) : (x.enterFault c).control.state = .fault := rfl
  rw [exec_endCommand hp hlen hon] at he
  split_ifs at he
  · obtain rfl := Host.Outcome.next.inj he
    simp [State.endMarkSlot, hf, fault]
  · obtain rfl := Host.Outcome.next.inj he
    simp [State.endRollSlot, hf, fault]
  · obtain rfl := Host.Outcome.next.inj he
    simp [State.endClaimSlot, hf, fault]
  · obtain rfl := Host.Outcome.next.inj he
    simp [State.endAnswerSlot, hf, fault]
  · rw [State.dataFinish_next he]
    simp [State.endDataSlot, hf, fault]

/-- An occurrence without a MARK, with whatever end its slot has, in a state that stays on the trunk. -/
theorem State.goesOn_of_noMark (hp : s.passes p) (hlen : p < s.len) (hon : s.control.state.onTrunk = true)
    (hm : (classify bits).acceptable .mark = none) (he : exec (endCommand p bits) s = .next t)
    (ht : t.control.state.onTrunk = true) : s.GoesOn p t := by
  have hslot : (s.occurrence bits).slot = p := State.occurrence_slot_of_passes hp bits
  have hr (x : State) : x.realignsTo (s.occurrence bits) = none := State.realignsTo_none hm
  have hs : s.SameFrame (s.portEnd bits) := .of_front rfl
  have hf : s.faultIn (s.occurrence bits) = none := by
    cases hf : s.faultIn (s.occurrence bits) with
    | none => rfl
    | some c => rw [State.fault_of_faultIn hp hlen hon hf he] at ht; cases ht
  rw [exec_endCommand hp hlen hon] at he
  split_ifs at he
  · obtain rfl := Host.Outcome.next.inj he
    rw [State.endMarkSlot_of_none hf (by rintro hl; simp [hl, StationState.onTrunk] at hon)] at ht ⊢
    exact hs.markEnd hp hslot hm ht
  · obtain rfl := Host.Outcome.next.inj he
    rw [State.endRollSlot_of_none hf] at ht ⊢
    split_ifs at ht ⊢
    · refine absurd ht ?_
      unfold State.leaveTrunk
      split_ifs <;> simp [State.enterDetached_eq, StationState.onTrunk]
    · exact (hs.rollTurn.rollTimer.postGroups 0 _).goesOn hp hslot (hr _)
  · obtain rfl := Host.Outcome.next.inj he
    obtain ⟨v, hv, hfront⟩ := (s.portEnd bits).claimEnd_shape (s.occurrence bits)
    rw [State.endClaimSlot_of_none hf, hv]
    exact ((State.SameFrame.of_front hfront).postGroups 0 _).goesOn hp hslot (hr _)
  · obtain rfl := Host.Outcome.next.inj he
    obtain ⟨v, heard, hv, hfront, -⟩ := (s.portEnd bits).answerEnd_shape (s.occurrence bits)
    rw [State.endAnswerSlot_of_none hf, hv]
    exact ((State.SameFrame.of_front hfront).postGroups 0 _).goesOn hp hslot (hr _)
  · obtain ⟨v, posts, hv, hfront, -⟩ := (s.portEnd bits).dataEnd_shape (s.occurrence bits)
    rw [State.dataFinish_next he, State.endDataSlot_of_none hf, hv]
    exact ((State.SameFrame.of_front hfront).postGroups 0 _).goesOn hp hslot (hr _)

/-! ### A MARK that is ignored (R33) -/

/-- MARK_STRAY and MARK_MISMATCH, which the frame timer alone posts. -/
def Event.ofMark (e : Event) : Bool := e.kind == .markStray || e.kind == .markMismatch

/-- A block that posts neither. -/
def PostsNoMark (es : List Event) : Prop := ∀ e ∈ es, e.ofMark = false

theorem PostsNoMark.nil : PostsNoMark [] := by rintro e ⟨⟩

theorem PostsNoMark.singleton {e : Event} (h : e.ofMark = false) : PostsNoMark [e] := by
  rintro x hx
  rwa [List.mem_singleton.mp hx]

theorem PostsNoMark.filter {es : List Event} (h : PostsNoMark es) : es.filter Event.ofMark = [] :=
  List.filter_eq_nil_iff.mpr fun e he => by simp [h e he]

theorem PostsNoMark.flatten {gs : List (List Event)} (h : ∀ g ∈ gs, PostsNoMark g) : PostsNoMark gs.flatten := by
  intro e he
  obtain ⟨g, hg, heg⟩ := List.mem_flatten.mp he
  exact h g hg e heg

/-- Where of all that is posted one event is of the two kinds, it is the one of its kind, and of the other there is none. -/
theorem eventsOf_mark {es : List Event} {ev : Event} (h : es.filter Event.ofMark = [ev]) :
    eventsOf .markStray es ++ eventsOf .markMismatch es = [ev] := by
  have hof : ev.ofMark = true := by
    have : ev ∈ es.filter Event.ofMark := by rw [h]; exact List.mem_singleton_self ev
    exact (List.mem_filter.mp this).2
  have of_filter (k : EventKind) (hk : k = .markStray ∨ k = .markMismatch) : eventsOf k es = eventsOf k [ev] := by
    rw [← h, eventsOf, eventsOf, List.filter_filter]
    refine List.filter_congr fun e _ => ?_
    rcases hk with rfl | rfl <;> cases he : e.kind <;> simp [Event.ofMark, he]
  rw [of_filter _ (.inl rfl), of_filter _ (.inr rfl)]
  simp only [Event.ofMark, Bool.or_eq_true, beq_iff_eq] at hof
  rcases hof with hk | hk <;> simp [eventsOf, hk]

/-- The slot goes on, and of the two kinds of MARK events the one given is posted. -/
structure State.Ignores (s : State) (p : Nat) (ev : Event) (t : State) : Prop where
  timer : t.timer = { s.timer with
    position := some (if p + 1 < s.len then p + 1 else 0), passing := false
    frame := if p + 1 < s.len then s.timer.frame else (s.timer.frame + 1) % 240 }
  state : t.control.state = s.control.state
  events : ∃ es, t.events = s.events.postAll es ∧ eventsOf .markStray es ++ eventsOf .markMismatch es = [ev]

/-- Whether the station realigns rests on its configuration and the frame timer. -/
theorem State.realignsTo_congr (hc : v.control = u.control) (ht : v.timer = u.timer) (o : Occurrence) :
    v.realignsTo o = u.realignsTo o := by
  simp only [State.realignsTo, State.atOrBelowHolder, State.self_congr hc, State.len_congr hc, ht] <;> rfl

/-- An occurrence whose blocks leave the front passes on with what they post. -/
theorem State.ignores_of_front (hslot : o.slot = p) (hr : (s.portEnd bits).realignsTo o = none)
    (hv : v.front = (s.portEnd bits).front) {gs : List (List Event)} {ev : Event}
    (hg : gs.flatten.filter Event.ofMark = [ev]) : s.Ignores p ev ((v.postGroups 0 gs).passOn o).nextHappening := by
  obtain ⟨hc, ht, -, -, -, he⟩ := State.front_eq_iff.mp hv
  have hr' : (v.postGroups 0 gs).realignsTo o = none := (State.realignsTo_congr hc ht o).trans hr
  obtain ⟨tm, c, heq, hst, -⟩ := State.passOn_eq (v.postGroups 0 gs) o
  refine ⟨?_, ?_, mergeAll v.happening 0 gs, ?_, eventsOf_mark ?_⟩
  · rw [State.nextHappening_timer, State.passOn_none hr']
    simp only [State.postGroups_timer, State.postGroups_len, ht, State.len_congr hc, FrameTimer.advanced_eq, hslot,
      State.portEnd_timer, State.portEnd_len]
  · rw [State.nextHappening_control, heq]
    exact hst.trans (congrArg StationControl.state hc)
  · rw [State.nextHappening_events, heq]
    exact congrArg (fun q => q.postAll (mergeAll v.happening 0 gs)) he
  · have := (mergeAll_perm v.happening gs 0).filter Event.ofMark
    rw [hg] at this
    exact List.perm_singleton.mp this

/-- The claim queue posts CLAIM_DONE alone (R100 to R102). -/
theorem State.claimOutcome_posts (u : State) (o : Occurrence) (given : Option Nat) :
    PostsNoMark (u.claimOutcome o given).2 := by
  unfold State.claimOutcome
  split
  · exact .nil
  · dsimp only
    unfold ClaimRecord.settleOutcome
    split_ifs
    · split <;> exact .singleton rfl
    · exact .singleton rfl
    · exact .nil
    · exact .singleton rfl

/-- The answer queue posts ANSWER_DROPPED alone (R167). -/
theorem State.answerOutcome_posts (u : State) (o : Occurrence) : PostsNoMark (u.answerOutcome o).2 := by
  unfold State.answerOutcome
  split
  · exact .nil
  · split_ifs
    · exact .nil
    · exact .nil
    · exact .singleton rfl

/-- A receive channel posts RX_OVERRUN alone (R121). -/
theorem RxChannel.overrunEvents_posts (r : RxChannel) (o : Occurrence) (c : Nat) : PostsNoMark (r.overrunEvents o c) := by
  unfold RxChannel.overrunEvents
  split_ifs
  · exact .singleton rfl
  · exact .nil

/-- A stall occurrence writes nothing and posts WINDOW_STALLED alone (R165). -/
theorem Window.stallOnce_posts (x : Window) (n : Nat) (o : Occurrence) :
    (x.stallOnce n o).write = none ∧ PostsNoMark (x.stallOnce n o).events := by
  unfold Window.stallOnce
  dsimp only
  split
  · split_ifs
    · exact ⟨rfl, .nil⟩
    · exact ⟨rfl, .singleton rfl⟩
  · split_ifs
    · exact ⟨rfl, .nil⟩
    · exact ⟨rfl, .singleton rfl⟩
  all_goals exact ⟨rfl, .nil⟩

/-- An ignored MARK: heard outside slot 0 from a peer, in a state on the trunk in which self sent nothing (R33). -/
structure State.HearsIgnored (s : State) (p : Nat) (bits : SlotBits) (w : SlotWord) (kind : EventKind) : Prop where
  passes : s.passes p
  pos : 1 ≤ p
  len : p < s.len
  onTrunk : s.control.state.onTrunk = true
  unsent : s.port.word = none
  heard : classify bits = .valid w
  mark : w.kind = .mark
  wellFormed : w.malformed = false
  peer : w.sender ≠ s.self
  ignored : w.markLength = some s.len ∧ (∃ k, s.timer.holder = some k ∧ k < w.sender) ∧ kind = .markStray ∨
    w.markLength ≠ some s.len ∧ s.control.state ≠ .joining ∧ kind = .markMismatch

/-- The event that the frame timer posts for it. -/
def markEvent (kind : EventKind) (frame p : Nat) (w : SlotWord) : Event :=
  { Event.of kind frame with station := some w.sender, slot := some p }

section Ignored

variable {kind : EventKind} (hi : s.HearsIgnored p bits w kind)
include hi

theorem State.HearsIgnored.slot : (s.occurrence bits).slot = p := State.occurrence_slot_of_passes hi.passes bits

theorem State.HearsIgnored.outcome : (s.occurrence bits).outcome = none := by simp [hi.unsent]

/-- The MARK is an acceptable word of no other kind. -/
theorem State.HearsIgnored.acceptable (k : Kind) :
    (s.occurrence bits).heard.acceptable k = if k = .mark then some w else none := by
  rw [State.occurrence_heard, hi.heard, Heard.acceptable_valid, hi.mark, hi.wellFormed]
  simp [eq_comm]

theorem State.HearsIgnored.dataKind : (s.occurrence bits).heard.dataKind = none := by
  simp [hi.heard, Heard.dataKind, hi.mark, Kind.isDataKind]

/-- It brings no fault: its sender is a peer, and another frame length is a fault in JOINING alone (R33, R52). -/
theorem State.HearsIgnored.faultIn : s.faultIn (s.occurrence bits) = none := by
  have hdup : (s.occurrence bits).duplicate s.self = false := by
    simp [Occurrence.duplicate, hi.heard, hi.peer]
  have hlen : (s.occurrence bits).lengthFault s.control.state s.len = false := by
    rcases hi.ignored with ⟨hl, -⟩ | ⟨-, hj, -⟩
    · have hother : (s.occurrence bits).heard.otherLength s.len = false := by
        rw [Heard.otherLength, hi.acceptable, if_pos rfl]
        simp [hl]
      rw [Occurrence.lengthFault, hother, Bool.false_and]
    · have hlisten : s.control.state ≠ .listen := fun h => by simpa [h, StationState.onTrunk] using hi.onTrunk
      simp [Occurrence.lengthFault, hj, hlisten]
  simp [State.faultIn, hdup, hlen]

/-- The station does not realign to it: its sender is above the holder, or its length is another (R32, R33). -/
theorem State.HearsIgnored.realignsTo : (s.portEnd bits).realignsTo (s.occurrence bits) = none := by
  simp only [State.realignsTo, hi.acceptable, if_true]
  refine if_neg ?_
  rintro ⟨-, -, hlen, hholder⟩
  rcases hi.ignored with ⟨-, ⟨k, hk, hlt⟩, -⟩ | ⟨hne, -⟩
  · simp [State.atOrBelowHolder, hk] at hholder
    omega
  · exact hne hlen

/-- What the frame timer posts for it (R33). -/
theorem State.HearsIgnored.offSlotEvents {v : State} (hc : v.control = (s.portEnd bits).control)
    (ht : v.timer = (s.portEnd bits).timer) : v.offSlotEvents (s.occurrence bits) = [markEvent kind s.timer.frame p w] := by
  have hp : p ≠ 0 := by have := hi.pos; omega
  have hlen : v.len = s.len := State.len_congr hc
  have hself : v.self = s.self := State.self_congr hc
  simp only [State.offSlotEvents, State.realignsTo_congr hc ht, hi.realignsTo, hi.acceptable, if_true, hi.slot, hself, hlen,
    State.occurrence_frame]
  rw [if_neg (not_or.mpr ⟨hp, hi.peer⟩)]
  rcases hi.ignored with ⟨hl, -, rfl⟩ | ⟨hl, -, rfl⟩
  · rw [if_pos hl]; rfl
  · rw [if_neg hl]; rfl

theorem State.HearsIgnored.offSlot : (s.portEnd bits).offSlotEvents (s.occurrence bits) = [markEvent kind s.timer.frame p w] :=
  hi.offSlotEvents rfl rfl

/-- It is one of the two kinds. -/
theorem State.HearsIgnored.ofMark : (markEvent kind s.timer.frame p w).ofMark = true := by
  rcases hi.ignored with ⟨-, -, rfl⟩ | ⟨-, -, rfl⟩ <;> rfl

/-! ### What the other blocks do with an ignored MARK -/

/-- It is no ROLL: a peer's turn misses its roll, and no holder leaves. -/
theorem State.HearsIgnored.rollOf (a : Nat) : (s.occurrence bits).rollOf a = none := by
  rw [Occurrence.rollOf, hi.acceptable]
  simp

theorem State.HearsIgnored.rollTurn_posts (u : State) :
    PostsNoMark (u.rollTurn (s.occurrence bits)).2.1 ∧ (u.rollTurn (s.occurrence bits)).2.2 = [] := by
  have hmisplaced (a : Nat) : u.misplacedRoll (s.occurrence bits) a = [] := by
    rw [State.misplacedRoll, hi.acceptable]
    simp
  unfold State.rollTurn
  split_ifs
  · simp only [State.ownTurn, hi.outcome, hmisplaced, PostsNoMark.nil, and_self]
  · simp only [State.peerTurn, hi.rollOf, hmisplaced, List.nil_append, and_true]
    unfold State.rollMissed
    split_ifs
    · exact .nil
    · exact .singleton rfl
    · exact .nil

theorem State.HearsIgnored.rollTurn_front (u : State) : (u.rollTurn (s.occurrence bits)).1.front = u.front := by
  obtain ⟨st, hf, hst⟩ := u.front_rollTurn (s.occurrence bits)
  rw [hf, hst hi.outcome]
  rfl

theorem State.HearsIgnored.rollTimer (u : State) :
    u.rollTimer (s.occurrence bits) = (u, u.offSlotEvents (s.occurrence bits)) := by
  have hleaves : u.holderLeaves (s.occurrence bits) = false := by rw [State.holderLeaves, hi.rollOf]
  simp [State.rollTimer, hleaves]

/-- It is no CLAIM and no ANSWER: nothing is applied. -/
theorem State.HearsIgnored.applyClaim (u : State) (role : Option Role) : u.applyClaim (s.occurrence bits) role = (u, []) := by
  have hnone : u.appliedClaim (s.occurrence bits) = none := by rw [State.appliedClaim, hi.acceptable]; simp
  rw [State.applyClaim, hnone]

theorem State.HearsIgnored.applyAnswer (u : State) : (u.applyAnswer (s.occurrence bits)).2 = [] := by
  have hnone : u.answerHeard (s.occurrence bits) = none := by rw [State.answerHeard, hi.acceptable]; simp
  simp [State.applyAnswer, hnone]

/-- It is no data-kind word: roster and table post nothing. -/
theorem State.HearsIgnored.markPresent (u : State) : (u.markPresent (s.occurrence bits)).2 = [] := by
  simp only [State.markPresent, hi.dataKind, ite_self]

theorem State.HearsIgnored.tableEnd (u : State) : (u.tableEnd (s.occurrence bits)).2 = [] := by
  have hsilence (x : State) : (x.silenceStep (s.occurrence bits)).2 = [] := by
    simp only [State.silenceStep, State.occurrence_heard, hi.heard, reduceCtorEq, if_false]
    split <;> rfl
  have hcorrect (x : State) : (x.correct (s.occurrence bits)).2 = [] := by simp only [State.correct, hi.dataKind]
  unfold State.tableEnd
  dsimp only
  split_ifs
  · rfl
  · simp only [State.ownerSteps, hi.outcome, hsilence, hcorrect, List.append_nil]

theorem State.HearsIgnored.rosterAndTable (u : State) :
    (u.rosterAndTable (s.occurrence bits)).2.1 = [] ∧ (u.rosterAndTable (s.occurrence bits)).2.2 = [] := by
  unfold State.rosterAndTable
  split_ifs
  · exact ⟨hi.markPresent u, hi.tableEnd _⟩
  · exact ⟨hi.markPresent _, hi.tableEnd u⟩

/-- To a window it is no word of its sender's block: at most a stall occurrence (R165). -/
theorem State.HearsIgnored.windowAct (u : State) (n : Nat) :
    u.windowAct (s.occurrence bits) n = (u.windowAt n).idle ∨
      u.windowAct (s.occurrence bits) n = (u.windowAt n).stallOnce n (s.occurrence bits) := by
  have hfollow : (u.windowAt n).follow n (s.occurrence bits) = (u.windowAt n).stallOnce n (s.occurrence bits) := by
    simp [Window.follow, hi.heard, hi.mark]
  rw [State.windowAct, Window.act, hi.acceptable]
  simp only [reduceCtorEq, if_false, hfollow]
  split_ifs
  · exact .inr rfl
  · exact .inl rfl

theorem State.HearsIgnored.windowAct_eq (u : State) (n : Nat) :
    (u.windowAct (s.occurrence bits) n).write = none ∧ PostsNoMark (u.windowAct (s.occurrence bits) n).events := by
  rcases hi.windowAct u n with h | h <;> rw [h]
  · exact ⟨rfl, .nil⟩
  · exact Window.stallOnce_posts ..

/-- No window writes, so that the slot's end is no fault. -/
theorem State.HearsIgnored.dataFinish : s.dataFinish bits = .next (s.endDataSlot bits) := by
  have hwrites : s.windowWrites (s.occurrence bits) = [] := by
    simp [State.windowWrites, (hi.windowAct_eq s _).1]
  have hstray : s.strayWrite bits = none := by simp [State.strayWrite, hwrites]
  rw [State.dataFinish, hstray]

/-! ### The end of each slot with an ignored MARK -/

/-- Where all other blocks post none of the two kinds, the event of the MARK is the one posted. -/
theorem State.HearsIgnored.posted {before after : List (List Event)} (hb : ∀ g ∈ before, PostsNoMark g)
    (ha : ∀ g ∈ after, PostsNoMark g) :
    (before ++ [markEvent kind s.timer.frame p w] :: after).flatten.filter Event.ofMark =
      [markEvent kind s.timer.frame p w] := by
  rw [List.flatten_append, List.flatten_cons, List.filter_append, List.filter_append, (PostsNoMark.flatten hb).filter,
    (PostsNoMark.flatten ha).filter]
  simp [hi.ofMark]

theorem State.HearsIgnored.rollSlot : s.Ignores p (markEvent kind s.timer.frame p w) (s.endRollSlot bits) := by
  have hleaves : (s.portEnd bits).leavesNow (s.occurrence bits) = false := by simp [State.leavesNow, hi.unsent]
  rw [State.endRollSlot_of_none hi.faultIn, hleaves, if_neg Bool.false_ne_true]
  obtain ⟨v, hv, rfl⟩ := (s.portEnd bits).rollEnd_shape (s.occurrence bits)
  have hfront := hi.rollTurn_front (s.portEnd bits)
  obtain ⟨hc, ht, -⟩ := State.front_eq_iff.mp hfront
  obtain ⟨hposts, hnone⟩ := hi.rollTurn_posts (s.portEnd bits)
  rw [hv, hi.rollTimer, hi.offSlotEvents hc ht, hnone]
  refine State.ignores_of_front hi.slot hi.realignsTo hfront
    (hi.posted (before := [_, []]) (after := []) ?_ (by simp))
  simp [hposts, PostsNoMark.nil]

theorem State.HearsIgnored.claimSlot : s.Ignores p (markEvent kind s.timer.frame p w) (s.endClaimSlot bits) := by
  rw [State.endClaimSlot_of_none hi.faultIn]
  obtain ⟨v, hv, hfront⟩ := (s.portEnd bits).claimEnd_shape (s.occurrence bits)
  rw [hv, hi.offSlot, hi.applyClaim]
  refine State.ignores_of_front hi.slot hi.realignsTo hfront (hi.posted (before := [_]) (after := []) ?_ (by simp))
  simpa only [List.mem_singleton, forall_eq, List.nil_append] using
    (s.portEnd bits).claimOutcome_posts (s.occurrence bits) _

theorem State.HearsIgnored.answerSlot : s.Ignores p (markEvent kind s.timer.frame p w) (s.endAnswerSlot bits) := by
  rw [State.endAnswerSlot_of_none hi.faultIn]
  obtain ⟨v, heard, hv, hfront, hheard⟩ := (s.portEnd bits).answerEnd_shape (s.occurrence bits)
  have hnone : heard = [] := hheard.elim id (fun h => h.trans (hi.applyAnswer _))
  rw [hv, hi.offSlot, hnone]
  refine State.ignores_of_front hi.slot hi.realignsTo hfront (hi.posted (before := [_, []]) (after := []) ?_ (by simp))
  simpa [PostsNoMark.nil] using (s.portEnd bits).answerOutcome_posts (s.occurrence bits)

theorem State.HearsIgnored.dataSlot : s.Ignores p (markEvent kind s.timer.frame p w) (s.endDataSlot bits) := by
  rw [State.endDataSlot_of_none hi.faultIn]
  obtain ⟨v, posts, hv, hfront, hposts⟩ := (s.portEnd bits).dataEnd_shape (s.occurrence bits)
  obtain ⟨hroster, htable⟩ := hi.rosterAndTable (s.portEnd bits)
  rw [hv, hi.offSlot, hroster, htable]
  refine State.ignores_of_front hi.slot hi.realignsTo hfront (hi.posted (before := [[], []])
    (after := channelIds.map (fun c => ((s.portEnd bits).rxAt c).overrunEvents (s.occurrence bits) c) ++ posts) ?_ ?_)
  · simp [PostsNoMark.nil]
  · intro g hg
    rcases List.mem_append.mp hg with hg | hg
    · obtain ⟨c, -, rfl⟩ := List.mem_map.mp hg
      exact RxChannel.overrunEvents_posts _ _ _
    · rcases hposts with rfl | rfl
      · cases hg
      · obtain ⟨n, -, rfl⟩ := List.mem_map.mp hg
        exact (hi.windowAct_eq _ n).2

/-- At the end of whatever slot. -/
theorem State.HearsIgnored.ignores :
    ∃ t, exec (endCommand p bits) s = .next t ∧ s.Ignores p (markEvent kind s.timer.frame p w) t := by
  have h1 := hi.pos
  rw [exec_endCommand hi.passes hi.len hi.onTrunk, if_neg (by omega)]
  split_ifs
  · exact ⟨_, rfl, hi.rollSlot⟩
  · exact ⟨_, rfl, hi.claimSlot⟩
  · exact ⟨_, rfl, hi.answerSlot⟩
  · exact ⟨_, hi.dataFinish, hi.dataSlot⟩

end Ignored

/-! ### Hunting candidates (R12, R18, R19) -/

/-- The windows at entry into FAULT (R53). -/
theorem Window.faulted_eq (x : Window) :
    x.faulted = if x.state = .closed ∨ x.state = .complete then x
      else { x with state := .failed, origin := none, cause := some .fault } := by
  unfold Window.faulted
  cases x.state <;> simp

/-- Entry into FAULT changes what chapter 3 lists, and of the trunk port nothing remains (R34, R53). -/
theorem State.enteredFault_enterFault (s : State) (port : TrunkPort) (cause : FaultCause) :
    s.enteredFault (({ s with port := port } : State).enterFault cause) cause := by
  rw [State.enterFault_eq]
  refine ⟨rfl, rfl, rfl, rfl, rfl, rfl, rfl, rfl, fun w hw => ?_, rfl, rfl, rfl, rfl, rfl⟩
  exact (Bank.get_map_lt s.windows Window.faulted w Window.closed hw).trans (Window.faulted_eq _)

/-- A hunting candidate, by what is heard (R12). -/
theorem exec_huntingCandidate (hl : s.control.state = .listen) (ha : s.timer.aligned = false) (bits : SlotBits) :
    exec (.huntingCandidate bits) s = .next (s.candidateHeard bits) :=
  if_pos (State.hunting_iff.mpr ⟨hl, ha⟩)

/-- An acceptable MARK is judged by its sender and its length (R18, R19, R52). -/
theorem State.candidateHeard_of_mark (h : (classify bits).acceptable .mark = some w) :
    s.candidateHeard bits =
      if w.sender = s.self then ({ s with port := { s.port with window := some bits } } : State).enterFault .duplicateAddress
      else if w.markLength = some s.len then ({ s with port := { s.port with window := some bits } } : State).joinOn w
      else ({ s with port := { s.port with window := some bits } } : State).enterFault .frameLength := by
  unfold State.candidateHeard
  simp only [h]

/-- Anything else is discarded (R12). -/
theorem State.candidateHeard_of_none (h : (classify bits).acceptable .mark = none) :
    s.candidateHeard bits = { s with port := { s.port with window := some bits } } := by
  unfold State.candidateHeard
  simp only [h]

end Sys2Proof.Machine

open Sys2Proof Sys2Proof.Machine

/-- Settles O27: without a MARK, or with one that is ignored, every slot's end advances position and frame number. -/
theorem framesAdvance : Obligations.FramesAdvance := by
  refine ⟨fun s t p h hp hlen _ hon hm he ht => ?_, fun s p h w kind hp h1 hlen hon hsent hv hk hw hpeer hcase => ?_⟩
  · have g := State.goesOn_of_noMark hp hlen hon (Heard.acceptable_none_of_kind hm) he ht
    exact ⟨g.aligned, g.passing, g.position, g.frame⟩
  · have hi : s.HearsIgnored p h w kind := ⟨hp, h1, hlen, hon, hsent, hv, hk, hw, hpeer, hcase⟩
    obtain ⟨t, he, ht, hst, es, hes, hmark⟩ := hi.ignores
    exact ⟨t, es, he, ht, hst, hes, hmark⟩

/-- Settles O23: by what the candidate is heard as. -/
theorem huntingCandidates : Obligations.HuntingCandidates := by
  intro s b hl ha
  refine ⟨fun w hv hk hm hpeer hlen => ?_, fun w hv hk hm hbad => ?_, fun hnone => ?_⟩
  · have hacc := Heard.acceptable_eq_some.mpr ⟨hv, hk, hm⟩
    rw [exec_huntingCandidate hl ha, State.candidateHeard_of_mark hacc, if_neg hpeer, if_pos hlen]
    exact ⟨_, _, rfl, rfl, (mergeAll_perm s.happening _ 0).trans (.of_eq rfl)⟩
  · have hacc := Heard.acceptable_eq_some.mpr ⟨hv, hk, hm⟩
    rw [exec_huntingCandidate hl ha, State.candidateHeard_of_mark hacc]
    refine ⟨_, rfl, ?_⟩
    split_ifs with hself hlen
    · exact ⟨rfl, s.enteredFault_enterFault _ _⟩
    · exact absurd hlen (hbad.resolve_left hself)
    · exact ⟨rfl, s.enteredFault_enterFault _ _⟩
  · have hacc : (classify b).acceptable .mark = none := by
      cases hb : classify b with
      | silent => rfl
      | corrupt => rfl
      | valid w =>
        rw [Heard.acceptable_valid]
        exact if_neg fun hc => by simpa [hc.2] using hnone w hb hc.1
    rw [exec_huntingCandidate hl ha, State.candidateHeard_of_none hacc]

/-- Settles O53: the blocks of the station at their reset values are sound, and the others hold nothing. -/
theorem resetStateIsSound : Obligations.ResetStateIsSound := by
  have hreset : State.reset.AtReset := ⟨rfl, rfl, rfl, rfl, rfl⟩
  obtain ⟨hstation, hroster⟩ := hreset.sound (fun _ => rfl)
  have hentry (n : Nat) : State.reset.entry n = SlotEntry.reset := Bank.get_fill 96 n _
  refine ⟨by decide, by decide, by decide, by decide, by decide, by decide, hstation, hroster, ?_, ?_⟩
  · refine ⟨fun n _ => ?_, fun _ n _ => ?_, by decide, by decide⟩
    · rw [State.entryOk, State.isOwn, hentry]
      exact ⟨fun _ => rfl, by decide, by decide, by simp [SlotEntry.reset], by simp [SlotEntry.reset]⟩
    · rw [State.isOwn, hentry]
      rfl
  · decide
end

