-- ==== Sys2Proof/Proofs/Postings.lean ====
section
/-! Which kinds of events each block posts, so that of the free order in which several blocks post (R177) the events of one
kind are those of the one block that posts them. -/

namespace Sys2Proof.Machine

variable {s : State} {o : Occurrence} {k : EventKind} {ks ls : List EventKind} {es fs : List Event}

/-! ### Events of one kind -/

@[simp] theorem eventsOf_nil (k : EventKind) : eventsOf k [] = [] := rfl

@[simp] theorem eventsOf_append (k : EventKind) (es fs : List Event) :
    eventsOf k (es ++ fs) = eventsOf k es ++ eventsOf k fs := List.filter_append ..

/-- One event is of its kind, and of no other. -/
@[simp] theorem eventsOf_singleton (k : EventKind) (e : Event) : eventsOf k [e] = if e.kind = k then [e] else [] := by
  by_cases h : e.kind = k <;> simp [eventsOf, h]

/-- Every event of the list has one of the kinds. -/
structure PostsOnly (ks : List EventKind) (es : List Event) : Prop where
  kinds : ∀ e ∈ es, e.kind ∈ ks

theorem PostsOnly.nil : PostsOnly ks [] := ⟨by simp⟩

theorem PostsOnly.singleton {e : Event} (h : e.kind ∈ ks) : PostsOnly ks [e] := ⟨by simpa using h⟩

theorem PostsOnly.append (h : PostsOnly ks es) (h' : PostsOnly ks fs) : PostsOnly ks (es ++ fs) :=
  ⟨fun e he => (List.mem_append.mp he).elim (h.kinds e) (h'.kinds e)⟩

theorem PostsOnly.map {α : Type} {f : α → Event} {xs : List α} (h : ∀ x, (f x).kind ∈ ks) : PostsOnly ks (xs.map f) :=
  ⟨by simpa using fun x _ => h x⟩

theorem PostsOnly.mono (h : PostsOnly ks es) (hk : ks ⊆ ls) : PostsOnly ls es := ⟨fun e he => hk (h.kinds e he)⟩

/-- Several blocks in a free order post what each of them posts. -/
theorem PostsOnly.mergeAll (h base : Nat) {gs : List (List Event)} (hg : ∀ g ∈ gs, PostsOnly ks g) :
    PostsOnly ks (mergeAll h base gs) := by
  refine ⟨fun e he => ?_⟩
  obtain ⟨g, hgs, heg⟩ := List.mem_flatten.mp ((mergeAll_perm h gs base).mem_iff.mp he)
  exact (hg g hgs).kinds e heg

/-- Of a kind that is not posted there is no event. -/
theorem PostsOnly.eventsOf_eq_nil (h : PostsOnly ks es) (hk : k ∉ ks) : eventsOf k es = [] :=
  List.filter_eq_nil_iff.mpr fun e he hek => hk (beq_iff_eq.mp hek ▸ h.kinds e he)

/-- Where one kind alone is posted, all events are of it. -/
theorem PostsOnly.eventsOf_eq_self (h : PostsOnly [k] es) : eventsOf k es = es :=
  List.filter_eq_self.mpr fun e he => beq_iff_eq.mpr (List.mem_singleton.mp (h.kinds e he))

/-- Of a kind that one block alone posts, a free order posts that block's events in its order. -/
theorem eventsOf_mergeAll (h : Nat) {before after : List (List Event)} {g : List Event}
    (hb : ∀ x ∈ before, eventsOf k x = []) (ha : ∀ x ∈ after, eventsOf k x = []) :
    ∀ base, eventsOf k (mergeAll h base (before ++ g :: after)) = eventsOf k g := by
  have hafter : eventsOf k after.flatten = [] := by
    rw [eventsOf, List.filter_flatten, List.flatten_eq_nil_iff]
    intro _ hl
    obtain ⟨x, hx, rfl⟩ := List.mem_map.mp hl
    exact ha x hx
  induction before with
  | nil => exact fun base => mergeAll_filter_head _ h base g after hafter
  | cons x before ih =>
    intro base
    exact (mergeAll_filter_tail _ h base x _ (hb x (List.mem_cons_self ..))).trans
      (ih (fun y hy => hb y (List.mem_cons_of_mem x hy)) (base + 64))

/-- Two blocks that each post one kind of their own. -/
theorem eventsOf_mergeAll_pair (h base : Nat) {l : EventKind} (hkl : k ≠ l) (he : PostsOnly [k] es) (hf : PostsOnly [l] fs) :
    eventsOf k (mergeAll h base [es, fs]) = es ∧ eventsOf l (mergeAll h base [es, fs]) = fs ∧
      (mergeAll h base [es, fs]).length = es.length + fs.length := by
  refine ⟨?_, ?_, by simp [mergeAll_length]⟩
  · exact (eventsOf_mergeAll h (before := []) (by simp) (by simpa using hf.eventsOf_eq_nil (by simp [hkl])) base).trans
      he.eventsOf_eq_self
  · exact (eventsOf_mergeAll h (before := [es]) (by simpa using he.eventsOf_eq_nil (by simp [hkl.symm])) (by simp) base).trans
      hf.eventsOf_eq_self

/-! ### The frame timer -/

/-- A missed mark, by its count before (R24, R28, R29). -/
theorem State.missMark_eq (s : State) :
    s.missMark =
      if s.control.state = .member ∧ s.timer.missed = 1 then s.countMissed.runCandidate
      else if s.control.state = .member ∧ s.timer.missed = 3 ∧ s.eligible = true ∧ s.timer.holderFlag = false then
        (s.countMissed.hold, [holderChanged s.timer.frame (some s.self)])
      else (s.countMissed, []) := rfl

/-- A missed mark posts HOLDER_CHANGED alone (R28, R29). -/
theorem State.missMark_postsOnly (s : State) : PostsOnly [.holderChanged] s.missMark.2 := by
  rw [State.missMark_eq]
  unfold State.runCandidate
  split_ifs
  · exact .singleton (by simp [holderChanged, Event.of])
  · exact .nil
  · exact .singleton (by simp [holderChanged, Event.of])
  · exact .nil

/-- An ignored MARK in slot 0 posts MARK_MISMATCH alone (R23). -/
theorem State.mismatchEvents_postsOnly (s : State) (o : Occurrence) : PostsOnly [.markMismatch] (s.mismatchEvents o) := by
  unfold State.mismatchEvents
  split
  · exact .nil
  · split_ifs
    · exact .nil
    · exact .singleton (by simp [Event.of])

/-- A MARK heard outside slot 0 (R32, R33). -/
theorem State.offSlotEvents_postsOnly (s : State) (o : Occurrence) :
    PostsOnly [.holderChanged, .markStray, .markMismatch] (s.offSlotEvents o) := by
  unfold State.offSlotEvents
  split
  · split_ifs
    · exact .singleton (by simp [holderChanged, Event.of])
    · exact .nil
  · split
    · exact .nil
    · split_ifs
      · exact .nil
      · exact .singleton (by simp [Event.of])
      · exact .singleton (by simp [Event.of])

/-! ### The roster -/

/-- What the roster posts at the end of slot 1 (R61 to R65). -/
def rollKinds : List EventKind := [.rollMisplaced, .holdingsDiffer, .stationJoined, .stationLeft, .stationLost]

theorem State.misplacedRoll_postsOnly (s : State) (o : Occurrence) (a : Nat) : PostsOnly rollKinds (s.misplacedRoll o a) := by
  unfold State.misplacedRoll
  split
  · exact .nil
  · split_ifs
    · exact .nil
    · exact .singleton (by simp [rollKinds, Event.of])

theorem State.holdingsDiffer_postsOnly (s : State) (o : Occurrence) (a : Nat) (w : SlotWord) :
    PostsOnly [.holdingsDiffer] (s.holdingsDiffer o a w) := by
  unfold State.holdingsDiffer
  split_ifs
  · exact .nil
  · exact .singleton (by simp [Event.of])

theorem State.peerTurn_postsOnly (s : State) (o : Occurrence) (a : Nat) : PostsOnly rollKinds (s.peerTurn o a).2 := by
  have hdiffer (w : SlotWord) : PostsOnly rollKinds (s.holdingsDiffer o a w) :=
    (s.holdingsDiffer_postsOnly o a w).mono (by simp [rollKinds])
  unfold State.peerTurn
  split
  · split_ifs
    · exact (hdiffer _).append (.singleton (by simp [rollKinds, Event.of]))
    · refine (hdiffer _).append ?_
      split_ifs
      · exact .nil
      · exact .singleton (by simp [rollKinds, Event.of])
  · refine (s.misplacedRoll_postsOnly o a).append ?_
    unfold State.rollMissed
    split_ifs
    · exact .nil
    · exact .singleton (by simp [rollKinds, Event.of])
    · exact .nil

/-- In self's own turn the roster posts ROLL_MISPLACED, and the station controller STATE_CHANGED (R43, R60). -/
theorem State.ownTurn_postsOnly (s : State) (o : Occurrence) :
    PostsOnly rollKinds (s.ownTurn o).2.1 ∧ PostsOnly [.stateChanged] (s.ownTurn o).2.2 := by
  unfold State.ownTurn
  split
  · split
    case h_1 => exact ⟨.nil, .singleton (by simp [State.stateChanged, Event.of])⟩
    all_goals exact ⟨.nil, .nil⟩
  · exact ⟨.nil, .nil⟩
  · exact ⟨s.misplacedRoll_postsOnly o _, .nil⟩

theorem State.rollTurn_postsOnly (s : State) (o : Occurrence) :
    PostsOnly rollKinds (s.rollTurn o).2.1 ∧ PostsOnly [.stateChanged] (s.rollTurn o).2.2 := by
  unfold State.rollTurn
  split_ifs
  · exact s.ownTurn_postsOnly o
  · exact ⟨s.peerTurn_postsOnly o _, .nil⟩

/-- PRESENT marking in JOINING (R66). -/
theorem State.markPresent_postsOnly (s : State) (o : Occurrence) : PostsOnly [.stationJoined] (s.markPresent o).2 := by
  unfold State.markPresent
  split_ifs
  · split
    · exact .nil
    · split_ifs
      · exact .nil
      · exact .singleton (by simp [Event.of])
  · exact .nil

/-! ### Claim queue, answer queue and bulk sender -/

/-- The claim queue posts CLAIM_DONE alone (R100 to R102). -/
theorem State.claimOutcome_postsOnly (s : State) (o : Occurrence) (given : Option Nat) :
    PostsOnly [.claimDone] (s.claimOutcome o given).2 := by
  have done (r : ClaimRecord) (frame : Nat) (x : ClaimResult) (slot station : Option Nat) :
      PostsOnly [.claimDone] [r.doneEvent frame x slot station] := .singleton (by simp [ClaimRecord.doneEvent, Event.of])
  unfold State.claimOutcome
  split
  · exact .nil
  · dsimp only
    unfold ClaimRecord.settleOutcome
    split_ifs
    · split <;> exact done ..
    · exact done ..
    · exact .nil
    · exact done ..

/-- An applied CLAIM word unbinds receive channels (R124). -/
theorem State.applyClaim_postsOnly (s : State) (o : Occurrence) (role : Option Role) :
    PostsOnly [.rxUnbound] (s.applyClaim o role).2 := by
  unfold State.applyClaim
  split
  · exact .nil
  · split
    · split_ifs
      · refine .mergeAll _ _ fun g hg => ?_
        obtain ⟨c, -, rfl⟩ := List.mem_map.mp hg
        unfold State.unboundEvent
        split_ifs
        · exact .singleton (by simp [Event.of])
        · exact .nil
      · exact .nil
    · split <;> exact .nil

/-- The answer queue posts ANSWER_DROPPED alone (R167). -/
theorem State.answerOutcome_postsOnly (s : State) (o : Occurrence) : PostsOnly [.answerDropped] (s.answerOutcome o).2 := by
  unfold State.answerOutcome
  split
  · exact .nil
  · split_ifs
    · exact .nil
    · exact .nil
    · exact .singleton (by simp [Answer.droppedEvent, Event.of])

/-- A heard ANSWER ends a job or not (R144 to R146). -/
theorem State.applyAnswer_postsOnly (s : State) (o : Occurrence) :
    PostsOnly [.jobDone, .jobFailed] (s.applyAnswer o).2 := by
  unfold State.applyAnswer
  split
  · unfold Job.answered
    split_ifs
    · exact .singleton (by simp [Job.doneEvent, Event.of])
    · exact .singleton (by simp [Job.failedEvent, Event.of])
    · exact .nil
    · exact .singleton (by simp [Job.failedEvent, Event.of])
  · exact .nil

/-! ### Allocation table and receive channels -/

/-- What the table posts at the end of a data slot (R75, R76, R79). -/
def tableKinds : List EventKind := [.slotLapsed, .slotCorrected, .slotLost]

theorem State.silenceStep_postsOnly (s : State) (o : Occurrence) : PostsOnly tableKinds (s.silenceStep o).2 := by
  unfold State.silenceStep
  dsimp only
  split
  · exact .nil
  · split_ifs
    · exact .nil
    · exact .singleton (by simp [tableKinds, Event.of])
    · exact .nil

theorem State.correct_postsOnly (s : State) (o : Occurrence) : PostsOnly tableKinds (s.correct o).2 := by
  unfold State.correct
  split
  · exact .nil
  · dsimp only
    split_ifs
    · exact .nil
    · exact .singleton (by simp [tableKinds, Event.of])
    · exact .nil

theorem State.loseSlot_postsOnly (s : State) (o : Occurrence) : PostsOnly tableKinds (s.loseSlot o).2 := by
  have lost (a : Option Nat) : PostsOnly tableKinds [slotLost o a] := .singleton (by simp [tableKinds, slotLost, Event.of])
  unfold State.loseSlot
  dsimp only
  split
  · exact lost _
  · split_ifs <;> exact lost _

theorem State.tableEnd_postsOnly (s : State) (o : Occurrence) : PostsOnly tableKinds (s.tableEnd o).2 := by
  unfold State.tableEnd
  dsimp only
  split_ifs
  · exact .nil
  · unfold State.ownerSteps
    split
    · exact (State.silenceStep_postsOnly ..).append (State.correct_postsOnly ..)
    · split_ifs
      · exact (State.silenceStep_postsOnly ..).append (State.loseSlot_postsOnly ..)
      · exact State.silenceStep_postsOnly ..
    all_goals exact State.silenceStep_postsOnly ..

/-- Roster and table at the end of a data slot, in either order (R67). -/
theorem State.rosterAndTable_postsOnly (s : State) (o : Occurrence) :
    PostsOnly [.stationJoined] (s.rosterAndTable o).2.1 ∧ PostsOnly tableKinds (s.rosterAndTable o).2.2 := by
  unfold State.rosterAndTable
  split_ifs <;> exact ⟨State.markPresent_postsOnly .., State.tableEnd_postsOnly ..⟩

/-- A receive channel posts RX_OVERRUN alone (R121). -/
theorem RxChannel.overrunEvents_postsOnly (r : RxChannel) (o : Occurrence) (c : Nat) :
    PostsOnly [.rxOverrun] (r.overrunEvents o c) := by
  unfold RxChannel.overrunEvents
  split_ifs
  · exact .singleton (by simp [Event.of])
  · exact .nil

/-! ### Windows -/

/-- What a window posts at the end of a data slot (R151). -/
def windowKinds : List EventKind := [.windowComplete, .windowRestarted, .windowStalled, .windowFailed]

/-- An event of a window has the kind it is made for. -/
@[simp] theorem Window.event_kind (x : Window) (kind : EventKind) (frame n count : Nat) :
    (x.event kind frame n count).kind = kind := rfl

theorem Window.stallOnce_postsOnly (x : Window) (n : Nat) (o : Occurrence) :
    PostsOnly windowKinds (x.stallOnce n o).events := by
  unfold Window.stallOnce
  dsimp only
  split
  case h_1 | h_2 =>
    split_ifs
    · exact .nil
    · exact .singleton (by simp [windowKinds])
  all_goals exact .nil

theorem Window.overruns_postsOnly (x : Window) (n : Nat) (o : Occurrence) (k : Nat) :
    PostsOnly windowKinds (x.overruns n o k).events := .singleton (by simp [windowKinds])

theorem Window.headInBlock_postsOnly (x : Window) (n : Nat) (o : Occurrence) (w : SlotWord) :
    PostsOnly windowKinds (x.headInBlock n o w).events := by
  unfold Window.headInBlock
  split_ifs
  · exact .singleton (by simp [windowKinds])
  all_goals exact .nil

theorem Window.head_postsOnly (x : Window) (n : Nat) (o : Occurrence) (w : SlotWord) :
    PostsOnly windowKinds (x.head n o w).events := by
  unfold Window.head
  cases x.state with
  | receiving => exact x.headInBlock_postsOnly n o w
  | gap => exact x.headInBlock_postsOnly n o w
  | stalled => exact x.headInBlock_postsOnly n o w
  | opened => dsimp only; split_ifs <;> exact .nil
  | complete => dsimp only; split_ifs <;> exact .nil
  | closed => exact .nil
  | failed => exact .nil

theorem Window.withdrawn_postsOnly (x : Window) (n : Nat) (o : Occurrence) :
    PostsOnly windowKinds (x.withdrawn n o).events := by
  unfold Window.withdrawn
  split
  case h_1 | h_2 => exact .singleton (by simp [windowKinds])
  all_goals exact .nil

theorem Window.bulk_postsOnly (x : Window) (n : Nat) (o : Occurrence) (w : SlotWord) :
    PostsOnly windowKinds (x.bulk n o w).events := by
  unfold Window.bulk
  split_ifs
  · exact .nil
  · exact x.overruns_postsOnly ..
  · exact x.stallOnce_postsOnly ..
  · exact .nil

theorem Window.tail_postsOnly (x : Window) (n : Nat) (o : Occurrence) (w : SlotWord) :
    PostsOnly windowKinds (x.tail n o w).events := by
  unfold Window.tail Window.tailByState
  split_ifs
  · exact .nil
  · exact .nil
  · exact .singleton (by simp [windowKinds])
  · exact .nil
  · exact Window.overruns_postsOnly ..
  · exact .nil

theorem Window.follow_postsOnly (x : Window) (n : Nat) (o : Occurrence) :
    PostsOnly windowKinds (x.follow n o).events := by
  unfold Window.follow
  split
  · exact x.stallOnce_postsOnly n o
  · unfold Window.corruptWord
    split_ifs
    · exact .nil
    · exact x.stallOnce_postsOnly n o
    · exact .nil
  · split_ifs
    · exact x.bulk_postsOnly ..
    · exact x.tail_postsOnly ..
    · exact x.stallOnce_postsOnly n o

/-- Whatever a window does with an occurrence (R157). -/
theorem Window.act_postsOnly (x : Window) (n : Nat) (o : Occurrence) (self : Nat) :
    PostsOnly windowKinds (x.act n o self).events := by
  unfold Window.act
  dsimp only
  split
  · split_ifs
    · exact .nil
    · exact (x.head_postsOnly ..).append (Window.stallOnce_postsOnly ..)
    · exact x.head_postsOnly ..
    · exact x.withdrawn_postsOnly ..
    · exact x.stallOnce_postsOnly ..
    · exact .nil
    · exact x.stallOnce_postsOnly ..
    · exact .nil
  · split_ifs
    · exact x.follow_postsOnly ..
    · exact .nil

theorem State.windowEvents_postsOnly (s : State) (o : Occurrence) : ∀ g ∈ s.windowEvents o, PostsOnly windowKinds g := by
  intro g hg
  obtain ⟨n, -, rfl⟩ := List.mem_map.mp hg
  exact Window.act_postsOnly ..

/-! ### Session ends (R47, R50, R53) -/

theorem claimsEndEvents_postsOnly (frame : Nat) (result : ClaimResult) (records : List ClaimRecord) :
    PostsOnly [.claimDone] (claimsEndEvents frame result records) := .map fun _ => by simp [ClaimRecord.doneEvent, Event.of]

theorem failLiveEvents_postsOnly (r : JobResult) (frame : Nat) (jobs : List Job) :
    PostsOnly [.jobFailed] (failLiveEvents r frame jobs) := .map fun _ => by simp [Job.failedEvent, Event.of]

theorem State.detachEvents_postsOnly (s : State) : PostsOnly [.windowStalled] s.detachEvents := .map fun _ => by simp

theorem State.faultWindowEvents_postsOnly (s : State) : PostsOnly [.windowFailed] s.faultWindowEvents := .map fun _ => by simp

end Sys2Proof.Machine
end

