-- ==== Sys2Proof/Proofs/MarkSlot.lean ====
section
/-! Finding the trunk and the MARK slot: the listen window (R20), who sends MARK and ROLL, and the end of slot 0 at a founder
(R21), at a holder (R26, R27), at a station that follows (R22) and at one that misses a mark (R24, R28 to R30). -/

namespace Sys2Proof.Machine

variable {s u : State} {o : Occurrence} {w : SlotWord} {bits b : SlotBits}

/-! ### The listen window (R20) -/

/-- A frame time of the listen window, while it runs. -/
theorem exec_listenWindowFrameTime (hl : s.control.state = .listen) (ha : s.timer.aligned = false)
    (hc : s.control.listenCount < 3) : exec .listenWindowFrameTime s = .next s.frameTimePassed :=
  if_pos (by simp [State.hunting, hl, ha, hc])

/-- The third frame time of the listen window. -/
theorem exec_listenWindowPasses (hl : s.control.state = .listen) (ha : s.timer.aligned = false)
    (hc : s.control.listenCount = 2) : exec .listenWindowPasses s = .next s.frameTimePassed :=
  if_pos (by simp [State.hunting, hl, ha, hc])

/-- Short of the third frame time the count rises. -/
theorem State.frameTimePassed_counts (hc : s.control.listenCount < 2) :
    s.frameTimePassed = { s with control := { s.control with listenCount := s.control.listenCount + 1 } } :=
  if_neg (by omega)

/-- At the third frame time the window has passed. -/
theorem State.frameTimePassed_third (hc : s.control.listenCount = 2) :
    s.frameTimePassed = ({ s with control := { s.control with listenCount := 3 } } : State).windowPassed := by
  simp [State.frameTimePassed, hc]

/-! ### The starts of slots 0 and 1 (R20, R25, R42, R48) -/

theorem StationState.onTrunk_iff {st : StationState} : st.onTrunk = true ↔ st = .joining ∨ st = .member ∨ st = .leaving := by
  cases st <;> simp [StationState.onTrunk]

/-- The word of slot 0: a founder's MARK, or a holder's. -/
theorem State.markToSend_eq (s : State) :
    s.markToSend = if s.control.state = .listen ∨
        ((s.control.state = .joining ∨ s.control.state = .member ∨ s.control.state = .leaving) ∧
          s.timer.holderFlag = true) then
      some (markWord s.self s.timer.frame s.len) else none := by
  simp [State.markToSend, ← StationState.onTrunk_iff]

/-- The observation frame begins in JOINING, unless the observation is complete (R41). -/
theorem StationControl.frameBegins_eq (c : StationControl) :
    c.frameBegins = { c with observing := c.observing || decide (c.state = .joining ∧ c.observed = false) } := by
  unfold StationControl.frameBegins
  split_ifs with h <;> simp [h]

/-- The word of slot 1: self's ROLL in its own turn, with its status. -/
theorem State.rollToSend_eq (s : State) :
    s.rollToSend = if s.timer.frame % 30 + 1 = s.self ∧ (s.control.state = .member ∨ s.control.state = .leaving ∨
        (s.control.state = .joining ∧ s.control.observed = true)) then
      some (rollWord s.self (decide (s.control.state = .leaving)) s.holdings s.eligible) else none := by
  unfold State.rollToSend turnOf
  by_cases hturn : s.timer.frame % 30 + 1 = s.self
  · rw [if_pos hturn]
    cases hst : s.control.state <;> simp [hturn]
  · rw [if_neg hturn, if_neg fun h => hturn h.1]

/-- A word begins an occurrence, or none does. -/
theorem TrunkPort.begin_ite (p : TrunkPort) (c : Prop) [Decidable c] (x : SlotWord) :
    p.begin (if c then some x else none) =
      if c then { p with word := some x.bits, bitsDone := 0, displaced := false, lineError := false, drove := true }
      else { p with word := none, bitsDone := 0, displaced := false, lineError := false, drove := false } := by
  split_ifs <;> rfl

/-! ### Whether an occurrence brings a fault (R52) -/

/-- A word of another station is no duplicate, whatever became of self's own. -/
theorem Occurrence.duplicate_eq_false_of_peer {a : Nat} (h : ∀ w, o.heard = .valid w → w.sender ≠ a) :
    o.duplicate a = false := by
  simp [Occurrence.duplicate, Heard.carries_eq_false h]

/-- Self's address is no duplicate in a word that self sent and did not lose to another. -/
theorem Occurrence.duplicate_eq_false_of_sent {a : Nat} {x : SendOutcome} (h : o.outcome = some x) (hx : x ≠ .displaced) :
    o.duplicate a = false := by
  simp [Occurrence.duplicate, h, hx]

/-- No MARK of another length is heard where every acceptable one has the configured length. -/
theorem Heard.otherLength_eq_false {h : Heard} {len : Nat}
    (hl : ∀ w, h = .valid w → w.kind = .mark → w.malformed = false → w.markLength = some len) : h.otherLength len = false := by
  unfold Heard.otherLength
  split
  · rename_i w hw
    obtain ⟨hv, hk, hm⟩ := Heard.acceptable_eq_some.mp hw
    simp [hl w hv hk hm]
  · rfl

/-- Another frame length is no fault to a MEMBER or a LEAVING station (R23, R27, R33). -/
theorem Occurrence.lengthFault_eq_false_of_state {st : StationState} (len : Nat) (hj : st ≠ .joining) (hl : st ≠ .listen) :
    o.lengthFault st len = false := by
  simp [Occurrence.lengthFault, hj, hl]

/-- Nor is it one in slot 0 to a station whose own MARK was not displaced (R21, R26). -/
theorem Occurrence.lengthFault_eq_false_of_sent {st : StationState} {x : SendOutcome} (len : Nat) (h0 : o.slot = 0)
    (h : o.outcome = some x) (hx : x ≠ .displaced) : o.lengthFault st len = false := by
  simp [Occurrence.lengthFault, h0, h, hx]

/-- Nor is a MARK of the configured length one. -/
theorem Occurrence.lengthFault_eq_false_of_length {st : StationState} {len : Nat}
    (hl : ∀ w, o.heard = .valid w → w.kind = .mark → w.malformed = false → w.markLength = some len) :
    o.lengthFault st len = false := by
  rw [Occurrence.lengthFault, Heard.otherLength_eq_false hl, Bool.false_and]

theorem State.faultIn_eq_none (hd : o.duplicate s.self = false) (hl : o.lengthFault s.control.state s.len = false) :
    s.faultIn o = none := by
  simp [State.faultIn, hd, hl]

/-- A peer's MARK of the configured length is no fault. -/
theorem State.faultIn_peerMark (hv : o.heard = .valid w) (hpeer : w.sender ≠ s.self) (hlen : w.markLength = some s.len) :
    s.faultIn o = none :=
  State.faultIn_eq_none (Occurrence.duplicate_eq_false_of_peer (by simpa [hv] using hpeer))
    (Occurrence.lengthFault_eq_false_of_length (by simpa [hv] using fun _ _ => hlen))

/-! ### The end of slot 0 -/

theorem exec_markSlotEnd (hp : s.passes 0) (bits : SlotBits) : exec (.markSlotEnd bits) s = .next (s.endMarkSlot bits) :=
  if_pos (State.endsAt_of_passes hp _)

/-- At a founder, no fault found (R21). -/
theorem State.endMarkSlot_of_listen (hf : s.faultIn (s.occurrence bits) = none) (hl : s.control.state = .listen) :
    s.endMarkSlot bits = (s.portEnd bits).foundingEnd (s.occurrence bits) := by
  unfold State.endMarkSlot
  simp [hf, hl]

/-- An occurrence that is not the last of its frame and brings no realignment: the next slot (R17). -/
theorem State.passOn_next (hr : u.realignsTo o = none) (hlt : o.slot + 1 < u.len) :
    u.passOn o = { u with timer := u.timer.next o.slot } := by
  rw [State.passOn_none hr, FrameTimer.advanced_of_lt hlt, StationControl.lastSlot_of_lt hlt]

/-- Slot 0 passes on to slot 1. -/
theorem State.passOn_slot0 (h0 : o.slot = 0) (hlen : 1 < u.len) : u.passOn o = { u with timer := u.timer.next 0 } := by
  rw [State.passOn_next (State.realignsTo_slot0 h0) (by rw [h0]; exact hlen), h0]

/-- A founder whose MARK was not displaced holds (R21). -/
theorem State.foundingEnd_of_sent (h : o.outcome ≠ some .displaced) :
    u.foundingEnd o =
      ({ u.toJoining with
          timer := { u.timer with holderFlag := true, holder := some u.self, position := some 1, passing := false } }
        |>.postGroups 0 [[holderChanged u.timer.frame (some u.self)],
            [({ Event.of .stateChanged u.timer.frame with result := some (.state .joining) } : Event)]]).nextHappening :=
  if_neg h

/-- A founder displaced by an acceptable MARK joins on it (R21). -/
theorem State.foundingEnd_of_mark (h : o.outcome = some .displaced) (hw : o.heard.acceptable .mark = some w) :
    u.foundingEnd o = u.joinOn w := by
  simp [State.foundingEnd, h, hw]

/-- A founder displaced by anything else hunts again (R21). -/
theorem State.foundingEnd_of_none (h : o.outcome = some .displaced) (hw : o.heard.acceptable .mark = none) :
    u.foundingEnd o =
      { u with
        timer := { u.timer with aligned := false, position := none, passing := false, frame := 0 }
        control := { u.control with listenCount := 0 }
        port := { u.port with window := none } } := by
  simp [State.foundingEnd, h, hw]

/-- At a station that sent its MARK as holder (R26, R27). -/
theorem State.markEnd_of_sent {x : SendOutcome} (h : o.outcome = some x) :
    u.markEnd o = (((u.holderEnd o).1.postAll (u.holderEnd o).2).passOn o).nextHappening := by
  simp [State.markEnd, h]

/-- At a station that follows (R22). -/
theorem State.markEnd_of_followed (h : o.outcome = none) (hw : u.followed o = some w) :
    u.markEnd o =
      (((u.follow w).postAll
        (if u.timer.holder = some w.sender then [] else [holderChanged w.markFrame (some w.sender)])).passOn o).nextHappening := by
  simp [State.markEnd, h, hw]

/-- At a station that misses a mark, short of the return to LISTEN (R24, R30). -/
theorem State.markEnd_of_missed (h : o.outcome = none) (hw : u.followed o = none)
    (hj : ¬(u.control.state = .joining ∧ u.timer.missed = 3)) :
    u.markEnd o = ((u.missMark.1.postGroups 0 [u.mismatchEvents o, u.missMark.2]).passOn o).nextHappening := by
  simp only [State.markEnd, h, hw, if_neg hj]

/-- At a JOINING station that misses its fourth mark (R30, R44). -/
theorem State.markEnd_of_fourth (h : o.outcome = none) (hw : u.followed o = none) (hj : u.control.state = .joining)
    (hm : u.timer.missed = 3) : u.markEnd o = u.backToListen := by
  simp only [State.markEnd, h, hw, if_pos (And.intro hj hm)]

/-- A peer's acceptable MARK of the configured length is followed (R22). -/
theorem State.followed_of_peerMark (hw : o.heard.acceptable .mark = some w) (hlen : w.markLength = some u.len)
    (hpeer : w.sender ≠ u.self) : u.followed o = some w := by
  simp [State.followed, hw, hlen, hpeer]

/-- Anything else is not. -/
theorem State.followed_eq_none
    (h : ∀ w, o.heard = .valid w → w.kind = .mark → w.malformed = false → w.markLength ≠ some u.len) :
    u.followed o = none := by
  unfold State.followed
  split
  · rfl
  · rename_i w hw
    obtain ⟨hv, hk, hm⟩ := Heard.acceptable_eq_some.mp hw
    exact if_neg fun hc => h w hv hk hm hc.1

/-- A holder whose MARK was not displaced goes on (R26). -/
theorem State.holderEnd_of_sent (h : o.outcome ≠ some .displaced) : u.holderEnd o = (u, []) := if_neg h

/-- A holder displaced by an acceptable MARK of the configured length yields to it (R27). -/
theorem State.holderEnd_of_mark (h : o.outcome = some .displaced) (hw : o.heard.acceptable .mark = some w)
    (hlen : w.markLength = some u.len) :
    u.holderEnd o =
      ({ u with timer := { u.timer with holderFlag := false, frame := w.markFrame, holder := some w.sender, missed := 0 } },
        [holderChanged w.markFrame (some w.sender)]) := by
  simp [State.holderEnd, h, hw, hlen]

/-- MARK_MISMATCH for a heard word that is not followed: for a MARK, whose length is then another (R23, R27). -/
theorem State.mismatchEvents_of_valid (hv : o.heard = .valid w)
    (hw : w.kind = .mark → w.malformed = false → w.markLength ≠ some u.len) :
    u.mismatchEvents o = if w.kind = .mark ∧ w.malformed = false then
      [{ Event.of .markMismatch o.frame with station := some w.sender, slot := some 0 }] else [] := by
  unfold State.mismatchEvents
  rw [hv, Heard.acceptable_valid]
  by_cases ha : w.kind = .mark ∧ w.malformed = false
  · simp [ha, hw ha.1 ha.2]
  · simp [ha]

/-- Where no MARK is heard there is no mismatch. -/
theorem State.mismatchEvents_of_none (h : o.heard.acceptable .mark = none) : u.mismatchEvents o = [] := by
  simp [State.mismatchEvents, h]

/-- A holder displaced by anything else yields with the holder absent and one missed mark (R27). -/
theorem State.holderEnd_of_other (h : o.outcome = some .displaced)
    (hw : ∀ w, o.heard = .valid w → w.kind = .mark → w.malformed = false → w.markLength ≠ some u.len) :
    u.holderEnd o =
      ({ u with timer := { u.timer with holderFlag := false, holder := none, missed := 1 } },
        u.mismatchEvents o ++ [holderChanged o.frame none]) := by
  unfold State.holderEnd State.mismatchEvents
  rw [if_pos h]
  cases hm : o.heard.acceptable .mark with
  | none => rfl
  | some w =>
    obtain ⟨hv, hk, hwf⟩ := Heard.acceptable_eq_some.mp hm
    simp [hw w hv hk hwf]

/-! ### Candidates (R28) -/

/-- Among the addresses from 1 on, the lowest that has a property. -/
theorem find_address_eq_some {p : Nat → Bool} {k : Nat} (h1 : 1 ≤ k) (h30 : k ≤ 30) :
    ((List.range 31).filter (fun a => decide (1 ≤ a))).find? p = some k ↔ p k = true ∧ ∀ a < k, 1 ≤ a → ¬p a = true := by
  rw [List.find?_filter, List.find?_range_eq_some]
  simp only [h1, Nat.lt_succ_of_le h30, decide_true, List.mem_range, true_and, Bool.not_eq_true', decide_eq_true_eq,
    decide_eq_false_iff_not, not_and]

/-- Self is the lowest PRESENT and eligible station other than the holder, its own eligibility being the configured one. -/
def State.isLowestCandidate (s : State) : Prop :=
  s.eligible = true ∧ s.isPresent s.self = true ∧ s.timer.holder ≠ some s.self ∧
    ∀ a < s.self, 1 ≤ a → ¬(s.isPresent a = true ∧ (s.rosterEntry a).eligible = some true ∧ s.timer.holder ≠ some a)

/-- The candidate rule finds self exactly then. -/
theorem State.candidate_eq_self (h1 : 1 ≤ s.self) (h30 : s.self ≤ 30) :
    s.candidate = some s.self ↔ s.isLowestCandidate := by
  have hself : s.isCandidate s.self = true ↔
      s.eligible = true ∧ s.isPresent s.self = true ∧ s.timer.holder ≠ some s.self := by
    simp [State.isCandidate]; tauto
  have hpeer (a : Nat) (ha : a < s.self) : s.isCandidate a = true ↔
      s.isPresent a = true ∧ (s.rosterEntry a).eligible = some true ∧ s.timer.holder ≠ some a := by
    simp [State.isCandidate, ha.ne]; tauto
  rw [State.candidate, find_address_eq_some h1 h30, hself, State.isLowestCandidate]
  constructor
  · rintro ⟨⟨he, hp, hh⟩, hlow⟩
    exact ⟨he, hp, hh, fun a ha ha1 => (hpeer a ha).not.mp (hlow a ha ha1)⟩
  · rintro ⟨he, hp, hh, hlow⟩
    exact ⟨⟨he, hp, hh⟩, fun a ha ha1 => (hpeer a ha).not.mpr (hlow a ha ha1)⟩

/-- A missed mark makes self the holder: at a MEMBER's second by the candidate rule (R28), at its fourth by escalation (R29). -/
def State.takesOver (s : State) : Prop :=
  s.control.state = .member ∧
    (s.timer.missed = 1 ∧ s.isLowestCandidate ∨ s.timer.missed = 3 ∧ s.eligible = true ∧ s.timer.holderFlag = false)

/-- A missed mark that makes self the holder. -/
theorem State.missMark_of_takesOver (h1 : 1 ≤ s.self) (h30 : s.self ≤ 30) (h : s.takesOver) :
    s.missMark = (s.countMissed.hold, [holderChanged s.timer.frame (some s.self)]) := by
  obtain ⟨hm, ⟨hmissed, hlow⟩ | ⟨hmissed, he, hflag⟩⟩ := h
  · have hc : s.countMissed.candidate = some s.countMissed.self := (State.candidate_eq_self h1 h30).mpr hlow
    rw [State.missMark_eq, if_pos ⟨hm, hmissed⟩, State.runCandidate, if_pos hc]
    rfl
  · rw [State.missMark_eq, if_neg (by simp [hmissed]), if_pos ⟨hm, hmissed, he, hflag⟩]

/-- Any other missed mark is counted alone. -/
theorem State.missMark_of_not_takesOver (h1 : 1 ≤ s.self) (h30 : s.self ≤ 30) (h : ¬s.takesOver) :
    s.missMark = (s.countMissed, []) := by
  rw [State.missMark_eq]
  split_ifs with hsecond hfourth
  · have hc : ¬s.countMissed.candidate = some s.countMissed.self :=
      fun hc => h ⟨hsecond.1, .inl ⟨hsecond.2, (State.candidate_eq_self h1 h30).mp hc⟩⟩
    rw [State.runCandidate, if_neg hc]
  · exact absurd ⟨hfourth.1, .inr hfourth.2⟩ h
  · rfl

end Sys2Proof.Machine

open Sys2Proof Sys2Proof.Machine

/-- Settles O24: the count rises until the third frame time, at which the window has passed. -/
theorem listenWindowPasses : Obligations.ListenWindowPasses := by
  intro s hl ha
  refine ⟨fun hc => ?_, fun hc => ⟨?_, ?_⟩⟩
  · rw [exec_listenWindowFrameTime hl ha (by omega), State.frameTimePassed_counts hc]
  · rw [exec_listenWindowPasses hl ha hc, State.frameTimePassed_third hc]
    rfl
  · rw [exec_listenWindowFrameTime hl ha (by omega), exec_listenWindowPasses hl ha hc]

/-- Settles O25: by the words that slots 0 and 1 call for. -/
theorem markAndRollSlotsStart : Obligations.MarkAndRollSlotsStart := by
  refine ⟨fun s ha => ?_, fun s ha => ?_⟩
  · have hexec : exec .markSlotStart s = .next { s.beginWith s.markToSend with control := s.control.frameBegins } :=
      if_pos (State.startsAt_of_awaits ha _)
    rw [hexec, State.markToSend_eq, StationControl.frameBegins_eq, State.beginWith, TrunkPort.begin_ite]
  · have hexec : exec .rollSlotStart s = .next (s.beginWith s.rollToSend) := if_pos (State.startsAt_of_awaits ha _)
    rw [hexec, State.rollToSend_eq, State.beginWith, TrunkPort.begin_ite]
end

