-- ==== Sys2Proof/Proofs/SessionEnds.lean ====
section
/-! The ends of a session on the trunk: DETACHED by LEAVE (R46, R50), and FAULT at the end of any slot (R52, R53), with what
the blocks may do with the occurrence before it (R54). -/

namespace Sys2Proof.Machine

variable {s u v : State} {o : Occurrence} {w : SlotWord} {p : Nat} {bits : SlotBits} {cause : FaultCause} {es : List Event}

/-! ### DETACHED (R50) -/

/-- The windows at entry into DETACHED (R50). -/
theorem Window.detached_eq (x : Window) :
    x.detached = if x.state = .receiving ∨ x.state = .gap ∨ x.state = .stalled then
      { x with state := .stalled, origin := some .gap } else x := by
  unfold Window.detached
  cases x.state <;> simp

/-- Entry into DETACHED changes what chapter 3 lists; of the trunk port nothing remains, and of the frame timer its frame
number (R34, R50). -/
theorem State.enteredDetached_enterDetached (s : State) (port : TrunkPort) (timer : FrameTimer) (others : List (List Event)) :
    ({ s with timer := { s.timer with frame := timer.frame } } : State).enteredDetached
      (({ s with port := port, timer := timer } : State).enterDetached others) := by
  rw [State.enterDetached_eq]
  refine ⟨rfl, rfl, rfl, rfl, rfl, rfl, rfl, rfl, rfl, fun w hw => ?_, rfl, rfl, rfl, rfl⟩
  exact (Bank.get_map_lt s.windows Window.detached w Window.closed hw).trans (Window.detached_eq _)

/-- What the entry into DETACHED posts, with what other blocks post in the same happening (R50, R152). -/
def State.detachedEvents (s : State) (others : List (List Event)) : List Event :=
  mergeAll s.happening 0 ([s.stateChanged .detached] :: s.detachEvents :: others)

theorem State.enterDetached_events (s : State) (others : List (List Event)) :
    (s.enterDetached others).events = s.events.postAll (s.detachedEvents others) := rfl

/-- Where the other blocks post no STATE_CHANGED, the one of the entry is posted. -/
theorem State.detachedEvents_stateChanged (s : State) {others : List (List Event)}
    (h : ∀ g ∈ others, eventsOf .stateChanged g = []) :
    eventsOf .stateChanged (s.detachedEvents others) = [s.stateChanged .detached] := by
  have hdetach : eventsOf .stateChanged s.detachEvents = [] := s.detachEvents_postsOnly.eventsOf_eq_nil (by simp)
  exact eventsOf_mergeAll _ (before := []) (by simp) (by simpa [hdetach] using h) 0

/-- Of a kind that neither the entry nor the later blocks post, what the first other block posts. -/
theorem State.detachedEvents_other (s : State) {k : EventKind} (hk : k ≠ .stateChanged ∧ k ≠ .windowStalled)
    (g : List Event) {others : List (List Event)} (h : ∀ x ∈ others, eventsOf k x = []) :
    eventsOf k (s.detachedEvents (g :: others)) = eventsOf k g := by
  have hstate : eventsOf k [s.stateChanged .detached] = [] := by simp [State.stateChanged, Event.of, hk.1.symm]
  have hdetach : eventsOf k s.detachEvents = [] := s.detachEvents_postsOnly.eventsOf_eq_nil (by simp [hk.2])
  exact eventsOf_mergeAll _ (before := [_, _]) (by simp [hstate, hdetach]) h 0

/-! ### Which occurrence brings which fault (R52) -/

/-- Self's address, where self sent nothing or was displaced. -/
theorem State.faultIn_duplicate (hv : o.heard = .valid w) (hself : w.sender = s.self)
    (ho : o.outcome = none ∨ o.outcome = some .displaced) : s.faultIn o = some .duplicateAddress := by
  have hdup : o.duplicate s.self = true := by
    rcases ho with h | h <;> simp [Occurrence.duplicate, hv, hself, h]
  simp [State.faultIn, hdup]

/-- A peer's MARK of another length: over a founding MARK, and in JOINING (R21, R23, R27, R33). -/
theorem State.faultIn_frameLength (hv : o.heard = .valid w) (hk : w.kind = .mark) (hm : w.malformed = false)
    (hpeer : w.sender ≠ s.self) (hlen : w.markLength ≠ some s.len)
    (hst : s.control.state = .joining ∧ (o.slot ≠ 0 ∨ o.outcome = none) ∨
      (s.control.state = .joining ∨ s.control.state = .listen) ∧ o.slot = 0 ∧ o.outcome = some .displaced) :
    s.faultIn o = some .frameLength := by
  have hdup : o.duplicate s.self = false := Occurrence.duplicate_eq_false_of_peer (by simpa [hv] using hpeer)
  have hother : o.heard.otherLength s.len = true := by
    rw [Heard.otherLength, hv, Heard.acceptable_valid, if_pos ⟨hk, hm⟩]
    simpa using hlen
  have hfault : o.lengthFault s.control.state s.len = true := by
    rw [Occurrence.lengthFault, hother]
    rcases hst with ⟨hj, h | h⟩ | ⟨hj | hl, h0, h⟩
    · simp [hj, h]
    · simp [hj, h]
    · simp [hj, h]
    · simp [hl, h0, h]
  simp [State.faultIn, hdup, hfault]

/-! ### Before the fault (R54) -/

/-- What the blocks may have done with an occurrence of slot `p` before the fault found in it (R54): receive channels have
heard a data slot, the claim queue has acted on its head's outcome, and `es` has been posted. -/
structure State.BeforeFault (s : State) (p : Nat) (v : State) (es : List Event) : Prop where
  same : v = { s with port := v.port, rx := v.rx, claims := v.claims, events := s.events.postAll es }
  channels : p < 4 → v.rx = s.rx
  tagCounter : v.claims.tagCounter = s.claims.tagCounter
  uncontended : p ≠ 2 ∨ s.claims.contending = false → v.claims.records = s.claims.records ∧ eventsOf .claimDone es = []
  contended : p = 2 → s.claims.contending = true → ∀ r rs, s.claims.records = r :: rs → ∃ first : Event,
    first.tag = some r.tag ∧
      eventsOf .claimDone es ++ claimsEndEvents s.timer.frame .fault v.claims.records =
        first :: claimsEndEvents s.timer.frame .fault rs
  stateChanged : eventsOf .stateChanged es = []
  jobFailed : eventsOf .jobFailed es = []
  windowFailed : p < 4 → eventsOf .windowFailed es = []

/-- Blocks that post none of FAULT's kinds, but for the windows in a data slot, in a slot other than slot 2. -/
theorem State.BeforeFault.of_posts (hp : p ≠ 2) {port : TrunkPort} {rx : Bank RxChannel 8} (hrx : p < 4 → rx = s.rx)
    {ks : List EventKind} (h : PostsOnly ks es) (hk : .stateChanged ∉ ks ∧ .claimDone ∉ ks ∧ .jobFailed ∉ ks)
    (hw : p < 4 → .windowFailed ∉ ks) : s.BeforeFault p (({ s with port := port, rx := rx } : State).postAll es) es where
  same := rfl
  channels := hrx
  tagCounter := rfl
  uncontended := fun _ => ⟨rfl, h.eventsOf_eq_nil hk.2.1⟩
  contended := fun h2 => absurd h2 hp
  stateChanged := h.eventsOf_eq_nil hk.1
  jobFailed := h.eventsOf_eq_nil hk.2.2
  windowFailed := fun h4 => h.eventsOf_eq_nil (hw h4)

/-- One CLAIM_DONE carries the contending head's tag: that of its outcome, or that of the fault where it stays (R54, R100
to R102). -/
theorem ClaimRecord.settleOutcome_ends (r : ClaimRecord) (won : Bool) (frame : Nat) (given : Option Nat) (frame' : Nat) :
    ∃ first : Event, first.tag = some r.tag ∧
      (r.settleOutcome won frame given).2 ++ claimsEndEvents frame' .fault (r.settleOutcome won frame given).1.toList =
        [first] := by
  unfold ClaimRecord.settleOutcome
  split_ifs
  · split <;> exact ⟨_, rfl, rfl⟩
  · exact ⟨_, rfl, rfl⟩
  · exact ⟨_, rfl, rfl⟩
  · exact ⟨_, rfl, rfl⟩

/-- There is a contending head where the queue is contending and not empty (R90). -/
theorem State.contendingHead_eq_some {r : ClaimRecord} :
    u.contendingHead = some r ↔ u.claims.contending = true ∧ ∃ rs, u.claims.records = r :: rs := by
  unfold State.contendingHead
  split_ifs with hc
  · simp [hc, List.head?_eq_some_iff]
  · simp [hc]

/-- Without a contending head nothing is acted on (R100). -/
theorem State.claimOutcome_of_none {given : Option Nat} (h : u.contendingHead = none) :
    u.claimOutcome o given = ({ u with claims := { u.claims with contending := false } }, []) := by
  simp only [State.claimOutcome, h]

/-- The contending head goes or stays by its outcome (R100 to R102). -/
theorem State.claimOutcome_of_some {given : Option Nat} {r : ClaimRecord} (h : u.contendingHead = some r) :
    u.claimOutcome o given =
      ({ u with claims := { u.claims with
          records := (r.settleOutcome (o.outcome == some .sent) o.frame given).1.toList ++ u.claims.records.tail
          contending := false } },
        (r.settleOutcome (o.outcome == some .sent) o.frame given).2) := by
  simp only [State.claimOutcome, h]

/-- The claim queue has acted on its head's outcome before the fault. -/
theorem State.beforeFault_claimOutcome (s : State) (bits : SlotBits) (o : Occurrence) :
    s.BeforeFault 2 (((s.portEnd bits).claimOutcome o none).1.postAll ((s.portEnd bits).claimOutcome o none).2)
      ((s.portEnd bits).claimOutcome o none).2 := by
  have hposts := (s.portEnd bits).claimOutcome_postsOnly o none
  cases hh : (s.portEnd bits).contendingHead with
  | none =>
    rw [State.claimOutcome_of_none hh]
    refine ⟨rfl, fun _ => rfl, rfl, fun _ => ⟨rfl, rfl⟩, fun _ hc r rs hr => ?_, rfl, rfl, fun _ => rfl⟩
    rw [(State.contendingHead_eq_some (u := s.portEnd bits)).mpr ⟨hc, rs, hr⟩] at hh
    cases hh
  | some r =>
    obtain ⟨hc, -⟩ := State.contendingHead_eq_some.mp hh
    rw [State.claimOutcome_of_some hh] at hposts ⊢
    refine ⟨rfl, fun _ => rfl, rfl, fun hu => ?_, fun _ _ r' rs hr => ?_, hposts.eventsOf_eq_nil (by simp),
      hposts.eventsOf_eq_nil (by simp), fun _ => hposts.eventsOf_eq_nil (by simp)⟩
    · exact absurd hc (by simp [hu.resolve_left (by simp)])
    · rw [(State.contendingHead_eq_some (u := s.portEnd bits)).mpr ⟨hc, rs, hr⟩] at hh
      obtain rfl := Option.some.inj hh
      obtain ⟨first, htag, hfirst⟩ := r'.settleOutcome_ends (o.outcome == some .sent) o.frame none s.timer.frame
      refine ⟨first, htag, ?_⟩
      rw [hposts.eventsOf_eq_self]
      simp only [State.postAll_claims, State.portEnd_claims, hr, List.tail_cons, claimsEndEvents, List.map_append] at hfirst ⊢
      rw [← List.append_assoc, hfirst]
      rfl

/-- The end of slot 2, whether the claim queue takes the occurrence first or not. -/
theorem State.beforeFault_claim (s : State) (bits : SlotBits) (o : Occurrence) :
    ∃ es, s.BeforeFault 2 ((s.portEnd bits).claimBeforeFault o) es := by
  unfold State.claimBeforeFault
  split_ifs
  · exact ⟨_, s.beforeFault_claimOutcome bits o⟩
  · refine ⟨[], rfl, fun _ => rfl, rfl, fun _ => ⟨rfl, rfl⟩, fun _ _ r rs hr => ?_, rfl, rfl, fun _ => rfl⟩
    exact ⟨r.doneEvent s.timer.frame .fault r.request.named none, rfl, by simp [claimsEndEvents, hr]⟩

/-- The receive channels that hear before a fault are all that changes (R54). -/
theorem State.hearBeforeFault_eq (s : State) (o : Occurrence) : ∃ rx, s.hearBeforeFault o = { s with rx := rx } := by
  have hear : ∀ (cs : List Nat) (t : State), (∃ rx, t = { s with rx := rx }) →
      ∃ rx, cs.foldl (fun t c => if s.choice (4104 + c) then t.setRx c ((s.rxAt c).hear o) else t) t =
        { s with rx := rx } := by
    intro cs
    induction cs with
    | nil => exact fun t ht => ht
    | cons c cs ih =>
      rintro t ⟨rx, rfl⟩
      simp only [List.foldl_cons]
      split_ifs
      · exact ih _ ⟨_, rfl⟩
      · exact ih _ ⟨_, rfl⟩
  exact hear channelIds s ⟨s.rx, rfl⟩

/-- What receive channels and windows post before a fault (R54). -/
theorem State.dataEventsBeforeFault_postsOnly (s : State) (o : Occurrence) :
    ∀ g ∈ s.dataEventsBeforeFault o, PostsOnly (.rxOverrun :: windowKinds) g := by
  intro g hg
  rcases List.mem_append.mp hg with hg | hg
  · obtain ⟨c, -, rfl⟩ := List.mem_map.mp hg
    split_ifs
    · exact (RxChannel.overrunEvents_postsOnly ..).mono (by simp)
    · exact .nil
  · split_ifs at hg
    · exact (s.windowEvents_postsOnly o g hg).mono (List.subset_cons_self ..)
    · cases hg

/-! ### The end of a slot in which a fault is found -/

section Found

variable (hf : s.faultIn (s.occurrence bits) = some cause)
include hf

theorem State.endMarkSlot_of_some :
    s.endMarkSlot bits =
      ((s.portEnd bits).postAll ((s.portEnd bits).markEventsBeforeFault (s.occurrence bits))).enterFault cause := by
  simp [State.endMarkSlot, hf]

theorem State.endRollSlot_of_some :
    s.endRollSlot bits =
      ((s.portEnd bits).postAll ((s.portEnd bits).rollEventsBeforeFault (s.occurrence bits))).enterFault cause := by
  simp [State.endRollSlot, hf]

theorem State.endClaimSlot_of_some :
    s.endClaimSlot bits = ((s.portEnd bits).claimBeforeFault (s.occurrence bits)).enterFault cause := by
  simp [State.endClaimSlot, hf]

theorem State.endAnswerSlot_of_some :
    s.endAnswerSlot bits =
      ((s.portEnd bits).postAll ((s.portEnd bits).answerEventsBeforeFault (s.occurrence bits))).enterFault cause := by
  simp [State.endAnswerSlot, hf]

theorem State.endDataSlot_of_some :
    s.endDataSlot bits =
      (((s.portEnd bits).hearBeforeFault (s.occurrence bits)).postGroups 2048
        ((s.portEnd bits).dataEventsBeforeFault (s.occurrence bits))).enterFault cause := by
  simp [State.endDataSlot, hf]

/-- Where a fault is found no window writes. -/
theorem State.dataFinish_of_some : s.dataFinish bits = .next (s.endDataSlot bits) := by
  simp [State.dataFinish, State.strayWrite, hf]

/-- Whatever the slot, its end enters FAULT, from a state in which the blocks may have acted. -/
theorem State.exec_fault (hp : s.passes p) (hlen : p < s.len)
    (hst : s.control.state.onTrunk = true ∨ p = 0) :
    ∃ v es, exec (endCommand p bits) s = .next (v.enterFault cause) ∧ s.BeforeFault p v es := by
  rcases Nat.eq_zero_or_pos p with rfl | hpos
  · refine ⟨_, _, (exec_markSlotEnd hp bits).trans (congrArg _ (State.endMarkSlot_of_some hf)),
      .of_posts (by simp) (fun _ => rfl) (ks := [.holderChanged]) ?_ (by simp) (by simp)⟩
    unfold State.markEventsBeforeFault
    split_ifs
    · exact State.missMark_postsOnly _
    · exact .nil
  · rw [exec_endCommand hp hlen (hst.resolve_right (by omega)), if_neg (by omega)]
    split_ifs with h1 h2 h3
    · subst h1
      refine ⟨_, _, congrArg _ (State.endRollSlot_of_some hf),
        .of_posts (by simp) (fun _ => rfl) (ks := rollKinds) ?_ (by simp [rollKinds]) (by simp [rollKinds])⟩
      unfold State.rollEventsBeforeFault
      split_ifs
      · exact (State.rollTurn_postsOnly ..).1
      · exact .nil
    · subst h2
      obtain ⟨es, hes⟩ := s.beforeFault_claim bits (s.occurrence bits)
      exact ⟨_, es, congrArg _ (State.endClaimSlot_of_some hf), hes⟩
    · subst h3
      refine ⟨_, _, congrArg _ (State.endAnswerSlot_of_some hf),
        .of_posts (by simp) (fun _ => rfl) (ks := [.answerDropped]) ?_ (by simp) (by simp)⟩
      unfold State.answerEventsBeforeFault
      split_ifs
      · exact State.answerOutcome_postsOnly ..
      · exact .nil
    · have h4 : ¬p < 4 := by omega
      obtain ⟨rx, hrx⟩ := (s.portEnd bits).hearBeforeFault_eq (s.occurrence bits)
      rw [State.dataFinish_of_some hf, State.endDataSlot_of_some hf, hrx]
      exact ⟨_, _, rfl, .of_posts (by omega) (fun h => absurd h h4)
        (.mergeAll _ _ ((s.portEnd bits).dataEventsBeforeFault_postsOnly _)) (by simp [windowKinds]) (fun h => absurd h h4)⟩

end Found

/-! ### FAULT (R53) -/

/-- What the entry into FAULT itself posts, with the claim records that are then left. -/
def State.faultEvents (s : State) (cause : FaultCause) (records : List ClaimRecord) : List Event :=
  mergeAll s.happening 0 [[{ Event.of .stateChanged s.timer.frame with result := some (.fault cause) }],
    claimsEndEvents s.timer.frame .fault records, failLiveEvents .fault s.timer.frame s.jobs, s.faultWindowEvents]

/-- Of each kind, what the one block posts that posts it. -/
theorem State.eventsOf_faultEvents (s : State) (cause : FaultCause) (records : List ClaimRecord) :
    eventsOf .stateChanged (s.faultEvents cause records) =
        [{ Event.of .stateChanged s.timer.frame with result := some (.fault cause) }] ∧
      eventsOf .claimDone (s.faultEvents cause records) = claimsEndEvents s.timer.frame .fault records ∧
      eventsOf .jobFailed (s.faultEvents cause records) = failLiveEvents .fault s.timer.frame s.jobs ∧
      eventsOf .windowFailed (s.faultEvents cause records) = s.faultWindowEvents := by
  have hstate {k : EventKind} (hk : k ≠ .stateChanged) :
      eventsOf k [{ Event.of .stateChanged s.timer.frame with result := some (.fault cause) }] = [] := by
    simp [Event.of, hk.symm]
  have hclaims := claimsEndEvents_postsOnly s.timer.frame .fault records
  have hjobs := failLiveEvents_postsOnly .fault s.timer.frame s.jobs
  have hwindows := s.faultWindowEvents_postsOnly
  refine ⟨?_, ?_, ?_, ?_⟩
  · exact (eventsOf_mergeAll _ (before := []) (by simp) (by
      simp [hclaims.eventsOf_eq_nil, hjobs.eventsOf_eq_nil, hwindows.eventsOf_eq_nil]) 0).trans (by simp [Event.of])
  · exact (eventsOf_mergeAll _ (before := [_]) (by simpa using hstate (by simp)) (by
      simp [hjobs.eventsOf_eq_nil, hwindows.eventsOf_eq_nil]) 0).trans hclaims.eventsOf_eq_self
  · exact (eventsOf_mergeAll _ (before := [_, _]) (by
      simp only [List.mem_cons, List.not_mem_nil, or_false, forall_eq_or_imp, forall_eq]
      exact ⟨hstate (by simp), hclaims.eventsOf_eq_nil (by simp)⟩) (by
      simp [hwindows.eventsOf_eq_nil]) 0).trans hjobs.eventsOf_eq_self
  · exact (eventsOf_mergeAll _ (before := [_, _, _]) (by
      simp only [List.mem_cons, List.not_mem_nil, or_false, forall_eq_or_imp, forall_eq]
      exact ⟨hstate (by simp), hclaims.eventsOf_eq_nil (by simp), hjobs.eventsOf_eq_nil (by simp)⟩) (by simp) 0).trans
        hwindows.eventsOf_eq_self

/-- What was posted before the entry and what it posts itself. -/
theorem State.BeforeFault.events (h : s.BeforeFault p v es) (cause : FaultCause) :
    (v.enterFault cause).events = s.events.postAll (es ++ s.faultEvents cause v.claims.records) := by
  rw [State.enterFault_eq, EventQueue.postAll_append, h.same]
  rfl

/-- The values of R53, whatever the blocks did before. -/
theorem State.BeforeFault.entered (h : s.BeforeFault p v es) (cause : FaultCause) :
    s.enteredFault (v.enterFault cause) cause := by
  have hclaims : ({ v.claims with records := [], contending := false } : ClaimQueue) =
      { s.claims with records := [], contending := false } := by simp [h.tagCounter]
  rw [State.enterFault_eq, hclaims, h.same]
  refine ⟨rfl, rfl, rfl, rfl, rfl, rfl, rfl, rfl, fun n hn => ?_, rfl, rfl, rfl, rfl, rfl⟩
  exact (Bank.get_map_lt s.windows Window.faulted n Window.closed hn).trans (Window.faulted_eq _)

end Sys2Proof.Machine

open Sys2Proof Sys2Proof.Machine

/-- Settles O18: the entry into DETACHED, with no other block posting. -/
theorem leaveDetaches : Obligations.LeaveDetaches := by
  intro s hreq hst
  have hexec : exec .leave s = .next (s.replyWith .leave (requestWords .leave) ((s.enterDetached []).doneWith .nothing)) := by
    have hjudge : s.judgeLeave = (s.enterDetached []).doneWith .nothing := by
      rcases hst with h | h <;> simp [State.judgeLeave, h]
    exact congrArg _ ((State.take_request hreq _ _).trans (congrArg _ hjudge))
  obtain ⟨hchanged, hstalled, hlength⟩ := eventsOf_mergeAll_pair s.happening 0 (by simp)
    (.singleton (List.mem_singleton.mpr rfl) : PostsOnly [.stateChanged] [s.stateChanged .detached]) s.detachEvents_postsOnly
  refine ⟨_, s.detachedEvents [], hexec, s.enteredDetached_enterDetached s.port s.timer [], rfl, s.enterDetached_events [],
    hchanged, hstalled, ?_⟩
  rw [State.detachedEvents, hstalled, hlength]
  rfl

/-- Settles O22: whatever the blocks did before, the entry into FAULT. -/
theorem duplicateAddressFaults : Obligations.DuplicateAddressFaults := by
  intro s p h w cause hp hlen hv hcase
  have hslot : (s.occurrence h).slot = p := State.occurrence_slot_of_passes hp h
  have hdisplaced : (∃ b, s.port.word = some b ∧ outcomeOf b h = .displaced) →
      (s.occurrence h).outcome = some .displaced := by
    rintro ⟨b, hb, ho⟩
    simp [hb, ho]
  have hsilent : s.port.word = none → (s.occurrence h).outcome = none := fun hb => by simp [hb]
  have hfault : s.faultIn (s.occurrence h) = some cause ∧ (s.control.state.onTrunk = true ∨ p = 0) := by
    rcases hcase with ⟨hself, rfl, ⟨hon, hb⟩ | ⟨hst, hb⟩⟩ | ⟨hpeer, hk, hm, hl, rfl, ⟨hj, hb⟩ | ⟨hst, h0, hb⟩⟩
    · exact ⟨State.faultIn_duplicate hv hself (.inl (hsilent hb)), .inl hon⟩
    · exact ⟨State.faultIn_duplicate hv hself (.inr (hdisplaced hb)), hst.imp id And.right⟩
    · exact ⟨State.faultIn_frameLength hv hk hm hpeer hl (.inl ⟨hj, hb.imp (by simp [hslot]) hsilent⟩),
        .inl (by simp [hj, StationState.onTrunk])⟩
    · exact ⟨State.faultIn_frameLength hv hk hm hpeer hl (.inr ⟨hst, hslot.trans h0, hdisplaced hb⟩), .inr h0⟩
  obtain ⟨hf, hst⟩ := hfault
  obtain ⟨v, es, hexec, hb⟩ := State.exec_fault hf hp hlen hst
  obtain ⟨hstate, hclaim, hjob, hwindow⟩ := s.eventsOf_faultEvents cause v.claims.records
  refine ⟨_, _, hexec, hb.entered cause, hb.channels, hb.events cause, ?_, fun hu => ?_, fun h2 hc r rs hr => ?_,
    ⟨[], fun _ => rfl, ?_⟩, ⟨eventsOf .windowFailed es, hb.windowFailed, ?_⟩⟩
  · rw [eventsOf_append, hb.stateChanged, hstate]
    rfl
  · obtain ⟨hrecords, hnone⟩ := hb.uncontended hu
    rw [eventsOf_append, hnone, hclaim, hrecords]
    rfl
  · rw [eventsOf_append, hclaim]
    exact hb.contended h2 hc r rs hr
  · rw [eventsOf_append, hb.jobFailed, hjob]
    rfl
  · rw [eventsOf_append, hwindow]
    rfl
end

