-- ==== Sys2Proof/Proofs/RollSlot.lean ====
section
/-! The ROLL slot: the roll of the peer whose turn it is (R61, R62, R65), a holder's leaving (R31), self's own roll in JOINING
and MEMBER (R43, R60), and self's ROLL(LEAVING) (R49). -/

namespace Sys2Proof.Machine

variable {s u : State} {o : Occurrence} {w : SlotWord} {bits b : SlotBits}

/-! ### The words of slot 1 -/

/-- The body of a heard word stands before its check field (R2). -/
theorem classify_body (h : classify b = .valid w) : w.body = b.extractLsb' 5 24 := by
  unfold classify at h
  split_ifs at h with _ _ hs
  · split at h <;> cases h
  · split at h
    · cases h
    · cases h
      rfl

/-- The held count and the status of self's ROLL are those of the word it is (R59). -/
theorem sentRollHeld_of_classify (h : classify b = .valid w) : sentRollHeld b = w.rollHeld := by
  rw [sentRollHeld, SlotWord.rollHeld, classify_body h]
  exact congrArg BitVec.toNat (BitVec.eq_of_getLsbD_eq fun i hi => by simp [hi, ← add_assoc]; omega)

theorem sentRollLeaving_of_classify (h : classify b = .valid w) : sentRollLeaving b = w.rollLeaving := by
  rw [sentRollLeaving, SlotWord.rollLeaving, classify_body h, BitVec.getLsbD_extractLsb']
  rfl

/-- Nothing is amiss with a word read back as it was sent (R3). -/
theorem readBack_self (b : SlotBits) : readBack b b = { displaced := false, lineError := false } :=
  readBits_agree (Nat.zero_le 40) (fun _ _ _ => rfl) _

/-! ### The trunk port and the end of the slot -/

/-- The part at the end of an occurrence in which self sent nothing. -/
theorem State.portEnd_of_unsent (h : s.port.word = none) (bits : SlotBits) :
    s.portEnd bits = { s with port := s.port.listened (classify bits) } := by
  rw [State.portEnd, TrunkPort.finish_of_none h]

/-- The part at the end of an occurrence in which self's word was heard whole. -/
theorem State.portEnd_of_sentWhole (h : s.port.word = some bits) :
    s.portEnd bits = { s with port := s.port.sentWhole (classify bits) } := by
  rw [State.portEnd, TrunkPort.finish_of_some h, readBack_self]
  rfl

theorem exec_rollSlotEnd (hp : s.passes 1) (hon : s.control.state.onTrunk = true) (bits : SlotBits) :
    exec (.rollSlotEnd bits) s = .next (s.endRollSlot bits) :=
  if_pos (by simp [State.rollEnds, State.endsAt_of_passes hp, hon])

/-- Roster and frame timer act, what they post is posted, and slot 2 comes next. -/
theorem State.rollEnd_next {turn : State × List Event × List Event} {timed : State × List Event}
    (hturn : u.rollTurn o = turn) (htimed : turn.1.rollTimer o = timed) (hm : o.heard.acceptable .mark = none)
    (hslot : o.slot = 1) (hlen : 2 < timed.1.len) :
    u.rollEnd o =
      ({ timed.1.postGroups 0 [turn.2.1, turn.2.2, timed.2] with timer := timed.1.timer.next 1 } : State).nextHappening := by
  subst hturn htimed
  rw [State.rollEnd, State.passOn_next (State.realignsTo_none hm) (by rw [hslot]; exact hlen), hslot]
  rfl

/-! ### A roll of the station whose turn it is -/

/-- In slot 1 an acceptable ROLL of the station whose turn it is is heard, in a state on the trunk (R58, R61). -/
structure State.HearsRoll (s : State) (bits : SlotBits) (w : SlotWord) : Prop where
  passes : s.passes 1
  long : 2 < s.len
  heard : classify bits = .valid w
  roll : w.kind = .roll
  wellFormed : w.malformed = false
  turn : w.sender = turnOf s.timer.frame
  onTrunk : s.control.state.onTrunk = true

section Heard

variable (hr : s.HearsRoll bits w)
include hr

theorem State.HearsRoll.slot : (s.occurrence bits).slot = 1 := State.occurrence_slot_of_passes hr.passes bits

theorem State.HearsRoll.noMark : (s.occurrence bits).heard.acceptable .mark = none :=
  Heard.acceptable_none_of_kind (by simp [hr.heard, hr.roll])

theorem State.HearsRoll.rollOf : (s.occurrence bits).rollOf w.sender = some w := by
  simp [Occurrence.rollOf, hr.heard, Heard.acceptable_valid, hr.roll, hr.wellFormed]

/-- The slot's end, where no fault is found and self does not detach. -/
theorem State.HearsRoll.exec {turn : State × List Event × List Event} {timed : State × List Event}
    (hf : s.faultIn (s.occurrence bits) = none) (hl : (s.portEnd bits).leavesNow (s.occurrence bits) = false)
    (hturn : (s.portEnd bits).rollTurn (s.occurrence bits) = turn)
    (htimed : turn.1.rollTimer (s.occurrence bits) = timed) (hlen : timed.1.len = s.len) :
    Machine.exec (.rollSlotEnd bits) s = .next
      ({ timed.1.postGroups 0 [turn.2.1, turn.2.2, timed.2] with timer := timed.1.timer.next 1 } : State).nextHappening := by
  rw [exec_rollSlotEnd hr.passes hr.onTrunk, State.endRollSlot_of_none hf, hl, if_neg Bool.false_ne_true,
    State.rollEnd_next hturn htimed hr.noMark hr.slot (by rw [hlen]; exact hr.long)]

/-! #### From a peer (R61, R65) -/

/-- By its status it makes its sender PRESENT or ABSENT. -/
theorem State.HearsRoll.peerTurn (u : State) :
    u.peerTurn (s.occurrence bits) w.sender =
      if w.rollLeaving = true then u.rollLeft (s.occurrence bits) w.sender w
      else u.rollHeard (s.occurrence bits) w.sender w := by
  simp only [State.peerTurn, hr.rollOf]

variable (hpeer : w.sender ≠ s.self)
include hpeer

/-- A peer's ROLL brings no fault. -/
theorem State.HearsRoll.faultIn_peer : s.faultIn (s.occurrence bits) = none :=
  State.faultIn_none (by simpa [hr.heard] using hpeer) hr.noMark

/-- In its turn the roster acts on it. -/
theorem State.HearsRoll.rollTurn_peer (hu : u.self = s.self) :
    u.rollTurn (s.occurrence bits) =
      ((u.peerTurn (s.occurrence bits) w.sender).1, (u.peerTurn (s.occurrence bits) w.sender).2, []) := by
  have hturn : turnOf (s.occurrence bits).frame ≠ u.self := by rw [hu]; exact hr.turn ▸ hpeer
  rw [State.rollTurn, if_neg hturn, State.occurrence_frame, ← hr.turn]

/-- A MEMBER that hears its holder leave runs the candidate rule; otherwise the frame timer does nothing (R31). -/
theorem State.HearsRoll.rollTimer_peer (hu : u.self = s.self) :
    u.rollTimer (s.occurrence bits) =
      if u.control.state = .member ∧ w.rollLeaving = true ∧ u.timer.holder = some w.sender then
        u.holderLeft (s.occurrence bits)
      else (u, []) := by
  have hleaves : u.holderLeaves (s.occurrence bits) = true ↔ w.rollLeaving = true ∧ u.timer.holder = some w.sender := by
    rw [State.holderLeaves, State.occurrence_frame, ← hr.turn, hr.rollOf, hu]
    simp [hpeer]
  simp only [State.rollTimer, hleaves, State.offSlotEvents_nil hr.noMark]

/-- The slot's end with a peer's roll. -/
theorem State.HearsRoll.exec_peer (hw : s.port.word = none) {turn timed : State × List Event}
    (hturn : (s.portEnd bits).peerTurn (s.occurrence bits) w.sender = turn)
    (htimed : turn.1.rollTimer (s.occurrence bits) = timed) (hlen : timed.1.len = s.len) :
    Machine.exec (.rollSlotEnd bits) s = .next
      ({ timed.1.postGroups 0 [turn.2, [], timed.2] with timer := timed.1.timer.next 1 } : State).nextHappening :=
  hr.exec (turn := (turn.1, turn.2, [])) (hr.faultIn_peer hpeer) (by simp [State.leavesNow, hw])
    (by rw [hr.rollTurn_peer hpeer (u := s.portEnd bits) rfl, hturn]) htimed hlen

end Heard

/-! #### From self (R43, R60) -/

/-- Self's own ROLL that is SENT, in JOINING: the station becomes a MEMBER. -/
theorem State.ownTurn_joining (ho : o.outcome = some .sent) (hb : o.sent = some b) (hj : u.control.state = .joining) :
    u.ownTurn o = (u.toMember o b, [], [u.stateChanged .member]) := by
  simp [State.ownTurn, ho, hb, hj]

/-- In MEMBER: the own entry stores its fields. -/
theorem State.ownTurn_member (ho : o.outcome = some .sent) (hb : o.sent = some b) (hm : u.control.state = .member) :
    u.ownTurn o = (u.ownRollSent o b, [], []) := by
  simp [State.ownTurn, ho, hb, hm]

/-- The slot's end with self's own roll, SENT. -/
theorem State.HearsRoll.exec_own (hr : s.HearsRoll bits w) (hself : w.sender = s.self) (hw : s.port.word = some bits)
    (hl : s.control.state ≠ .leaving) {turn : State × List Event × List Event}
    (hturn : (s.portEnd bits).ownTurn (s.occurrence bits) = turn) (hturnSelf : turn.1.self = s.self)
    (hlen : turn.1.len = s.len) :
    Machine.exec (.rollSlotEnd bits) s = .next
      ({ turn.1.postGroups 0 [turn.2.1, turn.2.2, []] with timer := turn.1.timer.next 1 } : State).nextHappening := by
  have hout : (s.occurrence bits).outcome = some .sent := by simp [hw, outcomeOf_self]
  have hturnOf : turnOf (s.occurrence bits).frame = s.self := hr.turn.symm.trans hself
  refine hr.exec (timed := (turn.1, [])) ?_ (by simp [State.leavesNow, hl]) ?_ ?_ hlen
  · refine State.faultIn_eq_none (Occurrence.duplicate_eq_false_of_sent hout (by simp))
      (Occurrence.lengthFault_eq_false_of_length ?_)
    simp [hr.heard, hr.roll]
  · exact (if_pos hturnOf).trans hturn
  · have hleaves : turn.1.holderLeaves (s.occurrence bits) = false := by
      by_contra h
      exact (State.holderLeaves_peer (by simpa using h)).1 (hturnOf.trans hturnSelf.symm)
    rw [State.rollTimer, hleaves, State.offSlotEvents_nil hr.noMark]
    simp

/-! ### Self's ROLL(LEAVING) (R49, R60) -/

/-- What the roster posts in self's own turn in LEAVING: ROLL_MISPLACED for a peer's ROLL that displaced self's own. -/
theorem State.ownTurn_leaving_posts (hl : u.control.state = .leaving) (hb : o.sent = some b) {x : SendOutcome}
    (ho : o.outcome = some x) :
    (u.ownTurn o).2.1 = if x = .displaced then u.misplacedRoll o u.self else [] := by
  cases x <;> simp [State.ownTurn, ho, hb, hl]

/-- A heard ROLL of a peer whose turn it is not. -/
theorem State.misplacedRoll_self_of_valid (hv : o.heard = .valid w) (hpeer : w.sender ≠ u.self) :
    u.misplacedRoll o u.self = if w.kind = .roll ∧ w.malformed = false then
      [{ Event.of .rollMisplaced o.frame with station := some w.sender, slot := some 1 }] else [] := by
  unfold State.misplacedRoll
  rw [hv, Heard.acceptable_valid]
  by_cases ha : w.kind = .roll ∧ w.malformed = false
  · simp [ha, hpeer]
  · simp [ha]

/-- Where no ROLL is heard none is misplaced. -/
theorem State.misplacedRoll_of_none (h : o.heard.acceptable .roll = none) (a : Nat) : u.misplacedRoll o a = [] := by
  simp [State.misplacedRoll, h]

/-- A realignment in LEAVING is of the frame timer alone (R32). -/
theorem State.realign_leaving (hl : u.control.state = .leaving) (w : SlotWord) :
    u.realign w = { u with timer := FrameTimer.alignedTo w } := by
  simp [State.realign, hl]

/-- A MARK that realigns the station comes from a station at or below the holder (R32). -/
theorem State.atOrBelowHolder_iff {k : Nat} : u.atOrBelowHolder k = true ↔ ∀ h, u.timer.holder = some h → k ≤ h := by
  unfold State.atOrBelowHolder
  split
  · simp [*]
  · simp [*]

/-- DETACHED at the end of slot 1, with the frame timer as it was or as a MARK heard there realigns it (log 17), and with
other blocks that post no STATE_CHANGED and, but for the first, no ROLL_MISPLACED. -/
theorem State.leaveTrunk_eq (hl : u.control.state = .leaving) (o : Occurrence) :
    ∃ (timer : FrameTimer) (off : List (List Event)),
      u.leaveTrunk o = ({ u with timer := timer } : State).enterDetached ((u.ownTurn o).2.1 :: off) ∧
      (timer = u.timer ∨ ∃ w, u.realignsTo o = some w ∧ timer = FrameTimer.alignedTo w) ∧
      ∀ g ∈ off, PostsOnly [.holderChanged, .markStray, .markMismatch] g := by
  unfold State.leaveTrunk
  split_ifs
  · have hoff : ∀ g ∈ [u.offSlotEvents o], PostsOnly [.holderChanged, .markStray, .markMismatch] g := by
      simpa using u.offSlotEvents_postsOnly o
    cases hr : u.realignsTo o with
    | some w => exact ⟨FrameTimer.alignedTo w, _, by simp only [State.realign_leaving hl], .inr ⟨w, rfl, rfl⟩, hoff⟩
    | none => exact ⟨u.timer, _, rfl, .inl rfl, hoff⟩
  · exact ⟨u.timer, [], rfl, .inl rfl, by simp⟩

/-- The slot's end with self's ROLL(LEAVING) on the line, which is no fault unless a word with self's address displaced it. -/
theorem State.exec_rollSlotEnd_leaving (hp : s.passes 1) (hl : s.control.state = .leaving) (hb : s.port.word = some b)
    {own : SlotWord} (hown : classify b = .valid own) (hleave : own.rollLeaving = true)
    (hpeer : outcomeOf b bits = .displaced → ∀ w, classify bits = .valid w → w.sender ≠ s.self) :
    exec (.rollSlotEnd bits) s = .next ((s.portEnd bits).leaveTrunk (s.occurrence bits)) := by
  have hf : s.faultIn (s.occurrence bits) = none := by
    refine State.faultIn_eq_none ?_ (Occurrence.lengthFault_eq_false_of_state _ (by simp [hl]) (by simp [hl]))
    by_cases hd : outcomeOf b bits = .displaced
    · exact Occurrence.duplicate_eq_false_of_peer (hpeer hd)
    · exact Occurrence.duplicate_eq_false_of_sent (x := outcomeOf b bits) (by simp [hb]) hd
  have hnow : (s.portEnd bits).leavesNow (s.occurrence bits) = true := by
    simp [State.leavesNow, hl, hb, sentRollLeaving_of_classify hown, hleave]
  rw [exec_rollSlotEnd hp (by simp [hl, StationState.onTrunk]), State.endRollSlot_of_none hf, if_pos hnow]

end Sys2Proof.Machine

open Sys2Proof Sys2Proof.Machine

/-- Settles O29: roster and frame timer act by whose turn it is, and a LEAVING station's own roll detaches it. -/
theorem rollsAreHeard : Obligations.RollsAreHeard := by
  refine ⟨fun s h w hp hlen hv hk hm hturn => ⟨fun hact hpeer hw hon => ?active, fun hleave hpeer hw hon hholder => ?left,
    fun _ hself hw hj => ?joins, fun _ hself hw hmember => ?member⟩,
    fun s h b own hp hlen hl hturn hb hown hk hleave hpeer => ?leaves⟩
  case active =>
    have hr : s.HearsRoll h w := ⟨hp, hlen, hv, hk, hm, hturn, hon⟩
    have hact' : ¬w.rollLeaving = true := by simp [hact]
    rw [hr.exec_peer hpeer hw ((hr.peerTurn _).trans (if_neg hact'))
      ((hr.rollTimer_peer hpeer (by rfl)).trans (if_neg fun hc => hact' hc.2.1)) rfl, State.postGroups,
      mergeAll_alone _ _ _ _ rfl, State.portEnd_of_unsent hw, hv]
    rfl
  case left =>
    have hr : s.HearsRoll h w := ⟨hp, hlen, hv, hk, hm, hturn, hon⟩
    rw [hr.exec_peer hpeer hw ((hr.peerTurn _).trans (if_pos hleave))
      ((hr.rollTimer_peer hpeer (by rfl)).trans (if_neg fun hc => hholder.elim (absurd hc.1) (absurd hc.2.2))) rfl,
      State.postGroups, mergeAll_alone _ _ _ _ rfl, State.portEnd_of_unsent hw, hv]
    rfl
  case joins =>
    have hr : s.HearsRoll h w := ⟨hp, hlen, hv, hk, hm, hturn, by simp [hj, StationState.onTrunk]⟩
    rw [hr.exec_own hself hw (by simp [hj])
      (State.ownTurn_joining (by simp [hw, outcomeOf_self]) hw hj) rfl rfl, State.postGroups, mergeAll_nil_cons,
      mergeAll_alone _ _ _ _ rfl, State.toMember, sentRollHeld_of_classify hv, State.portEnd_of_sentWhole hw, hv]
    rfl
  case member =>
    have hr : s.HearsRoll h w := ⟨hp, hlen, hv, hk, hm, hturn, by simp [hmember, StationState.onTrunk]⟩
    rw [hr.exec_own hself hw (by simp [hmember])
      (State.ownTurn_member (by simp [hw, outcomeOf_self]) hw hmember) rfl rfl, State.postGroups, mergeAll_empty _ _ _ rfl,
      State.ownRollSent, sentRollHeld_of_classify hv, State.portEnd_of_sentWhole hw, hv]
    rfl
  case leaves =>
    obtain ⟨timer, off, heq, htimer, hoff⟩ := (s.portEnd h).leaveTrunk_eq hl (s.occurrence h)
    have hexec := (State.exec_rollSlotEnd_leaving hp hl hb hown hleave hpeer).trans (congrArg _ heq)
    have hroster := ((s.portEnd h).ownTurn_postsOnly (s.occurrence h)).1
    refine ⟨_, ({ s.portEnd h with timer := timer } : State).detachedEvents _, timer.frame, hexec, ?frame,
      s.enteredDetached_enterDetached _ timer _, rfl, State.enterDetached_events _ _,
      State.detachedEvents_stateChanged _ ?others, ?misplaced⟩
    case frame =>
      rcases htimer with rfl | ⟨w, hw, rfl⟩
      · exact .inl rfl
      · obtain ⟨hv, hk, hm, -, hself, hlength, hholder⟩ := State.realignsTo_eq_some hw
        exact .inr ⟨w, hv, hk, hm, hself, hlength, State.atOrBelowHolder_iff.mp hholder, rfl⟩
    case others =>
      simp only [List.mem_cons, forall_eq_or_imp]
      exact ⟨hroster.eventsOf_eq_nil (by simp [rollKinds]), fun g hg => (hoff g hg).eventsOf_eq_nil (by simp)⟩
    case misplaced =>
      have hposts := (s.portEnd h).ownTurn_leaving_posts (o := s.occurrence h) (x := outcomeOf b h) hl hb (by simp [hb])
      rw [State.detachedEvents_other _ (by simp) _ fun g hg => (hoff g hg).eventsOf_eq_nil (by simp), hposts]
      by_cases hd : outcomeOf b h = .displaced
      · rw [if_pos hd]
        cases hc : classify h with
        | silent => rw [State.misplacedRoll_of_none (by simp [hc])]; rfl
        | corrupt => rw [State.misplacedRoll_of_none (by simp [hc])]; rfl
        | valid w =>
          rw [State.misplacedRoll_self_of_valid (u := s.portEnd h) (o := s.occurrence h) hc (hpeer hd w hc)]
          by_cases hr : w.kind = .roll ∧ w.malformed = false <;> simp [hr, hd, Event.of]
      · rw [if_neg hd]
        cases classify h <;> simp [hd]
end

