-- ==== Sys2Proof/Proofs/Holding.lean ====
section
/-! Who holds timing: marks followed in slot 0 and realigned to elsewhere (R21, R22, R26, R27, R32), missed marks and what they
bring (R23, R24, R28 to R30), and the ROLL(LEAVING) of a holder (R31). -/

namespace Sys2Proof.Machine

variable {s u v : State} {o : Occurrence} {w : SlotWord} {p : Nat} {bits b : SlotBits}

/-! ### The port and the words of slot 0 -/

/-- Whether it sent or not, the port keeps what was heard (R6). -/
@[simp] theorem TrunkPort.finish_heard (port : TrunkPort) (bits : SlotBits) :
    (port.finish bits).heard = some (classify bits) := by
  unfold TrunkPort.finish
  split <;> rfl

/-- Where every MARK heard is malformed there is none to act on. -/
theorem Heard.acceptable_mark_eq_none {h : Heard} (hm : ∀ w, h = .valid w → w.kind = .mark → w.malformed = true) :
    h.acceptable .mark = none := by
  cases hh : h.acceptable .mark with
  | none => rfl
  | some w =>
    obtain ⟨hv, hk, hwf⟩ := Heard.acceptable_eq_some.mp hh
    simp [hm w hv hk] at hwf

/-- MARK_MISMATCH is posted for an acceptable MARK of another length, and for nothing else (R23). -/
theorem State.mismatchEvents_eq
    (hw : ∀ w, o.heard = .valid w → w.kind = .mark → w.malformed = false → w.markLength ≠ some u.len) :
    u.mismatchEvents o = match o.heard with
      | .valid w => if w.kind = .mark ∧ w.malformed = false then
          [{ Event.of .markMismatch o.frame with station := some w.sender, slot := some 0 }] else []
      | _ => [] := by
  cases hh : o.heard with
  | silent => exact State.mismatchEvents_of_none (by simp [hh])
  | corrupt => exact State.mismatchEvents_of_none (by simp [hh])
  | valid w => exact State.mismatchEvents_of_valid hh (hw w hh)

/-! ### A missed mark (R24) -/

/-- Slot 0 ends in a state on the trunk in which self sent nothing, with no MARK to follow, no fault and no return to LISTEN
(R23, R24). -/
structure State.Misses (s : State) (bits : SlotBits) : Prop where
  passes : s.passes 0
  long : 1 < s.len
  onTrunk : s.control.state.onTrunk = true
  unsent : s.port.word = none
  unmarked : ∀ w, classify bits = .valid w → w.sender ≠ s.self ∧
    (w.kind = .mark → w.malformed = true ∨ w.markLength ≠ some s.len ∧ s.control.state ≠ .joining)

section Misses

variable (hm : s.Misses bits)
include hm

theorem State.Misses.slot : (s.occurrence bits).slot = 0 := State.occurrence_slot_of_passes hm.passes bits

theorem State.Misses.outcome : (s.occurrence bits).outcome = none := by simp [hm.unsent]

/-- An acceptable MARK that is heard has another length, and the station is not JOINING. -/
theorem State.Misses.otherLength (hv : classify bits = .valid w) (hk : w.kind = .mark) (hwf : w.malformed = false) :
    w.markLength ≠ some s.len ∧ s.control.state ≠ .joining :=
  ((hm.unmarked w hv).2 hk).resolve_left (by simp [hwf])

theorem State.Misses.faultIn : s.faultIn (s.occurrence bits) = none := by
  refine State.faultIn_eq_none (Occurrence.duplicate_eq_false_of_peer fun w hv => (hm.unmarked w hv).1) ?_
  have hlisten : s.control.state ≠ .listen := fun h => by simpa [h, StationState.onTrunk] using hm.onTrunk
  by_cases hj : s.control.state = .joining
  · exact Occurrence.lengthFault_eq_false_of_length fun w hv hk hwf => absurd hj (hm.otherLength hv hk hwf).2
  · exact Occurrence.lengthFault_eq_false_of_state _ hj hlisten

theorem State.Misses.followed (hu : u.len = s.len) : u.followed (s.occurrence bits) = none :=
  State.followed_eq_none fun _ hv hk hwf => by rw [hu]; exact (hm.otherLength hv hk hwf).1

theorem State.Misses.missesMark : s.missesMark bits = true := by
  simp [State.missesMark, State.endsAt_of_passes hm.passes, hm.unsent, hm.faultIn, hm.followed rfl]

theorem State.Misses.endMarkSlot :
    s.endMarkSlot bits = (s.portEnd bits).markEnd (s.occurrence bits) :=
  State.endMarkSlot_of_none hm.faultIn fun h => by simpa [h, StationState.onTrunk] using hm.onTrunk

/-- The mark is missed, and slot 1 comes next (R17, R24). -/
theorem State.Misses.endMarkSlot_next (hj : ¬(s.control.state = .joining ∧ s.timer.missed = 3)) {timed : State × List Event}
    (ht : (s.portEnd bits).missMark = timed) (hlen : timed.1.len = s.len) :
    s.endMarkSlot bits =
      ({ timed.1.postGroups 0 [(s.portEnd bits).mismatchEvents (s.occurrence bits), timed.2] with
          timer := timed.1.timer.next 0 } : State).nextHappening := by
  subst ht
  rw [hm.endMarkSlot, State.markEnd_of_missed (u := s.portEnd bits) hm.outcome (hm.followed rfl) hj,
    State.passOn_slot0 hm.slot (by rw [State.postGroups_len, hlen]; exact hm.long)]
  rfl

/-- With what becomes of the frame timer: self holds, or the count has risen (R24, R28, R29). -/
theorem State.Misses.endMarkSlot_eq (hj : s.control.state = .joining → s.timer.missed ≠ 3) (h1 : 1 ≤ s.self)
    (h30 : s.self ≤ 30) {takes : Bool} (ht : takes = true ↔ s.takesOver) :
    s.endMarkSlot bits =
      { s with
        port := s.port.listened (classify bits)
        timer := if takes then
            { s.timer with holderFlag := true, holder := some s.self, missed := 0, position := some 1, passing := false }
          else
            { s.timer with missed := if s.timer.missed < 4 then s.timer.missed + 1 else 4, position := some 1,
                           passing := false }
        events := s.events.postAll (mergeAll s.happening 0 [(s.portEnd bits).mismatchEvents (s.occurrence bits),
          if takes then [holderChanged s.timer.frame (some s.self)] else []])
        happening := s.happening + 1 } := by
  have hj' : ¬(s.control.state = .joining ∧ s.timer.missed = 3) := fun h => hj h.1 h.2
  cases takes with
  | true =>
    rw [hm.endMarkSlot_next hj' (State.missMark_of_takesOver (s := s.portEnd bits) h1 h30 (ht.mp rfl)) rfl,
      State.portEnd_of_unsent hm.unsent]
    rfl
  | false =>
    rw [hm.endMarkSlot_next hj' (State.missMark_of_not_takesOver (s := s.portEnd bits) h1 h30 fun h => by simpa using ht.mpr h)
      rfl, State.portEnd_of_unsent hm.unsent]
    rfl

/-- The fourth missed mark in JOINING (R30, R44). -/
theorem State.Misses.endMarkSlot_fourth (hj : s.control.state = .joining) (hmissed : s.timer.missed = 3) :
    s.endMarkSlot bits = (s.portEnd bits).backToListen :=
  hm.endMarkSlot.trans (State.markEnd_of_fourth hm.outcome (hm.followed rfl) hj hmissed)

/-! The named cases of a missed mark (log 2). -/

theorem State.Misses.exec_candidateRule (hst : s.control.state = .member) (hmissed : s.timer.missed = 1) :
    exec (.candidateRule bits) s = .next (s.endMarkSlot bits) :=
  if_pos (by simp [hm.missesMark, hst, hmissed])

theorem State.Misses.exec_escalation (hst : s.control.state = .member) (hmissed : s.timer.missed = 3)
    (he : s.eligible = true) (hf : s.timer.holderFlag = false) :
    exec (.escalation bits) s = .next (s.endMarkSlot bits) :=
  if_pos (by simp [hm.missesMark, hst, hmissed, he, hf])

theorem State.Misses.exec_joiningToListen (hst : s.control.state = .joining) (hmissed : s.timer.missed = 3) :
    exec (.joiningToListen bits) s = .next (s.endMarkSlot bits) :=
  if_pos (by simp [hm.missesMark, hst, hmissed])

end Misses

/-! ### The holder leaves (R31) -/

/-- With the entry of the leaving holder ABSENT, the candidate rule looks at the other entries as they were. -/
theorem State.rollLeft_isLowestCandidate (hpeer : w.sender ≠ s.self) (hholder : s.timer.holder = some w.sender) :
    ((s.portEnd bits).rollLeft o w.sender w).1.isLowestCandidate ↔
      s.eligible = true ∧ s.isPresent s.self = true ∧
        ∀ a < s.self, 1 ≤ a → a ≠ w.sender → ¬(s.isPresent a = true ∧ (s.rosterEntry a).eligible = some true) := by
  have hentry (a : Nat) (ha : a ≠ w.sender) :
      ((s.portEnd bits).rollLeft o w.sender w).1.rosterEntry a = s.rosterEntry a :=
    (State.rosterEntry_setRoster ..).trans (if_neg fun h => ha h.1.symm)
  have hself : ((s.portEnd bits).rollLeft o w.sender w).1.self = s.self := rfl
  have heligible : ((s.portEnd bits).rollLeft o w.sender w).1.eligible = s.eligible := rfl
  have htimer : ((s.portEnd bits).rollLeft o w.sender w).1.timer.holder = some w.sender := hholder
  generalize ((s.portEnd bits).rollLeft o w.sender w).1 = left at *
  have hother (a : Nat) :
      (left.isPresent a = true ∧ (left.rosterEntry a).eligible = some true ∧ some w.sender ≠ some a) ↔
        a ≠ w.sender ∧ s.isPresent a = true ∧ (s.rosterEntry a).eligible = some true := by
    by_cases ha : a = w.sender
    · simp [ha]
    · simp [State.isPresent, hentry a ha, ha, Ne.symm ha]
  have hheld : some w.sender ≠ some s.self := by simpa using hpeer
  have hpresent : left.isPresent s.self = s.isPresent s.self := congrArg RosterEntry.present (hentry _ hpeer.symm)
  rw [State.isLowestCandidate, heligible, hself, htimer, hpresent]
  simp only [hother, hheld, not_and (a := _ ≠ w.sender), ne_eq, not_false_eq_true, true_and]

/-- The candidate rule, run at once: self holds, or the holder is absent (R31). -/
theorem State.holderLeft_eq (h1 : 1 ≤ u.self) (h30 : u.self ≤ 30) {c : Prop} [Decidable c] (hc : u.isLowestCandidate ↔ c) :
    u.holderLeft o =
      ({ u with timer := if c then { u.timer with holderFlag := true, holder := some u.self, missed := 0 }
                         else { u.timer with holder := none } },
        [if c then holderChanged o.frame (some u.self) else holderChanged o.frame none]) := by
  unfold State.holderLeft
  simp only [State.candidate_eq_self h1 h30, hc]
  split_ifs <;> rfl

/-- A MEMBER hears the ROLL(LEAVING) of its holder: its slots are freed, and the candidate rule runs (R31, R65). -/
theorem State.HearsRoll.exec_holderLeft (hr : s.HearsRoll bits w) (hpeer : w.sender ≠ s.self) (hw : s.port.word = none)
    (hst : s.control.state = .member) (hleave : w.rollLeaving = true) (hholder : s.timer.holder = some w.sender)
    {left timed : State × List Event} (hleft : (s.portEnd bits).rollLeft (s.occurrence bits) w.sender w = left)
    (htimed : left.1.holderLeft (s.occurrence bits) = timed) (hlen : timed.1.len = s.len) :
    Machine.exec (.rollSlotEnd bits) s = .next
      ({ timed.1.postGroups 0 [left.2, [], timed.2] with timer := timed.1.timer.next 1 } : State).nextHappening := by
  subst hleft
  exact hr.exec_peer hpeer hw ((hr.peerTurn _).trans (if_pos hleave))
    (((hr.rollTimer_peer hpeer (by rfl)).trans (if_pos ⟨hst, hleave, hholder⟩)).trans htimed) hlen

/-- The candidate rule posts HOLDER_CHANGED alone (R31). -/
theorem State.holderLeft_postsOnly (u : State) (o : Occurrence) : PostsOnly [.holderChanged] (u.holderLeft o).2 := by
  unfold State.holderLeft
  split_ifs <;> exact .singleton (by simp [holderChanged, Event.of])

/-- Of a departing peer STATION_LEFT is posted, after HOLDINGS_DIFFER (R65). -/
theorem State.eventsOf_rollLeft (u : State) (o : Occurrence) (a : Nat) (w : SlotWord) {k : EventKind}
    (hk : k ≠ .holdingsDiffer) :
    eventsOf k (u.rollLeft o a w).2 = if k = .stationLeft then
      [{ Event.of .stationLeft o.frame with station := some a, count := some (u.heldCount a) }] else [] := by
  rw [State.rollLeft, eventsOf_append, (u.holdingsDiffer_postsOnly o a w).eventsOf_eq_nil (by simpa using hk)]
  simp [Event.of, eq_comm]

/-! ### A realigning MARK (R32) -/

/-- An acceptable MARK of the configured length, heard outside slot 0 from a peer at or below the holder, in a state on the
trunk in which self sent nothing. -/
structure State.HearsRealigning (s : State) (p : Nat) (bits : SlotBits) (w : SlotWord) : Prop where
  passes : s.passes p
  pos : p ≠ 0
  len : p < s.len
  onTrunk : s.control.state.onTrunk = true
  unsent : s.port.word = none
  heard : classify bits = .valid w
  mark : w.kind = .mark
  wellFormed : w.malformed = false
  peer : w.sender ≠ s.self
  length : w.markLength = some s.len
  holder : ∀ k, s.timer.holder = some k → w.sender ≤ k

/-- HOLDER_CHANGED of the realignment, unless the mark's station was the holder already. -/
def State.realignEvents (s : State) (w : SlotWord) : List Event :=
  if s.timer.holder = some w.sender ∧ s.timer.holderFlag = false then []
  else [holderChanged w.markFrame (some w.sender)]

/-- Frame timer and station controller are realigned, and of HOLDER_CHANGED the realignment's is posted. -/
structure State.Realigned (s : State) (w : SlotWord) (t : State) : Prop where
  timer : t.timer = FrameTimer.alignedTo w
  control : t.control = if s.control.state = .joining then { s.control with observed := false, observing := false }
    else s.control
  events : ∃ es, t.events = s.events.postAll es ∧ eventsOf .holderChanged es = s.realignEvents w

/-- What the frame timer posts outside slot 0 rests on its own state and the configuration. -/
theorem State.offSlotEvents_congr (hc : v.control = u.control) (ht : v.timer = u.timer) (o : Occurrence) :
    v.offSlotEvents o = u.offSlotEvents o := by
  simp only [State.offSlotEvents, State.realignsTo_congr hc ht, ht, State.self_congr hc, State.len_congr hc]

/-- A word that is no HEAD stalls a window or leaves it; a MARK writes nothing (R165). -/
theorem State.windowAct_write_of_mark (hv : o.heard = .valid w) (hk : w.kind = .mark) (u : State) (n : Nat) :
    (u.windowAct o n).write = none := by
  have hhead : o.heard.acceptable .head = none := Heard.acceptable_none_of_kind (by simp [hv, hk])
  have hfollow : (u.windowAt n).follow n o = (u.windowAt n).stallOnce n o := by simp [Window.follow, hv, hk]
  simp only [State.windowAct, Window.act, hhead, hfollow]
  split_ifs
  · exact (Window.stallOnce_posts ..).1
  · rfl

section Realigning

variable (hr : s.HearsRealigning p bits w)
include hr

theorem State.HearsRealigning.slot : (s.occurrence bits).slot = p := State.occurrence_slot_of_passes hr.passes bits

theorem State.HearsRealigning.acceptable (k : Kind) :
    (s.occurrence bits).heard.acceptable k = if k = .mark then some w else none := by
  rw [State.occurrence_heard, hr.heard, Heard.acceptable_valid, hr.mark, hr.wellFormed]
  simp [eq_comm]

theorem State.HearsRealigning.faultIn : s.faultIn (s.occurrence bits) = none :=
  State.faultIn_peerMark hr.heard hr.peer hr.length

theorem State.HearsRealigning.realignsTo : (s.portEnd bits).realignsTo (s.occurrence bits) = some w := by
  simp only [State.realignsTo, hr.acceptable, if_true]
  exact if_pos ⟨by rw [hr.slot]; exact hr.pos, hr.peer, hr.length, State.atOrBelowHolder_iff.mpr hr.holder⟩

theorem State.HearsRealigning.offSlotEvents : (s.portEnd bits).offSlotEvents (s.occurrence bits) = s.realignEvents w := by
  simp only [State.offSlotEvents, hr.realignsTo, State.realignEvents, State.portEnd_timer]
  by_cases h : s.timer.holder = some w.sender <;> by_cases hf : s.timer.holderFlag = true <;> simp [h, hf]

/-- Where the other blocks leave the front and post no HOLDER_CHANGED, the end of the slot is the realignment. -/
theorem State.HearsRealigning.of_front (hv : v.front = (s.portEnd bits).front) {before after : List (List Event)}
    (hb : ∀ g ∈ before, eventsOf .holderChanged g = []) (ha : ∀ g ∈ after, eventsOf .holderChanged g = []) :
    s.Realigned w
      ((v.postGroups 0 (before ++ (s.portEnd bits).offSlotEvents (s.occurrence bits) :: after)).passOn
        (s.occurrence bits)).nextHappening := by
  obtain ⟨hc, ht, -, -, -, he⟩ := State.front_eq_iff.mp hv
  have hre : (v.postGroups 0 (before ++ (s.portEnd bits).offSlotEvents (s.occurrence bits) :: after)).realignsTo
      (s.occurrence bits) = some w := (State.realignsTo_congr hc ht _).trans hr.realignsTo
  rw [State.passOn_some hre]
  refine ⟨rfl, ?_, mergeAll v.happening 0 _, congrArg (EventQueue.postAll · _) he, ?_⟩
  · show (if v.control.state = .joining then { v.control with observed := false, observing := false } else v.control) = _
    rw [hc]
    rfl
  · rw [eventsOf_mergeAll _ hb ha, hr.offSlotEvents, State.realignEvents]
    split_ifs
    · rfl
    · simp [holderChanged, Event.of]

theorem State.HearsRealigning.rollSlot : s.Realigned w (s.endRollSlot bits) := by
  have hnow : (s.portEnd bits).leavesNow (s.occurrence bits) = false := by simp [State.leavesNow, hr.unsent]
  have hroll (a : Nat) : (s.occurrence bits).rollOf a = none := by rw [Occurrence.rollOf, hr.acceptable]; simp
  obtain ⟨st, hst, hkeep⟩ := (s.portEnd bits).front_rollTurn (s.occurrence bits)
  have hfront : ((s.portEnd bits).rollTurn (s.occurrence bits)).1.front = (s.portEnd bits).front := by
    rw [hst, hkeep (by simp [hr.unsent])]
    rfl
  obtain ⟨hc, ht, -⟩ := State.front_eq_iff.mp hfront
  obtain ⟨hroster, hcontrol⟩ := (s.portEnd bits).rollTurn_postsOnly (s.occurrence bits)
  obtain ⟨v, hv, rfl⟩ := (s.portEnd bits).rollEnd_shape (s.occurrence bits)
  have htimer (x : State) : x.rollTimer (s.occurrence bits) = (x, x.offSlotEvents (s.occurrence bits)) := by
    simp [State.rollTimer, State.holderLeaves, hroll]
  rw [State.endRollSlot_of_none hr.faultIn, hnow, if_neg Bool.false_ne_true, hv, htimer, State.offSlotEvents_congr hc ht]
  refine hr.of_front hfront (before := [_, _]) (after := []) ?_ (by simp)
  simp [hroster.eventsOf_eq_nil, hcontrol.eventsOf_eq_nil, rollKinds]

theorem State.HearsRealigning.claimSlot : s.Realigned w (s.endClaimSlot bits) := by
  obtain ⟨v, hv, hfront⟩ := (s.portEnd bits).claimEnd_shape (s.occurrence bits)
  rw [State.endClaimSlot_of_none hr.faultIn, hv]
  refine hr.of_front hfront (before := [_]) (after := []) ?_ (by simp)
  simp [(State.applyClaim_postsOnly ..).eventsOf_eq_nil, (State.claimOutcome_postsOnly ..).eventsOf_eq_nil]

theorem State.HearsRealigning.answerSlot : s.Realigned w (s.endAnswerSlot bits) := by
  obtain ⟨v, heard, hv, hfront, hheard⟩ := (s.portEnd bits).answerEnd_shape (s.occurrence bits)
  rw [State.endAnswerSlot_of_none hr.faultIn, hv]
  refine hr.of_front hfront (before := [_, _]) (after := []) ?_ (by simp)
  rcases hheard with rfl | rfl
  · simp [(State.answerOutcome_postsOnly ..).eventsOf_eq_nil]
  · simp [(State.answerOutcome_postsOnly ..).eventsOf_eq_nil, (State.applyAnswer_postsOnly ..).eventsOf_eq_nil]

theorem State.HearsRealigning.dataSlot : s.Realigned w (s.endDataSlot bits) := by
  obtain ⟨v, posts, hv, hfront, hposts⟩ := (s.portEnd bits).dataEnd_shape (s.occurrence bits)
  obtain ⟨hroster, htable⟩ := (s.portEnd bits).rosterAndTable_postsOnly (s.occurrence bits)
  rw [State.endDataSlot_of_none hr.faultIn, hv]
  refine hr.of_front hfront (before := [_, _])
    (after := channelIds.map (fun c => ((s.portEnd bits).rxAt c).overrunEvents (s.occurrence bits) c) ++ posts) ?_ ?_
  · simp [hroster.eventsOf_eq_nil, htable.eventsOf_eq_nil, tableKinds]
  · intro g hg
    rcases List.mem_append.mp hg with hg | hg
    · obtain ⟨c, -, rfl⟩ := List.mem_map.mp hg
      exact (RxChannel.overrunEvents_postsOnly ..).eventsOf_eq_nil (by simp)
    · rcases hposts with rfl | rfl
      · cases hg
      · exact ((s.portEnd bits).windowEvents_postsOnly _ g hg).eventsOf_eq_nil (by simp [windowKinds])

/-- No window writes, so that the end of a data slot is no fault. -/
theorem State.HearsRealigning.dataFinish : s.dataFinish bits = .next (s.endDataSlot bits) := by
  have hwrites : s.windowWrites (s.occurrence bits) = [] := by
    simp [State.windowWrites, State.windowAct_write_of_mark (o := s.occurrence bits) hr.heard hr.mark]
  have hstray : s.strayWrite bits = none := by simp [State.strayWrite, hwrites]
  rw [State.dataFinish, hstray]

/-- At the end of whatever slot. -/
theorem State.HearsRealigning.realigned : ∃ t, exec (endCommand p bits) s = .next t ∧ s.Realigned w t := by
  rw [exec_endCommand hr.passes hr.len hr.onTrunk, if_neg hr.pos]
  split_ifs
  · exact ⟨_, rfl, hr.rollSlot⟩
  · exact ⟨_, rfl, hr.claimSlot⟩
  · exact ⟨_, rfl, hr.answerSlot⟩
  · exact ⟨_, hr.dataFinish, hr.dataSlot⟩

end Realigning

/-! ### The end of slot 0 where self follows or has sent -/

/-- Slot 0 ends on the trunk, and no fault is found. -/
theorem State.exec_markSlotEnd_onTrunk (hp : s.passes 0) (hon : s.control.state.onTrunk = true)
    (hf : s.faultIn (s.occurrence bits) = none) :
    exec (.markSlotEnd bits) s = .next ((s.portEnd bits).markEnd (s.occurrence bits)) := by
  rw [exec_markSlotEnd hp, State.endMarkSlot_of_none hf]
  exact fun h => by simp [h, StationState.onTrunk] at hon

/-- Slot 0 ends at a founder, and no fault is found. -/
theorem State.exec_markSlotEnd_listen (hp : s.passes 0) (hl : s.control.state = .listen)
    (hf : s.faultIn (s.occurrence bits) = none) :
    exec (.markSlotEnd bits) s = .next ((s.portEnd bits).foundingEnd (s.occurrence bits)) := by
  rw [exec_markSlotEnd hp, State.endMarkSlot_of_listen hf hl]

/-- Self's MARK that was not displaced brings no fault (R21, R26). -/
theorem State.faultIn_of_sent (hp : s.passes 0) (hb : s.port.word = some b) (h : outcomeOf b bits ≠ .displaced) :
    s.faultIn (s.occurrence bits) = none :=
  have hout : (s.occurrence bits).outcome = some (outcomeOf b bits) := by simp [hb]
  State.faultIn_eq_none (Occurrence.duplicate_eq_false_of_sent hout h)
    (Occurrence.lengthFault_eq_false_of_sent _ (State.occurrence_slot_of_passes hp bits) hout h)

/-- Self has sent as holder, and slot 1 comes next (R17, R26, R27). -/
theorem State.exec_markSlotEnd_holder (hp : s.passes 0) (hlen : 1 < s.len) (hon : s.control.state.onTrunk = true)
    (hb : s.port.word = some b) (hf : s.faultIn (s.occurrence bits) = none) {held : State × List Event}
    (hh : (s.portEnd bits).holderEnd (s.occurrence bits) = held) (hheld : held.1.len = s.len) :
    exec (.markSlotEnd bits) s =
      .next ({ held.1.postAll held.2 with timer := held.1.timer.next 0 } : State).nextHappening := by
  have hout : (s.occurrence bits).outcome = some (outcomeOf b bits) := by simp [hb]
  rw [State.exec_markSlotEnd_onTrunk hp hon hf, State.markEnd_of_sent hout, hh,
    State.passOn_slot0 (State.occurrence_slot_of_passes hp bits) (by rw [State.postAll_len, hheld]; exact hlen)]
  rfl

/-- Self has sent nothing and follows, and slot 1 comes next (R17, R22). -/
theorem State.exec_markSlotEnd_follower (hp : s.passes 0) (hlen : 1 < s.len) (hon : s.control.state.onTrunk = true)
    (hw : s.port.word = none) (hacc : (classify bits).acceptable .mark = some w) (hpeer : w.sender ≠ s.self)
    (hl : w.markLength = some s.len) :
    exec (.markSlotEnd bits) s =
      .next ({ ((s.portEnd bits).follow w).postAll
          (if s.timer.holder = some w.sender then [] else [holderChanged w.markFrame (some w.sender)]) with
        timer := ((s.portEnd bits).follow w).timer.next 0 } : State).nextHappening := by
  have hout : (s.occurrence bits).outcome = none := by simp [hw]
  have hfollowed : (s.portEnd bits).followed (s.occurrence bits) = some w := State.followed_of_peerMark hacc hl hpeer
  obtain ⟨hv, -, -⟩ := Heard.acceptable_eq_some.mp hacc
  rw [State.exec_markSlotEnd_onTrunk hp hon (State.faultIn_peerMark hv hpeer hl),
    State.markEnd_of_followed hout hfollowed,
    State.passOn_slot0 (State.occurrence_slot_of_passes hp bits) (by exact hlen)]
  rfl

end Sys2Proof.Machine

open Sys2Proof Sys2Proof.Machine

/-- Settles O26: by what became of self's MARK in slot 0, and by the word heard. -/
theorem marksAreFollowed : Obligations.MarksAreFollowed := by
  refine ⟨fun s h w hp hlen hst hw hv hk hm hpeer hl => ?follower,
    fun s h b hp hlen hl hb => ⟨fun hd => ?founds, fun hd w hv hk hm hpeer hlength => ?joins, fun hd hother => ?hunts⟩,
    fun s h b hp hlen hon hb => ⟨fun hd => ?goesOn, fun hd w hv hk hm hpeer hl => ?yields, fun hd hpeer hother => ?alone⟩,
    fun s p h w hp h0 hlen hon hw hv hk hm hpeer hl hholder => ?realigns⟩
  case follower =>
    rw [State.exec_markSlotEnd_follower hp hlen (StationState.onTrunk_iff.mpr hst) hw
      (Heard.acceptable_eq_some.mpr ⟨hv, hk, hm⟩) hpeer hl, State.portEnd_of_unsent hw, hv]
    split_ifs <;> rfl
  case founds =>
    have hout : (s.occurrence h).outcome ≠ some .displaced := by simpa [hb] using hd
    refine ⟨_, _, (State.exec_markSlotEnd_listen hp hl (State.faultIn_of_sent hp hb hd)).trans
      (congrArg _ (State.foundingEnd_of_sent hout)), rfl, ?_, ?_, (mergeAll_perm s.happening _ 0).trans (.of_eq rfl)⟩
    · exact TrunkPort.finish_word ..
    · exact TrunkPort.finish_heard ..
  case joins =>
    have hout : (s.occurrence h).outcome = some .displaced := by simp [hb, hd]
    refine ⟨_, _, (State.exec_markSlotEnd_listen hp hl (State.faultIn_peerMark hv hpeer hlength)).trans
      (congrArg _ (State.foundingEnd_of_mark hout (Heard.acceptable_eq_some.mpr ⟨hv, hk, hm⟩))), rfl, ?_, ?_,
      (mergeAll_perm s.happening _ 0).trans (.of_eq rfl)⟩
    · exact TrunkPort.finish_word ..
    · exact TrunkPort.finish_heard ..
  case hunts =>
    have hout : (s.occurrence h).outcome = some .displaced := by simp [hb, hd]
    have hacc : (classify h).acceptable .mark = none := Heard.acceptable_mark_eq_none fun w hv => (hother w hv).2
    have hf : s.faultIn (s.occurrence h) = none :=
      State.faultIn_none (Heard.carries_eq_false fun w hv => (hother w hv).1) hacc
    exact ⟨_, (State.exec_markSlotEnd_listen hp hl hf).trans (congrArg _ (State.foundingEnd_of_none hout hacc)), rfl,
      TrunkPort.finish_word .., rfl⟩
  case goesOn =>
    have hout : (s.occurrence h).outcome ≠ some .displaced := by simpa [hb] using hd
    exact ⟨_, State.exec_markSlotEnd_holder hp hlen hon hb (State.faultIn_of_sent hp hb hd) (State.holderEnd_of_sent hout) rfl,
      rfl, TrunkPort.finish_word .., TrunkPort.finish_heard ..⟩
  case yields =>
    have hout : (s.occurrence h).outcome = some .displaced := by simp [hb, hd]
    exact ⟨_, State.exec_markSlotEnd_holder hp hlen hon hb (State.faultIn_peerMark hv hpeer hl)
      (State.holderEnd_of_mark hout (Heard.acceptable_eq_some.mpr ⟨hv, hk, hm⟩) hl) rfl, rfl⟩
  case alone =>
    have hout : (s.occurrence h).outcome = some .displaced := by simp [hb, hd]
    have hf : s.faultIn (s.occurrence h) = none := by
      refine State.faultIn_eq_none (Occurrence.duplicate_eq_false_of_peer hpeer) ?_
      by_cases hj : s.control.state = .joining
      · exact Occurrence.lengthFault_eq_false_of_length fun w hv hk hm => absurd hj (hother w hv hk hm).2
      · exact Occurrence.lengthFault_eq_false_of_state _ hj fun h => by simp [h, StationState.onTrunk] at hon
    have hmismatch := (s.portEnd h).mismatchEvents_postsOnly (s.occurrence h)
    refine ⟨_, (s.portEnd h).mismatchEvents (s.occurrence h) ++ [holderChanged s.timer.frame none],
      State.exec_markSlotEnd_holder hp hlen hon hb hf
        (State.holderEnd_of_other hout fun w hv hk hm => (hother w hv hk hm).1) rfl, rfl, ?_, ?_, ?_⟩
    · rw [eventsOf_append, hmismatch.eventsOf_eq_nil (by simp)]
      rfl
    · rw [eventsOf_append, hmismatch.eventsOf_eq_self, List.length_append]
      simp [holderChanged, Event.of, Nat.add_comm]
    · rw [eventsOf_append, hmismatch.eventsOf_eq_self]
      exact (List.append_nil _).trans
        (State.mismatchEvents_eq (u := s.portEnd h) (o := s.occurrence h) fun w hv hk hm => (hother w hv hk hm).1)
  case realigns =>
    obtain ⟨t, hexec, hr⟩ := State.HearsRealigning.realigned ⟨hp, h0, hlen, hon, hw, hv, hk, hm, hpeer, hl, hholder⟩
    obtain ⟨es, hes, hevents⟩ := hr.events
    exact ⟨t, es, hexec, hr.timer, hr.control, hes, hevents⟩

/-- Settles O28: a missed mark is counted or makes self the holder, and so does a holder's leaving. -/
theorem missedMarksBringTakeover : Obligations.MissedMarksBringTakeover := by
  refine ⟨fun s h takes hp hlen hon hw h1 h30 hj hunmarked htakes => ?missed,
    fun s h hp hlen hw hmissed hunmarked hj => ?fourth,
    fun s h w hp hlen hst hw h1 h30 hv hk hm hleave hpeer hturn hholder => ?leaves⟩
  case missed =>
    have hmiss : s.Misses h := ⟨hp, hlen, hon, hw, hunmarked⟩
    have hiff : takes = true ↔ s.takesOver := htakes
    have hend := hmiss.endMarkSlot_eq hj h1 h30 hiff
    have hholder : PostsOnly [.holderChanged] (if takes then [holderChanged s.timer.frame (some s.self)] else []) := by
      split_ifs
      · exact .singleton (by simp [holderChanged, Event.of])
      · exact .nil
    obtain ⟨hmismatch, hchanged, hlength⟩ := eventsOf_mergeAll_pair s.happening 0 (by simp)
      ((s.portEnd h).mismatchEvents_postsOnly (s.occurrence h)) hholder
    refine ⟨_, _, (exec_markSlotEnd hp h).trans (congrArg _ hend), rfl, hchanged, ?_, ?_, fun hst hsecond => ?_,
      fun ht hfourth => ?_⟩
    · rw [hmismatch]
      exact State.mismatchEvents_eq (u := s.portEnd h) (o := s.occurrence h) fun w hv hk hwf =>
        (hmiss.otherLength hv hk hwf).1
    · rw [hlength, hmismatch, hchanged, Nat.add_comm]
    · exact (hmiss.exec_candidateRule hst hsecond).trans (congrArg _ hend)
    · obtain ⟨hst, ⟨hsecond, -⟩ | ⟨-, he, hf⟩⟩ := hiff.mp ht
      · omega
      · exact (hmiss.exec_escalation hst hfourth he hf).trans (congrArg _ hend)
  case fourth =>
    have hmiss : s.Misses h := ⟨hp, hlen, by simp [hj, StationState.onTrunk], hw, fun w hv =>
      ⟨(hunmarked w hv).1, fun hk => .inl ((hunmarked w hv).2 hk)⟩⟩
    have hexec := hmiss.exec_joiningToListen hj hmissed
    refine ⟨?_, (exec_markSlotEnd hp h).trans hexec.symm⟩
    rw [hexec, hmiss.endMarkSlot_fourth hj hmissed, State.portEnd_of_unsent hw]
    rfl
  case leaves =>
    have hr : s.HearsRoll h w := ⟨hp, hlen, hv, hk, hm, hturn, by simp [hst, StationState.onTrunk]⟩
    have hlowest := State.rollLeft_isLowestCandidate (bits := h) (o := s.occurrence h) hpeer hholder
    have hleft := State.holderLeft_eq (u := ((s.portEnd h).rollLeft (s.occurrence h) w.sender w).1) (o := s.occurrence h)
      h1 h30 hlowest
    refine ⟨_, mergeAll s.happening 0 [((s.portEnd h).rollLeft (s.occurrence h) w.sender w).2, [],
        (((s.portEnd h).rollLeft (s.occurrence h) w.sender w).1.holderLeft (s.occurrence h)).2],
      hr.exec_holderLeft hpeer hw hst hleave hholder rfl rfl (by rw [hleft]; rfl), ?_, ?_, ?_⟩
    · rw [hleft, State.portEnd_of_unsent hw, hv]
      split_ifs <;> rfl
    · have hholderOnly := (State.holderLeft_postsOnly ((s.portEnd h).rollLeft (s.occurrence h) w.sender w).1
        (s.occurrence h)).eventsOf_eq_nil (k := .stationLeft) (by simp)
      exact (eventsOf_mergeAll _ (before := []) (by simp) (by simpa using hholderOnly) 0).trans
        (State.eventsOf_rollLeft _ _ _ _ (by simp))
    · have hnone : eventsOf .holderChanged ((s.portEnd h).rollLeft (s.occurrence h) w.sender w).2 = [] :=
        State.eventsOf_rollLeft _ _ _ _ (by simp)
      refine (eventsOf_mergeAll _ (before := [_, []]) (after := []) (by simpa using hnone) (by simp) 0).trans ?_
      rw [(State.holderLeft_postsOnly ..).eventsOf_eq_self, hleft]
      split_ifs <;> rfl
end

