-- ==== Sys2Proof/Proofs/Transitions.lean ====
section
/-! The station state changes only as chapter 3 lists (R36 to R53), and the configuration stays until a reset (R35); the
commands START, JOIN and LEAVE, by which the host changes the station state (R37, R47, R51). -/

namespace Sys2Proof.Machine

variable {s t u v : State} {o : Occurrence} {bits : SlotBits}

/-! ### Moves of the station controller -/

/-- From `s` to `t` the station state stays or takes a transition of chapter 3's table, and the configuration of a station
that is not in OFF stays or is gone with a reset (R35). -/
structure State.Moves (s t : State) : Prop where
  listed : s.alignmentOk → t.control.state = s.control.state ∨ s.control.state.mayBecome t.control.state = true
  configured : s.control.state ≠ .off →
    t.control.config = s.control.config ∨ (t.control.config = none ∧ t.control.state = .off)

/-- Where station state and configuration stay. -/
theorem State.Moves.stays (hst : t.control.state = s.control.state) (hc : t.control.config = s.control.config) : s.Moves t :=
  ⟨fun _ => .inl hst, fun _ => .inl hc⟩

theorem State.Moves.refl (s : State) : s.Moves s := .stays rfl rfl

/-- Moves speak of station state and configuration alone. -/
theorem State.Moves.congr (h : s.Moves u) (hst : v.control.state = u.control.state)
    (hc : v.control.config = u.control.config) : s.Moves v :=
  ⟨by rw [hst]; exact h.listed, by rw [hst, hc]; exact h.configured⟩

/-- A listed transition that keeps the configuration. -/
theorem State.Moves.of_mayBecome (hc : t.control.config = s.control.config)
    (h : s.alignmentOk → s.control.state.mayBecome t.control.state = true) : s.Moves t :=
  ⟨fun ha => .inr (h ha), fun _ => .inl hc⟩

/-- A transition from a state that is known. -/
theorem State.Moves.of_states {a b : StationState} (hc : t.control.config = s.control.config) (hs : s.control.state = a)
    (ht : t.control.state = b) (h : a.mayBecome b = true) : s.Moves t :=
  .of_mayBecome hc fun _ => by rw [hs, ht]; exact h

/-- A reset brings OFF with the configuration empty (R35). -/
theorem State.Moves.reset (h : t.control = StationControl.reset) : s.Moves t := by
  refine ⟨fun _ => .inr ?_, fun _ => .inr (by rw [h]; exact ⟨rfl, rfl⟩)⟩
  rw [h]
  cases s.control.state <;> rfl

/-- The entry into FAULT from an aligned station: it is on the trunk or founding in LISTEN (R12, R39). -/
theorem State.Moves.fault (hu : u.control.config = s.control.config) (ha : s.timer.aligned = true ∨ s.control.state = .listen)
    {cause : FaultCause} : s.Moves (u.enterFault cause) := by
  refine .of_mayBecome hu fun hal => ?_
  have hst : s.control.state.onTrunk = true ∨ s.control.state = .listen := ha.elim hal.2 .inr
  show s.control.state.mayBecome .fault = true
  rw [StationState.onTrunk_iff] at hst
  rcases hst with (h | h | h) | h <;> rw [h] <;> rfl

/-- The passage to the next occurrence touches neither (R17, R32, R41). -/
theorem State.Moves.passOn (h : s.Moves u) : s.Moves (u.passOn o).nextHappening := by
  obtain ⟨_, _, heq, hst, hc, -⟩ := u.passOn_eq o
  exact h.congr (by rw [State.nextHappening_control, heq]; exact hst) (by rw [State.nextHappening_control, heq]; exact hc)

/-- Whatever state an outcome answers, the station controller has moved to it as it may. -/
def State.MovesBy (s : State) (x : Host.Outcome State Fault Refusal) : Prop := ∀ t, x = .next t → s.Moves t

theorem State.Moves.next (h : s.Moves t) : s.MovesBy (.next t) := by rintro _ ⟨⟩; exact h

theorem State.movesBy_fault (s : State) (f : Fault) : s.MovesBy (.fault f) := by rintro t ⟨⟩

/-- A command that acts on a condition and is idle otherwise. -/
theorem State.movesBy_ite {p : Prop} [Decidable p] {x : Host.Outcome State Fault Refusal} (hx : p → s.MovesBy x) :
    s.MovesBy (if p then x else .next s) := by
  split_ifs with hp
  · exact hx hp
  · exact (State.Moves.refl s).next

/-! ### Hunting and the listen window (R40) -/

/-- From LISTEN to JOINING (R18, R21). -/
theorem State.Moves.joinOn (hl : s.control.state = .listen) (hu : u.control.config = s.control.config) {w : SlotWord} :
    s.Moves (u.joinOn w) := .of_states hu hl rfl rfl

theorem execHuntingCandidate_moves (bits : SlotBits) (s : State) : s.MovesBy (execHuntingCandidate bits s) := by
  refine State.movesBy_ite fun hh => State.Moves.next ?_
  obtain ⟨hl, -⟩ := State.hunting_iff.mp hh
  unfold State.candidateHeard
  dsimp only
  split
  · exact .stays rfl rfl
  · split_ifs
    · exact .fault (by rfl) (.inr hl)
    · exact .joinOn hl rfl
    · exact .fault (by rfl) (.inr hl)

/-- A frame time of the listen window leaves the station in LISTEN (R20). -/
theorem State.frameTimePassed_moves (s : State) : s.Moves s.frameTimePassed := by
  unfold State.frameTimePassed State.windowPassed
  dsimp only
  split_ifs <;> exact .stays rfl rfl

/-! ### Slot starts -/

theorem execMarkSlotStart_moves (s : State) : s.MovesBy (execMarkSlotStart s) := by
  refine State.movesBy_ite fun _ => State.Moves.next (.stays ?_ ?_) <;> simp [StationControl.frameBegins_eq]

theorem execClaimSlotStart_moves (s : State) : s.MovesBy (execClaimSlotStart s) := by
  refine State.movesBy_ite fun _ => ?_
  split_ifs <;> exact State.Moves.next (.stays rfl rfl)

/-- The start of a data slot leaves the station controller (R77). -/
theorem State.control_startDataSlot (s : State) (n : Nat) : (s.startDataSlot n).control = s.control := by
  obtain ⟨hc, -⟩ := State.front_eq_iff.mp (s.front_supply n).1
  unfold State.startDataSlot
  split_ifs
  · exact hc
  · rfl

theorem State.dataStart_moves (s : State) (n : Nat) : s.MovesBy (s.dataStart n) := by
  have hstart : s.Moves (s.startDataSlot n) := .stays (by rw [s.control_startDataSlot])
    (by rw [s.control_startDataSlot])
  unfold State.dataStart
  split
  · split_ifs
    · exact hstart.next
    · exact s.movesBy_fault _
  · exact hstart.next

theorem execDataSlotStart_moves (s : State) : s.MovesBy (execDataSlotStart s) := by
  unfold execDataSlotStart
  split
  · exact s.dataStart_moves _
  · exact (State.Moves.refl s).next

theorem execTailResend_moves (s : State) : s.MovesBy (execTailResend s) := by
  unfold execTailResend
  split
  · exact State.movesBy_ite fun _ => s.dataStart_moves _
  · exact (State.Moves.refl s).next

theorem execJobNoAnswer_moves (s : State) : s.MovesBy (execJobNoAnswer s) := by
  unfold execJobNoAnswer
  split
  · split_ifs
    · exact (State.Moves.refl s).next
    · exact s.dataStart_moves _
  · exact (State.Moves.refl s).next

/-! ### The end of slot 0 (R40, R44) -/

/-- A founder joins, or hunts again (R21). -/
theorem State.foundingEnd_moves (hl : u.control.state = .listen) (o : Occurrence) : u.Moves (u.foundingEnd o) := by
  unfold State.foundingEnd
  split_ifs
  · split
    · exact .joinOn hl rfl
    · exact .stays rfl rfl
  · exact .of_states rfl hl rfl rfl

/-- A holder's outcome is a matter of the frame timer alone (R26, R27). -/
theorem State.control_holderEnd (u : State) (o : Occurrence) : (u.holderEnd o).1.control = u.control := by
  unfold State.holderEnd
  split_ifs
  · split
    · split_ifs <;> rfl
    · rfl
  · rfl

/-- So is a missed mark, but for a JOINING station's fourth (R24, R30). -/
theorem State.control_missMark (u : State) : u.missMark.1.control = u.control := by
  rcases u.missMark_cases with h | h <;> rw [h] <;> rfl

theorem State.markEnd_moves (u : State) (o : Occurrence) : u.Moves (u.markEnd o) := by
  unfold State.markEnd
  split
  · exact (State.Moves.stays (by rw [State.postAll_control, u.control_holderEnd])
      (by rw [State.postAll_control, u.control_holderEnd])).passOn
  · split
    · exact (State.Moves.stays (by rfl) (by rfl)).passOn
    · split_ifs with hj
      · exact .of_states rfl hj.1 rfl rfl
      · exact (State.Moves.stays (by rw [State.postGroups_control, u.control_missMark])
          (by rw [State.postGroups_control, u.control_missMark])).passOn

/-- The trunk port's end of an occurrence is no matter of the station controller. -/
theorem State.Moves.of_portEnd (h : (s.portEnd bits).Moves t) : s.Moves t := ⟨h.listed, h.configured⟩

theorem State.endMarkSlot_moves (ha : s.timer.aligned = true) (bits : SlotBits) : s.Moves (s.endMarkSlot bits) := by
  unfold State.endMarkSlot
  dsimp only
  split
  · exact .fault (by rfl) (.inl ha)
  · split_ifs with hl
    · exact (State.foundingEnd_moves (u := s.portEnd bits) hl _).of_portEnd
    · exact (State.markEnd_moves (s.portEnd bits) _).of_portEnd

/-- An occurrence ends at an aligned station. -/
theorem State.aligned_of_endsAt {test : Nat → Bool} (h : s.endsAt test = true) : s.timer.aligned = true := by
  obtain ⟨_, hp, -⟩ := State.passes_of_endsAt h
  exact hp.1

theorem State.endMarkSlot_movesBy (he : s.endsAt (· == 0) = true) (bits : SlotBits) :
    s.MovesBy (.next (s.endMarkSlot bits)) := (State.endMarkSlot_moves (State.aligned_of_endsAt he) bits).next

theorem execCandidateRule_moves (bits : SlotBits) (s : State) : s.MovesBy (execCandidateRule bits s) := by
  refine State.movesBy_ite fun he => State.endMarkSlot_movesBy ?_ bits
  simp only [Bool.and_eq_true] at he
  obtain ⟨⟨hmiss, -⟩, -⟩ := he
  exact State.endsAt_of_missesMark hmiss

theorem execEscalation_moves (bits : SlotBits) (s : State) : s.MovesBy (execEscalation bits s) := by
  refine State.movesBy_ite fun he => State.endMarkSlot_movesBy ?_ bits
  simp only [Bool.and_eq_true] at he
  obtain ⟨⟨⟨⟨hmiss, -⟩, -⟩, -⟩, -⟩ := he
  exact State.endsAt_of_missesMark hmiss

theorem execJoiningToListen_moves (bits : SlotBits) (s : State) : s.MovesBy (execJoiningToListen bits s) := by
  refine State.movesBy_ite fun he => State.endMarkSlot_movesBy ?_ bits
  simp only [Bool.and_eq_true] at he
  obtain ⟨⟨hmiss, -⟩, -⟩ := he
  exact State.endsAt_of_missesMark hmiss

/-! ### The end of slot 1 (R43, R49) -/

/-- In the ROLL slot's turn a JOINING station may become a MEMBER (R43). -/
theorem State.rollTurn_moves (u : State) (o : Occurrence) : u.Moves (u.rollTurn o).1 := by
  unfold State.rollTurn
  split_ifs
  · unfold State.ownTurn
    split
    · split
      case h_1 hj => exact .of_states rfl hj rfl rfl
      all_goals exact .stays rfl rfl
    · exact .refl u
    · exact .refl u
  · have hc := (State.front_eq_iff.mp (u.front_peerTurn o (turnOf o.frame))).1
    exact .stays (by rw [hc]) (by rw [hc])

/-- The frame timer at the end of slot 1 leaves the station controller (R31). -/
theorem State.control_rollTimer (u : State) (o : Occurrence) : (u.rollTimer o).1.control = u.control := by
  rcases u.rollTimer_cases o with h | h | h <;> simp only [h, State.hold_control]

theorem State.rollEnd_moves (u : State) (o : Occurrence) : u.Moves (u.rollEnd o) := by
  have hc : (((u.rollTurn o).1.rollTimer o).1.postGroups 0
      [(u.rollTurn o).2.1, (u.rollTurn o).2.2, ((u.rollTurn o).1.rollTimer o).2]).control = (u.rollTurn o).1.control := by
    rw [State.postGroups_control, State.control_rollTimer]
  exact ((u.rollTurn_moves o).congr (by rw [hc]) (by rw [hc])).passOn

/-- A station that sent ROLL(LEAVING) detaches (R49). -/
theorem State.leaveTrunk_moves (h : u.leavesNow o = true) : u.Moves (u.leaveTrunk o) := by
  have hl : u.control.state = .leaving := by
    simp only [State.leavesNow, Bool.and_eq_true, beq_iff_eq] at h
    exact h.1
  obtain ⟨timer, off, heq, -⟩ := u.leaveTrunk_eq hl o
  rw [heq]
  exact .of_states rfl hl rfl rfl

theorem State.endRollSlot_moves (he : s.rollEnds = true) (bits : SlotBits) : s.Moves (s.endRollSlot bits) := by
  obtain ⟨he, -⟩ := Bool.and_eq_true_iff.mp he
  unfold State.endRollSlot
  dsimp only
  split
  · exact .fault (by rfl) (.inl (State.aligned_of_endsAt he))
  · split_ifs with hl
    · exact (State.leaveTrunk_moves hl).of_portEnd
    · exact (State.rollEnd_moves (s.portEnd bits) _).of_portEnd

theorem execStationLost_moves (bits : SlotBits) (s : State) : s.MovesBy (execStationLost bits s) := by
  refine State.movesBy_ite fun he => (State.endRollSlot_moves ?_ bits).next
  simp only [State.losesStation, Bool.and_eq_true] at he
  obtain ⟨⟨⟨⟨⟨hends, -⟩, -⟩, -⟩, -⟩, -⟩ := he
  exact hends

/-! ### The ends of the later slots (R52) -/

/-- The blocks of a slot leave the front, and the occurrence passes on. -/
theorem State.Moves.of_front (hv : v.front = (s.portEnd bits).front) {base : Nat} {gs : List (List Event)} :
    s.Moves ((v.postGroups base gs).passOn o).nextHappening := by
  have hc : v.control = s.control := (State.front_eq_iff.mp hv).1
  exact (State.Moves.stays (by rw [State.postGroups_control, hc]) (by rw [State.postGroups_control, hc])).passOn

theorem State.endClaimSlot_moves (he : s.claimEnds = true) (bits : SlotBits) : s.Moves (s.endClaimSlot bits) := by
  have ha := State.aligned_of_endsAt (Bool.and_eq_true_iff.mp he).1
  cases hf : s.faultIn (s.occurrence bits) with
  | none =>
    obtain ⟨v, hv, hfront⟩ := (s.portEnd bits).claimEnd_shape (s.occurrence bits)
    rw [State.endClaimSlot_of_none hf, hv]
    exact .of_front hfront
  | some cause =>
    obtain ⟨es, hes⟩ := s.beforeFault_claim bits (s.occurrence bits)
    rw [State.endClaimSlot_of_some hf]
    exact .fault (by rw [hes.same]) (.inl ha)

theorem execClaimAging_moves (bits : SlotBits) (s : State) : s.MovesBy (execClaimAging bits s) := by
  unfold execClaimAging
  split
  · exact (State.Moves.refl s).next
  · rename_i r hr
    exact State.movesBy_ite fun _ => (State.endClaimSlot_moves (State.claimEnds_of_losingHead hr) bits).next

theorem execClaimExpired_moves (bits : SlotBits) (s : State) : s.MovesBy (execClaimExpired bits s) := by
  unfold execClaimExpired
  split
  · exact (State.Moves.refl s).next
  · rename_i r hr
    exact State.movesBy_ite fun _ => (State.endClaimSlot_moves (State.claimEnds_of_losingHead hr) bits).next

theorem State.endAnswerSlot_moves (he : s.answerEnds = true) (bits : SlotBits) : s.Moves (s.endAnswerSlot bits) := by
  have ha := State.aligned_of_endsAt (Bool.and_eq_true_iff.mp he).1
  cases hf : s.faultIn (s.occurrence bits) with
  | none =>
    obtain ⟨v, _, hv, hfront, -⟩ := (s.portEnd bits).answerEnd_shape (s.occurrence bits)
    rw [State.endAnswerSlot_of_none hf, hv]
    exact .of_front hfront
  | some cause =>
    rw [State.endAnswerSlot_of_some hf]
    exact .fault (by rfl) (.inl ha)

theorem execAnswerDropped_moves (bits : SlotBits) (s : State) : s.MovesBy (execAnswerDropped bits s) := by
  refine State.movesBy_ite fun he => (State.endAnswerSlot_moves ?_ bits).next
  simp only [State.dropsAnswer, Bool.and_eq_true] at he
  obtain ⟨⟨⟨hends, -⟩, -⟩, -⟩ := he
  exact hends

theorem State.dataFinish_moves (he : s.dataEnds = true) (bits : SlotBits) : s.MovesBy (s.dataFinish bits) := by
  intro t ht
  have ha := State.aligned_of_endsAt (Bool.and_eq_true_iff.mp he).1
  rw [State.dataFinish_next ht]
  cases hf : s.faultIn (s.occurrence bits) with
  | none =>
    obtain ⟨v, _, hv, hfront, -⟩ := (s.portEnd bits).dataEnd_shape (s.occurrence bits)
    rw [State.endDataSlot_of_none hf, hv]
    exact .of_front hfront
  | some cause =>
    obtain ⟨rx, hrx⟩ := (s.portEnd bits).hearBeforeFault_eq (s.occurrence bits)
    rw [State.endDataSlot_of_some hf, hrx]
    exact .fault (by rfl) (.inl ha)

/-- A slot lapses at the end of its occurrence (R75). -/
theorem State.dataEnds_of_lapses (h : s.lapses bits = true) : s.dataEnds = true := by
  simp only [State.lapses, Bool.and_eq_true] at h
  obtain ⟨⟨⟨⟨hends, -⟩, -⟩, -⟩, -⟩ := h
  exact hends

/-- A window stalls at the end of an occurrence of a data slot (R165). -/
theorem State.dataEnds_of_stallsWindow (h : s.stallsWindow bits = true) : s.dataEnds = true := by
  simp only [State.stallsWindow, Bool.and_eq_true] at h
  obtain ⟨⟨⟨hends, -⟩, -⟩, -⟩ := h
  exact hends

theorem execSlotLapsed_moves (bits : SlotBits) (s : State) : s.MovesBy (execSlotLapsed bits s) :=
  State.movesBy_ite fun he => State.dataFinish_moves (State.dataEnds_of_lapses he) bits

theorem execWindowStalled_moves (bits : SlotBits) (s : State) : s.MovesBy (execWindowStalled bits s) :=
  State.movesBy_ite fun he => State.dataFinish_moves (State.dataEnds_of_stallsWindow he) bits

/-! ### Transactions (R37, R46, R51) -/

/-- Every transaction but START, JOIN and LEAVE leaves the station. -/
theorem State.judge_same (s : State) (i : Instr) (hstart : ∀ addr len eligible, i ≠ .start addr len eligible)
    (hjoin : i ≠ .join) (hleave : i ≠ .leave) : s.SameStation (s.judge i).1 := by
  cases i with
  | start addr len eligible => exact absurd rfl (hstart addr len eligible)
  | join => exact absurd rfl hjoin
  | leave => exact absurd rfl hleave
  | claim req priority role => exact s.judgeClaim_same req priority role
  | release n => exact s.judgeRelease_same n
  | claimCancel tag => exact s.judgeClaimCancel_same tag
  | setRole n role => exact s.judgeSetRole_same n role
  | bindRx c n expected policy gaps => exact s.judgeBindRx_same c n expected policy gaps
  | unbindRx c => exact s.judgeUnbindRx_same c
  | channelStatus dir c => exact s.judgeChannelStatus_same dir c
  | bulkPost dest win base len => exact s.judgeBulkPost_same dest win base len
  | bulkCancel id => exact s.judgeBulkCancel_same id
  | bulkStatus id => exact s.judgeBulkStatus_same id
  | bulkCollect id => exact s.judgeBulkCollect_same id
  | windowOpen w base cap allowed => exact s.judgeWindowOpen_same w base cap allowed
  | windowClose w => exact s.judgeWindowClose_same w
  | windowStatus w => exact s.judgeWindowStatus_same w
  | readSlot n => exact s.judgeReadSlot_same n
  | readRoster a => exact s.judgeReadRoster_same a
  | push c samples => exact s.judgePush_same c samples
  | pull c n => exact s.judgePull_same c n
  | memoryWrite a words => exact s.judgeMemoryWrite_same a words
  | memoryRead a n => exact s.judgeMemoryRead_same a n
  | eventRead n => exact s.judgeEventRead_same n
  | _ => exact .refl s

/-- START configures a station in OFF (R37). -/
theorem State.judgeStart_moves (s : State) (addr len : Nat) (eligible : Bool) :
    s.Moves (s.judgeStart addr len eligible).1 := by
  unfold State.judgeStart
  split_ifs with hoff _
  · exact .refl s
  · exact .refl s
  · have hs : s.control.state = .off := by simpa using hoff
    exact ⟨fun _ => .inr (by rw [hs]; rfl), fun hne => absurd hs hne⟩

/-- JOIN takes a station from DETACHED to LISTEN (R51). -/
theorem State.judgeJoin_moves (s : State) : s.Moves s.judgeJoin.1 := by
  unfold State.judgeJoin
  split_ifs with hd
  · exact .of_states rfl hd rfl rfl
  · exact .refl s

/-- LEAVE takes a station from LISTEN and JOINING to DETACHED, and from MEMBER to LEAVING (R46). -/
theorem State.judgeLeave_moves (s : State) : s.Moves s.judgeLeave.1 := by
  unfold State.judgeLeave
  split
  case h_2 hl => exact .of_states rfl hl rfl rfl
  case h_3 hj => exact .of_states rfl hj rfl rfl
  case h_4 hm => exact .of_states rfl hm rfl rfl
  all_goals exact .refl s

theorem State.judge_moves (s : State) (i : Instr) : s.Moves (s.judge i).1 := by
  by_cases hstart : ∃ addr len eligible, i = .start addr len eligible
  · obtain ⟨addr, len, eligible, rfl⟩ := hstart
    exact s.judgeStart_moves addr len eligible
  · by_cases hjoin : i = .join
    · exact hjoin ▸ s.judgeJoin_moves
    · by_cases hleave : i = .leave
      · exact hleave ▸ s.judgeLeave_moves
      · obtain ⟨hc, -⟩ := s.judge_same i (by simpa using hstart) hjoin hleave
        exact .stays (by rw [hc]) (by rw [hc])

/-- The reply to a transaction is a matter of the host port (R172). -/
theorem State.reply_moves (s : State) (i : Instr) (words : List PortWord) : s.Moves (s.replyWith i words (s.judge i)) :=
  (s.judge_moves i).congr rfl rfl

theorem State.take_moves (s : State) (i : Instr) : s.MovesBy (.next (s.take i (s.judge i))) := by
  refine State.Moves.next ?_
  by_cases hreq : s.host.state = .request
  · rw [State.take_request hreq]
    exact s.reply_moves i _
  · rw [State.take_elsewhere hreq]
    exact .refl s

/-! ### Host port and resets (R170, R181 to R183) -/

theorem execRequestWordShiftedIn_moves (w : PortWord) (s : State) : s.MovesBy (execRequestWordShiftedIn w s) := by
  refine State.movesBy_ite fun _ => State.Moves.next ?_
  unfold State.wordIn
  split
  · exact .stays rfl rfl
  · exact s.reply_moves _ _

theorem State.shiftOut_moves (s : State) : s.Moves s.shiftOut := by
  unfold State.shiftOut
  split_ifs
  · exact .reset rfl
  · exact .stays rfl rfl

theorem execReplyWordShiftedOut_moves (s : State) : s.MovesBy (execReplyWordShiftedOut s) := by
  unfold execReplyWordShiftedOut
  split
  · exact State.Moves.next (.stays rfl rfl)
  · exact State.Moves.next (.stays rfl rfl)
  · exact s.shiftOut_moves.next

theorem execTargetSelectAsserted_moves (s : State) : s.MovesBy (execTargetSelectAsserted s) := by
  unfold execTargetSelectAsserted
  split_ifs <;> exact State.Moves.next (.stays rfl rfl)

theorem State.selectReleased_moves (s : State) : s.Moves s.selectReleased := by
  unfold State.selectReleased
  split_ifs
  · exact .reset rfl
  · exact .stays rfl rfl

theorem execResetPartTakesHold_moves (trigger : ResetTrigger) (s : State) : s.MovesBy (execResetPartTakesHold trigger s) := by
  cases trigger with
  | replyShiftedOut => exact State.movesBy_ite fun _ => s.shiftOut_moves.next
  | selectReleased => exact State.movesBy_ite fun _ => s.selectReleased_moves.next

/-! ### Every command -/

/-- Whatever command runs, the station controller moves as chapter 3 lists. -/
theorem exec_moves (c : Instr) (s : State) : s.MovesBy (exec c s) := by
  cases c with
  | undefinedHeader header => exact State.movesBy_ite fun _ => s.take_moves _
  | targetSelectAsserted => exact execTargetSelectAsserted_moves s
  | targetSelectReleased => exact s.selectReleased_moves.next
  | resetPartTakesHold trigger => exact execResetPartTakesHold_moves trigger s
  | resetLineAsserted => exact State.Moves.next (.reset rfl)
  | resetLineReleased => exact State.movesBy_ite fun _ => State.Moves.next (.reset rfl)
  | powerOnReset lineRate => exact State.Moves.next (.reset rfl)
  | huntingCandidate bits => exact execHuntingCandidate_moves bits s
  | listenWindowPasses => exact State.movesBy_ite fun _ => s.frameTimePassed_moves.next
  | listenWindowFrameTime => exact State.movesBy_ite fun _ => s.frameTimePassed_moves.next
  | markSlotStart => exact execMarkSlotStart_moves s
  | markSlotEnd heard => exact State.movesBy_ite fun he => State.endMarkSlot_movesBy he heard
  | candidateRule heard => exact execCandidateRule_moves heard s
  | escalation heard => exact execEscalation_moves heard s
  | joiningToListen heard => exact execJoiningToListen_moves heard s
  | rollSlotStart => exact State.movesBy_ite fun _ => State.Moves.next (.stays rfl rfl)
  | rollSlotEnd heard => exact State.movesBy_ite fun he => (State.endRollSlot_moves he heard).next
  | stationLost heard => exact execStationLost_moves heard s
  | claimSlotStart => exact execClaimSlotStart_moves s
  | claimSlotEnd heard => exact State.movesBy_ite fun he => (State.endClaimSlot_moves he heard).next
  | claimAging heard => exact execClaimAging_moves heard s
  | claimExpired heard => exact execClaimExpired_moves heard s
  | answerSlotStart => exact State.movesBy_ite fun _ => State.Moves.next (.stays rfl rfl)
  | answerSlotEnd heard => exact State.movesBy_ite fun he => (State.endAnswerSlot_moves he heard).next
  | answerDropped heard => exact execAnswerDropped_moves heard s
  | dataSlotStart => exact execDataSlotStart_moves s
  | tailResend => exact execTailResend_moves s
  | jobNoAnswer => exact execJobNoAnswer_moves s
  | dataSlotEnd heard => exact State.movesBy_ite fun he => State.dataFinish_moves he heard
  | slotLapsed heard => exact execSlotLapsed_moves heard s
  | windowStalled heard => exact execWindowStalled_moves heard s
  | requestWordShiftedIn word => exact execRequestWordShiftedIn_moves word s
  | replyWordShiftedOut => exact execReplyWordShiftedOut_moves s
  | _ => exact s.take_moves _

/-- Every step moves the station controller as chapter 3 lists; an empty queue leaves it. -/
theorem step_moves (h : step s = .next t) : s.Moves t := by
  unfold step at h
  split at h
  · cases h; exact .refl s
  · rename_i c rest _
    obtain ⟨hlisted, hconfigured⟩ := exec_moves c { s with pending := rest } t h
    exact ⟨hlisted, hconfigured⟩

end Sys2Proof.Machine

open Sys2Proof Sys2Proof.Machine

/-- Settles O20: every command moves the station state along chapter 3's table, an occurrence ending on the trunk or, in
LISTEN, in the founding slot 0. -/
theorem onlyListedTransitions : Obligations.OnlyListedTransitions := fun _ _ ha h => (step_moves h).listed ha

/-- Settles O21: START configures in OFF alone, and no other command but a reset touches the configuration. -/
theorem configurationStaysUntilReset : Obligations.ConfigurationStaysUntilReset := by
  intro s t c hne hc h
  have := (step_moves h).configured hne
  rwa [hc] at this

/-- Settles O17: the judgements of START and JOIN by their first line that applies. -/
theorem startAndJoinListen : Obligations.StartAndJoinListen := by
  refine ⟨fun s addr len eligible hreq hoff => ?start, fun s hreq => ⟨fun addr len eligible hne => ?startRefused,
    fun hne => ?joinRefused⟩, fun s hreq hd => ?join⟩
  case start =>
    have hexec : exec (.start addr len eligible) s =
        .next (s.replyWith (.start addr len eligible) (requestWords (.start addr len eligible))
          (s.judgeStart addr len eligible)) := congrArg _ (State.take_request hreq _ _)
    have hrange : startInRange addr len = true ↔ 1 ≤ addr ∧ addr ≤ 30 ∧ (len = 24 ∨ len = 48 ∨ len = 96) := by
      simp [startInRange, and_assoc, or_assoc]
    rw [hexec, State.judgeStart, if_neg (by simp [hoff])]
    by_cases hr : startInRange addr len = true
    · rw [if_neg (by simp [hr]), if_pos (hrange.mp hr)]
      rfl
    · rw [if_pos (by simpa using hr), if_neg fun h => hr (hrange.mpr h)]
      rfl
  case startRefused =>
    have hjudge : s.judgeStart addr len eligible = s.refuse .state := if_pos hne
    exact congrArg _ ((State.take_request hreq _ _).trans (congrArg _ hjudge))
  case joinRefused =>
    have hjudge : s.judgeJoin = s.refuse .state := if_neg hne
    exact congrArg _ ((State.take_request hreq _ _).trans (congrArg _ hjudge))
  case join =>
    have hjudge : s.judgeJoin = s.rejoined.doneWith .nothing := if_pos hd
    exact congrArg _ ((State.take_request hreq _ _).trans (congrArg _ hjudge))

/-- Settles O19: the entry into LEAVING, with the events of station controller, claim queue and bulk sender. -/
theorem leaveStartsLeaving : Obligations.LeaveStartsLeaving := by
  intro s hreq hm
  have hjudge : s.judgeLeave = (s.enterLeaving, .accepted .nothing) := by simp [State.judgeLeave, hm]
  have hstate : PostsOnly [.stateChanged] [s.stateChanged .leaving] := .singleton (List.mem_singleton.mpr rfl)
  have hclaims := claimsEndEvents_postsOnly s.timer.frame .leaving s.claims.records
  have hjobs := failLiveEvents_postsOnly .leaving s.timer.frame s.jobs
  have hexec : exec .leave s = .next (s.replyWith .leave (requestWords .leave) (s.enterLeaving, .accepted .nothing)) :=
    congrArg _ ((State.take_request hreq _ _).trans (congrArg _ hjudge))
  refine ⟨_, mergeAll s.happening 0 [[s.stateChanged .leaving], claimsEndEvents s.timer.frame .leaving s.claims.records,
    failLiveEvents .leaving s.timer.frame s.jobs],
    hexec, rfl, ?_, ?_, ?_, ?_⟩
  · exact (eventsOf_mergeAll _ (before := []) (by simp)
      (by simp [hclaims.eventsOf_eq_nil, hjobs.eventsOf_eq_nil]) 0).trans hstate.eventsOf_eq_self
  · exact (eventsOf_mergeAll _ (before := [_]) (by simp [hstate.eventsOf_eq_nil])
      (by simp [hjobs.eventsOf_eq_nil]) 0).trans hclaims.eventsOf_eq_self
  · exact (eventsOf_mergeAll _ (before := [_, _]) (by simp [hstate.eventsOf_eq_nil, hclaims.eventsOf_eq_nil])
      (by simp) 0).trans hjobs.eventsOf_eq_self
  · simp [mergeAll_length, claimsEndEvents, failLiveEvents, Nat.add_assoc]
end

