-- ==== Sys2Proof/Proofs/Ownership.lean ====
section
/-! Roles follow ownership: every operation on the allocation table and on the receive bindings keeps a role exactly where
self owns a slot, self's slots to MEMBER and LEAVING, four slots to a channel and no binding on an own slot (R41, R70, R85,
R117, R124). -/

namespace Sys2Proof.Machine

variable {s t u v : State} {o : Occurrence} {w : SlotWord} {n c : Nat} {e : SlotEntry} {bits : SlotBits}

/-! ### What the soundness of the table rests on -/

/-- The table and the receive channels of a state. -/
def State.ownership (s : State) : Bank SlotEntry 96 × Bank RxChannel 8 := (s.table, s.rx)

theorem State.ownership_eq_iff : v.ownership = u.ownership ↔ v.table = u.table ∧ v.rx = u.rx := by
  simp [State.ownership]

/-- Some receive channel has the binding. -/
def State.Binds (s : State) (b : Binding) : Prop := ∃ r ∈ s.rx.items, b ∈ r.binding

/-- Table soundness rests on the table, the bindings, the configuration and on whether own slots are served. -/
theorem State.tableOk_congr (h : u.tableOk) (ht : v.table = u.table) (hc : v.control.config = u.control.config)
    (hs : v.control.state.serving = false → u.control.state.serving = false) (hb : ∀ b, v.Binds b → u.Binds b) :
    v.tableOk := by
  have hself : v.self = u.self := by simp [State.self, hc]
  have hlen : v.len = u.len := by simp [State.len, hc]
  have hentry (n : Nat) : v.entry n = u.entry n := by simp [State.entry, ht]
  have hown (n : Nat) : v.isOwn n = u.isOwn n := by simp [State.isOwn, hentry, hself]
  obtain ⟨hentries, hoff, hbound, hbind⟩ := h
  refine ⟨fun n hn => ?_, fun hv n hn => ?_, fun c hc8 => ?_, fun r hr b hbr => ?_⟩
  · simpa only [State.entryOk, hentry, hown, hlen] using hentries n hn
  · rw [hown]; exact hoff (hs hv) n hn
  · simpa only [State.boundSlots, hentry, hlen] using hbound c hc8
  · obtain ⟨r', hr', hbr'⟩ := hb b ⟨r, hr, hbr⟩
    rw [hlen, hown]
    exact hbind r' hr' b hbr'

/-- An operation that leaves table, receive channels and station controller. -/
theorem State.tableOk_of_same (h : u.tableOk) (ho : v.ownership = u.ownership) (hc : v.control = u.control) : v.tableOk := by
  obtain ⟨ht, hr⟩ := State.ownership_eq_iff.mp ho
  exact State.tableOk_congr h ht (by rw [hc]) (by rw [hc]; exact id) (fun b => by simp only [State.Binds, hr, imp_self])

/-- A table of free slots, with bindings in the data region alone. -/
theorem State.tableOk_of_cleared (ht : v.table = Bank.fill 96 SlotEntry.reset)
    (hb : ∀ b, v.Binds b → isDataSlot v.len b.slot = true) : v.tableOk := by
  have hentry (n : Nat) : v.entry n = SlotEntry.reset := by rw [State.entry, ht, Bank.get_fill]
  have hown (n : Nat) : v.isOwn n = false := by rw [State.isOwn, hentry]; rfl
  have hbound (c : Nat) : v.boundSlots c = [] := by simp [State.boundSlots, hentry, SlotEntry.reset]
  refine ⟨fun n _ => ?_, fun _ n _ => hown n, fun c _ => by simp [hbound], fun r hr b hbr => ⟨hb b ⟨r, hr, hbr⟩, hown _⟩⟩
  rw [State.entryOk, hentry, hown]
  exact ⟨fun _ => rfl, by decide, by decide, by simp [SlotEntry.reset], by simp [SlotEntry.reset]⟩

/-- The table is cleared and the bindings stay (R50, R53). -/
theorem State.tableOk_clear (h : u.tableOk) (ht : v.table = Bank.fill 96 SlotEntry.reset) (hr : v.rx = u.rx)
    (hc : v.control.config = u.control.config) : v.tableOk := by
  refine State.tableOk_of_cleared ht fun b hb => ?_
  obtain ⟨r, hr', hbr⟩ := hb
  obtain ⟨-, -, -, hbind⟩ := h
  rw [State.len, hc]
  exact (hbind r (hr ▸ hr') b hbr).1

/-- Without bindings. -/
theorem State.tableOk_reset (ht : v.table = Bank.fill 96 SlotEntry.reset) (hr : v.rx = Bank.fill 8 RxChannel.reset) :
    v.tableOk := by
  refine State.tableOk_of_cleared ht fun b hb => ?_
  obtain ⟨r, hr', hbr⟩ := hb
  rw [hr, Bank.fill, List.mem_replicate] at hr'
  rw [hr'.2] at hbr
  cases hbr

/-! ### Writing an entry -/

/-- An entry of a data slot is sound (R70). -/
structure State.EntryFits (u : State) (e : SlotEntry) : Prop where
  silence : e.silence < 8
  corrupt : e.corrupt ≤ 255
  owner : ∀ k ∈ e.owner, 1 ≤ k ∧ k ≤ 30
  role : e.role.isSome ↔ e.owner = some u.self

theorem State.isOwn_iff : u.isOwn n = true ↔ (u.entry n).owner = some u.self := by simp [State.isOwn]

/-- A place that the table does not have is free. -/
theorem State.entry_out (u : State) (hn : ¬n < 96) : u.entry n = SlotEntry.reset := Bank.get_out _ _ _ (by omega)

/-- Every entry of a sound table is sound. -/
theorem State.entryFits (h : u.tableOk) (n : Nat) : u.EntryFits (u.entry n) := by
  by_cases hn : n < 96
  · obtain ⟨-, hsilence, hcorrupt, howner, hrole⟩ := h.1 n hn
    exact ⟨hsilence, hcorrupt, howner, hrole.trans State.isOwn_iff⟩
  · rw [u.entry_out hn]
    exact ⟨by decide, by decide, by simp [SlotEntry.reset], by simp [SlotEntry.reset]⟩

/-- An own slot is served, and no receive channel is bound to it (R41, R117). -/
theorem State.of_isOwn (h : u.tableOk) (ho : (u.entry n).owner = some u.self) :
    u.control.state.serving = true ∧ ∀ b, u.Binds b → b.slot ≠ n := by
  obtain ⟨-, hoff, -, hbind⟩ := h
  have hown : u.isOwn n = true := State.isOwn_iff.mpr ho
  refine ⟨?_, ?_⟩
  · by_contra hs
    have hn : n < 96 := by
      by_contra hn
      simp [u.entry_out hn, SlotEntry.reset] at ho
    simp [hoff (by simpa using hs) n hn] at hown
  · rintro b ⟨r, hr, hbr⟩ rfl
    simp [(hbind r hr b hbr).2] at hown

/-- A channel's slots after slot `n`'s entry was written: none is added but `n`. -/
theorem State.boundSlots_setEntry_subset (u : State) (n c : Nat) (e : SlotEntry) :
    (u.setEntry n e).boundSlots c ⊆ if e.role = some (.stream c) then n :: u.boundSlots c else u.boundSlots c := by
  intro m hm
  simp only [State.boundSlots, State.setEntry_len, State.entry_setEntry, List.mem_filter, beq_iff_eq] at hm
  obtain ⟨hd, hr⟩ := hm
  have hold (hr : (u.entry m).role = some (.stream c)) : m ∈ u.boundSlots c := by
    simp [State.boundSlots, hd, hr]
  by_cases hn : n = m ∧ n < 96
  · rw [if_pos hn] at hr
    rw [if_pos hr, hn.1]
    exact List.mem_cons_self ..
  · rw [if_neg hn] at hr
    split_ifs
    · exact List.mem_cons_of_mem _ (hold hr)
    · exact hold hr

theorem State.boundSlots_nodup (u : State) (c : Nat) : (u.boundSlots c).Nodup :=
  (List.nodup_range.filter _).filter _

/-- A channel keeps to four slots where a slot that joins it finds fewer (R85). -/
theorem State.boundSlots_setEntry_le (h : (u.boundSlots c).length ≤ 4)
    (hrole : e.role = some (.stream c) → (u.entry n).role = some (.stream c) ∨ (u.boundSlots c).length < 4) :
    ((u.setEntry n e).boundSlots c).length ≤ 4 := by
  have hnodup := (u.setEntry n e).boundSlots_nodup c
  have hsub := u.boundSlots_setEntry_subset n c e
  by_cases he : e.role = some (.stream c)
  · rcases hrole he with hold | hlt
    · refine (hnodup.subperm fun m hm => ?_).length_le.trans h
      simp only [State.boundSlots, State.setEntry_len, State.entry_setEntry, List.mem_filter, beq_iff_eq] at hm ⊢
      refine ⟨hm.1, ?_⟩
      have hr := hm.2
      split_ifs at hr with hc
      · rw [← hc.1]; exact hold
      · exact hr
    · rw [if_pos he] at hsub
      have := (hnodup.subperm hsub).length_le
      rw [List.length_cons] at this
      omega
  · rw [if_neg he] at hsub
    exact (hnodup.subperm hsub).length_le.trans h

/-- A sound entry written to a data slot keeps the table sound. -/
theorem State.tableOk_setEntry (h : u.tableOk) (hd : isDataSlot u.len n = true) (he : u.EntryFits e)
    (hown : e.owner = some u.self → u.control.state.serving = true ∧ ∀ b, u.Binds b → b.slot ≠ n)
    (hrole : ∀ c, e.role = some (.stream c) →
      (u.entry n).role = some (.stream c) ∨ (u.boundSlots c).length < 4) : (u.setEntry n e).tableOk := by
  obtain ⟨hentries, hoff, hbound, hbind⟩ := h
  have howner (m : Nat) : (u.setEntry n e).isOwn m = if n = m ∧ n < 96 then e.owner == some u.self else u.isOwn m := by
    rw [State.isOwn, State.setEntry_self, State.entry_setEntry]
    split_ifs <;> rfl
  refine ⟨fun m hm => ?_, fun hs m hm => ?_, fun c hc => State.boundSlots_setEntry_le (hbound c hc) (hrole c),
    fun r hr b hb => ?_⟩
  · rw [State.entryOk, howner, State.setEntry_len, State.entry_setEntry]
    split_ifs with hc
    · obtain ⟨rfl, -⟩ := hc
      exact ⟨by simp [hd], he.silence, he.corrupt, he.owner, he.role.trans (by simp)⟩
    · exact hentries m hm
  · rw [howner]
    split_ifs
    · by_contra ho
      have hserving := (hown (by simpa using ho)).1
      rw [show u.control.state.serving = false from hs] at hserving
      cases hserving
    · exact hoff hs m hm
  · obtain ⟨hdata, hnot⟩ := hbind r hr b hb
    refine ⟨hdata, ?_⟩
    rw [howner]
    split_ifs with hc
    · by_contra ho
      exact (hown (by simpa using ho)).2 b ⟨r, hr, hb⟩ hc.1.symm
    · exact hnot

/-- Owner and role stay: counts and the last heard kind of a data slot are written. -/
theorem State.tableOk_setEntry_counts (h : u.tableOk) (hd : isDataSlot u.len n = true) (howner : e.owner = (u.entry n).owner)
    (hrole : e.role = (u.entry n).role) (hsilence : e.silence < 8) (hcorrupt : e.corrupt ≤ 255) : (u.setEntry n e).tableOk := by
  have hfits := State.entryFits h n
  refine State.tableOk_setEntry h hd ⟨hsilence, hcorrupt, by rw [howner]; exact hfits.owner, by rw [howner, hrole]; exact hfits.role⟩
    (fun ho => State.of_isOwn h (howner ▸ ho)) (fun c hc => .inl (hrole ▸ hc))

/-- A data slot becomes free or a peer's, and has no role. -/
theorem State.tableOk_setEntry_peer (h : u.tableOk) (hd : isDataSlot u.len n = true) (hk : ∀ k ∈ e.owner, 1 ≤ k ∧ k ≤ 30)
    (hpeer : e.owner ≠ some u.self) (hrole : e.role = none) (hsilence : e.silence < 8) (hcorrupt : e.corrupt ≤ 255) :
    (u.setEntry n e).tableOk :=
  State.tableOk_setEntry h hd ⟨hsilence, hcorrupt, hk, by simp [hrole, hpeer]⟩ (fun ho => absurd ho hpeer)
    (fun c hc => by simp [hrole] at hc)

/-- The slot-loss notice is a matter of the job table (R81). -/
@[simp] theorem State.ownership_lossNotice (s : State) (r : Option Role) (n : Nat) :
    (s.lossNotice r n).ownership = s.ownership := by
  rw [State.lossNotice_eq]; rfl

theorem State.tableOk_lossNotice (h : u.tableOk) (r : Option Role) (n : Nat) : (u.lossNotice r n).tableOk :=
  State.tableOk_of_same h (u.ownership_lossNotice r n) (State.front_eq_iff.mp (u.front_lossNotice r n)).1

/-- A slot is freed (R73). -/
theorem State.tableOk_freeSlot (h : u.tableOk) (hd : isDataSlot u.len n = true) : (u.freeSlot n).tableOk := by
  have hfreed : (u.setEntry n (u.entry n).freed).tableOk :=
    State.tableOk_setEntry_peer h hd (by simp [SlotEntry.freed]) (by simp [SlotEntry.freed]) rfl (by simp [SlotEntry.freed])
      (State.entryFits h n).corrupt
  exact State.tableOk_lossNotice hfreed _ _

/-- Every slot of a peer is freed (R63, R65). -/
theorem State.tableOk_freeAllOf (h : u.tableOk) (a : Nat) : (u.freeAllOf a).tableOk := by
  have hentry (n : Nat) : (u.freeAllOf a).entry n = if (u.entry n).owner = some a then (u.entry n).freed else u.entry n :=
    Bank.get_map _ _ _ _ (by simp [SlotEntry.reset])
  have hown (n : Nat) (hf : u.isOwn n = false) : (u.freeAllOf a).isOwn n = false := by
    rw [State.isOwn, hentry, State.freeAllOf_self]
    split_ifs
    · rfl
    · exact hf
  obtain ⟨hentries, hoff, hbound, hbind⟩ := h
  refine ⟨fun n hn => ?_, fun hs n hn => hown n (hoff hs n hn), fun c hc => ?_, fun r hr b hb =>
    ⟨(hbind r hr b hb).1, hown _ (hbind r hr b hb).2⟩⟩
  · obtain ⟨hreset, hsilence, hcorrupt, howner, hrole⟩ := hentries n hn
    rw [State.entryOk, State.isOwn, State.freeAllOf_self, State.freeAllOf_len, hentry]
    split_ifs with hc
    · refine ⟨fun hd => ?_, by simp [SlotEntry.freed], hcorrupt, by simp [SlotEntry.freed], by simp [SlotEntry.freed]⟩
      simp [hreset hd, SlotEntry.reset] at hc
    · exact ⟨hreset, hsilence, hcorrupt, howner, hrole⟩
  · refine (((u.freeAllOf a).boundSlots_nodup c).subperm fun m hm => ?_).length_le.trans (hbound c hc)
    simp only [State.boundSlots, State.freeAllOf_len, hentry, List.mem_filter, beq_iff_eq] at hm ⊢
    refine ⟨hm.1, ?_⟩
    have hr := hm.2
    split_ifs at hr
    · cases hr
    · exact hr

/-! ### Writing a receive channel -/

/-- A channel that is written is bound to a data slot that is not own, or not at all (R118). -/
theorem State.tableOk_setRx (h : u.tableOk) {r : RxChannel}
    (hr : ∀ b ∈ r.binding, isDataSlot u.len b.slot = true ∧ u.isOwn b.slot = false) : (u.setRx c r).tableOk := by
  obtain ⟨hentries, hoff, hbound, hbind⟩ := h
  exact ⟨hentries, hoff, hbound, Bank.forall_set hbind hr⟩

/-- Every channel of a sound state is bound so. -/
theorem State.rxAt_binding (h : u.tableOk) (c : Nat) :
    ∀ b ∈ (u.rxAt c).binding, isDataSlot u.len b.slot = true ∧ u.isOwn b.slot = false := by
  by_cases hc : c < 8
  · obtain ⟨-, -, -, hbind⟩ := h
    exact (Bank.forall_items u.rx _ RxChannel.reset).mp hbind c hc
  · rw [State.rxAt, Bank.get_out _ _ _ (by omega)]
    simp [RxChannel.reset]

/-- What a channel hears leaves its binding (R120, R121). -/
@[simp] theorem RxChannel.hear_binding (r : RxChannel) (o : Occurrence) : (r.hear o).binding = r.binding := by
  unfold RxChannel.hear
  split
  · rfl
  · split_ifs
    · split
      · unfold RxChannel.add
        split_ifs <;> rfl
      · rfl
      · rfl
    · rfl

/-- Channels that are written through a map bind what they bound, or less. -/
theorem State.binds_of_map {f : RxChannel → RxChannel} (hf : ∀ r, ∀ b ∈ (f r).binding, b ∈ r.binding)
    (hv : v.rx = u.rx.map f) (b : Binding) (hb : v.Binds b) : u.Binds b := by
  obtain ⟨r, hr, hbr⟩ := hb
  rw [hv] at hr
  obtain ⟨r', hr', rfl⟩ := List.mem_map.mp hr
  exact ⟨r', hr', hf r' b hbr⟩

/-- The receive channels hear a data slot. -/
theorem State.tableOk_hear (h : u.tableOk) (o : Occurrence) : ({ u with rx := u.rx.map (fun r => r.hear o) } : State).tableOk :=
  State.tableOk_congr h rfl rfl id (State.binds_of_map (u := u) (f := fun r => r.hear o) (by simp) rfl)

/-- Some of them may hear it before a fault (R54). -/
theorem State.tableOk_hearBeforeFault (h : u.tableOk) (o : Occurrence) : (u.hearBeforeFault o).tableOk := by
  have hear (cs : List Nat) : ∀ t : State, t.tableOk → t.control = u.control → t.table = u.table →
      (cs.foldl (fun t c => if u.choice (4104 + c) then t.setRx c ((u.rxAt c).hear o) else t) t).tableOk := by
    induction cs with
    | nil => exact fun _ ht _ _ => ht
    | cons c cs ih =>
      intro t ht hc htable
      have hown (n : Nat) : t.isOwn n = u.isOwn n := by
        simp only [State.isOwn, State.entry, htable, State.self_congr hc]
      rw [List.foldl_cons]
      split_ifs
      · refine ih _ (State.tableOk_setRx ht ?_) hc htable
        simpa only [RxChannel.hear_binding, State.len_congr hc, hown] using State.rxAt_binding h c
      · exact ih _ ht hc htable
  exact hear channelIds u h rfl rfl

/-! ### Session ends, and the passage to the next occurrence -/

theorem State.tableOk_enterFault (h : u.tableOk) (cause : FaultCause) : (u.enterFault cause).tableOk :=
  State.tableOk_clear h rfl rfl rfl

theorem State.tableOk_enterDetached (h : u.tableOk) (others : List (List Event)) : (u.enterDetached others).tableOk :=
  State.tableOk_clear h rfl rfl rfl

/-- Posting and passing on leave the table (R17, R177). -/
theorem State.tableOk_passOn (h : u.tableOk) (o : Occurrence) : (u.passOn o).nextHappening.tableOk := by
  obtain ⟨_, _, heq, hst, hc, -⟩ := u.passOn_eq o
  rw [heq]
  exact State.tableOk_congr h rfl hc (by rw [State.nextHappening_control, hst]; exact id) (fun _ => id)

/-- The end of an occurrence whose blocks have kept the table sound. -/
theorem State.tableOk_ends (h : u.tableOk) (base : Nat) (gs : List (List Event)) (o : Occurrence) :
    ((u.postGroups base gs).passOn o).nextHappening.tableOk := State.tableOk_passOn (u := u.postGroups base gs) h o

/-! ### Slot 0 -/

/-- The frame timer's outcomes of slot 0 are its own (R24, R26, R27). -/
theorem State.ownership_holderEnd (u : State) (o : Occurrence) : (u.holderEnd o).1.ownership = u.ownership := by
  unfold State.holderEnd
  split_ifs
  · split
    · split_ifs <;> rfl
    · rfl
  · rfl

theorem State.ownership_missMark (u : State) : u.missMark.1.ownership = u.ownership := by
  rcases u.missMark_cases with h | h <;> rw [h] <;> rfl

/-- From LISTEN, where no slot is served, the station joins with its table as it is. -/
theorem State.tableOk_ofListen (h : u.tableOk) (hl : u.control.state = .listen) (ho : v.ownership = u.ownership)
    (hc : v.control.config = u.control.config) : v.tableOk := by
  obtain ⟨ht, hr⟩ := State.ownership_eq_iff.mp ho
  exact State.tableOk_congr h ht hc (fun _ => by rw [hl]; rfl) (fun b => by simp only [State.Binds, hr, imp_self])

theorem State.tableOk_foundingEnd (h : u.tableOk) (hl : u.control.state = .listen) (o : Occurrence) :
    (u.foundingEnd o).tableOk := by
  unfold State.foundingEnd
  split_ifs
  · split
    · exact State.tableOk_ofListen h hl rfl rfl
    · exact State.tableOk_ofListen h hl rfl rfl
  · exact State.tableOk_ofListen h hl rfl rfl

theorem State.tableOk_markEnd (h : u.tableOk) (o : Occurrence) : (u.markEnd o).tableOk := by
  unfold State.markEnd
  split
  · exact State.tableOk_passOn (u := (u.holderEnd o).1.postAll _)
      (State.tableOk_of_same h (u.ownership_holderEnd o) (u.control_holderEnd o)) o
  · split
    · exact State.tableOk_passOn (u := (u.follow _).postAll _) h o
    · split_ifs
      · exact State.tableOk_clear h rfl rfl rfl
      · exact State.tableOk_ends (State.tableOk_of_same h u.ownership_missMark u.control_missMark) _ _ o

theorem State.tableOk_endMarkSlot (h : s.tableOk) (bits : SlotBits) : (s.endMarkSlot bits).tableOk := by
  unfold State.endMarkSlot
  dsimp only
  split
  · exact State.tableOk_enterFault (u := (s.portEnd bits).postAll _) h _
  · split_ifs with hl
    · exact State.tableOk_foundingEnd (u := s.portEnd bits) h hl _
    · exact State.tableOk_markEnd (u := s.portEnd bits) h _

/-! ### Slot 1 -/

/-- A peer that leaves or is dropped loses its slots (R63, R65). -/
theorem State.tableOk_peerTurn (h : u.tableOk) (o : Occurrence) (a : Nat) : (u.peerTurn o a).1.tableOk := by
  unfold State.peerTurn
  split
  · split_ifs
    · exact State.tableOk_freeAllOf (u := u.setRoster a _) h a
    · exact h
  · unfold State.rollMissed
    split_ifs
    · exact h
    · exact State.tableOk_freeAllOf (u := u.setRoster a _) h a
    · exact h

/-- A JOINING station owns no slot yet when it becomes a MEMBER (R41, R43). -/
theorem State.tableOk_rollTurn (h : u.tableOk) (o : Occurrence) : (u.rollTurn o).1.tableOk := by
  unfold State.rollTurn
  split_ifs
  · unfold State.ownTurn
    split
    · split
      · exact State.tableOk_congr h rfl rfl (by simp [State.toMember, StationState.serving]) (fun _ => id)
      all_goals exact h
    · exact h
    · exact h
  · exact State.tableOk_peerTurn h o _

theorem State.ownership_rollTimer (u : State) (o : Occurrence) : (u.rollTimer o).1.ownership = u.ownership := by
  rcases u.rollTimer_cases o with h | h | h <;> simp only [h] <;> rfl

theorem State.tableOk_rollEnd (h : u.tableOk) (o : Occurrence) : (u.rollEnd o).tableOk :=
  State.tableOk_ends (State.tableOk_of_same (State.tableOk_rollTurn h o) (State.ownership_rollTimer ..)
    (State.control_rollTimer ..)) _ _ o

/-- A LEAVING station detaches with its table cleared (R49, R50). -/
theorem State.tableOk_leaveTrunk (h : u.tableOk) (hl : u.leavesNow o = true) : (u.leaveTrunk o).tableOk := by
  have hst : u.control.state = .leaving := by
    simp only [State.leavesNow, Bool.and_eq_true, beq_iff_eq] at hl
    exact hl.1
  obtain ⟨_, _, heq, -⟩ := u.leaveTrunk_eq hst o
  rw [heq]
  exact State.tableOk_clear h rfl rfl rfl

theorem State.tableOk_endRollSlot (h : s.tableOk) (bits : SlotBits) : (s.endRollSlot bits).tableOk := by
  unfold State.endRollSlot
  dsimp only
  split
  · exact State.tableOk_enterFault (u := (s.portEnd bits).postAll _) h _
  · split_ifs with hl
    · exact State.tableOk_leaveTrunk (u := s.portEnd bits) h hl
    · exact State.tableOk_rollEnd (u := s.portEnd bits) h _

/-! ### Slot 2 -/

/-- A heard CLAIM word gives a free data slot (R104, R105). -/
theorem State.givenSlot_eq_some (h : u.givenSlot w = some n) : isDataSlot u.len n = true ∧ (u.entry n).owner = none := by
  unfold State.givenSlot at h
  split_ifs at h with _ hfree
  · obtain rfl := Option.some.inj h
    exact hfree
  · have hp := List.find?_some h
    have hm := List.mem_of_find?_eq_some h
    simp only [dataSlots, List.mem_filter, List.mem_range, decide_eq_true_eq] at hm
    exact ⟨by simp [isDataSlot, hm], by simpa using hp⟩

/-- It releases a data slot (R106). -/
theorem State.releasedSlot_eq_some (h : u.releasedSlot w = some n) : isDataSlot u.len n = true := by
  unfold State.releasedSlot at h
  split_ifs at h with hc
  obtain rfl := Option.some.inj h
  exact hc.2.1

/-- A free slot has no role. -/
theorem State.role_of_free (h : u.tableOk) (hfree : (u.entry n).owner = none) : (u.entry n).role = none := by
  by_contra hr
  have := (State.entryFits h n).role.mp (Option.isSome_iff_ne_none.mpr hr)
  simp [hfree] at this

/-- A slot granted to self takes STREAM(c) where the channel has fewer than four (R80). -/
theorem State.grantRole_stream {role : Option Role} (h : u.grantRole role = .stream c) : (u.boundSlots c).length < 4 := by
  unfold State.grantRole at h
  split at h
  · cases h
  · split_ifs at h with hlt
    cases h
    exact hlt
  · cases h
  · cases h

/-- The binding that named slot `n` is gone (R124). -/
theorem RxChannel.unbindFrom_binding (n : Nat) (r : RxChannel) :
    ∀ b ∈ (r.unbindFrom n).binding, b ∈ r.binding ∧ b.slot ≠ n := by
  intro b hb
  unfold RxChannel.unbindFrom at hb
  split_ifs at hb with hc
  · cases hb
  · refine ⟨hb, fun hn => hc ?_⟩
    rw [Option.mem_def.mp hb]
    exact congrArg some hn

/-- A free slot is granted to a station that serves own slots (R80, R108, R124). -/
theorem State.tableOk_grantSelf (h : u.tableOk) (hg : u.givenSlot w = some n) (hs : u.control.state.serving = true)
    (hself : 1 ≤ u.self ∧ u.self ≤ 30) (role : Option Role) : (u.grantSelf n role).1.tableOk := by
  obtain ⟨hd, -⟩ := State.givenSlot_eq_some hg
  have hunbound : ({ u with rx := u.rx.map (RxChannel.unbindFrom n) } : State).tableOk :=
    State.tableOk_congr h rfl rfl id
      (State.binds_of_map (fun r b hb => (RxChannel.unbindFrom_binding n r b hb).1) rfl)
  refine State.tableOk_setEntry (u := { u with rx := u.rx.map (RxChannel.unbindFrom n) })
    (e := { u.entry n with owner := some u.self, silence := 0, role := some (u.grantRole role) }) hunbound hd
    ⟨by simp, (State.entryFits h n).corrupt, by rintro k ⟨⟩; exact hself, iff_of_true rfl rfl⟩ (fun _ => ⟨hs, ?_⟩)
    (fun c hc => .inr (State.grantRole_stream (Option.some.inj hc)))
  rintro b ⟨r, hr, hb⟩
  obtain ⟨r', -, rfl⟩ := List.mem_map.mp hr
  exact (RxChannel.unbindFrom_binding n r' b hb).2

/-- A free slot is given to a peer (R88). -/
theorem State.tableOk_grantPeer (h : u.tableOk) (hg : u.givenSlot w = some n) (hpeer : w.sender ≠ u.self)
    (hw : 1 ≤ w.sender ∧ w.sender ≤ 30) : (u.grantPeer n w.sender).tableOk := by
  obtain ⟨hd, hfree⟩ := State.givenSlot_eq_some hg
  exact State.tableOk_setEntry_peer h hd (by rintro k ⟨⟩; exact hw) (by simpa using hpeer) (State.role_of_free h hfree)
    (by simp) (State.entryFits h n).corrupt

/-- What self's own applied word was: SENT. -/
theorem State.appliedClaim_eq_some (h : u.appliedClaim o = some w) :
    o.heard.acceptable .claim = some w ∧ (w.sender = u.self → o.outcome = some .sent) := by
  unfold State.appliedClaim at h
  split at h
  · cases h
  · rename_i x hx
    split_ifs at h with hc
    obtain rfl := Option.some.inj h
    exact ⟨hx, fun hself => by_contra fun ho => hc ⟨hself, ho⟩⟩

/-- The heard CLAIM word is applied; self's own was sent by a station that serves (R104 to R108). -/
theorem State.tableOk_applyClaim (h : u.tableOk) (ho : o.OfBits)
    (hs : o.outcome = some .sent → u.control.state.serving = true) (role : Option Role) : (u.applyClaim o role).1.tableOk := by
  unfold State.applyClaim
  split
  · exact h
  · rename_i w hw
    obtain ⟨hacc, hsent⟩ := State.appliedClaim_eq_some hw
    obtain ⟨bits, hbits⟩ := ho
    have hrange := classify_sender (hbits ▸ (Heard.acceptable_eq_some.mp hacc).1)
    split
    · rename_i n hn
      split_ifs with hself
      · exact State.tableOk_grantSelf h hn (hs (hsent hself)) (hself ▸ hrange) role
      · exact State.tableOk_grantPeer h hn hself hrange
    · split
      · rename_i n hn
        exact State.tableOk_freeSlot h (State.releasedSlot_eq_some hn)
      · exact h

/-- The outcome of the contending head is a matter of the claim queue (R100 to R102). -/
theorem State.ownership_claimOutcome (u : State) (o : Occurrence) (given : Option Nat) :
    (u.claimOutcome o given).1.ownership = u.ownership := by
  cases h : u.contendingHead with
  | none => rw [State.claimOutcome_of_none h]; rfl
  | some r => rw [State.claimOutcome_of_some h]; rfl

theorem State.tableOk_claimOutcome (h : u.tableOk) (o : Occurrence) (given : Option Nat) :
    (u.claimOutcome o given).1.tableOk :=
  State.tableOk_of_same h (u.ownership_claimOutcome o given) (State.front_eq_iff.mp (u.front_claimOutcome o given).1).1

/-- A word of self past slot 1 was sent by a station that serves (R38). -/
theorem State.serving_of_sent (h : s.stationOk) (hon : s.control.state.onTrunk = true) {p : Nat} (hp : s.passes p)
    (h2 : 2 ≤ p) (hw : s.port.word.isSome) : s.control.state.serving = true := by
  obtain ⟨-, -, -, -, hword, -⟩ := h
  obtain ⟨-, -, hjoining⟩ := hword hw
  rw [StationState.onTrunk_iff] at hon
  rcases hon with hj | hm | hl
  · have := hjoining hj
    obtain ⟨-, -, hposition⟩ := hp
    simp only [hposition, Option.some.injEq] at this
    omega
  · rw [hm]; rfl
  · rw [hl]; rfl

theorem State.tableOk_endClaimSlot (hst : s.stationOk) (h : s.tableOk) (he : s.claimEnds = true) (bits : SlotBits) :
    (s.endClaimSlot bits).tableOk := by
  obtain ⟨he, hon⟩ := Bool.and_eq_true_iff.mp he
  obtain ⟨p, hp, h2⟩ := State.passes_of_endsAt he
  have h2 : p = 2 := by simpa using h2
  have hserving (ho : (s.occurrence bits).outcome = some .sent) : s.control.state.serving = true :=
    State.serving_of_sent hst hon hp h2.ge (by by_contra hw; simp_all)
  unfold State.endClaimSlot
  dsimp only
  split
  · refine State.tableOk_enterFault ?_ _
    unfold State.claimBeforeFault
    split_ifs
    · exact State.tableOk_claimOutcome (u := s.portEnd bits) h _ _
    · exact h
  · exact State.tableOk_ends (State.tableOk_claimOutcome
      (State.tableOk_applyClaim (u := s.portEnd bits) h (s.occurrence_ofBits bits) hserving _) _ _) _ _ _

/-! ### Slot 3 -/

theorem State.ownership_answerOutcome (u : State) (o : Occurrence) : (u.answerOutcome o).1.ownership = u.ownership := by
  unfold State.answerOutcome
  split
  · rfl
  · split_ifs <;> rfl

theorem State.ownership_applyAnswer (u : State) (o : Occurrence) : (u.applyAnswer o).1.ownership = u.ownership := by
  unfold State.applyAnswer
  split <;> rfl

theorem State.tableOk_endAnswerSlot (h : s.tableOk) (bits : SlotBits) : (s.endAnswerSlot bits).tableOk := by
  unfold State.endAnswerSlot
  dsimp only
  split
  · exact State.tableOk_enterFault (u := (s.portEnd bits).postAll _) h _
  · have hown := State.tableOk_of_same (u := s.portEnd bits) h (State.ownership_answerOutcome _ (s.occurrence bits))
      (State.front_eq_iff.mp (State.front_answerOutcome ..).1).1
    have hheard := State.tableOk_of_same hown (State.ownership_applyAnswer _ (s.occurrence bits))
      (State.front_eq_iff.mp (State.front_applyAnswer ..).1).1
    unfold State.answerEnd
    dsimp only
    split_ifs
    · exact State.tableOk_ends hheard _ _ _
    · exact State.tableOk_ends hown _ _ _

/-! ### The start of a data slot -/

theorem State.ownership_arbitrate (u : State) (n : Nat) : (u.arbitrate n).1.ownership = u.ownership := by
  unfold State.arbitrate
  cases u.oldestQueued <;> rfl

theorem State.ownership_bulkSupply (u : State) (n : Nat) : (u.bulkSupply n).1.ownership = u.ownership := by
  unfold State.bulkSupply
  split
  · exact u.ownership_arbitrate n
  · split_ifs
    · rfl
    · rfl
    · exact State.ownership_arbitrate _ n
    · rfl

theorem State.ownership_streamSupply (u : State) (c n : Nat) : (u.streamSupply c n).1.ownership = u.ownership := by
  unfold State.streamSupply
  split <;> rfl

/-- The supplier of an own slot is the block of its role (R77). -/
theorem State.ownership_supply (u : State) (n : Nat) : (u.supply n).1.ownership = u.ownership := by
  unfold State.supply
  split
  · exact u.ownership_streamSupply _ n
  · exact u.ownership_bulkSupply n
  · rfl
  · rfl

theorem State.tableOk_startDataSlot (h : s.tableOk) (n : Nat) : (s.startDataSlot n).tableOk := by
  refine State.tableOk_of_same h ?_ (s.control_startDataSlot n)
  unfold State.startDataSlot
  split_ifs
  · exact s.ownership_supply n
  · rfl

/-! ### The end of a data slot -/

/-- What the table needs to know of an occurrence of a data slot in which no fault is found (R52): a peer's word where self
did not send or was displaced, and in the observation frame self sends nothing and owns nothing (R41). -/
structure State.DataHeard (u : State) (o : Occurrence) : Prop where
  ofBits : o.OfBits
  data : isDataSlot u.len o.slot = true
  peer : (o.outcome = none ∨ o.outcome = some .displaced) → ∀ w, o.heard = .valid w → w.sender ≠ u.self
  observing : u.control.observing = true → o.outcome = none ∧ u.control.state.serving = false

/-- It rests on configuration and station controller. -/
theorem State.DataHeard.congr (h : u.DataHeard o) (hc : v.control = u.control) : v.DataHeard o :=
  ⟨h.ofBits, by rw [State.len_congr hc]; exact h.data, by rw [State.self_congr hc]; exact h.peer, by rw [hc]; exact h.observing⟩

/-- A heard data-kind word is VALID. -/
theorem Heard.dataKind_eq_some {h : Heard} (hw : h.dataKind = some w) : h = .valid w ∧ w.kind.isDataKind = true := by
  unfold Heard.dataKind at hw
  split at hw
  · split_ifs at hw with hk
    obtain rfl := Option.some.inj hw
    exact ⟨rfl, hk⟩
  · cases hw
  · cases hw

/-- Steps 1 and 2 of R74 write counts and the last heard kind. -/
theorem State.tableOk_noted (h : u.tableOk) (hd : u.DataHeard o) : (u.setEntry o.slot ((u.entry o.slot).noted o)).tableOk := by
  have hfits := State.entryFits h o.slot
  refine State.tableOk_setEntry_counts h hd.data rfl rfl hfits.silence ?_
  unfold SlotEntry.noted
  dsimp only
  split_ifs
  · exact satSucc_le hfits.corrupt
  · exact hfits.corrupt

/-- The observation frame records a peer or none (R83). -/
theorem State.tableOk_recorded (h : u.tableOk) (hd : u.DataHeard o) (ho : u.control.observing = true) :
    (u.setEntry o.slot ((u.entry o.slot).recorded o)).tableOk := by
  obtain ⟨hnone, hserving⟩ := hd.observing ho
  have hrole : (u.entry o.slot).role = none := by
    by_contra hr
    have hown := (State.entryFits h o.slot).role.mp (Option.isSome_iff_ne_none.mpr hr)
    rw [(State.of_isOwn h hown).1] at hserving
    cases hserving
  refine State.tableOk_setEntry_peer h hd.data ?_ ?_ hrole (by simp [SlotEntry.recorded]) (State.entryFits h o.slot).corrupt
  · intro k hk
    obtain ⟨w, hw, rfl⟩ := Option.map_eq_some_iff.mp (Option.mem_def.mp hk)
    exact hd.ofBits.sender_of_dataKind hw
  · intro hk
    obtain ⟨w, hw, hself⟩ := Option.map_eq_some_iff.mp hk
    exact hd.peer (.inl hnone) w (Heard.dataKind_eq_some hw).1 hself

/-- Step 4 of R74: a silence run short of the lapse, or the lapse (R75). -/
theorem State.tableOk_silenceStep (h : u.tableOk) (hd : u.DataHeard o) : (u.silenceStep o).1.tableOk := by
  have hfits := State.entryFits h o.slot
  unfold State.silenceStep
  dsimp only
  split
  · exact h
  · split_ifs with _ hlt
    · exact State.tableOk_setEntry_counts h hd.data rfl rfl hlt hfits.corrupt
    · exact State.tableOk_freeSlot h hd.data
    · exact State.tableOk_setEntry_counts h hd.data rfl rfl (by simp) hfits.corrupt

/-- A stray word is counted in the roster (R67). -/
theorem State.tableOk_countStray (h : u.tableOk) (k : Nat) : (u.countStray k).tableOk := h

/-- Step 5: a slot that is not own may become a peer's (R76). -/
theorem State.tableOk_correct (h : u.tableOk) (hd : u.DataHeard o) : (u.correct o).1.tableOk := by
  have hfits := State.entryFits h o.slot
  unfold State.correct
  split
  · exact h
  · rename_i w hw
    dsimp only
    split_ifs with hkeep
    · exact h
    · obtain ⟨-, hpeer, hother⟩ : _ ∧ w.sender ≠ u.self ∧ (u.entry o.slot).owner ≠ some u.self := by simpa using hkeep
      have hrole : (u.entry o.slot).role = none := by
        by_contra hr
        exact hother (hfits.role.mp (Option.isSome_iff_ne_none.mpr hr))
      exact State.tableOk_setEntry_peer h hd.data (by rintro k ⟨⟩; exact hd.ofBits.sender_of_dataKind hw)
        (by simpa using hpeer) hrole (by simp) hfits.corrupt
    · exact State.tableOk_countStray h _

/-- Step 6: a displaced own slot becomes the peer's or free (R79). -/
theorem State.tableOk_loseSlot (h : u.tableOk) (hd : u.DataHeard o) (ho : o.outcome = some .displaced) :
    (u.loseSlot o).1.tableOk := by
  unfold State.loseSlot
  dsimp only
  split
  · exact State.tableOk_freeSlot h hd.data
  · rename_i w hw
    have hpeer := hd.peer (.inr ho) w (Heard.dataKind_eq_some hw).1
    split_ifs
    · refine State.tableOk_lossNotice (u := u.setEntry o.slot _) ?_ _ _
      exact State.tableOk_setEntry_peer h hd.data (by rintro k ⟨⟩; exact hd.ofBits.sender_of_dataKind hw)
        (by simpa using hpeer) rfl (by simp) (State.entryFits h o.slot).corrupt
    · exact State.tableOk_countStray (State.tableOk_freeSlot h hd.data) _

theorem State.tableOk_ownerSteps (h : u.tableOk) (hd : u.DataHeard o) : (u.ownerSteps o).1.tableOk := by
  have h1 := State.tableOk_silenceStep h hd
  have hd1 : (u.silenceStep o).1.DataHeard o := hd.congr (State.front_eq_iff.mp (u.front_silenceStep o).1).1
  unfold State.ownerSteps
  split
  · exact State.tableOk_correct h1 hd1
  · rename_i ho
    split_ifs
    · exact State.tableOk_loseSlot h1 hd1 ho
    · exact h1
  · exact h1
  · exact h1

theorem State.tableOk_tableEnd (h : u.tableOk) (hd : u.DataHeard o) : (u.tableEnd o).1.tableOk := by
  have h1 := State.tableOk_noted h hd
  have hd1 : (u.setEntry o.slot ((u.entry o.slot).noted o)).DataHeard o := hd.congr rfl
  unfold State.tableEnd
  dsimp only
  split_ifs with ho
  · exact State.tableOk_recorded h1 hd1 ho
  · exact State.tableOk_ownerSteps h1 hd1

/-- PRESENT marking is a matter of the roster (R66). -/
theorem State.ownership_markPresent (u : State) (o : Occurrence) : (u.markPresent o).1.ownership = u.ownership := by
  unfold State.markPresent
  split_ifs
  · split
    · rfl
    · split_ifs <;> rfl
  · rfl

theorem State.tableOk_markPresent (h : u.tableOk) (o : Occurrence) : (u.markPresent o).1.tableOk :=
  State.tableOk_of_same h (u.ownership_markPresent o) (State.front_eq_iff.mp (u.front_markPresent o)).1

/-- Roster and table in either order (R67). -/
theorem State.tableOk_rosterAndTable (h : u.tableOk) (hd : u.DataHeard o) : (u.rosterAndTable o).1.tableOk := by
  unfold State.rosterAndTable
  split_ifs
  · exact State.tableOk_tableEnd (State.tableOk_markPresent h o)
      (hd.congr (State.front_eq_iff.mp (u.front_markPresent o)).1)
  · exact State.tableOk_markPresent (State.tableOk_tableEnd h hd) o

/-- What the windows do one after the other leaves table and receive channels. -/
theorem State.ownership_windowsEnd (u : State) (o : Occurrence) : (u.windowsEnd o).ownership = u.ownership := by
  have acts (ns : List Nat) : ∀ t : State,
      (ns.foldl (fun t n => t.applyAct n (u.windowAct o n)) t).ownership = t.ownership := by
    induction ns with
    | nil => exact fun t => rfl
    | cons n ns ih => exact fun t => (ih _).trans rfl
  exact acts windowIds u

theorem State.tableOk_dataEnd (h : u.tableOk) (hd : u.DataHeard o) : (u.dataEnd o).tableOk := by
  have hheard := State.tableOk_hear (State.tableOk_rosterAndTable h hd) o
  unfold State.dataEnd
  dsimp only
  split_ifs
  · exact State.tableOk_ends (State.tableOk_of_same hheard (State.ownership_windowsEnd ..)
      (State.front_eq_iff.mp (State.front_windowsEnd ..).1).1) _ _ o
  · exact State.tableOk_ends hheard _ _ o

/-- An occurrence of a data slot in a sound state, no fault found. -/
theorem State.dataHeard_of_noFault (hst : s.stationOk) (he : s.dataEnds = true) (hf : s.faultIn (s.occurrence bits) = none) :
    (s.portEnd bits).DataHeard (s.occurrence bits) := by
  obtain ⟨he, hon⟩ := Bool.and_eq_true_iff.mp he
  obtain ⟨p, hp, hdata⟩ := State.passes_of_endsAt he
  have hslot : (s.occurrence bits).slot = p := State.occurrence_slot_of_passes hp bits
  have h4 : 4 ≤ p := by
    simp only [isDataSlot, Bool.and_eq_true, decide_eq_true_eq] at hdata
    exact hdata.1
  refine ⟨s.occurrence_ofBits bits, by rw [hslot]; exact hdata, fun ho w hw hself => ?_, fun hobs => ?_⟩
  · rw [State.faultIn_duplicate (s := s) hw hself ho] at hf
    cases hf
  · have hj : s.control.state = .joining := by
      obtain ⟨⟨-, -, -, -, hobserving⟩, -⟩ := hst
      exact (hobserving hobs).1
    refine ⟨?_, by rw [State.portEnd_control, hj]; rfl⟩
    by_contra hsent
    have hw : s.port.word.isSome := by
      by_contra hw
      simp_all
    have := State.serving_of_sent hst hon hp (by omega) hw
    rw [hj] at this
    cases this

theorem State.tableOk_dataFinish (hst : s.stationOk) (h : s.tableOk) (he : s.dataEnds = true)
    (ht : s.dataFinish bits = .next t) : t.tableOk := by
  rw [State.dataFinish_next ht]
  cases hf : s.faultIn (s.occurrence bits) with
  | none =>
    rw [State.endDataSlot_of_none hf]
    exact State.tableOk_dataEnd h (State.dataHeard_of_noFault hst he hf)
  | some cause =>
    rw [State.endDataSlot_of_some hf]
    exact State.tableOk_enterFault
      (u := ((s.portEnd bits).hearBeforeFault (s.occurrence bits)).postGroups 2048 _)
      (State.tableOk_hearBeforeFault (u := s.portEnd bits) h _) cause

/-! ### What every outcome of a command keeps -/

/-- Whatever state an outcome answers has a sound table. -/
def KeepsTable (x : Host.Outcome State Fault Refusal) : Prop := ∀ t, x = .next t → t.tableOk

theorem State.keepsTable_next (h : t.tableOk) : KeepsTable (.next t) := by rintro _ ⟨⟩; exact h

theorem keepsTable_fault (f : Fault) : KeepsTable (.fault f) := by rintro t ⟨⟩

/-- A command that acts on a condition and is idle otherwise. -/
theorem State.keepsTable_ite (h : s.tableOk) {p : Prop} [Decidable p] {x : Host.Outcome State Fault Refusal}
    (hx : p → KeepsTable x) : KeepsTable (if p then x else .next s) := by
  split_ifs with hp
  · exact hx hp
  · exact State.keepsTable_next h

/-! ### Hunting and slot starts -/

/-- A station that hunts joins with its table as it is, or faults (R18, R19, R52). -/
theorem execHuntingCandidate_keepsTable (h : s.tableOk) (bits : SlotBits) : KeepsTable (execHuntingCandidate bits s) := by
  refine State.keepsTable_ite h fun hh => State.keepsTable_next ?_
  obtain ⟨hl, -⟩ := State.hunting_iff.mp hh
  unfold State.candidateHeard
  dsimp only
  split
  · exact h
  · split_ifs
    · exact State.tableOk_clear h rfl rfl rfl
    · exact State.tableOk_ofListen h hl rfl rfl
    · exact State.tableOk_clear h rfl rfl rfl

/-- A frame time of the listen window leaves table and receive channels (R20). -/
theorem State.tableOk_frameTimePassed (h : s.tableOk) : s.frameTimePassed.tableOk := by
  unfold State.frameTimePassed State.windowPassed
  dsimp only
  split_ifs <;> exact h

theorem execMarkSlotStart_keepsTable (h : s.tableOk) : KeepsTable (execMarkSlotStart s) := by
  refine State.keepsTable_ite h fun _ => State.keepsTable_next (State.tableOk_congr h rfl ?_ ?_ fun _ => id) <;>
    simp [StationControl.frameBegins_eq]

theorem execClaimSlotStart_keepsTable (h : s.tableOk) : KeepsTable (execClaimSlotStart s) := by
  refine State.keepsTable_ite h fun _ => ?_
  split_ifs <;> exact State.keepsTable_next h

theorem State.dataStart_keepsTable (h : s.tableOk) (n : Nat) : KeepsTable (s.dataStart n) := by
  have hstart := State.keepsTable_next (State.tableOk_startDataSlot h n)
  unfold State.dataStart
  split
  · split_ifs
    · exact hstart
    · exact keepsTable_fault _
  · exact hstart

theorem execDataSlotStart_keepsTable (h : s.tableOk) : KeepsTable (execDataSlotStart s) := by
  unfold execDataSlotStart
  split
  · exact State.dataStart_keepsTable h _
  · exact State.keepsTable_next h

theorem execTailResend_keepsTable (h : s.tableOk) : KeepsTable (execTailResend s) := by
  unfold execTailResend
  split
  · exact State.keepsTable_ite h fun _ => State.dataStart_keepsTable h _
  · exact State.keepsTable_next h

theorem execJobNoAnswer_keepsTable (h : s.tableOk) : KeepsTable (execJobNoAnswer s) := by
  unfold execJobNoAnswer
  split
  · split_ifs
    · exact State.keepsTable_next h
    · exact State.dataStart_keepsTable h _
  · exact State.keepsTable_next h

/-! ### The named cases of slot ends -/

theorem execClaimAging_keepsTable (hst : s.stationOk) (h : s.tableOk) (bits : SlotBits) :
    KeepsTable (execClaimAging bits s) := by
  unfold execClaimAging
  split
  · exact State.keepsTable_next h
  · rename_i r hr
    exact State.keepsTable_ite h fun _ =>
      State.keepsTable_next (State.tableOk_endClaimSlot hst h (State.claimEnds_of_losingHead hr) bits)

theorem execClaimExpired_keepsTable (hst : s.stationOk) (h : s.tableOk) (bits : SlotBits) :
    KeepsTable (execClaimExpired bits s) := by
  unfold execClaimExpired
  split
  · exact State.keepsTable_next h
  · rename_i r hr
    exact State.keepsTable_ite h fun _ =>
      State.keepsTable_next (State.tableOk_endClaimSlot hst h (State.claimEnds_of_losingHead hr) bits)

theorem State.dataFinish_keepsTable (hst : s.stationOk) (h : s.tableOk) (he : s.dataEnds = true) (bits : SlotBits) :
    KeepsTable (s.dataFinish bits) := fun _ => State.tableOk_dataFinish hst h he

theorem execSlotLapsed_keepsTable (hst : s.stationOk) (h : s.tableOk) (bits : SlotBits) :
    KeepsTable (execSlotLapsed bits s) :=
  State.keepsTable_ite h fun he => State.dataFinish_keepsTable hst h (State.dataEnds_of_lapses he) bits

theorem execWindowStalled_keepsTable (hst : s.stationOk) (h : s.tableOk) (bits : SlotBits) :
    KeepsTable (execWindowStalled bits s) :=
  State.keepsTable_ite h fun he => State.dataFinish_keepsTable hst h (State.dataEnds_of_stallsWindow he) bits

/-! ### Transactions of table and receive channels -/

/-- An own slot takes another role; a channel that takes the slot has room (R86). -/
theorem State.tableOk_changeRole (h : s.tableOk) (hd : isDataSlot s.len n = true) (ho : s.isOwn n = true) {r : Role}
    (hroom : s.channelFull n r = false) : (s.changeRole n r).tableOk := by
  have hfits := State.entryFits h n
  have hown := State.isOwn_iff.mp ho
  unfold State.changeRole
  split_ifs
  · exact h
  · refine State.tableOk_lossNotice ?_ _ _
    refine State.tableOk_setEntry h hd ⟨hfits.silence, hfits.corrupt, hfits.owner, iff_of_true rfl hown⟩
      (fun _ => State.of_isOwn h hown) fun c hc => ?_
    obtain rfl : r = .stream c := Option.some.inj hc
    by_contra hnot
    simp only [not_or, not_lt] at hnot
    simp [State.channelFull, Config.streamSlots, hnot] at hroom

theorem State.tableOk_judgeSetRole (h : s.tableOk) (n : Nat) (role : RoleArg) : (s.judgeSetRole n role).1.tableOk := by
  unfold State.judgeSetRole
  split
  · exact h
  · split
    · exact h
    · rename_i hd
      split
      · exact h
      · split_ifs with ho hfull
        · exact h
        · exact h
        · exact State.tableOk_changeRole h (by simpa using hd) (by simpa using ho) (by simpa using hfull)

/-- A receive channel is bound to a data slot that is not own (R118). -/
theorem State.tableOk_judgeBindRx (h : s.tableOk) (c n : Nat) (expected : Option Nat) (policy : Policy) (gaps : Bool) :
    (s.judgeBindRx c n expected policy gaps).1.tableOk := by
  unfold State.judgeBindRx
  split_ifs with _ hrange _ hown
  · exact h
  · exact h
  · exact h
  · exact h
  · simp only [not_or] at hrange
    refine State.tableOk_setRx h ?_
    rintro b ⟨⟩
    exact ⟨by simpa using hrange.2.1, by simpa using hown⟩

theorem State.tableOk_judgeUnbindRx (h : s.tableOk) (c : Nat) : (s.judgeUnbindRx c).1.tableOk := by
  unfold State.judgeUnbindRx
  split_ifs
  · exact h
  · exact h
  · exact h
  · exact State.tableOk_setRx h (by simp)

theorem State.tableOk_judgePull (h : s.tableOk) (c n : Nat) : (s.judgePull c n).1.tableOk := by
  unfold State.judgePull
  split_ifs
  · exact h
  · exact h
  · exact State.tableOk_setRx h (State.rxAt_binding h c)

/-! ### Transactions of the station controller -/

theorem State.tableOk_judgeStart (h : s.tableOk) (addr len : Nat) (eligible : Bool) :
    (s.judgeStart addr len eligible).1.tableOk := by
  unfold State.judgeStart
  split_ifs
  · exact h
  · exact h
  · exact State.tableOk_reset rfl rfl

/-- DETACHED serves no slot, nor does LISTEN (R50, R51). -/
theorem State.tableOk_judgeJoin (h : s.tableOk) : s.judgeJoin.1.tableOk := by
  unfold State.judgeJoin
  split_ifs with hd
  · exact State.tableOk_congr h rfl rfl (fun _ => by rw [hd]; rfl) (fun _ => id)
  · exact h

/-- In LEAVING own slots stay own (R47). -/
theorem State.tableOk_judgeLeave (h : s.tableOk) : s.judgeLeave.1.tableOk := by
  unfold State.judgeLeave
  split
  case h_2 => exact State.tableOk_enterDetached h _
  case h_3 => exact State.tableOk_enterDetached h _
  case h_4 => exact State.tableOk_congr h rfl rfl (fun hs => by cases hs) (fun _ => id)
  all_goals exact h

/-! ### Transactions of the other blocks -/

theorem State.ownership_judgeClaim (s : State) (req : ClaimArg) (priority : Nat) (role : RoleArg) :
    (s.judgeClaim req priority role).1.ownership = s.ownership := by
  unfold State.judgeClaim
  split
  · rfl
  · split
    · rfl
    · split
      · split_ifs <;> rfl
      · rfl

theorem State.ownership_judgeClaimCancel (s : State) (tag : Nat) : (s.judgeClaimCancel tag).1.ownership = s.ownership := by
  unfold State.judgeClaimCancel
  split
  · rfl
  · split
    · rfl
    · split_ifs <;> rfl

theorem State.ownership_judgeBulkPost (s : State) (dest win base len : Nat) :
    (s.judgeBulkPost dest win base len).1.ownership = s.ownership := by
  unfold State.judgeBulkPost
  split
  · rfl
  · split
    · rfl
    · split <;> rfl

theorem State.ownership_judgeBulkCancel (s : State) (id : Nat) : (s.judgeBulkCancel id).1.ownership = s.ownership := by
  unfold State.judgeBulkCancel
  split
  · rfl
  · split
    · rfl
    · split
      · rfl
      · split_ifs <;> rfl

theorem State.ownership_judgeBulkStatus (s : State) (id : Nat) : (s.judgeBulkStatus id).1.ownership = s.ownership := by
  unfold State.judgeBulkStatus
  split
  · rfl
  · split
    · rfl
    · split <;> rfl

theorem State.ownership_judgeBulkCollect (s : State) (id : Nat) : (s.judgeBulkCollect id).1.ownership = s.ownership := by
  unfold State.judgeBulkCollect
  split
  · rfl
  · split
    · rfl
    · split
      · rfl
      · split_ifs <;> rfl

/-- A judgement that leaves station controller, table and receive channels. -/
theorem State.tableOk_judged (h : s.tableOk) (hs : s.SameStation v) (ho : v.ownership = s.ownership) : v.tableOk :=
  State.tableOk_of_same h ho hs.1

/-- Every transaction keeps the table sound. -/
theorem State.tableOk_judge (h : s.tableOk) (i : Instr) : (s.judge i).1.tableOk := by
  cases i with
  | start addr len eligible => exact State.tableOk_judgeStart h addr len eligible
  | join => exact State.tableOk_judgeJoin h
  | leave => exact State.tableOk_judgeLeave h
  | setRole n role => exact State.tableOk_judgeSetRole h n role
  | bindRx c n expected policy gaps => exact State.tableOk_judgeBindRx h c n expected policy gaps
  | unbindRx c => exact State.tableOk_judgeUnbindRx h c
  | pull c n => exact State.tableOk_judgePull h c n
  | claim req priority role =>
    exact State.tableOk_judged h (s.judgeClaim_same req priority role) (s.ownership_judgeClaim req priority role)
  | claimCancel tag => exact State.tableOk_judged h (s.judgeClaimCancel_same tag) (s.ownership_judgeClaimCancel tag)
  | bulkPost dest win base len =>
    exact State.tableOk_judged h (s.judgeBulkPost_same dest win base len) (s.ownership_judgeBulkPost dest win base len)
  | bulkCancel id => exact State.tableOk_judged h (s.judgeBulkCancel_same id) (s.ownership_judgeBulkCancel id)
  | bulkStatus id => exact State.tableOk_judged h (s.judgeBulkStatus_same id) (s.ownership_judgeBulkStatus id)
  | bulkCollect id => exact State.tableOk_judged h (s.judgeBulkCollect_same id) (s.ownership_judgeBulkCollect id)
  | release _ | channelStatus _ _ | windowOpen _ _ _ _ | windowClose _ | windowStatus _ | readSlot _ | readRoster _ | push _ _
  | memoryWrite _ _ | memoryRead _ _ | eventRead _ =>
    simp only [State.judge, State.judgeRelease, State.judgeChannelStatus, State.judgeWindowOpen, State.judgeWindowClose,
      State.judgeWindowStatus, State.judgeReadSlot, State.judgeReadRoster, State.judgePush, State.judgeMemoryWrite,
      State.judgeMemoryRead, State.judgeEventRead]
    split_ifs <;> exact h
  | _ => exact h

/-- The reply to a transaction is a matter of the host port (R172). -/
theorem State.tableOk_reply (h : s.tableOk) (i : Instr) (words : List PortWord) :
    (s.replyWith i words (s.judge i)).tableOk := State.tableOk_judge h i

theorem State.take_keepsTable (h : s.tableOk) (i : Instr) : KeepsTable (.next (s.take i (s.judge i))) := by
  refine State.keepsTable_next ?_
  by_cases hreq : s.host.state = .request
  · rw [State.take_request hreq]
    exact State.tableOk_reply h i _
  · rw [State.take_elsewhere hreq]
    exact h

/-! ### Host port and resets (R170, R181 to R183) -/

theorem execRequestWordShiftedIn_keepsTable (h : s.tableOk) (w : PortWord) :
    KeepsTable (execRequestWordShiftedIn w s) := by
  refine State.keepsTable_ite h fun _ => State.keepsTable_next ?_
  unfold State.wordIn
  split
  · exact h
  · exact State.tableOk_reply h _ _

theorem State.tableOk_partReset (s : State) : s.partReset.tableOk := State.tableOk_reset rfl rfl

theorem State.tableOk_shiftOut (h : s.tableOk) : s.shiftOut.tableOk := by
  unfold State.shiftOut
  split_ifs
  · exact State.tableOk_partReset _
  · exact h

theorem State.tableOk_selectReleased (h : s.tableOk) : s.selectReleased.tableOk := by
  unfold State.selectReleased
  split_ifs
  · exact State.tableOk_partReset _
  · exact h

theorem execReplyWordShiftedOut_keepsTable (h : s.tableOk) : KeepsTable (execReplyWordShiftedOut s) := by
  unfold execReplyWordShiftedOut
  split
  · exact State.keepsTable_next h
  · exact State.keepsTable_next h
  · exact State.keepsTable_next (State.tableOk_shiftOut h)

theorem execTargetSelectAsserted_keepsTable (h : s.tableOk) : KeepsTable (execTargetSelectAsserted s) := by
  unfold execTargetSelectAsserted
  split_ifs <;> exact State.keepsTable_next h

theorem execResetPartTakesHold_keepsTable (h : s.tableOk) (trigger : ResetTrigger) :
    KeepsTable (execResetPartTakesHold trigger s) := by
  cases trigger with
  | replyShiftedOut => exact State.keepsTable_ite h fun _ => State.keepsTable_next (State.tableOk_shiftOut h)
  | selectReleased => exact State.keepsTable_ite h fun _ => State.keepsTable_next (State.tableOk_selectReleased h)

/-! ### Every command -/

/-- Whatever command runs, roles stay with ownership, and ownership with MEMBER and LEAVING. -/
theorem exec_keepsTable (c : Instr) (hst : s.stationOk) (h : s.tableOk) : KeepsTable (exec c s) := by
  have markEnd (bits : SlotBits) : KeepsTable (.next (s.endMarkSlot bits)) :=
    State.keepsTable_next (State.tableOk_endMarkSlot h bits)
  have rollEnd (bits : SlotBits) : KeepsTable (.next (s.endRollSlot bits)) :=
    State.keepsTable_next (State.tableOk_endRollSlot h bits)
  have answerEnd (bits : SlotBits) : KeepsTable (.next (s.endAnswerSlot bits)) :=
    State.keepsTable_next (State.tableOk_endAnswerSlot h bits)
  have idle (t : State) (ht : t.tableOk) : KeepsTable (.next t) := State.keepsTable_next ht
  cases c with
  | undefinedHeader header => exact State.keepsTable_ite h fun _ => State.take_keepsTable h _
  | targetSelectAsserted => exact execTargetSelectAsserted_keepsTable h
  | targetSelectReleased => exact idle _ (State.tableOk_selectReleased h)
  | resetPartTakesHold trigger => exact execResetPartTakesHold_keepsTable h trigger
  | resetLineAsserted => exact idle _ s.tableOk_partReset
  | resetLineReleased => exact State.keepsTable_ite h fun _ => idle _ s.tableOk_partReset
  | powerOnReset lineRate => exact idle _ (State.tableOk_reset rfl rfl)
  | huntingCandidate bits => exact execHuntingCandidate_keepsTable h bits
  | listenWindowPasses => exact State.keepsTable_ite h fun _ => idle _ (State.tableOk_frameTimePassed h)
  | listenWindowFrameTime => exact State.keepsTable_ite h fun _ => idle _ (State.tableOk_frameTimePassed h)
  | markSlotStart => exact execMarkSlotStart_keepsTable h
  | markSlotEnd heard => exact State.keepsTable_ite h fun _ => markEnd heard
  | candidateRule heard => exact State.keepsTable_ite h fun _ => markEnd heard
  | escalation heard => exact State.keepsTable_ite h fun _ => markEnd heard
  | joiningToListen heard => exact State.keepsTable_ite h fun _ => markEnd heard
  | rollSlotStart => exact State.keepsTable_ite h fun _ => idle _ h
  | rollSlotEnd heard => exact State.keepsTable_ite h fun _ => rollEnd heard
  | stationLost heard => exact State.keepsTable_ite h fun _ => rollEnd heard
  | claimSlotStart => exact execClaimSlotStart_keepsTable h
  | claimSlotEnd heard => exact State.keepsTable_ite h fun he => idle _ (State.tableOk_endClaimSlot hst h he heard)
  | claimAging heard => exact execClaimAging_keepsTable hst h heard
  | claimExpired heard => exact execClaimExpired_keepsTable hst h heard
  | answerSlotStart => exact State.keepsTable_ite h fun _ => idle _ h
  | answerSlotEnd heard => exact State.keepsTable_ite h fun _ => answerEnd heard
  | answerDropped heard => exact State.keepsTable_ite h fun _ => answerEnd heard
  | dataSlotStart => exact execDataSlotStart_keepsTable h
  | tailResend => exact execTailResend_keepsTable h
  | jobNoAnswer => exact execJobNoAnswer_keepsTable h
  | dataSlotEnd heard => exact State.keepsTable_ite h fun he => State.dataFinish_keepsTable hst h he heard
  | slotLapsed heard => exact execSlotLapsed_keepsTable hst h heard
  | windowStalled heard => exact execWindowStalled_keepsTable hst h heard
  | requestWordShiftedIn word => exact execRequestWordShiftedIn_keepsTable h word
  | replyWordShiftedOut => exact execReplyWordShiftedOut_keepsTable h
  | _ => exact State.take_keepsTable h _

end Sys2Proof.Machine

open Sys2Proof Sys2Proof.Machine

/-- Settles O58: every operation on the allocation table and on the receive bindings keeps the table sound, and every command
is made of them; self is granted a slot by a word that it sent itself, in MEMBER or LEAVING. -/
theorem rolesFollowOwnership : Obligations.RolesFollowOwnership := by
  intro s t hst h hstep
  unfold step at hstep
  split at hstep
  · cases hstep
    exact h
  · rename_i c rest _
    exact exec_keepsTable (s := { s with pending := rest }) c hst h t hstep
end

