-- ==== Sys2Proof/Proofs/Answers.lean ====
section
/-! The head answer contends in slot 3, goes with its word SENT, and is dropped after 32 losses (R38, R167). -/

namespace Sys2Proof.Machine

variable {s u v : State} {o : Occurrence} {w : SlotWord} {a : Answer} {bits b : SlotBits} {es : List Event}

/-! ### The outcome of a word -/

/-- Two words that differ have a first difference, from the most significant bit down. -/
theorem exists_first_difference (hne : bits ≠ b) :
    ∃ k < 40, (∀ j, k < j → j < 40 → b.getLsbD j = bits.getLsbD j) ∧ b.getLsbD k ≠ bits.getLsbD k := by
  have hx : b.toNat ^^^ bits.toNat ≠ 0 := by
    rw [Ne, Nat.xor_eq_zero_iff]
    exact fun h => hne (BitVec.eq_of_toNat_eq h.symm)
  obtain ⟨k, hk, habove⟩ := Nat.exists_most_significant_bit hx
  simp only [Nat.testBit_xor, BitVec.testBit_toNat] at hk habove
  have hdiff : b.getLsbD k ≠ bits.getLsbD k := by simpa using hk
  refine ⟨k, ?_, fun j hj _ => by simpa using habove j hj, hdiff⟩
  by_contra hge
  exact hdiff (by rw [BitVec.getLsbD_of_ge _ _ (by omega), BitVec.getLsbD_of_ge _ _ (by omega)])

/-- A word heard otherwise than as it was sent is not SENT (R4). -/
theorem outcomeOf_ne_sent (hne : bits ≠ b) : outcomeOf b bits ≠ .sent := by
  obtain ⟨k, hk, hagree, hdiff⟩ := exists_first_difference hne
  rw [outcomeOf_first_difference hk hagree hdiff]
  split_ifs <;> simp

/-! ### The start of slot 3 -/

theorem exec_answerSlotStart (h : s.awaits 3) : exec .answerSlotStart s = .next s.startAnswerSlot :=
  if_pos (State.startsAt_of_awaits h _)

theorem StationState.serving_iff {st : StationState} : st.serving = true ↔ st = .member ∨ st = .leaving := by
  cases st <;> simp [StationState.serving]

/-- The ANSWER word with its codes (R167, R185). -/
theorem Answer.word_eq (addr : Nat) (a : Answer) :
    a.word addr = answerWord addr a.target a.window
      (match a.verdict with
        | .done => 1
        | .rewind => 2
        | .refuse _ => 3)
      (match a.verdict with
        | .refuse .closed => 1
        | .refuse .overrun => 2
        | .refuse .sender => 3
        | _ => 0) a.count := by
  unfold Answer.word
  cases a.verdict with
  | done => rfl
  | rewind => rfl
  | refuse r => cases r <;> rfl

/-! ### The end of slot 3 -/

theorem exec_answerSlotEnd (hp : s.passes 3) (hon : s.control.state.onTrunk = true) (bits : SlotBits) :
    exec (.answerSlotEnd bits) s = .next (s.endAnswerSlot bits) :=
  if_pos (by simp [State.answerEnds, State.endsAt_of_passes hp, hon])

/-- A SENT head answer is removed (R167). -/
theorem State.answerOutcome_of_sent (ha : u.contendingAnswer = some a) (ho : o.outcome = some .sent) :
    u.answerOutcome o = ({ u with answers := { answers := u.answers.answers.tail, contending := false } }, []) := by
  simp [State.answerOutcome, ha, ho]

/-- One that is not SENT is counted, and dropped at the 32nd loss (R167). -/
theorem State.answerOutcome_of_lost (ha : u.contendingAnswer = some a) (ho : o.outcome ≠ some .sent) :
    u.answerOutcome o =
      ({ u with answers :=
          { answers := if a.lost + 1 < 32 then { a with lost := a.lost + 1 } :: u.answers.answers.tail
              else u.answers.answers.tail
            contending := false } },
        if a.lost + 1 < 32 then [] else [a.droppedEvent o.frame]) := by
  simp only [State.answerOutcome, ha, ho, if_false, Config.answerExpiry]
  split_ifs <;> rfl

/-- No ANSWER is addressed to self: the bulk sender does not act (R143). -/
theorem State.applyAnswer_of_none (h : u.answerHeard o = none) : u.applyAnswer o = (u, []) := by
  simp [State.applyAnswer, h]

theorem State.answerHeard_eq_none (ht : ∀ w, o.heard = .valid w → w.kind = .answer → w.answerTarget ≠ u.self) :
    u.answerHeard o = none := by
  unfold State.answerHeard
  split
  · rfl
  · rename_i w hw
    obtain ⟨hv, hk, -⟩ := Heard.acceptable_eq_some.mp hw
    exact if_neg (ht w hv hk)

/-- Where neither a MARK nor an ANSWER to self is heard the answer queue alone acts, and slot 4 comes next. -/
theorem State.answerEnd_of_unanswered {q : AnswerQueue} (hout : u.answerOutcome o = ({ u with answers := q }, es))
    (hm : o.heard.acceptable .mark = none) (ht : ∀ w, o.heard = .valid w → w.kind = .answer → w.answerTarget ≠ u.self)
    (hslot : o.slot = 3) (hlen : 4 < u.len) :
    u.answerEnd o =
      ({ ({ u with answers := q } : State).postAll es with timer := u.timer.next 3 } : State).nextHappening := by
  have happly : ({ u with answers := q } : State).applyAnswer o = ({ u with answers := q }, []) :=
    State.applyAnswer_of_none (State.answerHeard_eq_none ht)
  have hpost : mergeAll u.happening 0 [es, [], []] = es := mergeAll_alone _ _ _ _ rfl
  rw [State.answerEnd]
  simp only [hout, happly, ite_self, State.offSlotEvents_nil hm]
  rw [State.passOn_next (State.realignsTo_none hm) (by rw [hslot]; exact hlen), hslot]
  simp only [State.postGroups, hpost]
  rfl

/-- In slot 3 the head answer contends with the word that self has sent, and no MARK and no ANSWER to self is heard. -/
structure State.Contends (s : State) (bits b : SlotBits) (a : Answer) : Prop where
  passes : s.passes 3
  long : 4 < s.len
  onTrunk : s.control.state.onTrunk = true
  word : s.port.word = some b
  head : s.contendingAnswer = some a
  unmarked : (classify bits).acceptable .mark = none
  unanswered : ∀ w, classify bits = .valid w → w.kind = .answer → w.answerTarget ≠ s.self
  faultless : s.faultIn (s.occurrence bits) = none

section Contends

variable (hc : s.Contends bits b a)
include hc

theorem State.Contends.outcome : (s.occurrence bits).outcome = some (outcomeOf b bits) := by simp [hc.word]

theorem State.Contends.endAnswerSlot {q : AnswerQueue}
    (hout : (s.portEnd bits).answerOutcome (s.occurrence bits) = ({ s.portEnd bits with answers := q }, es)) :
    s.endAnswerSlot bits =
      ({ ({ s.portEnd bits with answers := q } : State).postAll es with timer := s.timer.next 3 } : State).nextHappening := by
  rw [State.endAnswerSlot_of_none hc.faultless]
  exact State.answerEnd_of_unanswered hout hc.unmarked hc.unanswered (State.occurrence_slot_of_passes hc.passes bits) hc.long

theorem State.Contends.exec_answerDropped (hlost : outcomeOf b bits ≠ .sent) (hlast : 32 ≤ a.lost + 1) :
    exec (.answerDropped bits) s = .next (s.endAnswerSlot bits) := by
  have hends : s.answerEnds = true := by simp [State.answerEnds, State.endsAt_of_passes hc.passes, hc.onTrunk]
  refine if_pos ?_
  simp [State.dropsAnswer, hends, hc.word, hlost, hc.faultless, hc.head, Config.answerExpiry, hlast]

end Contends

end Sys2Proof.Machine

open Sys2Proof Sys2Proof.Machine

/-- Settles O47: the head answer by the outcome of its word; only a word heard as it was sent is SENT. -/
theorem answersContend : Obligations.AnswersContend := by
  refine ⟨fun s ha => ?starts, fun s h b a rest hp hlen hst hw hcont hq hmark htarget => ?ends⟩
  case starts =>
    refine ⟨s.answerToSend, exec_answerSlotStart ha, ?_⟩
    unfold State.answerToSend
    simp only [StationState.serving_iff]
    split_ifs
    · exact congrArg (Option.map · _) (funext (Answer.word_eq s.self))
    · rfl
  case ends =>
    have hon : s.control.state.onTrunk = true := StationState.onTrunk_iff.mpr (.inr hst)
    have hhead : s.contendingAnswer = some a := by simp [State.contendingAnswer, hcont, hq]
    have hnomark : (classify h).acceptable .mark = none := Heard.acceptable_none_of_kind hmark
    have hlength : (s.occurrence h).lengthFault s.control.state s.len = false :=
      Occurrence.lengthFault_eq_false_of_length fun w hv hk => absurd hk (hmark w hv)
    refine ⟨?sent, ?lost⟩
    case sent =>
      rintro rfl
      have hout : (s.occurrence h).outcome = some .sent := by simp [hw, outcomeOf_self]
      have hc : s.Contends h h a := ⟨hp, hlen, hon, hw, hhead, hnomark, htarget,
        State.faultIn_eq_none (Occurrence.duplicate_eq_false_of_sent hout (by simp)) hlength⟩
      rw [exec_answerSlotEnd hp hon, hc.endAnswerSlot (State.answerOutcome_of_sent hhead hout),
        State.portEnd_of_sentWhole hw]
      simp only [hq]
      rfl
    case lost =>
      intro hne hpeer
      have hlost : outcomeOf b h ≠ .sent := outcomeOf_ne_sent hne
      have hc : s.Contends h b a := ⟨hp, hlen, hon, hw, hhead, hnomark, htarget,
        State.faultIn_eq_none (Occurrence.duplicate_eq_false_of_peer hpeer) hlength⟩
      refine ⟨_, exec_answerSlotEnd hp hon h, ?_, hc.exec_answerDropped hlost⟩
      rw [hc.endAnswerSlot (State.answerOutcome_of_lost hhead (by rw [hc.outcome]; simpa using hlost))]
      simp only [State.portEnd_answers, hq, List.tail_cons]
      split_ifs <;> rfl
end

