-- ==== Sys2Proof/Proofs/MissedRolls.lean ====
section
/-! Missed and misplaced rolls: a peer that misses two is dropped and its slots are freed (R58, R60, R63, R64, R73). -/

namespace Sys2Proof.Machine

variable {s u v : State} {o : Occurrence} {w : SlotWord} {a : Nat} {bits b : SlotBits} {k : EventKind}

/-! ### A missed roll -/

/-- A PRESENT peer's second missed roll: it is dropped, and its slots are freed (R63). -/
theorem State.rollMissed_of_dropped (hp : u.isPresent a = true) (hm : 1 ≤ (u.rosterEntry a).missed) :
    u.rollMissed o a =
      ({ u with
          roster := u.roster.set a { u.rosterEntry a with present := false, missed := 2, held := none, eligible := none }
          table := u.table.map (fun e => if e.owner = some a then { e with owner := none, silence := 0, role := none } else e) },
        [{ Event.of .stationLost o.frame with station := some a, count := some (u.heldCount a) }]) := by
  unfold State.rollMissed
  rw [if_pos hp, if_neg (by omega)]
  rfl

/-- Its first is counted; an ABSENT station has none (R63). -/
theorem State.rollMissed_of_kept (h : ¬(u.isPresent a = true ∧ 1 ≤ (u.rosterEntry a).missed)) :
    u.rollMissed o a =
      ({ u with
          roster := if u.isPresent a = true then u.roster.set a { u.rosterEntry a with missed := 1 } else u.roster
          table := u.table }, []) := by
  unfold State.rollMissed
  split_ifs with hp hlt
  · have hm : (u.rosterEntry a).missed = 0 := by omega
    rw [hm]
    rfl
  · exact absurd ⟨hp, by omega⟩ h
  · rfl

theorem State.misplacedRoll_postsMisplaced (s : State) (o : Occurrence) (a : Nat) :
    PostsOnly [.rollMisplaced] (s.misplacedRoll o a) := by
  unfold State.misplacedRoll
  split
  · exact .nil
  · split_ifs
    · exact .nil
    · exact .singleton (by simp [Event.of])

/-- In slot 1 no acceptable ROLL of the peer whose turn it is is heard, and no fault is found (R63). -/
structure State.MissesRoll (s : State) (bits : SlotBits) (a : Nat) : Prop where
  passes : s.passes 1
  long : 2 < s.len
  onTrunk : s.control.state.onTrunk = true
  unsent : s.port.word = none
  turn : turnOf s.timer.frame = a
  peer : a ≠ s.self
  noRoll : (s.occurrence bits).rollOf a = none
  faultless : s.faultIn (s.occurrence bits) = none

/-- A missed roll has left roster and table as given and has posted `lost` with the roll that was misplaced, while the frame
timer has gone on or realigned. -/
structure State.RollMissed (s : State) (bits : SlotBits) (a : Nat) (roster : Bank RosterEntry 31) (table : Bank SlotEntry 96)
    (lost : List Event) (t : State) (es : List Event) : Prop where
  exec : Machine.exec (.rollSlotEnd bits) s = .next t
  state : t = { s with
    port := s.port.listened (classify bits)
    timer := t.timer
    control := t.control
    roster := roster
    table := table
    events := s.events.postAll es
    happening := s.happening + 1 }
  goesOn : (classify bits).acceptable .mark = none → t.timer = s.timer.next 1 ∧ t.control = s.control
  misplaced : eventsOf .rollMisplaced es = s.misplacedRoll (s.occurrence bits) a
  lost : eventsOf .stationLost es = lost

section MissesRoll

variable (hr : s.MissesRoll bits a)
include hr

theorem State.MissesRoll.rollTurn :
    (s.portEnd bits).rollTurn (s.occurrence bits) =
      (((s.portEnd bits).rollMissed (s.occurrence bits) a).1,
        s.misplacedRoll (s.occurrence bits) a ++ ((s.portEnd bits).rollMissed (s.occurrence bits) a).2, []) := by
  have hpeer : turnOf (s.occurrence bits).frame ≠ (s.portEnd bits).self := by
    rw [State.occurrence_frame, hr.turn]
    exact hr.peer
  rw [State.rollTurn, if_neg hpeer, State.occurrence_frame, hr.turn]
  simp only [State.peerTurn, hr.noRoll]
  rfl

/-- No holder leaves (R31). -/
theorem State.MissesRoll.rollTimer (x : State) :
    x.rollTimer (s.occurrence bits) = (x, x.offSlotEvents (s.occurrence bits)) := by
  have hleaves : x.holderLeaves (s.occurrence bits) = false := by
    simp [State.holderLeaves, hr.turn, hr.noRoll]
  simp [State.rollTimer, hleaves]

theorem State.MissesRoll.endRollSlot :
    s.endRollSlot bits = (s.portEnd bits).rollEnd (s.occurrence bits) := by
  rw [State.endRollSlot_of_none hr.faultless, if_neg]
  simp [State.leavesNow, hr.unsent]

theorem State.MissesRoll.endRollSlot_eq {lost : List Event}
    (hmissed : (s.portEnd bits).rollMissed (s.occurrence bits) a = (v, lost)) :
    s.endRollSlot bits =
      ((v.postGroups 0 [s.misplacedRoll (s.occurrence bits) a ++ lost, [], v.offSlotEvents (s.occurrence bits)]).passOn
        (s.occurrence bits)).nextHappening := by
  rw [hr.endRollSlot, State.rollEnd, hr.rollTurn, hmissed, hr.rollTimer]

/-- The end of the slot, with what becomes of roster and table. -/
theorem State.MissesRoll.ends {roster : Bank RosterEntry 31} {table : Bank SlotEntry 96} {lost : List Event}
    (hmissed : (s.portEnd bits).rollMissed (s.occurrence bits) a =
      ({ s.portEnd bits with roster := roster, table := table }, lost)) (hlost : PostsOnly [.stationLost] lost) :
    ∃ t es, s.RollMissed bits a roster table lost t es := by
  have hmisplaced := s.misplacedRoll_postsMisplaced (s.occurrence bits) a
  obtain ⟨v, hv⟩ : ∃ v : State, v = { s.portEnd bits with roster := roster, table := table } := ⟨_, rfl⟩
  have hend := hr.endRollSlot_eq (hmissed.trans (congrArg (·, lost) hv.symm))
  obtain ⟨es, hes⟩ : ∃ es, es = mergeAll s.happening 0
    [s.misplacedRoll (s.occurrence bits) a ++ lost, [], v.offSlotEvents (s.occurrence bits)] := ⟨_, rfl⟩
  have hevents (k : EventKind) (hk : k ∉ [EventKind.holderChanged, .markStray, .markMismatch]) :
      eventsOf k es = eventsOf k (s.misplacedRoll (s.occurrence bits) a) ++ eventsOf k lost := by
    rw [← eventsOf_append, hes]
    exact eventsOf_mergeAll _ (before := []) (by simp)
      (by simp [(v.offSlotEvents_postsOnly (s.occurrence bits)).eventsOf_eq_nil hk]) 0
  refine ⟨s.endRollSlot bits, es,
    exec_rollSlotEnd hr.passes hr.onTrunk bits, ?_, fun hm => ?_, ?_, ?_⟩
  · obtain ⟨_, _, heq, -⟩ := State.passOn_eq (v.postGroups 0 _) (s.occurrence bits)
    rw [hend, heq, hes, hv, State.portEnd_of_unsent hr.unsent]
    rfl
  · have hslot := State.occurrence_slot_of_passes hr.passes bits
    have hlen : v.len = s.len := by rw [hv]; rfl
    rw [hend, State.passOn_next (State.realignsTo_none hm) (by rw [hslot, State.postGroups_len, hlen]; exact hr.long), hslot, hv]
    exact ⟨rfl, rfl⟩
  · rw [hevents _ (by simp), hmisplaced.eventsOf_eq_self, hlost.eventsOf_eq_nil (by simp), List.append_nil]
  · rw [hevents _ (by simp), hmisplaced.eventsOf_eq_nil (by simp), hlost.eventsOf_eq_self, List.nil_append]

theorem State.MissesRoll.exec_stationLost (hp : s.isPresent a = true) (hm : 1 ≤ (s.rosterEntry a).missed) :
    exec (.stationLost bits) s = .next (s.endRollSlot bits) := by
  have hends : s.rollEnds = true := by simp [State.rollEnds, State.endsAt_of_passes hr.passes, hr.onTrunk]
  refine if_pos ?_
  simp [State.losesStation, hends, hr.turn, hr.peer, hr.noRoll, hp, hm, hr.faultless]

end MissesRoll

/-! ### Self's own turn -/

/-- Self's ROLL was not SENT: a peer's ROLL is misplaced, unless self's was DISTURBED (R58, R60). -/
theorem State.ownTurn_of_unsent (ho : o.outcome ≠ some .sent) :
    u.ownTurn o = (u, if o.outcome = some .disturbed then [] else u.misplacedRoll o u.self, []) := by
  unfold State.ownTurn
  cases h : o.outcome with
  | none => rfl
  | some x =>
    cases x with
    | sent => exact absurd h ho
    | displaced => rfl
    | disturbed => rfl

/-- The end of slot 1 in self's own turn, in JOINING or MEMBER, with no MARK heard and no fault found. -/
theorem State.endRollSlot_of_ownTurn (hp : s.passes 1) (hlen : 2 < s.len) (hl : s.control.state ≠ .leaving)
    (hturn : turnOf s.timer.frame = s.self) (hm : (classify bits).acceptable .mark = none)
    (hf : s.faultIn (s.occurrence bits) = none) {es : List Event}
    (hown : (s.portEnd bits).ownTurn (s.occurrence bits) = (s.portEnd bits, es, [])) :
    s.endRollSlot bits =
      ({ (s.portEnd bits).postAll es with timer := s.timer.next 1 } : State).nextHappening := by
  have hleaves : (s.portEnd bits).holderLeaves (s.occurrence bits) = false := by
    by_contra h
    exact (State.holderLeaves_peer (by simpa using h)).1 hturn
  have hnow : (s.portEnd bits).leavesNow (s.occurrence bits) = false := by simp [State.leavesNow, hl]
  have htimer : (s.portEnd bits).rollTimer (s.occurrence bits) = (s.portEnd bits, []) := by
    simp [State.rollTimer, hleaves, State.offSlotEvents_nil (s := s.portEnd bits) (o := s.occurrence bits) hm]
  rw [State.endRollSlot_of_none hf, hnow, if_neg Bool.false_ne_true,
    State.rollEnd_next (u := s.portEnd bits) (o := s.occurrence bits) ((if_pos hturn).trans hown) htimer hm (State.occurrence_slot_of_passes hp bits) hlen,
    State.postGroups, mergeAll_alone _ _ _ _ rfl]
  rfl

end Sys2Proof.Machine

open Sys2Proof Sys2Proof.Machine

/-- Settles O30: a peer's turn by the count of its missed rolls, self's own by the outcome of its word. -/
theorem silentStationsAreDropped : Obligations.SilentStationsAreDropped := by
  refine ⟨fun s h a hp hlen hon hw hturn hpeer hheard => ?peer, fun s h hp hlen hst hturn hmark hunsent hdisplaced => ?own⟩
  case peer =>
    have hnoRoll : (s.occurrence h).rollOf a = none := by
      by_contra hne
      obtain ⟨w, hroll⟩ := Option.ne_none_iff_exists'.mp hne
      unfold Occurrence.rollOf at hroll
      split at hroll
      · cases hroll
      · rename_i v hacc
        split_ifs at hroll with hsender
        obtain ⟨hv, hk, hwf⟩ := Heard.acceptable_eq_some.mp hacc
        obtain ⟨-, hother, -⟩ := hheard v hv
        exact (hother hk).elim (by simp [hwf]) (absurd hsender)
    have hr : s.MissesRoll h a := ⟨hp, hlen, hon, hw, hturn.symm, hpeer, hnoRoll,
      State.faultIn_eq_none (Occurrence.duplicate_eq_false_of_peer fun w hv => (hheard w hv).1)
        (Occurrence.lengthFault_eq_false_of_length fun w hv hk hwf =>
          ((hheard w hv).2.2 hk).resolve_left (by simp [hwf]))⟩
    have hmisplaced : s.misplacedRoll (s.occurrence h) a = (match classify h with
        | .valid w => if w.kind = .roll ∧ w.malformed = false then
            [{ Event.of .rollMisplaced s.timer.frame with station := some w.sender, slot := some 1 }] else []
        | _ => []) := by
      unfold State.misplacedRoll
      cases hc : classify h with
      | silent => simp [hc]
      | corrupt => simp [hc]
      | valid w =>
        obtain ⟨hself, hother, -⟩ := hheard w hc
        by_cases hroll : w.kind = .roll ∧ w.malformed = false
        · have := (hother hroll.1).resolve_left (by simp [hroll.2])
          simp [hc, Heard.acceptable_valid, hroll, hself, this]
        · simp [hc, Heard.acceptable_valid, hroll]
    by_cases hdrop : s.isPresent a = true ∧ 1 ≤ (s.rosterEntry a).missed
    · obtain ⟨t, es, hend⟩ := hr.ends (State.rollMissed_of_dropped (u := s.portEnd h) hdrop.1 hdrop.2)
        (.singleton (by simp [Event.of]))
      have hroster := congrArg State.roster hend.state
      have htable := congrArg State.table hend.state
      refine ⟨t, es, hend.exec, ?_, fun hm => hend.goesOn (Heard.acceptable_none_of_kind hm),
        hend.misplaced.trans hmisplaced, ?_⟩
      · rw [hroster, htable]
        exact hend.state
      · rw [if_pos hdrop]
        exact ⟨hroster, htable, hend.lost, (hr.exec_stationLost hdrop.1 hdrop.2).trans
          ((exec_rollSlotEnd hp hon h).symm.trans hend.exec)⟩
    · obtain ⟨t, es, hend⟩ := hr.ends (State.rollMissed_of_kept (u := s.portEnd h) hdrop) .nil
      have hroster := congrArg State.roster hend.state
      have htable := congrArg State.table hend.state
      refine ⟨t, es, hend.exec, ?_, fun hm => hend.goesOn (Heard.acceptable_none_of_kind hm),
        hend.misplaced.trans hmisplaced, ?_⟩
      · rw [hroster, htable]
        exact hend.state
      · rw [if_neg hdrop]
        exact ⟨hroster, htable, hend.lost⟩
  case own =>
    have hon : s.control.state.onTrunk = true := StationState.onTrunk_iff.mpr (hst.imp_right .inl)
    have hnotLeaving : s.control.state ≠ .leaving := by rcases hst with hst | hst <;> simp [hst]
    have hnomark : (classify h).acceptable .mark = none := Heard.acceptable_none_of_kind hmark
    have hout : (s.occurrence h).outcome ≠ some .sent := by simpa using hunsent
    have hpeers (hd : (s.occurrence h).outcome ≠ some .disturbed) : ∀ w, classify h = .valid w → w.sender ≠ s.self := by
      refine hdisplaced fun b hb => ?_
      rw [State.occurrence_outcome, hb] at hout hd
      cases hx : outcomeOf b h <;> simp [hx] at hout hd ⊢
    have hf : s.faultIn (s.occurrence h) = none := by
      refine State.faultIn_eq_none ?_ (Occurrence.lengthFault_eq_false_of_length fun w hv hk => absurd hk (hmark w hv))
      by_cases hd : (s.occurrence h).outcome = some .disturbed
      · exact Occurrence.duplicate_eq_false_of_sent hd (by simp)
      · exact Occurrence.duplicate_eq_false_of_peer (hpeers hd)
    refine ⟨_, exec_rollSlotEnd hp hon h, ?_⟩
    rw [State.endRollSlot_of_ownTurn hp hlen hnotLeaving hturn hnomark hf (State.ownTurn_of_unsent hout)]
    refine ⟨?_, TrunkPort.finish_word .., TrunkPort.finish_heard ..⟩
    have hposted : s.events.postAll (if (s.occurrence h).outcome = some .disturbed then []
        else (s.portEnd h).misplacedRoll (s.occurrence h) (s.portEnd h).self) = (match classify h with
          | .valid w =>
            if w.kind = .roll ∧ w.malformed = false ∧ (s.port.word.map (fun b => outcomeOf b h)) ≠ some .disturbed then
              s.events.post { Event.of .rollMisplaced s.timer.frame with station := some w.sender, slot := some 1 }
            else s.events
          | _ => s.events) := by
      by_cases hd : (s.occurrence h).outcome = some .disturbed
      · have hd' : s.port.word.map (fun b => outcomeOf b h) = some .disturbed := hd
        rw [if_pos hd]
        cases classify h <;> simp [hd']
      · have hd' : s.port.word.map (fun b => outcomeOf b h) ≠ some .disturbed := hd
        rw [if_neg hd]
        cases hc : classify h with
        | silent => rw [State.misplacedRoll_of_none (by simp [hc])]; rfl
        | corrupt => rw [State.misplacedRoll_of_none (by simp [hc])]; rfl
        | valid w =>
          rw [State.misplacedRoll_self_of_valid (u := s.portEnd h) (o := s.occurrence h) hc (hpeers hd w hc)]
          simp only [ne_eq, hd', not_false_eq_true, and_true]
          split_ifs <;> rfl
    exact congrArg (fun q : EventQueue =>
      { s with port := s.port.finish h, timer := s.timer.next 1, events := q, happening := s.happening + 1 }) hposted
end

