-- ==== Sys2Proof/Proofs/Owners.lean ====
section
/-! The owner of a data slot follows the data-kind words heard in it: the allocation table's steps at the end of a data slot
(R74 to R79, R83), beside roster, receive channels and windows, of which no sound one writes outside buffer memory (R151). -/

namespace Sys2Proof.Machine

variable {s u v : State} {o : Occurrence} {w : SlotWord} {n k : Nat} {bits b : SlotBits} {e : SlotEntry}

/-! ### Window writes -/

/-- Whatever is written goes behind the words that the window has, within its capacity (R162). -/
def Window.WritesNext (x : Window) (a : WindowAct) : Prop :=
  ∀ p ∈ a.write, p.1 = x.base.getD 0 + x.count ∧ x.count < x.capacity.getD 0

theorem Window.writesNext_of_none {x : Window} {a : WindowAct} (h : a.write = none) : x.WritesNext a := by
  simp [Window.WritesNext, h]

theorem Window.headInBlock_write (x : Window) (n : Nat) (o : Occurrence) (w : SlotWord) :
    (x.headInBlock n o w).write = none := by
  unfold Window.headInBlock
  split_ifs <;> rfl

theorem Window.head_write (x : Window) (n : Nat) (o : Occurrence) (w : SlotWord) : (x.head n o w).write = none := by
  unfold Window.head
  cases x.state with
  | receiving => exact x.headInBlock_write n o w
  | gap => exact x.headInBlock_write n o w
  | stalled => exact x.headInBlock_write n o w
  | opened => dsimp only; split_ifs <;> rfl
  | complete => dsimp only; split_ifs <;> rfl
  | closed => rfl
  | failed => rfl

theorem Window.withdrawn_write (x : Window) (n : Nat) (o : Occurrence) : (x.withdrawn n o).write = none := by
  unfold Window.withdrawn
  split <;> rfl

theorem Window.stallOnce_write (x : Window) (n : Nat) (o : Occurrence) : (x.stallOnce n o).write = none :=
  (Window.stallOnce_posts x n o).1

theorem Window.tail_write (x : Window) (n : Nat) (o : Occurrence) (w : SlotWord) : (x.tail n o w).write = none := by
  unfold Window.tail Window.tailByState
  split_ifs <;> rfl

theorem Window.corruptWord_write (x : Window) (n : Nat) (o : Occurrence) : (x.corruptWord n o).write = none := by
  unfold Window.corruptWord
  split_ifs
  · rfl
  · exact x.stallOnce_write n o
  · rfl

/-- A BULK word alone is written (R162). -/
theorem Window.bulk_writesNext (x : Window) (n : Nat) (o : Occurrence) (w : SlotWord) : x.WritesNext (x.bulk n o w) := by
  unfold Window.bulk
  split_ifs with _ hroom
  · rintro p ⟨⟩
    exact ⟨rfl, hroom⟩
  · exact Window.writesNext_of_none rfl
  · exact Window.writesNext_of_none (x.stallOnce_write n o)
  · exact Window.writesNext_of_none rfl

theorem Window.follow_writesNext (x : Window) (n : Nat) (o : Occurrence) : x.WritesNext (x.follow n o) := by
  unfold Window.follow
  split
  · exact Window.writesNext_of_none (x.stallOnce_write n o)
  · exact Window.writesNext_of_none (x.corruptWord_write n o)
  · split_ifs
    · exact x.bulk_writesNext n o _
    · exact Window.writesNext_of_none (x.tail_write n o _)
    · exact Window.writesNext_of_none (x.stallOnce_write n o)

theorem Window.act_writesNext (x : Window) (n : Nat) (o : Occurrence) (self : Nat) : x.WritesNext (x.act n o self) := by
  unfold Window.act
  dsimp only
  split
  · refine Window.writesNext_of_none ?_
    split_ifs
    · rfl
    · exact x.head_write n o _
    · exact x.head_write n o _
    · exact x.withdrawn_write n o
    · exact x.stallOnce_write n o
    · rfl
    · exact x.stallOnce_write n o
    · rfl
  · split_ifs
    · exact x.follow_writesNext n o
    · exact Window.writesNext_of_none rfl

theorem State.windowAt_ok (h : s.windowsOk) (hn : n < 4) : (s.windowAt n).ok :=
  (Bank.forall_items s.windows _ Window.closed).mp h.1 n hn

/-- A sound window writes within buffer memory (R151). -/
theorem State.strayWrite_eq_none (h : s.windowsOk) (bits : SlotBits) : s.strayWrite bits = none := by
  unfold State.strayWrite
  split_ifs
  · rw [List.find?_eq_none]
    intro a ha
    obtain ⟨n, hn, hwrite⟩ := List.mem_filterMap.mp ha
    obtain ⟨p, hp, rfl⟩ := Option.map_eq_some_iff.mp hwrite
    obtain ⟨haddr, hroom⟩ := (s.windowAt n).act_writesNext n _ _ p hp
    have hn4 : n < 4 := by
      simp only [windowIds, List.mem_cons, List.not_mem_nil, or_false] at hn
      omega
    obtain ⟨-, -, hbuffer, -⟩ := State.windowAt_ok h hn4
    simp only [Config.bufferWords] at hbuffer
    simp only [haddr, Config.bufferWords, decide_eq_true_eq]
    omega
  · rfl

/-! ### What windows and roster leave -/

/-- The windows write windows, answers and buffer alone (R157). -/
theorem State.windowsEnd_eq (u : State) (o : Occurrence) :
    ∃ windows answers buffer,
      u.windowsEnd o = { u with windows := windows, answers := answers, buffer := buffer } := by
  have acts (ns : List Nat) : ∀ t : State, ∃ windows answers buffer,
      ns.foldl (fun t n => t.applyAct n (u.windowAct o n)) t =
        { t with windows := windows, answers := answers, buffer := buffer } := by
    induction ns with
    | nil => exact fun t => ⟨_, _, _, rfl⟩
    | cons n ns ih =>
      intro t
      obtain ⟨windows, answers, buffer, h⟩ := ih (t.applyAct n (u.windowAct o n))
      exact ⟨windows, answers, buffer, h⟩
  exact acts windowIds u

/-- Writing to a place what it holds changes nothing. -/
theorem Bank.set_get {α : Type} {m : Nat} (c : Bank α m) (i : Nat) (d : α) : c.set i (c.get i d) = c := by
  refine Bank.ext_get d fun j _ => ?_
  rw [Bank.get_set]
  split_ifs with hc
  · rw [hc.1]
  · rfl

/-- Windows that stay as they are leave windows, answers and buffer. -/
theorem State.windowsEnd_of_idle (h : ∀ n, u.windowAct o n = (u.windowAt n).idle) : u.windowsEnd o = u := by
  have idle (n : Nat) : u.applyAct n (u.windowAct o n) = u := by
    have hset : u.setWindow n (u.windowAt n) = u := by
      rw [State.setWindow, State.windowAt, Bank.set_get]
    rw [h, State.applyAct]
    exact hset
  have acts (ns : List Nat) : ns.foldl (fun t n => t.applyAct n (u.windowAct o n)) u = u := by
    induction ns with
    | nil => rfl
    | cons n ns ih => rw [List.foldl_cons, idle, ih]
  exact acts windowIds

/-- Outside JOINING the roster marks nobody PRESENT by an owner tag (R66). -/
theorem State.markPresent_of_not_joining (h : u.control.state ≠ .joining) (o : Occurrence) : u.markPresent o = (u, []) :=
  if_neg h

/-- Outside JOINING the table acts alone (R67). -/
theorem State.rosterAndTable_of_not_joining (h : u.control.state ≠ .joining) {posts : List Event}
    (ht : u.tableEnd o = (v, posts)) : u.rosterAndTable o = (v, [], posts) := by
  have hc : v.control = u.control := by
    have := (State.front_eq_iff.mp (u.front_tableEnd o)).1
    rwa [ht] at this
  unfold State.rosterAndTable
  rw [if_neg (fun hj => h hj.1), ht, State.markPresent_of_not_joining (by rw [hc]; exact h)]

/-! ### The end of a data slot beside the table -/

/-- From `s` a data slot has ended in `t` with the table, roster and job table given, and of the table's own kinds the events
given are posted. -/
structure State.DataSlotEnded (s : State) (o : Occurrence) (table : Bank SlotEntry 96) (roster : Bank RosterEntry 31)
    (jobs : List Job) (posts : List Event) (t : State) (es : List Event) : Prop where
  table : t.table = table
  roster : t.roster = roster
  jobs : t.jobs = jobs
  claims : t.claims = s.claims
  tx : t.tx = s.tx
  host : t.host = s.host
  pins : t.pins = s.pins
  events : t.events = s.events.postAll es
  posts : ∀ k ∈ tableKinds, eventsOf k es = eventsOf k posts
  control : o.heard.acceptable .mark = none → t.control = s.control.lastSlot s.len o.slot
  idle : (∀ n, s.windowAct o n = (s.windowAt n).idle) → t.windows = s.windows ∧ t.answers = s.answers ∧ t.buffer = s.buffer

/-- Of the kinds that the table posts, a data slot's end has the table's events (R177). -/
theorem eventsOf_dataEnd {gs : List (List Event)} {joined posts off : List Event} {windowPosts : List (List Event)}
    (hgs : gs = [joined, posts, off] ++ channelIds.map (fun c => (u.rxAt c).overrunEvents o c) ++ windowPosts)
    (hjoined : PostsOnly [.stationJoined] joined) (hoff : PostsOnly [.holderChanged, .markStray, .markMismatch] off)
    (hwindows : ∀ g ∈ windowPosts, PostsOnly windowKinds g) (happening : Nat) {k : EventKind} (hk : k ∈ tableKinds) :
    eventsOf k (mergeAll happening 0 gs) = eventsOf k posts := by
  have hother : k ∉ [EventKind.stationJoined] ∧ k ∉ [EventKind.holderChanged, .markStray, .markMismatch] ∧
      k ∉ windowKinds ∧ k ∉ [EventKind.rxOverrun] := by
    simp only [tableKinds, List.mem_cons, List.not_mem_nil, or_false] at hk
    rcases hk with rfl | rfl | rfl <;> decide
  obtain ⟨hnotJoined, hnotOff, hnotWindow, hnotOverrun⟩ := hother
  rw [hgs]
  refine eventsOf_mergeAll _ (before := [joined])
    (after := off :: (channelIds.map (fun c => (u.rxAt c).overrunEvents o c) ++ windowPosts)) ?_ ?_ 0
  · simpa using hjoined.eventsOf_eq_nil hnotJoined
  · intro g hg
    rcases List.mem_cons.mp hg with rfl | hg
    · exact hoff.eventsOf_eq_nil hnotOff
    · rcases List.mem_append.mp hg with hg | hg
      · obtain ⟨c, -, rfl⟩ := List.mem_map.mp hg
        exact (RxChannel.overrunEvents_postsOnly ..).eventsOf_eq_nil hnotOverrun
      · exact (hwindows g hg).eventsOf_eq_nil hnotWindow

/-- What the windows do in MEMBER and LEAVING, and nothing in JOINING. -/
theorem State.windowsServed_eq (u : State) (o : Occurrence) (serving : Bool) :
    ∃ windows answers buffer,
      (if serving then u.windowsEnd o else u) = { u with windows := windows, answers := answers, buffer := buffer } ∧
      ((∀ n, u.windowAct o n = (u.windowAt n).idle) → windows = u.windows ∧ answers = u.answers ∧ buffer = u.buffer) := by
  cases serving with
  | true =>
    obtain ⟨windows, answers, buffer, h⟩ := u.windowsEnd_eq o
    refine ⟨windows, answers, buffer, h, fun hidle => ?_⟩
    have heq : u = { u with windows := windows, answers := answers, buffer := buffer } :=
      (State.windowsEnd_of_idle hidle).symm.trans h
    exact ⟨(congrArg State.windows heq).symm, (congrArg State.answers heq).symm, (congrArg State.buffer heq).symm⟩
  | false => exact ⟨_, _, _, rfl, fun _ => ⟨rfl, rfl, rfl⟩⟩

/-- Posting and passing on: frame timer, station controller and events alone. -/
theorem State.ends_eq (u : State) (base : Nat) (gs : List (List Event)) (o : Occurrence) :
    ∃ timer control, ((u.postGroups base gs).passOn o).nextHappening =
        { u with
          timer := timer
          control := control
          events := u.events.postAll (mergeAll u.happening base gs)
          happening := u.happening + 1 } ∧
      (o.heard.acceptable .mark = none → control = u.control.lastSlot u.len o.slot) := by
  obtain ⟨timer, control, hpass, -⟩ := (u.postGroups base gs).passOn_eq o
  refine ⟨timer, control, by rw [hpass]; rfl, fun hm => ?_⟩
  have hc := congrArg State.control hpass
  rw [State.passOn_none (State.realignsTo_none hm)] at hc
  exact hc.symm

/-- Receive channels, windows and frame timer act beside table and roster (R9). -/
theorem State.dataEnd_ended {table : Bank SlotEntry 96} {roster : Bank RosterEntry 31} {jobs : List Job}
    {joined posts : List Event}
    (h : u.rosterAndTable o = ({ u with table := table, roster := roster, jobs := jobs }, joined, posts)) :
    ∃ es, u.DataSlotEnded o table roster jobs posts (u.dataEnd o) es := by
  have hjoined : PostsOnly [.stationJoined] joined := by simpa [h] using (u.rosterAndTable_postsOnly o).1
  have hwindows : ∀ g ∈ (if u.control.state.serving then u.windowEvents o else []), PostsOnly windowKinds g := by
    split_ifs
    · exact u.windowEvents_postsOnly o
    · simp
  obtain ⟨heard, hheard⟩ : ∃ heard : State, heard =
    { u with table := table, roster := roster, jobs := jobs, rx := u.rx.map (fun r => r.hear o) } := ⟨_, rfl⟩
  obtain ⟨windows, answers, buffer, hacted, hidle⟩ := heard.windowsServed_eq o u.control.state.serving
  obtain ⟨gs, hgs⟩ : ∃ gs, gs = [joined, posts, u.offSlotEvents o] ++
      channelIds.map (fun c => (u.rxAt c).overrunEvents o c) ++
      (if u.control.state.serving then u.windowEvents o else []) := ⟨_, rfl⟩
  obtain ⟨timer, control, hpass, hcontrol⟩ := State.ends_eq
    { heard with windows := windows, answers := answers, buffer := buffer } 0 gs o
  have hend : u.dataEnd o =
      ((State.postGroups { heard with windows := windows, answers := answers, buffer := buffer } 0 gs).passOn
        o).nextHappening := by
    rw [State.dataEnd, ← hacted, hheard, hgs]
    simp only [h]
  rw [hend, hpass]
  subst hheard
  exact ⟨mergeAll u.happening 0 gs, rfl, rfl, rfl, rfl, rfl, rfl, rfl, rfl,
    fun k hk => eventsOf_dataEnd hgs hjoined (u.offSlotEvents_postsOnly o) hwindows _ hk, hcontrol, hidle⟩

/-! ### The end of a data slot as a command -/

theorem exec_dataSlotEnd (hp : s.passes n) (h4 : 4 ≤ n) (hlen : n < s.len) (hon : s.control.state.onTrunk = true)
    (hf : s.faultIn (s.occurrence bits) = none) (hstray : s.strayWrite bits = none) :
    exec (.dataSlotEnd bits) s = .next ((s.portEnd bits).dataEnd (s.occurrence bits)) := by
  have hends : s.dataEnds = true := by simp [State.dataEnds, State.endsAt_of_passes hp, isDataSlot, h4, hlen, hon]
  have hfinish : s.dataFinish bits = .next (s.endDataSlot bits) := by rw [State.dataFinish, hstray]
  rw [← State.endDataSlot_of_none hf, ← hfinish]
  exact if_pos hends

theorem State.exec_dataSlotEnd_ended (hp : s.passes n) (h4 : 4 ≤ n) (hlen : n < s.len) (hon : s.control.state.onTrunk = true)
    (hf : s.faultIn (s.occurrence bits) = none) (hstray : s.strayWrite bits = none) {table : Bank SlotEntry 96}
    {roster : Bank RosterEntry 31} {jobs : List Job} {joined posts : List Event}
    (h : (s.portEnd bits).rosterAndTable (s.occurrence bits) =
      ({ s.portEnd bits with table := table, roster := roster, jobs := jobs }, joined, posts)) :
    ∃ t es, exec (.dataSlotEnd bits) s = .next t ∧
      (s.portEnd bits).DataSlotEnded (s.occurrence bits) table roster jobs posts t es := by
  obtain ⟨es, hended⟩ := State.dataEnd_ended h
  exact ⟨_, es, exec_dataSlotEnd hp h4 hlen hon hf hstray, hended⟩

/-- In MEMBER and LEAVING the table acts alone on owners, and the windows are sound. -/
theorem State.exec_dataSlotEnd_served (hwin : s.windowsOk) (hp : s.passes n) (h4 : 4 ≤ n) (hlen : n < s.len)
    (hst : s.control.state = .member ∨ s.control.state = .leaving) (hd : (s.occurrence bits).duplicate s.self = false)
    {table : Bank SlotEntry 96} {roster : Bank RosterEntry 31} {jobs : List Job} {posts : List Event}
    (h : (s.portEnd bits).tableEnd (s.occurrence bits) =
      ({ s.portEnd bits with table := table, roster := roster, jobs := jobs }, posts)) :
    ∃ t es, exec (.dataSlotEnd bits) s = .next t ∧
      (s.portEnd bits).DataSlotEnded (s.occurrence bits) table roster jobs posts t es := by
  obtain ⟨hon, hj, hl⟩ : s.control.state.onTrunk = true ∧ s.control.state ≠ .joining ∧ s.control.state ≠ .listen := by
    rcases hst with hst | hst <;> simp [hst, StationState.onTrunk]
  exact State.exec_dataSlotEnd_ended hp h4 hlen hon
    (State.faultIn_eq_none hd (Occurrence.lengthFault_eq_false_of_state _ hj hl)) (State.strayWrite_eq_none hwin bits)
    (State.rosterAndTable_of_not_joining (u := s.portEnd bits) hj h)

@[simp] theorem State.portEnd_entry (s : State) (bits : SlotBits) (n : Nat) : (s.portEnd bits).entry n = s.entry n := rfl

/-- The occurrence is of a slot that the table has. -/
theorem State.occurrence_slot_lt (hp : s.passes n) (hlen : n < s.len) (h96 : s.len ≤ 96) (bits : SlotBits) :
    (s.occurrence bits).slot = n ∧ (s.occurrence bits).slot < 96 := by
  have := State.occurrence_slot_of_passes hp bits
  omega

/-! ### The steps of the allocation table (R74) -/

theorem State.setEntry_setEntry (u : State) (n : Nat) (e e' : SlotEntry) :
    (u.setEntry n e).setEntry n e' = u.setEntry n e' := by
  simp only [State.setEntry, Bank.set_set]

theorem State.entry_setEntry_same (u : State) (e : SlotEntry) (hn : n < 96) : (u.setEntry n e).entry n = e := by
  simp [State.entry_setEntry, hn]

/-- A word that is heard ends the silence run of a slot that has an owner (R75). -/
theorem State.silenceStep_of_heard (hs : o.heard ≠ .silent) (hn : o.slot < 96) :
    (u.setEntry o.slot e).silenceStep o =
      (u.setEntry o.slot { e with silence := if e.owner = none then e.silence else 0 }, []) := by
  simp only [State.silenceStep, State.entry_setEntry_same u e hn, hs, if_false, State.setEntry_setEntry]
  split
  · rename_i ho
    rw [if_pos ho]
  · rename_i k ho
    rw [if_neg (by simp [ho])]

/-- Silence short of the lapse lengthens it (R75). -/
theorem State.silenceStep_of_silent (hs : o.heard = .silent) (hn : o.slot < 96) (ho : e.owner = some k)
    (hlt : e.silence < 7) :
    (u.setEntry o.slot e).silenceStep o = (u.setEntry o.slot { e with silence := e.silence + 1 }, []) := by
  have : e.silence + 1 < Config.lapseRun := by simp only [Config.lapseRun]; omega
  simp only [State.silenceStep, State.entry_setEntry_same u e hn, ho, hs, if_true, this, State.setEntry_setEntry]

/-- A PRESENT peer's word in a slot that is neither its nor self's corrects the owner (R76). -/
theorem State.correct_of_present (hw : o.heard.dataKind = some w) (hn : o.slot < 96) (ho : e.owner ≠ some w.sender)
    (hself : w.sender ≠ u.self) (hown : e.owner ≠ some u.self) (hp : u.isPresent w.sender = true) :
    (u.setEntry o.slot e).correct o =
      (u.setEntry o.slot { e with owner := some w.sender, silence := 0 },
        [{ Event.of .slotCorrected o.frame with
           slot := some o.slot, station := some w.sender, result := e.owner.map EventResult.number }]) := by
  have hpresent : (u.setEntry o.slot e).isPresent w.sender = true := hp
  simp [State.correct, hw, State.entry_setEntry_same u e hn, ho, hself, hown, hpresent, State.setEntry_setEntry]

/-- An ABSENT one's is counted (R67). -/
theorem State.correct_of_absent (hw : o.heard.dataKind = some w) (hn : o.slot < 96) (ho : e.owner ≠ some w.sender)
    (hself : w.sender ≠ u.self) (hown : e.owner ≠ some u.self) (hp : u.isPresent w.sender = false) :
    (u.setEntry o.slot e).correct o = ((u.setEntry o.slot e).countStray w.sender, []) := by
  have habsent : (u.setEntry o.slot e).isPresent w.sender = false := hp
  simp [State.correct, hw, State.entry_setEntry_same u e hn, ho, hself, hown, habsent]

/-- The job table after the loss of slot `n` with its role (R81, R148). -/
def State.jobsAfterLoss (u : State) (role : Option Role) (n : Nat) : List Job :=
  if role = some .bulk then u.jobs.map (fun j => if j.slot = some n then j.suspend else j) else u.jobs

/-- An own slot goes to the PRESENT peer that displaced self (R79). -/
theorem State.loseSlot_of_present (hw : o.heard.dataKind = some w) (hn : o.slot < 96) (hp : u.isPresent w.sender = true) :
    (u.setEntry o.slot e).loseSlot o =
      ({ u with
          table := u.table.set o.slot { e with owner := some w.sender, silence := 0, role := none }
          jobs := u.jobsAfterLoss e.role o.slot },
        [slotLost o (some w.sender)]) := by
  have hpresent : (u.setEntry o.slot e).isPresent w.sender = true := hp
  simp only [State.loseSlot, hw, State.entry_setEntry_same u e hn, hpresent, if_true, State.setEntry_setEntry,
    State.lossNotice_eq]
  rfl

/-- The roster after a stray word, if one was heard (R67). -/
def State.rosterAfterStray (u : State) (heir : Option SlotWord) : Bank RosterEntry 31 :=
  match heir with
  | none => u.roster
  | some w => u.roster.set w.sender { u.rosterEntry w.sender with stray := satSucc 255 (u.rosterEntry w.sender).stray }

/-- Without a PRESENT heir an own slot is freed (R79). -/
theorem State.loseSlot_of_absent (hn : o.slot < 96)
    (hp : ∀ w, o.heard.dataKind = some w → u.isPresent w.sender = false) :
    (u.setEntry o.slot e).loseSlot o =
      ({ u with
          table := u.table.set o.slot e.freed
          roster := u.rosterAfterStray o.heard.dataKind
          jobs := u.jobsAfterLoss e.role o.slot },
        [slotLost o none]) := by
  have hfree : (u.setEntry o.slot e).freeSlot o.slot =
      { u with table := u.table.set o.slot e.freed, jobs := u.jobsAfterLoss e.role o.slot } := by
    rw [State.freeSlot_eq, State.entry_setEntry_same u e hn, State.setEntry_table, Bank.set_set]
    rfl
  unfold State.loseSlot
  dsimp only
  rw [hfree]
  cases hw : o.heard.dataKind with
  | none => rfl
  | some w =>
    have habsent : (u.setEntry o.slot e).isPresent w.sender = false := hp w hw
    simp only [habsent]
    rfl

/-- Outside the observation frame an entry is noted, and its owner's steps follow (R74). -/
theorem State.tableEnd_of_not_observing (ho : u.control.observing = false) :
    u.tableEnd o = (u.setEntry o.slot ((u.entry o.slot).noted o)).ownerSteps o := by
  simp [State.tableEnd, ho]

/-- In it the owner is recorded (R83). -/
theorem State.tableEnd_of_observing (ho : u.control.observing = true) (hn : o.slot < 96) :
    u.tableEnd o =
      ({ u with table := u.table.set o.slot (((u.entry o.slot).noted o).recorded o) }, []) := by
  simp only [State.tableEnd, ho, if_true, State.entry_setEntry_same u _ hn, State.setEntry_setEntry]
  rfl

/-! ### The observation frame (R41, R83) -/

/-- PRESENT marking is a matter of the roster (R66). -/
theorem State.markPresent_eq (u : State) (o : Occurrence) :
    ∃ roster joined, u.markPresent o = ({ u with roster := roster }, joined) := by
  unfold State.markPresent
  split_ifs
  · split
    · exact ⟨_, _, rfl⟩
    · split_ifs <;> exact ⟨_, _, rfl⟩
  · exact ⟨_, _, rfl⟩

/-- Roster and table, in whichever order (R67). -/
theorem State.rosterAndTable_of_observing (ho : u.control.observing = true) (hn : o.slot < 96) :
    ∃ roster joined, u.rosterAndTable o =
      ({ u with
          table := u.table.set o.slot (((u.entry o.slot).noted o).recorded o)
          roster := roster
          jobs := u.jobs }, joined, []) := by
  unfold State.rosterAndTable
  split_ifs
  · obtain ⟨roster, joined, hmark⟩ := u.markPresent_eq o
    rw [hmark, State.tableEnd_of_observing (u := { u with roster := roster }) ho hn]
    exact ⟨_, _, rfl⟩
  · rw [State.tableEnd_of_observing ho hn]
    obtain ⟨roster, joined, hmark⟩ := State.markPresent_eq
      { u with table := u.table.set o.slot (((u.entry o.slot).noted o).recorded o) } o
    rw [hmark]
    exact ⟨_, _, rfl⟩

/-! ### What an entry notes (R74) -/

theorem SlotEntry.noted_of_valid (hv : o.heard = .valid w) (ho : o.outcome ≠ some .disturbed) :
    e.noted o = { e with lastKind := some (.kind w.kind) } := by
  simp [SlotEntry.noted, hv, ho, Heard.last]

theorem SlotEntry.noted_of_disturbed (ho : o.outcome = some .disturbed) :
    e.noted o = { e with lastKind := some o.heard.last, corrupt := satSucc 255 e.corrupt } := by
  simp [SlotEntry.noted, ho]

theorem Kind.isDataKind_iff {k : Kind} :
    k.isDataKind = true ↔ k = .data ∨ k = .fill ∨ k = .head ∨ k = .bulk ∨ k = .tail := by
  cases k <;> simp [Kind.isDataKind]

theorem Heard.dataKind_of_valid {h : Heard} (hv : h = .valid w) : h.dataKind = if w.kind.isDataKind then some w else none := by
  rw [hv]; rfl

/-! ### Owners by the outcome of self's word -/

/-- Self sent nothing: silence run and correction (R75, R76). -/
theorem State.ownerSteps_of_unsent (ho : o.outcome = none) {posts : List Event} (hs : u.silenceStep o = (v, [])) {x : State}
    (hc : v.correct o = (x, posts)) : u.ownerSteps o = (x, posts) := by
  simp [State.ownerSteps, ho, hs, hc]

/-- Self was displaced in an own slot (R79). -/
theorem State.ownerSteps_of_displaced (ho : o.outcome = some .displaced) (hown : u.isOwn o.slot = true) {posts : List Event}
    (hs : u.silenceStep o = (v, [])) {x : State} (hl : v.loseSlot o = (x, posts)) : u.ownerSteps o = (x, posts) := by
  simp [State.ownerSteps, ho, hown, hs, hl]

/-- Self was disturbed: the silence run alone (R78). -/
theorem State.ownerSteps_of_disturbed (ho : o.outcome = some .disturbed) : u.ownerSteps o = u.silenceStep o := by
  simp [State.ownerSteps, ho]

/-- A displaced word met a smaller one, so that something is heard (R4). -/
theorem classify_ne_silent_of_displaced (h : outcomeOf b bits = .displaced) : classify bits ≠ .silent := by
  intro hs
  have hbits : bits = BitVec.allOnes 40 := by
    unfold classify at hs
    split_ifs at hs with hall _ hc
    · exact hall
    · split at hs <;> cases hs
    · split at hs <;> cases hs
  by_cases hne : bits = b
  · rw [hne, outcomeOf_self] at h
    cases h
  · obtain ⟨k, hk, hagree, hdiff⟩ := exists_first_difference hne
    have hone : bits.getLsbD k = true := by rw [hbits, BitVec.getLsbD_allOnes]; simpa using hk
    have hzero : b.getLsbD k = false := by simpa [hone] using hdiff
    rw [outcomeOf_first_difference hk hagree hdiff, hzero] at h
    cases h

/-- On a HEAD with destination self and self's address no window acts (R157). -/
theorem State.windowAct_of_ownHead (hw : o.heard.acceptable .head = some w) (hdest : w.headDest = u.self)
    (hself : w.sender = u.self) (n : Nat) : u.windowAct o n = (u.windowAt n).idle := by
  simp [State.windowAct, Window.act, hw, hdest, hself]

/-! ### The table's whole action on one occurrence -/

section Acts

variable (hobs : u.control.observing = false) (hn : o.slot < 96)
include hobs hn

/-- The entry after a word that is heard whole, but for its owner's steps. -/
theorem State.tableEnd_of_heard (hs : o.heard ≠ .silent) {noted : SlotEntry} (hnoted : (u.entry o.slot).noted o = noted) :
    u.tableEnd o = (u.setEntry o.slot noted).ownerSteps o ∧
      (u.setEntry o.slot noted).silenceStep o =
        (u.setEntry o.slot { noted with silence := if noted.owner = none then noted.silence else 0 }, []) :=
  ⟨by rw [State.tableEnd_of_not_observing hobs, hnoted], State.silenceStep_of_heard hs hn⟩

/-- A PRESENT peer's word in a slot that is neither its nor self's, self sending nothing (R76). -/
theorem State.tableEnd_corrected (ho : o.outcome = none) (hv : o.heard = .valid w) (hk : w.kind.isDataKind = true)
    (howner : (u.entry o.slot).owner ≠ some w.sender) (hself : w.sender ≠ u.self)
    (hown : (u.entry o.slot).owner ≠ some u.self) (hp : u.isPresent w.sender = true) :
    u.tableEnd o =
      ({ u with
          table := u.table.set o.slot
            { u.entry o.slot with owner := some w.sender, silence := 0, lastKind := some (.kind w.kind) }
          roster := u.roster
          jobs := u.jobs },
        [{ Event.of .slotCorrected o.frame with
           slot := some o.slot, station := some w.sender, result := (u.entry o.slot).owner.map EventResult.number }]) := by
  obtain ⟨hend, hsilence⟩ := State.tableEnd_of_heard hobs hn (by simp [hv])
    (SlotEntry.noted_of_valid (e := u.entry o.slot) hv (by simp [ho]))
  rw [hend]
  exact State.ownerSteps_of_unsent ho hsilence
    (State.correct_of_present ((Heard.dataKind_of_valid hv).trans (if_pos hk)) hn howner hself hown hp)

/-- An ABSENT peer's word there (R67). -/
theorem State.tableEnd_stray (ho : o.outcome = none) (hv : o.heard = .valid w) (hk : w.kind.isDataKind = true)
    (howner : (u.entry o.slot).owner ≠ some w.sender) (hself : w.sender ≠ u.self)
    (hown : (u.entry o.slot).owner ≠ some u.self) (hp : u.isPresent w.sender = false) :
    u.tableEnd o =
      ({ u with
          table := u.table.set o.slot { u.entry o.slot with
            silence := if (u.entry o.slot).owner = none then (u.entry o.slot).silence else 0
            lastKind := some (.kind w.kind) }
          roster := u.rosterAfterStray (some w)
          jobs := u.jobs }, []) := by
  obtain ⟨hend, hsilence⟩ := State.tableEnd_of_heard hobs hn (by simp [hv])
    (SlotEntry.noted_of_valid (e := u.entry o.slot) hv (by simp [ho]))
  rw [hend]
  exact State.ownerSteps_of_unsent ho hsilence
    (State.correct_of_absent ((Heard.dataKind_of_valid hv).trans (if_pos hk)) hn howner hself hown hp)

section Displaced

variable (ho : o.outcome = some .displaced) (hown : (u.entry o.slot).owner = some u.self)
include ho hown

/-- An own slot in which a PRESENT peer's word displaced self's (R79). -/
theorem State.tableEnd_lost (hv : o.heard = .valid w) (hk : w.kind.isDataKind = true) (hp : u.isPresent w.sender = true) :
    u.tableEnd o =
      ({ u with
          table := u.table.set o.slot { u.entry o.slot with
            owner := some w.sender, silence := 0, lastKind := some (.kind w.kind), role := none }
          roster := u.roster
          jobs := u.jobsAfterLoss (u.entry o.slot).role o.slot },
        [slotLost o (some w.sender)]) := by
  obtain ⟨hend, hsilence⟩ := State.tableEnd_of_heard hobs hn (by simp [hv])
    (SlotEntry.noted_of_valid (e := u.entry o.slot) hv (by simp [ho]))
  have hserved : (u.setEntry o.slot { u.entry o.slot with lastKind := some (.kind w.kind) }).isOwn o.slot = true := by
    simp [State.isOwn, State.entry_setEntry_same u _ hn, hown]
  rw [hend]
  exact State.ownerSteps_of_displaced ho hserved hsilence
    (State.loseSlot_of_present ((Heard.dataKind_of_valid hv).trans (if_pos hk)) hn hp)

/-- An own slot in which no PRESENT peer's data-kind word did (R79). -/
theorem State.tableEnd_freed (hs : o.heard ≠ .silent)
    (hp : ∀ w, o.heard.dataKind = some w → u.isPresent w.sender = false) :
    u.tableEnd o =
      ({ u with
          table := u.table.set o.slot ((u.entry o.slot).noted o).freed
          roster := u.rosterAfterStray o.heard.dataKind
          jobs := u.jobsAfterLoss (u.entry o.slot).role o.slot },
        [slotLost o none]) := by
  obtain ⟨hend, hsilence⟩ := State.tableEnd_of_heard hobs hn hs rfl
  have hserved : (u.setEntry o.slot ((u.entry o.slot).noted o)).isOwn o.slot = true := by
    simp [State.isOwn, State.entry_setEntry_same u _ hn, SlotEntry.noted, hown]
  rw [hend]
  exact State.ownerSteps_of_displaced ho hserved hsilence (State.loseSlot_of_absent hn hp)

end Displaced

/-- An own slot in which self's word was disturbed (R78). -/
theorem State.tableEnd_disturbed (ho : o.outcome = some .disturbed) (hown : (u.entry o.slot).owner = some k)
    (hlt : (u.entry o.slot).silence < 7) :
    u.tableEnd o =
      ({ u with
          table := u.table.set o.slot { u.entry o.slot with
            silence := if o.heard = .silent then (u.entry o.slot).silence + 1 else 0
            corrupt := satSucc 255 (u.entry o.slot).corrupt
            lastKind := some o.heard.last }
          roster := u.roster
          jobs := u.jobs }, []) := by
  rw [State.tableEnd_of_not_observing hobs, State.ownerSteps_of_disturbed ho, SlotEntry.noted_of_disturbed ho]
  split_ifs with hs
  · exact State.silenceStep_of_silent hs hn hown hlt
  · rw [State.silenceStep_of_heard hs hn, if_neg (by simp [hown])]
    rfl

end Acts

end Sys2Proof.Machine

open Sys2Proof Sys2Proof.Machine

/-- Settles O38: the table's steps by the outcome of self's word and by the word heard. -/
theorem ownersFollowTheLine : Obligations.OwnersFollowTheLine := by
  refine ⟨fun s h w n hwin hp h4 hlen h96 hst hobs hw hv hk hpeer howner hown => ?peer,
    fun s h n hp h4 hlen h96 hst hobs hw hpeer hmark => ?observing,
    fun s h b n hwin hp h4 hlen h96 hst hobs hw hd hpeer hown => ?displaced,
    fun s h b n hwin hp h4 hlen h96 hst hobs hw hd hown hsilence => ?disturbed⟩
  case peer =>
    obtain ⟨hslot, hn⟩ := State.occurrence_slot_lt hp hlen h96 h
    have hdata := Kind.isDataKind_iff.mpr hk
    have hout : (s.occurrence h).outcome = none := by simp [hw]
    have hdup := Occurrence.duplicate_eq_false_of_peer (o := s.occurrence h) (a := s.self) (by simpa [hv] using hpeer)
    rw [← hslot] at howner hown
    cases hpresent : s.isPresent w.sender with
    | true =>
      obtain ⟨t, es, hexec, hend⟩ := State.exec_dataSlotEnd_served hwin hp h4 hlen hst hdup
        (State.tableEnd_corrected (u := s.portEnd h) hobs hn hout hv hdata howner hpeer hown hpresent)
      refine ⟨t, es, hexec, hend.events, hend.jobs, hend.claims, hend.tx, hend.host, hend.pins, ?_⟩
      rw [if_pos rfl, hend.posts _ (by decide), ← hslot]
      exact ⟨hend.table, hend.roster, rfl⟩
    | false =>
      obtain ⟨t, es, hexec, hend⟩ := State.exec_dataSlotEnd_served hwin hp h4 hlen hst hdup
        (State.tableEnd_stray (u := s.portEnd h) hobs hn hout hv hdata howner hpeer hown hpresent)
      refine ⟨t, es, hexec, hend.events, hend.jobs, hend.claims, hend.tx, hend.host, hend.pins, ?_⟩
      rw [if_neg Bool.false_ne_true, hend.posts _ (by decide), ← hslot]
      exact ⟨hend.table, hend.roster, rfl⟩
  case observing =>
    obtain ⟨hslot, hn⟩ := State.occurrence_slot_lt hp hlen h96 h
    have hnomark : (classify h).acceptable .mark = none := Heard.acceptable_none_of_kind hmark
    have hserving : s.control.state.serving = false := by rw [hst]; rfl
    obtain ⟨roster, joined, hrt⟩ := State.rosterAndTable_of_observing (u := s.portEnd h) (o := s.occurrence h) hobs hn
    obtain ⟨t, es, hexec, hend⟩ := State.exec_dataSlotEnd_ended hp h4 hlen (by rw [hst]; rfl)
      (State.faultIn_none (Heard.carries_eq_false hpeer) hnomark) (by simp [State.strayWrite, hserving]) hrt
    refine ⟨t, es, hexec, ?_, ?_, hend.events, hend.posts _ (by decide), hend.posts _ (by decide)⟩
    · have hout : (s.occurrence h).outcome ≠ some .disturbed := by simp [hw]
      rw [hend.table, ← hslot]
      refine congrArg (s.table.set _) ?_
      simp only [SlotEntry.recorded, SlotEntry.noted, hout, or_false, State.occurrence_heard, satSucc]
      cases classify h with
      | silent => rfl
      | valid w => by_cases hk : w.kind.isDataKind = true <;> simp [Heard.dataKind, hk, Heard.last]
      | corrupt => by_cases hlt : (s.entry (s.occurrence h).slot).corrupt < 255 <;> simp [Heard.dataKind, hlt, Heard.last]
    · rw [hend.control hnomark, hslot]
      unfold StationControl.lastSlot
      split_ifs with hnext hlast
      · exact ⟨.inl, fun h => h.elim id fun h => absurd hnext (by rw [h]; exact lt_irrefl _)⟩
      · rw [State.portEnd_len] at hnext
        exact iff_of_true rfl (.inr (by omega))
      · exact absurd hobs hlast
  case displaced =>
    obtain ⟨hslot, hn⟩ := State.occurrence_slot_lt hp hlen h96 h
    have hout : (s.occurrence h).outcome = some .displaced := by simp [hw, hd]
    have hdup := Occurrence.duplicate_eq_false_of_peer (o := s.occurrence h) hpeer
    have hheard := classify_ne_silent_of_displaced hd
    have hheir : (classify h).dataKind = (match classify h with
        | .valid w => if w.kind = .data ∨ w.kind = .fill ∨ w.kind = .head ∨ w.kind = .bulk ∨ w.kind = .tail then some w
          else none
        | _ => none) := by
      cases classify h with
      | silent => rfl
      | corrupt => rfl
      | valid w => simp only [Heard.dataKind, Kind.isDataKind_iff]
    rw [← hslot] at hown
    by_cases hpresent : ∃ w, (classify h).dataKind = some w ∧ s.isPresent w.sender = true
    · obtain ⟨w, hdata, hpresent⟩ := hpresent
      obtain ⟨hv, hk⟩ := Heard.dataKind_eq_some hdata
      obtain ⟨t, es, hexec, hend⟩ := State.exec_dataSlotEnd_served hwin hp h4 hlen hst hdup
        (State.tableEnd_lost (u := s.portEnd h) hobs hn hout hown hv hk hpresent)
      refine ⟨t, es, (classify h).dataKind, hexec, hheir, fun x hx _ => ?_, fun hnone => ?_, ?_, hend.events, hend.claims,
        hend.tx, hend.host, hend.pins⟩
      · obtain rfl := Option.some.inj (hdata.symm.trans hx)
        rw [hend.posts _ (by decide), ← hslot]
        exact ⟨hend.table, hend.roster, rfl⟩
      · simp [hnone w hdata] at hpresent
      · rw [hend.jobs, hslot]
        rfl
    · have habsent : ∀ w, (classify h).dataKind = some w → s.isPresent w.sender = false := by simpa using hpresent
      obtain ⟨t, es, hexec, hend⟩ := State.exec_dataSlotEnd_served hwin hp h4 hlen hst hdup
        (State.tableEnd_freed (u := s.portEnd h) hobs hn hout hown hheard habsent)
      refine ⟨t, es, (classify h).dataKind, hexec, hheir, fun x hx hp => ?_, fun _ => ⟨?_, ?_, ?_⟩, ?_, hend.events,
        hend.claims, hend.tx, hend.host, hend.pins⟩
      · simp [habsent x hx] at hp
      · rw [hend.table, ← hslot]
        refine congrArg (s.table.set _) ?_
        simp only [SlotEntry.freed, SlotEntry.noted, hout, State.occurrence_heard, satSucc]
        cases hc : classify h with
        | silent => exact absurd hc hheard
        | valid w => simp [Heard.last]
        | corrupt => rfl
      · rw [hend.roster]
        rfl
      · rw [hend.posts _ (by decide), ← hslot]
        rfl
      · rw [hend.jobs, hslot]
        rfl
  case disturbed =>
    obtain ⟨hslot, hn⟩ := State.occurrence_slot_lt hp hlen h96 h
    have hout : (s.occurrence h).outcome = some .disturbed := by simp [hw, hd]
    have hdup := Occurrence.duplicate_eq_false_of_sent (a := s.self) hout (by simp)
    rw [← hslot] at hown hsilence
    obtain ⟨t, es, hexec, hend⟩ := State.exec_dataSlotEnd_served hwin hp h4 hlen hst hdup
      (State.tableEnd_disturbed (u := s.portEnd h) hobs hn hout hown hsilence)
    refine ⟨t, es, hexec, ?_, hend.events, ?_, fun w hv hk hwf hdest hself => ?_, hend.jobs, hend.roster, hend.claims,
      hend.tx, hend.host, hend.pins⟩
    · rw [hend.table, ← hslot]
      cases hc : classify h <;> simp [hc, Heard.last] <;> rfl
    · have hnone (k : EventKind) (hk : k ∈ tableKinds) : ∀ e ∈ es, e.kind ≠ k := by
        have := List.filter_eq_nil_iff.mp (hend.posts k hk)
        simpa using this
      exact fun e he => ⟨hnone _ (by decide) e he, hnone _ (by decide) e he, hnone _ (by decide) e he⟩
    · exact hend.idle fun n => State.windowAct_of_ownHead (Heard.acceptable_eq_some.mpr ⟨hv, hk, hwf⟩) hdest hself n
end

