-- ==== Sys2Proof/Proofs/Reads.lean ====
section
/-! The commands that read: what each reports at the taking, and that it leaves all but the host port (R68, R89, R126, R134,
R155, R175, R180). -/

namespace Sys2Proof.Machine

variable {s : State} {i : Instr} {r : TxResult}

/-! ### What the replies are read from -/

/-- Some data slots of the configured frame, picked out of all its slots. -/
theorem filter_dataSlots (len : Nat) (p : Nat → Bool) :
    (dataSlots len).filter p = (List.range len).filter (fun n => decide (4 ≤ n) && p n) := by
  simp only [dataSlots, List.filter_filter, Bool.and_comm]

/-- The slots that the table gives an address (R62). -/
theorem State.slotsOf_eq (s : State) (a : Nat) :
    s.slotsOf a = (List.range s.len).filter (fun n => decide (4 ≤ n ∧ (s.entry n).owner = some a)) := by
  simp only [State.slotsOf, filter_dataSlots, Bool.decide_and, beq_eq_decide]

/-- A channel's bound slots (R85, R112). -/
theorem State.boundSlots_eq (s : State) (c : Nat) :
    s.boundSlots c = (List.range s.len).filter (fun n => decide (4 ≤ n ∧ (s.entry n).role = some (.stream c))) := by
  simp only [State.boundSlots, filter_dataSlots, Bool.decide_and, beq_eq_decide]

/-- The place of the first thing of a kind is the number of things ahead of it. -/
theorem findIdx_eq_length_takeWhile {α : Type} (xs : List α) (p : α → Bool) :
    xs.findIdx p = (xs.takeWhile (fun x => !p x)).length := by
  rw [List.takeWhile_eq_take_findIdx_not, List.length_take]
  simp only [Bool.not_not]
  exact (Nat.min_eq_left List.findIdx_le_length).symm

/-- The event queue holds its ordinary records and at most one EVENTS_LOST record (R177). -/
theorem EventQueue.all_length (q : EventQueue) : q.all.length = q.records.length + if q.lost.isSome then 1 else 0 := by
  rw [EventQueue.all, List.length_append]
  cases q.lost <;> rfl

/-- Where the count is 1 or more, the bound on the address follows from the bound on the area's end (R175). -/
theorem memoryRange_iff (a n : Nat) : memoryRange a n = true ↔ 1 ≤ n ∧ n ≤ 64 ∧ a + n ≤ 8192 := by
  simp only [memoryRange, Config.bufferWords, Bool.and_eq_true, decide_eq_true_eq]
  omega

/-- What is no data slot of the configured frame (R10). -/
theorem isDataSlot_eq_false_iff (len n : Nat) : isDataSlot len n = false ↔ ¬(4 ≤ n ∧ n < len) := by
  rw [← Bool.not_eq_true, isDataSlot, Bool.and_eq_true, decide_eq_true_eq, decide_eq_true_eq]

/-! ### The taking of a command that reads -/

/-- A judgement that leaves the part as it is changes the host port alone. -/
theorem State.take_unchanged (hreq : s.host.state = .request) {j : State × TxResult} (hj : j = (s, r)) :
    s.take i j = s.replied i r := by
  rw [State.take_request hreq, hj]
  rfl

/-- The table of the commands that read one record or channel: refused in OFF, then out of range, and else answered. -/
theorem State.take_reading (hreq : s.host.state = .request) {outside inside : Prop} [Decidable outside] [Decidable inside]
    (hrange : outside ↔ ¬inside) {j : State × TxResult} (hj : j = (s, r)) :
    s.take i (if s.control.state = .off then s.refuse .state else if outside then s.refuse .range else j) =
      s.replied i (if s.control.state = .off then .refused .state else if inside then r else .refused .range) := by
  refine State.take_unchanged hreq ?_
  by_cases hoff : s.control.state = .off
  · rw [if_pos hoff, if_pos hoff]
    rfl
  · rw [if_neg hoff, if_neg hoff]
    by_cases hin : inside
    · rw [if_neg (fun h => hrange.mp h hin), if_pos hin, hj]
    · rw [if_pos (hrange.mpr hin), if_neg hin]
      rfl

end Sys2Proof.Machine

/-! ### What the statement asks -/

open Sys2Proof Sys2Proof.Machine

/-- Settles O16: every command that reads is judged without a change, by the first line of its table that applies. -/
theorem readsReportAndChangeNothing : Obligations.ReadsReportAndChangeNothing := by
  intro s hreq
  refine ⟨fun a => congrArg _ (State.take_reading hreq Iff.rfl ?readRoster),
    fun n => congrArg _ (State.take_reading hreq (isDataSlot_eq_false_iff s.len n) ?readSlot),
    fun c => ⟨congrArg _ (State.take_reading hreq Nat.not_lt.symm ?txChannel),
      congrArg _ (State.take_reading hreq Nat.not_lt.symm rfl)⟩,
    fun id => congrArg _ (State.take_reading hreq Nat.not_lt.symm ?bulkStatus),
    fun w => congrArg _ (State.take_reading hreq Nat.not_lt.symm ?windowStatus),
    fun a n => congrArg _ (State.take_unchanged hreq ?memoryRead), congrArg _ (State.take_unchanged hreq ?status)⟩
  case readRoster =>
    rw [State.heldCount, State.slotsOf_eq, beq_eq_decide]
    rfl
  case readSlot =>
    rw [State.isOwn, beq_eq_decide]
    rfl
  case txChannel =>
    rw [State.channelData, State.boundSlots_eq]
    rfl
  case bulkStatus =>
    cases s.job id with
    | none => rfl
    | some j =>
      rw [State.postedBefore, findIdx_eq_length_takeWhile]
      rfl
  case windowStatus =>
    rw [AnswerQueue.ahead, findIdx_eq_length_takeWhile]
    rfl
  case memoryRead =>
    rw [State.judgeMemoryRead]
    by_cases h : memoryRange a n = true
    · rw [if_pos h, if_pos ((memoryRange_iff a n).mp h)]
      rfl
    · rw [if_neg h, if_neg (mt (memoryRange_iff a n).mpr h)]
      rfl
  case status =>
    rw [State.judgeStatus, State.statusData, State.holdings, State.heldCount, State.slotsOf_eq, EventQueue.all_length]
    by_cases hoff : s.control.state = .off
    · simp only [if_pos hoff]
      rfl
    · simp only [if_neg hoff]
      rfl
end

