-- ==== Sys2Proof/Proofs/Replies.lean ====
section
/-! The port words of replies and events: where fields packed into 24-bit words stand (R186, R188). -/

namespace Sys2Proof.Machine

/-! ### Fields packed into words (R188) -/

/-- The fields of a list, one below the other from bit `top` of a word downwards, as a number. -/
def placedFields : List Field → Nat → Nat
  | [], _ => 0
  | f :: fs, top => f.2 % 2 ^ f.1 * 2 ^ (top - f.1) + placedFields fs (top - f.1)

@[simp] theorem placedFields_nil (top : Nat) : placedFields [] top = 0 := rfl

@[simp] theorem placedFields_cons (f : Field) (fs : List Field) (top : Nat) :
    placedFields (f :: fs) top = f.2 % 2 ^ f.1 * 2 ^ (top - f.1) + placedFields fs (top - f.1) := rfl

/-- The word that holds a list of fields from bit 1 on. -/
def fieldWord (fs : List Field) : PortWord := BitVec.ofNat 24 (placedFields fs 24)

@[simp] theorem fieldBits_nil : fieldBits [] = 0 := rfl

@[simp] theorem fieldBits_cons (f : Field) (fs : List Field) : fieldBits (f :: fs) = f.1 + fieldBits fs := rfl

/-- Fields that fit below bit `top` do not reach beyond it. -/
theorem placedFields_lt {fs : List Field} : ∀ {top : Nat}, fieldBits fs ≤ top → placedFields fs top < 2 ^ top := by
  induction fs with
  | nil => intro top _; exact Nat.two_pow_pos top
  | cons f fs ih =>
    intro top h
    rw [fieldBits_cons] at h
    have hrest := ih (top := top - f.1) (by omega)
    have hvalue : f.2 % 2 ^ f.1 + 1 ≤ 2 ^ f.1 := Nat.mod_lt _ (Nat.two_pow_pos f.1)
    calc placedFields (f :: fs) top
      _ < (f.2 % 2 ^ f.1 + 1) * 2 ^ (top - f.1) := by rw [placedFields_cons, Nat.succ_mul]; omega
      _ ≤ 2 ^ f.1 * 2 ^ (top - f.1) := Nat.mul_le_mul_right _ hvalue
      _ = 2 ^ top := by rw [← pow_add, Nat.add_sub_cancel' (by omega)]

/-- A word of fields is read as their number. -/
theorem fieldWord_toNat {fs : List Field} (h : fieldBits fs ≤ 24) : (fieldWord fs).toNat = placedFields fs 24 := by
  rw [fieldWord, BitVec.toNat_ofNat, Nat.mod_eq_of_lt (placedFields_lt h)]

/-- One more field below the bits that stand in a word already. -/
theorem packed_place (f : Field) {used : Nat} (acc rest : Nat) (h : used + f.1 ≤ 24) :
    (acc * 2 ^ f.1 + f.2 % 2 ^ f.1) * 2 ^ (24 - (used + f.1)) + rest =
      acc * 2 ^ (24 - used) + (f.2 % 2 ^ f.1 * 2 ^ (24 - used - f.1) + rest) := by
  have hsplit : 2 ^ (24 - used) = 2 ^ f.1 * 2 ^ (24 - (used + f.1)) := by rw [← pow_add]; congr 1; omega
  rw [hsplit, Nat.sub_sub]
  ring

/-- Fields that fit in the present word stand in it below what it holds; the word ends there when no field follows. -/
theorem packWords_of_fit {fs : List Field} : ∀ {used acc : Nat}, 0 < used + fieldBits fs → used + fieldBits fs ≤ 24 →
    packWords fs used acc = [BitVec.ofNat 24 (acc * 2 ^ (24 - used) + placedFields fs (24 - used))] := by
  induction fs with
  | nil =>
    intro used acc hpos _
    rw [fieldBits_nil, Nat.add_zero] at hpos
    rw [packWords, if_neg (by omega), placedFields_nil, Nat.add_zero]
  | cons f fs ih =>
    intro used acc hpos hfit
    rw [fieldBits_cons] at hpos hfit
    rw [packWords, if_pos (by omega), ih (by omega) (by omega), placedFields_cons, Nat.sub_sub,
      packed_place f acc _ (by omega), Nat.sub_sub]

/-- A field that does not fit in the rest of the present word begins the next. -/
theorem packWords_of_overflow {fs gs : List Field} {g : Field} (hg : g.1 ≤ 24) : ∀ {used acc : Nat},
    used + fieldBits fs ≤ 24 → 24 < used + fieldBits fs + g.1 →
    packWords (fs ++ g :: gs) used acc =
      BitVec.ofNat 24 (acc * 2 ^ (24 - used) + placedFields fs (24 - used)) :: packWords (g :: gs) 0 0 := by
  have hnext : packWords (g :: gs) 0 0 = packWords gs g.1 (g.2 % 2 ^ g.1) := by
    rw [packWords, if_pos (by omega), Nat.zero_add, Nat.zero_mul, Nat.zero_add]
  induction fs with
  | nil =>
    intro used acc _ hover
    rw [fieldBits_nil, Nat.add_zero] at hover
    rw [List.nil_append, hnext, packWords, if_neg (by omega), placedFields_nil, Nat.add_zero]
  | cons f fs ih =>
    intro used acc hfit hover
    rw [fieldBits_cons] at hfit hover
    rw [List.cons_append, packWords, if_pos (by omega), ih (by omega) (by omega), placedFields_cons, Nat.sub_sub,
      packed_place f acc _ (by omega), Nat.sub_sub]

/-- Fields that fit in one word. -/
theorem packWords_one {fs : List Field} (hpos : 0 < fieldBits fs) (hfit : fieldBits fs ≤ 24) :
    packWords fs 0 0 = [fieldWord fs] := by
  rw [packWords_of_fit (by omega) (by omega), Nat.zero_mul, Nat.zero_add]
  rfl

/-- Fields that fill one word and begin a second. -/
theorem packWords_two {fs gs : List Field} {g : Field} (hfit : fieldBits fs ≤ 24) (hover : 24 < fieldBits fs + g.1)
    (hrest : fieldBits (g :: gs) ≤ 24) : packWords (fs ++ g :: gs) 0 0 = [fieldWord fs, fieldWord (g :: gs)] := by
  have hbits := fieldBits_cons g gs
  rw [packWords_of_overflow (by omega) (by omega) (by omega), Nat.zero_mul, Nat.zero_add,
    packWords_one (by omega) hrest]
  rfl

/-! ### Kinds of fields (R186) -/

@[simp] theorem flagField_width (b : Bool) : (flagField b).1 = 1 := rfl

@[simp] theorem flagField_value (b : Bool) : (flagField b).2 % 2 = b.toNat := by cases b <;> rfl

@[simp] theorem stationField_width (a : Option Nat) : (stationField a).1 = 5 := rfl

@[simp] theorem stationField_value (a : Option Nat) : (stationField a).2 = a.getD 0 := rfl

@[simp] theorem optField_width (width : Nat) (v : Option Nat) : (optField width v).1 = width + 1 := by cases v <;> rfl

/-- The presence bit stands above the value, and an absent field is all zeros. -/
theorem optField_placed (width low : Nat) {presence : Nat} (h : presence = width + low) (v : Option Nat) :
    (optField width v).2 % 2 ^ (width + 1) * 2 ^ low = v.elim 0 (fun x => 2 ^ presence + x % 2 ^ width * 2 ^ low) := by
  cases v with
  | none => simp [optField]
  | some x =>
    have hvalue := Nat.mod_lt x (Nat.two_pow_pos width)
    have hfield : 2 ^ width + x % 2 ^ width < 2 ^ (width + 1) := by rw [pow_succ]; omega
    rw [optField, Nat.mod_eq_of_lt hfield, Nat.add_mul, ← pow_add, ← h]
    rfl

/-! ### Codes (R186, R188) -/

theorem StationState.code_lt (st : StationState) : st.code < 16 := by cases st <;> decide

theorem EventKind.code_lt (k : EventKind) : k.code < 64 := by cases k <;> decide

theorem Reason.code_lt (x : Reason) : x.code < 16 := by cases x <;> decide

theorem TxResult.statusCode_lt (r : TxResult) : r.statusCode < 4 := by cases r <;> simp [TxResult.statusCode]

theorem TxResult.reasonField_lt (r : TxResult) : r.reasonField < 16 := by
  cases r with
  | done d => exact Nat.zero_lt_succ _
  | accepted d => exact Nat.zero_lt_succ _
  | refused x => exact x.code_lt

/-! ### Header word 1 of a reply (R188) -/

/-- Words written one after the other are read as numbers placed one above the other. -/
theorem toNat_append_eq_add {m n : Nat} (x : BitVec m) (y : BitVec n) : (x ++ y).toNat = x.toNat * 2 ^ n + y.toNat := by
  rw [BitVec.toNat_append, ← Nat.shiftLeft_add_eq_or_of_lt y.isLt, Nat.shiftLeft_eq]

/-- Kind, status, reason and frame number, from bit 1 on. -/
theorem Reply.header_toNat (r : Reply) :
    r.header.toNat =
      r.kind.toNat * 2 ^ 20 + r.result.statusCode * 2 ^ 18 + r.result.reasonField * 2 ^ 14 + r.frame % 256 * 2 ^ 6 := by
  rw [Reply.header, toNat_append_eq_add, toNat_append_eq_add, toNat_append_eq_add, toNat_append_eq_add,
    toNat_ofNat_of_lt r.result.statusCode_lt, toNat_ofNat_of_lt r.result.reasonField_lt, BitVec.toNat_ofNat,
    BitVec.toNat_ofNat]
  omega

/-! ### Receive entries and event records (R188) -/

theorem RxEntry.words_eq (e : RxEntry) :
    e.words = [fieldWord [(8, e.frame), (3, e.content.gapCode)], e.content.valueWord] := by
  rw [RxEntry.words, packWords_one (by simp) (by simp)]
  rfl

@[simp] theorem Event.presence_bits (e : Event) : fieldBits e.presence = 8 := rfl

theorem Event.words_eq (e : Event) :
    e.words =
      [fieldWord ((6, e.kind.code) :: (8, e.frame) :: e.presence),
       fieldWord [(7, e.slot.getD 0), (5, e.station.getD 0), (3, e.channel.getD 0), (2, e.job.getD 0), (2, e.window.getD 0)],
       fieldWord [(8, e.tag.getD 0), (8, (e.result.map EventResult.code).getD 0)],
       fieldWord [(16, e.count.getD 0)]] := by
  rw [Event.words, packWords_one (by simp) (by simp), packWords_one (by simp) (by simp), packWords_one (by simp) (by simp),
    packWords_one (by simp) (by simp)]
  rfl

/-! ### Record replies (R188) -/

/-- A reply of fields alone. -/
theorem ReplyData.dataWords_of_record {d : ReplyData} (h : d.following = []) : d.dataWords = packWords d.fields 0 0 := by
  rw [ReplyData.dataWords, h, List.append_nil]

/-- A reply whose fields fit in one word, with the words that follow. -/
theorem ReplyData.dataWords_of_fit {d : ReplyData} (hpos : 0 < fieldBits d.fields) (hfit : fieldBits d.fields ≤ 24) :
    d.dataWords = fieldWord d.fields :: d.following := by
  rw [ReplyData.dataWords, packWords_one hpos hfit]
  rfl

/-- A reply of one field, with the words that follow. -/
theorem ReplyData.dataWords_of_field {d : ReplyData} {width value : Nat} (h : d.fields = [(width, value)])
    (hpos : 0 < width) (hfit : width ≤ 24) :
    d.dataWords = BitVec.ofNat 24 (value % 2 ^ width * 2 ^ (24 - width)) :: d.following := by
  rw [ReplyData.dataWords_of_fit (by simpa [h] using hpos) (by simpa [h] using hfit), h, fieldWord, placedFields_cons,
    placedFields_nil, Nat.add_zero]

theorem ReplyData.status_words (st : StationState) (addr len holder : Option Nat) (frame held queued records : Nat) :
    (ReplyData.status st addr len frame holder held queued records).dataWords =
      [fieldWord [(4, st.code), stationField addr, optField 2 (len.map codeOfLength), (8, frame)],
       fieldWord [stationField holder, (5, held), (4, queued), (6, records)]] :=
  (ReplyData.dataWords_of_record rfl).trans
    (packWords_two (fs := [_, _, _, _]) (by simp) (by simp) (by simp))

theorem ReplyData.roster_words (a slots : Nat) (isSelf : Bool) (e : RosterEntry) :
    (ReplyData.roster a isSelf e slots).dataWords =
      [fieldWord [(5, a), flagField isSelf, flagField e.present, (2, e.missed), optField 5 e.held,
         optField 1 (e.eligible.map Bool.toNat)],
       fieldWord [optField 8 e.lastRoll, (8, e.stray), (7, slots)]] :=
  (ReplyData.dataWords_of_record rfl).trans
    (packWords_two (fs := [_, _, _, _, _, _]) (by simp) (by simp) (by simp))

end Sys2Proof.Machine

/-! ### What the statement asks -/

open Sys2Proof Sys2Proof.Machine

/-- Settles O11: each word is the number of its fields, placed from bit 1 on. -/
theorem replyAndEventLayouts : Obligations.ReplyAndEventLayouts := by
  refine ⟨fun r => ?header, fun e => ?event, rfl, fun n => ⟨rfl, rfl⟩, rfl,
    fun st addr len holder frame held queued records hlen => ?status, fun n => ⟨?tag, ?job, ?accepted, ?written⟩,
    fun ws => ?words, fun es => ?entries, fun es left => ?events, fun a slots isSelf e => ?roster⟩
  case header =>
    have hheader := r.header_toNat
    have hstatus := r.result.statusCode_lt
    have hreason := r.result.reasonField_lt
    refine ⟨r.header, r.result.dataWords, rfl, by omega, ?_, ?_, by omega, by omega, ?_⟩
    · rw [show r.header.toNat / 2 ^ 18 % 4 = r.result.statusCode by omega]
      cases r.result <;> rfl
    · rw [show r.header.toNat / 2 ^ 14 % 16 = r.result.reasonField by omega]
      cases r.result with
      | done d => rfl
      | accepted d => rfl
      | refused x => cases x <;> rfl
    · cases r.result <;> rfl
  case event =>
    refine ⟨_, _, _, _, e.words_eq, ?_, ?_, ?_, ?_⟩
    · rw [fieldWord_toNat (by simp)]
      simp [Event.presence, Nat.mod_eq_of_lt e.kind.code_lt, Nat.add_assoc]
    · rw [fieldWord_toNat (by simp)]
      simp [Nat.add_assoc]
    · rw [fieldWord_toNat (by simp)]
      simp
    · rw [fieldWord_toNat (by simp)]
      simp
  case status =>
    have hstate : st.code = [StationState.off, .listen, .joining, .member, .leaving, .detached, .fault].idxOf st + 1 := by
      cases st <;> rfl
    refine ⟨_, _, ReplyData.status_words .., ?_, ?_⟩
    · rw [fieldWord_toNat (by simp), ← hstate]
      calc placedFields _ 24
        _ = st.code * 2 ^ 20 + addr.getD 0 % 32 * 2 ^ 15 + (optField 2 (len.map codeOfLength)).2 % 8 * 2 ^ 12 +
            frame % 256 * 2 ^ 4 := by simp [Nat.mod_eq_of_lt st.code_lt, Nat.add_assoc]
        _ = _ := by
          cases len with
          | none => rfl
          | some x => obtain rfl | rfl | rfl := hlen x rfl <;> rfl
    · rw [fieldWord_toNat (by simp)]
      simp [Nat.add_assoc]
  case tag => exact ReplyData.dataWords_of_field (width := 8) rfl (by decide) (by decide)
  case job => exact ReplyData.dataWords_of_field (width := 2) rfl (by decide) (by decide)
  case accepted => exact ReplyData.dataWords_of_field (width := 5) rfl (by decide) (by decide)
  case written => exact ReplyData.dataWords_of_field (width := 7) rfl (by decide) (by decide)
  case words => exact ReplyData.dataWords_of_field (width := 7) rfl (by decide) (by decide)
  case entries =>
    refine (ReplyData.dataWords_of_field (width := 5) rfl (by decide) (by decide)).trans
      (congrArg (List.cons _) (congrArg (List.flatMap · es) (funext fun e => ?_)))
    rw [e.words_eq]
    cases e.content with
    | value v => simp [fieldWord, RxContent.gapCode, RxContent.valueWord]
    | gap g => cases g <;> simp [fieldWord, RxContent.gapCode, RxContent.valueWord]
  case events =>
    rw [ReplyData.dataWords_of_fit (by simp [ReplyData.fields]) (by simp [ReplyData.fields])]
    simp [ReplyData.fields, ReplyData.following, fieldWord]
  case roster =>
    have hheld := optField_placed 5 9 (presence := 14) rfl e.held
    have hroll := optField_placed 8 15 (presence := 23) rfl e.lastRoll
    refine ⟨_, _, ReplyData.roster_words .., ?_, ?_⟩
    · rw [fieldWord_toNat (by simp)]
      calc placedFields _ 24
        _ = a % 32 * 2 ^ 19 + isSelf.toNat * 2 ^ 18 + e.present.toNat * 2 ^ 17 + e.missed % 4 * 2 ^ 15 +
            (optField 5 e.held).2 % 2 ^ 6 * 2 ^ 9 + (optField 1 (e.eligible.map Bool.toNat)).2 % 4 * 2 ^ 7 := by
          simp [Nat.add_assoc]
        _ = _ := by
          rw [hheld]
          cases e.held <;> rcases e.eligible with _ | _ | _ <;> rfl
    · rw [fieldWord_toNat (by simp)]
      calc placedFields _ 24
        _ = (optField 8 e.lastRoll).2 % 2 ^ 9 * 2 ^ 15 + e.stray % 256 * 2 ^ 7 + slots % 128 := by simp [Nat.add_assoc]
        _ = _ := by
          rw [hroll]
          cases e.lastRoll <;> rfl
end

