-- ==== Sys2Proof/Proofs/ClaimLimit.lean ====
section
/-! The claim limit (R71, R94): only CLAIM adds a record that counts, only a SLOT or ANY word of self's own gives self a slot,
and such a word has left room for its slot, in MEMBER by the record that it answers. -/

namespace Sys2Proof.Machine

variable {s t u v : State} {o : Occurrence} {w : SlotWord} {n : Nat} {bits b : SlotBits} {r : ClaimRecord} {e : SlotEntry}

/-! ### What counts against the limit -/

/-- The queued records that count against the limit (R94). -/
def State.countedClaims (s : State) : Nat := (s.claims.records.filter ClaimRecord.counted).length

theorem State.limitCount_eq (s : State) : s.limitCount = s.holdings + s.countedClaims := rfl

theorem State.holdings_eq (s : State) : s.holdings = ((dataSlots s.len).filter s.isOwn).length := rfl

theorem State.dataSlots_congr (hc : v.control.config = u.control.config) : dataSlots v.len = dataSlots u.len := by
  simp only [State.len, hc]

/-- Fewer own slots are fewer holdings. -/
theorem State.holdings_le (hc : v.control.config = u.control.config) (ho : ∀ n, v.isOwn n = true → u.isOwn n = true) :
    v.holdings ≤ u.holdings := by
  rw [State.holdings_eq, State.holdings_eq, State.dataSlots_congr hc]
  exact (List.monotone_filter_right _ ho).length_le

/-- One own slot more is at most one holding more. -/
theorem State.holdings_le_succ (hc : v.control.config = u.control.config)
    (ho : ∀ m, v.isOwn m = true → m = n ∨ u.isOwn m = true) : v.holdings ≤ u.holdings + 1 := by
  rw [State.holdings_eq, State.holdings_eq, State.dataSlots_congr hc, ← List.length_cons (a := n)]
  refine (((List.nodup_range.filter _).filter _).subperm fun m hm => ?_).length_le
  rw [List.mem_filter] at hm
  obtain ⟨hdata, hown⟩ := hm
  rcases ho m hown with rfl | hold
  · exact List.mem_cons_self ..
  · exact List.mem_cons_of_mem _ (List.mem_filter.mpr ⟨hdata, hold⟩)

/-- A cleared table gives self no slot. -/
theorem State.isOwn_of_cleared (ht : v.table = Bank.fill 96 SlotEntry.reset) (n : Nat) : v.isOwn n = false := by
  rw [State.isOwn, State.entry, ht, Bank.get_fill]
  rfl

/-! ### Operations that take no more -/

/-- From `u` to `v` self comes to own no slot, no record that counts is queued, and no word is put on the line. -/
structure State.TakesNoMore (u v : State) : Prop where
  config : v.control.config = u.control.config
  own : ∀ n, v.isOwn n = true → u.isOwn n = true
  claims : v.countedClaims ≤ u.countedClaims
  silent : u.port.word = none → v.port.word = none

theorem State.TakesNoMore.trans (h : s.TakesNoMore u) (h' : u.TakesNoMore v) : s.TakesNoMore v :=
  ⟨h'.config.trans h.config, fun n hn => h.own n (h'.own n hn), h'.claims.trans h.claims, fun hs => h'.silent (h.silent hs)⟩

theorem State.TakesNoMore.limitCount_le (h : u.TakesNoMore v) : v.limitCount ≤ u.limitCount :=
  Nat.add_le_add (State.holdings_le h.config h.own) h.claims

/-- Table, queue, configuration and the word on the line stay. -/
theorem State.TakesNoMore.of_same (ht : v.table = u.table) (hc : v.control.config = u.control.config)
    (hq : v.claims = u.claims) (hw : v.port.word = u.port.word) : u.TakesNoMore v where
  config := hc
  own := fun n hn => by
    simp only [State.isOwn, State.entry, State.self, ht, hc] at hn ⊢
    exact hn
  claims := by simp only [State.countedClaims, hq, le_refl]
  silent := fun hs => by rw [hw, hs]

theorem State.TakesNoMore.refl (u : State) : u.TakesNoMore u := .of_same rfl rfl rfl rfl

/-- The table is cleared, and the queue does not grow. -/
theorem State.TakesNoMore.of_cleared (ht : v.table = Bank.fill 96 SlotEntry.reset)
    (hc : v.control.config = u.control.config) (hq : v.countedClaims ≤ u.countedClaims)
    (hw : u.port.word = none → v.port.word = none) : u.TakesNoMore v :=
  ⟨hc, fun n hn => by simp [State.isOwn_of_cleared ht] at hn, hq, hw⟩

/-- A slot's entry is written, and the slot is self's only if it was before. -/
theorem State.TakesNoMore.setEntry (h : e.owner = some u.self → u.isOwn n = true) : u.TakesNoMore (u.setEntry n e) where
  config := rfl
  own := fun m hm => by
    rw [State.isOwn_iff, State.entry_setEntry] at hm
    split_ifs at hm with hc
    · exact hc.1 ▸ h hm
    · exact State.isOwn_iff.mpr hm
  claims := le_refl _
  silent := id

/-- Its owner stays, or another station's or nobody's it becomes. -/
theorem State.TakesNoMore.setEntry_owner (h : e.owner = (u.entry n).owner ∨ e.owner ≠ some u.self) :
    u.TakesNoMore (u.setEntry n e) :=
  .setEntry fun ho => State.isOwn_iff.mpr (h.elim (fun hsame => hsame ▸ ho) (fun hother => absurd ho hother))

theorem State.takesNoMore_lossNotice (u : State) (role : Option Role) (n : Nat) : u.TakesNoMore (u.lossNotice role n) := by
  rw [State.lossNotice_eq]
  exact .of_same rfl rfl rfl rfl

/-- A slot is freed (R73). -/
theorem State.takesNoMore_freeSlot (u : State) (n : Nat) : u.TakesNoMore (u.freeSlot n) :=
  (State.TakesNoMore.setEntry_owner (.inr (by simp [SlotEntry.freed]))).trans (State.takesNoMore_lossNotice ..)

/-- Every slot of a peer is freed (R63, R65). -/
theorem State.takesNoMore_freeAllOf (u : State) (a : Nat) : u.TakesNoMore (u.freeAllOf a) where
  config := rfl
  own := fun n hn => by
    have hentry : (u.freeAllOf a).entry n = if (u.entry n).owner = some a then (u.entry n).freed else u.entry n :=
      Bank.get_map _ _ _ _ (by simp [SlotEntry.reset])
    rw [State.isOwn_iff, hentry] at hn
    split_ifs at hn
    · simp [SlotEntry.freed] at hn
    · exact State.isOwn_iff.mpr hn
  claims := le_refl _
  silent := id

theorem State.takesNoMore_enterFault (u : State) (cause : FaultCause) : u.TakesNoMore (u.enterFault cause) :=
  .of_cleared rfl rfl (Nat.zero_le _) (fun _ => rfl)

theorem State.takesNoMore_postAll (u : State) (es : List Event) : u.TakesNoMore (u.postAll es) := .of_same rfl rfl rfl rfl

/-- The passage to the next occurrence (R17). -/
theorem State.takesNoMore_passOn (u : State) (o : Occurrence) : u.TakesNoMore (u.passOn o).nextHappening := by
  obtain ⟨_, _, heq, -, hc, -⟩ := u.passOn_eq o
  rw [heq]
  exact .of_same rfl hc rfl rfl

/-- An occurrence ends whose blocks have taken no more. -/
theorem State.TakesNoMore.ends (h : s.TakesNoMore u) (base : Nat) (gs : List (List Event)) (o : Occurrence) :
    s.TakesNoMore ((u.postGroups base gs).passOn o).nextHappening :=
  h.trans ((State.takesNoMore_postAll u _).trans (State.takesNoMore_passOn ..))

/-! ### Slot 0 -/

theorem State.takesNoMore_foundingEnd (u : State) (o : Occurrence) : u.TakesNoMore (u.foundingEnd o) := by
  unfold State.foundingEnd
  split_ifs
  · split
    · exact .of_same rfl rfl rfl rfl
    · exact .of_same rfl rfl rfl rfl
  · exact .of_same rfl rfl rfl rfl

theorem State.takesNoMore_holderEnd (u : State) (o : Occurrence) : u.TakesNoMore (u.holderEnd o).1 := by
  unfold State.holderEnd
  split_ifs
  · split
    · split_ifs <;> exact .of_same rfl rfl rfl rfl
    · exact .of_same rfl rfl rfl rfl
  · exact .refl u

theorem State.takesNoMore_missMark (u : State) : u.TakesNoMore u.missMark.1 := by
  rcases u.missMark_cases with h | h <;> rw [h] <;> exact .of_same rfl rfl rfl rfl

theorem State.takesNoMore_markEnd (u : State) (o : Occurrence) : u.TakesNoMore (u.markEnd o) := by
  unfold State.markEnd
  split
  · exact (u.takesNoMore_holderEnd o).trans ((State.takesNoMore_postAll ..).trans (State.takesNoMore_passOn ..))
  · split
    · exact .trans (u := u.follow _) (.of_same rfl rfl rfl rfl)
        ((State.takesNoMore_postAll ..).trans (State.takesNoMore_passOn ..))
    · split_ifs
      · exact .of_cleared rfl rfl (le_refl _) id
      · exact u.takesNoMore_missMark.ends _ _ o

theorem State.takesNoMore_endMarkSlot (s : State) (bits : SlotBits) :
    (s.portEnd bits).TakesNoMore (s.endMarkSlot bits) := by
  unfold State.endMarkSlot
  dsimp only
  split
  · exact (State.takesNoMore_postAll ..).trans (State.takesNoMore_enterFault ..)
  · split_ifs
    · exact State.takesNoMore_foundingEnd ..
    · exact State.takesNoMore_markEnd ..

/-! ### Slot 1 -/

theorem State.takesNoMore_peerTurn (u : State) (o : Occurrence) (a : Nat) : u.TakesNoMore (u.peerTurn o a).1 := by
  have freed (x : RosterEntry) : u.TakesNoMore ((u.setRoster a x).freeAllOf a) :=
    .trans (u := u.setRoster a x) (.of_same rfl rfl rfl rfl) (State.takesNoMore_freeAllOf ..)
  unfold State.peerTurn
  split
  · split_ifs
    · exact freed _
    · exact .of_same rfl rfl rfl rfl
  · unfold State.rollMissed
    split_ifs
    · exact .of_same rfl rfl rfl rfl
    · exact freed _
    · exact .refl u

theorem State.takesNoMore_rollTurn (u : State) (o : Occurrence) : u.TakesNoMore (u.rollTurn o).1 := by
  unfold State.rollTurn
  split_ifs
  · unfold State.ownTurn
    split
    · split <;> exact .of_same rfl rfl rfl rfl
    · exact .refl u
    · exact .refl u
  · exact State.takesNoMore_peerTurn ..

theorem State.takesNoMore_rollTimer (u : State) (o : Occurrence) : u.TakesNoMore (u.rollTimer o).1 := by
  rcases u.rollTimer_cases o with h | h | h <;> rw [h] <;> exact .of_same rfl rfl rfl rfl

theorem State.takesNoMore_endRollSlot (s : State) (bits : SlotBits) :
    (s.portEnd bits).TakesNoMore (s.endRollSlot bits) := by
  unfold State.endRollSlot
  dsimp only
  split
  · exact (State.takesNoMore_postAll ..).trans (State.takesNoMore_enterFault ..)
  · split_ifs with hl
    · have hst : s.control.state = .leaving := by
        simp only [State.leavesNow, Bool.and_eq_true, beq_iff_eq] at hl
        exact hl.1
      obtain ⟨timer, _, heq, -⟩ := State.leaveTrunk_eq (u := s.portEnd bits) hst (s.occurrence bits)
      rw [heq]
      exact .of_cleared rfl rfl (Nat.zero_le _) (fun _ => rfl)
    · exact ((State.takesNoMore_rollTurn ..).trans (State.takesNoMore_rollTimer ..)).ends _ _ _

/-! ### Slot 3 -/

theorem State.takesNoMore_answerOutcome (u : State) (o : Occurrence) : u.TakesNoMore (u.answerOutcome o).1 := by
  unfold State.answerOutcome
  split
  · exact .of_same rfl rfl rfl rfl
  · split_ifs <;> exact .of_same rfl rfl rfl rfl

theorem State.takesNoMore_applyAnswer (u : State) (o : Occurrence) : u.TakesNoMore (u.applyAnswer o).1 := by
  unfold State.applyAnswer
  split <;> exact .of_same rfl rfl rfl rfl

theorem State.takesNoMore_endAnswerSlot (s : State) (bits : SlotBits) :
    (s.portEnd bits).TakesNoMore (s.endAnswerSlot bits) := by
  have hown := State.takesNoMore_answerOutcome (s.portEnd bits) (s.occurrence bits)
  unfold State.endAnswerSlot
  dsimp only
  split
  · exact (State.takesNoMore_postAll ..).trans (State.takesNoMore_enterFault ..)
  · unfold State.answerEnd
    dsimp only
    split_ifs
    · exact (hown.trans (State.takesNoMore_applyAnswer ..)).ends _ _ _
    · exact hown.ends _ _ _

/-! ### Data slots -/

/-- The observation frame records peers alone (R83). -/
theorem State.takesNoMore_recorded (hd : u.DataHeard o) (ho : u.control.observing = true) :
    u.TakesNoMore (u.setEntry o.slot ((u.entry o.slot).recorded o)) := by
  refine .setEntry_owner (.inr fun hk => ?_)
  obtain ⟨w, hw, hself⟩ := Option.map_eq_some_iff.mp hk
  exact hd.peer (.inl (hd.observing ho).1) w (Heard.dataKind_eq_some hw).1 hself

theorem State.takesNoMore_silenceStep (u : State) (o : Occurrence) : u.TakesNoMore (u.silenceStep o).1 := by
  unfold State.silenceStep
  dsimp only
  split
  · exact .refl u
  · split_ifs
    · exact .setEntry_owner (.inl rfl)
    · exact State.takesNoMore_freeSlot ..
    · exact .setEntry_owner (.inl rfl)

/-- Correction gives self no slot (R76). -/
theorem State.takesNoMore_correct (u : State) (o : Occurrence) : u.TakesNoMore (u.correct o).1 := by
  unfold State.correct
  split
  · exact .refl u
  · dsimp only
    split_ifs with hkeep
    · exact .refl u
    · refine .setEntry_owner (.inr fun hself => hkeep (.inr (.inl ?_)))
      exact Option.some.inj hself
    · exact .of_same rfl rfl rfl rfl

/-- A displaced slot goes to a peer or to nobody (R79). -/
theorem State.takesNoMore_loseSlot (hd : u.DataHeard o) (ho : o.outcome = some .displaced) :
    u.TakesNoMore (u.loseSlot o).1 := by
  unfold State.loseSlot
  dsimp only
  split
  · exact State.takesNoMore_freeSlot ..
  · rename_i w hw
    split_ifs
    · refine State.TakesNoMore.trans (.setEntry_owner (.inr fun hself => ?_)) (State.takesNoMore_lossNotice ..)
      exact hd.peer (.inr ho) w (Heard.dataKind_eq_some hw).1 (Option.some.inj hself)
    · exact (State.takesNoMore_freeSlot u o.slot).trans (.of_same rfl rfl rfl rfl)

theorem State.takesNoMore_ownerSteps (hd : u.DataHeard o) : u.TakesNoMore (u.ownerSteps o).1 := by
  have hsilence := u.takesNoMore_silenceStep o
  have hd1 : (u.silenceStep o).1.DataHeard o := hd.congr (State.front_eq_iff.mp (u.front_silenceStep o).1).1
  unfold State.ownerSteps
  split
  · exact hsilence.trans (State.takesNoMore_correct ..)
  · rename_i ho
    split_ifs
    · exact hsilence.trans (State.takesNoMore_loseSlot hd1 ho)
    · exact hsilence
  · exact hsilence
  · exact hsilence

theorem State.takesNoMore_tableEnd (hd : u.DataHeard o) : u.TakesNoMore (u.tableEnd o).1 := by
  have hnoted : u.TakesNoMore (u.setEntry o.slot ((u.entry o.slot).noted o)) := .setEntry_owner (.inl rfl)
  have hd1 : (u.setEntry o.slot ((u.entry o.slot).noted o)).DataHeard o := hd.congr rfl
  unfold State.tableEnd
  dsimp only
  split_ifs with ho
  · exact hnoted.trans (State.takesNoMore_recorded hd1 ho)
  · exact hnoted.trans (State.takesNoMore_ownerSteps hd1)

theorem State.takesNoMore_markPresent (u : State) (o : Occurrence) : u.TakesNoMore (u.markPresent o).1 := by
  obtain ⟨_, _, h⟩ := u.markPresent_eq o
  rw [h]
  exact .of_same rfl rfl rfl rfl

theorem State.takesNoMore_rosterAndTable (hd : u.DataHeard o) : u.TakesNoMore (u.rosterAndTable o).1 := by
  unfold State.rosterAndTable
  split_ifs
  · exact (u.takesNoMore_markPresent o).trans
      (State.takesNoMore_tableEnd (hd.congr (State.front_eq_iff.mp (u.front_markPresent o)).1))
  · exact (State.takesNoMore_tableEnd hd).trans (State.takesNoMore_markPresent ..)

theorem State.takesNoMore_windowsEnd (u : State) (o : Occurrence) : u.TakesNoMore (u.windowsEnd o) := by
  obtain ⟨_, _, _, h⟩ := u.windowsEnd_eq o
  rw [h]
  exact .of_same rfl rfl rfl rfl

theorem State.takesNoMore_dataEnd (hd : u.DataHeard o) : u.TakesNoMore (u.dataEnd o) := by
  have hheard : u.TakesNoMore
      { (u.rosterAndTable o).1 with rx := (u.rosterAndTable o).1.rx.map (fun r => r.hear o) } :=
    (State.takesNoMore_rosterAndTable hd).trans (.of_same rfl rfl rfl rfl)
  unfold State.dataEnd
  dsimp only
  split_ifs
  · exact (hheard.trans (State.takesNoMore_windowsEnd ..)).ends _ _ _
  · exact hheard.ends _ _ _

theorem State.takesNoMore_endDataSlot (hst : s.stationOk) (he : s.dataEnds = true) (bits : SlotBits) :
    (s.portEnd bits).TakesNoMore (s.endDataSlot bits) := by
  cases hf : s.faultIn (s.occurrence bits) with
  | none =>
    rw [State.endDataSlot_of_none hf]
    exact State.takesNoMore_dataEnd (State.dataHeard_of_noFault hst he hf)
  | some cause =>
    obtain ⟨rx, hrx⟩ := (s.portEnd bits).hearBeforeFault_eq (s.occurrence bits)
    rw [State.endDataSlot_of_some hf, hrx]
    exact .trans (u := { s.portEnd bits with rx := rx }) (.of_same rfl rfl rfl rfl)
      ((State.takesNoMore_postAll ..).trans (State.takesNoMore_enterFault ..))

/-! ### The word on the line in slot 2 -/

/-- What the claim limit asks of a word of self in slot 2: in MEMBER it is the contending head's, and in LEAVING it leaves room
for the slot that it may win (R94, R99). -/
theorem State.claimWordOk_iff :
    u.claimWordOk = true ↔ ∀ b, u.port.word = some b → u.timer.position = some 2 →
      (u.control.state = .member → ∃ r, u.contendingHead = some r ∧ (u.claimToSend r).bits = b) ∧
      (u.control.state = .leaving → u.limitCount + claimAdds b ≤ 16) := by
  have hhead (b : SlotBits) : (u.claims.contending = true ∧
      u.claims.records.head?.map (fun r => (u.claimToSend r).bits) = some b) ↔
        ∃ r, u.contendingHead = some r ∧ (u.claimToSend r).bits = b := by
    unfold State.contendingHead
    split_ifs with hc <;> simp [hc]
  unfold State.claimWordOk
  cases hw : u.port.word with
  | none => simp
  | some b =>
    by_cases hpos : u.timer.position = some 2
    · simp only [hpos, bne_self_eq_false, Bool.false_or, Bool.and_eq_true, Bool.or_eq_true, bne_iff_ne, decide_eq_true_eq,
        beq_iff_eq, hhead, Option.some.injEq, forall_eq', forall_const, ne_eq, ← imp_iff_not_or]
    · simp [hpos]

/-- Without a word on the line, or at another position, or in a station that serves no slot, nothing is asked. -/
theorem State.claimWordOk_of (h : u.port.word = none ∨ u.timer.position ≠ some 2 ∨ u.control.state.serving = false) :
    u.claimWordOk = true := by
  rw [State.claimWordOk_iff]
  intro b hw hpos
  rcases h with h | h | h
  · rw [h] at hw
    cases hw
  · exact absurd hpos h
  · exact ⟨fun hm => by simp [hm, StationState.serving] at h, fun hl => by simp [hl, StationState.serving] at h⟩

/-- Where no more is taken and no word is on the line. -/
theorem State.TakesNoMore.limitOk (h : u.TakesNoMore v) (hu : u.limitOk) (hw : u.port.word = none) : v.limitOk :=
  ⟨h.limitCount_le.trans hu.1, State.claimWordOk_of (.inl (h.silent hw))⟩

/-- The end of an occurrence, once the trunk port has read back its word. -/
theorem State.TakesNoMore.limitOk_of_portEnd (h : (s.portEnd bits).TakesNoMore t) (hs : s.limitOk) : t.limitOk :=
  h.limitOk ⟨hs.1, State.claimWordOk_of (.inl (by simp))⟩ (by simp)

/-- A station that serves no slot. -/
theorem State.TakesNoMore.limitOk_of_not_serving (h : u.TakesNoMore v) (hu : u.limitOk)
    (hv : v.control.state.serving = false) : v.limitOk :=
  ⟨h.limitCount_le.trans hu.1, State.claimWordOk_of (.inr (.inr hv))⟩

/-- A cleared table and an empty queue count nothing. -/
theorem State.limitOk_of_cleared (ht : v.table = Bank.fill 96 SlotEntry.reset) (hq : v.claims.records = [])
    (hv : v.control.state.serving = false) : v.limitOk := by
  refine ⟨?_, State.claimWordOk_of (.inr (.inr hv))⟩
  have hown : v.isOwn = fun _ => false := funext (State.isOwn_of_cleared ht)
  rw [State.limitCount_eq, State.holdings_eq, hown, State.countedClaims, hq]
  simp

/-! ### Slot 2 -/

/-- The request code of a CLAIM word is that of its record (R99). -/
theorem State.claimToSend_claimCode (u : State) (r : ClaimRecord) : (u.claimToSend r).claimCode = r.request.code := by
  unfold State.claimToSend
  split <;> rename_i hr <;> rw [hr] <;> exact claimWord_claimCode _ _ _ _ (by decide)

/-- A record counts but for a RELEASE (R94). -/
theorem ClaimRecord.counted_iff : r.counted = true ↔ r.request.code ≠ 3 := by
  unfold ClaimRecord.counted
  cases r.request <;> simp [ClaimRequest.code]

theorem State.claimToSend_sender (u : State) (r : ClaimRecord) (h30 : u.self ≤ 30) : (u.claimToSend r).sender = u.self := by
  unfold State.claimToSend
  split <;> exact toNat_ofNat_of_lt (by omega)

/-- A self with an address hears the word of its head as it was sent (R6). -/
theorem State.classify_claimToSend (hself : 1 ≤ u.self ∧ u.self ≤ 30) (r : ClaimRecord) :
    classify (u.claimToSend r).bits = .valid (u.claimToSend r) := by
  have hs := u.claimToSend_sender r hself.2
  exact classify_bits (by omega) (by omega)

/-- Only a SLOT or ANY word gives a slot (R104, R105). -/
theorem State.claimCode_of_givenSlot (h : u.givenSlot w = some n) : w.claimCode ≠ 3 := by
  unfold State.givenSlot at h
  split_ifs at h
  · omega
  · omega

theorem claimAdds_of_valid (h : classify b = .valid w) (hc : w.claimCode ≠ 3) : claimAdds b = 1 := by
  simp [claimAdds, h, hc]

theorem claimAdds_le_one (b : SlotBits) : claimAdds b ≤ 1 := by
  unfold claimAdds
  split
  · split_ifs <;> omega
  · omega
  · omega

/-- Self's own SLOT or ANY word in slot 2 has left room for its slot: in MEMBER it answers a record that counts (R94). -/
theorem State.room_of_claimWord (hl : s.limitOk) (hst : s.stationOk) (hp : s.passes 2) (hs : s.control.state.serving = true)
    (hw : s.port.word = some b) (hv : classify b = .valid w) (hc : w.claimCode ≠ 3) :
    s.limitCount + 1 ≤ 16 ∨ ∃ r, s.contendingHead = some r ∧ r.counted = true := by
  obtain ⟨hmember, hleaving⟩ := State.claimWordOk_iff.mp hl.2 b hw hp.2.2
  rcases StationState.serving_iff.mp hs with hm | hm
  · obtain ⟨r, hr, rfl⟩ := hmember hm
    have hself := (State.config_ranges hst.1 (by simp [hm])).1
    rw [State.classify_claimToSend hself, Heard.valid.injEq] at hv
    rw [← hv, State.claimToSend_claimCode] at hc
    exact .inr ⟨r, hr, ClaimRecord.counted_iff.mpr hc⟩
  · have := hleaving hm
    rw [claimAdds_of_valid hv hc] at this
    exact .inl this

/-- A contending head goes, or stays having lost; a SENT one goes (R100 to R102). -/
theorem ClaimRecord.settleOutcome_kept (r : ClaimRecord) (won : Bool) (frame : Nat) (given : Option Nat) :
    (r.settleOutcome won frame given).1 = none ∨ won = false ∧ (r.settleOutcome won frame given).1 = some r.losing := by
  unfold ClaimRecord.settleOutcome
  split_ifs with hwon
  · left
    split <;> rfl
  · exact .inl rfl
  · exact .inr ⟨by simpa using hwon, rfl⟩
  · exact .inl rfl

/-- The outcome of the contending head adds no record, and a SENT one that counts is gone (R100). -/
theorem State.countedClaims_claimOutcome (u : State) (o : Occurrence) (given : Option Nat) :
    (u.claimOutcome o given).1.countedClaims ≤ u.countedClaims ∧
      (o.outcome = some .sent → ∀ r, u.contendingHead = some r → r.counted = true →
        (u.claimOutcome o given).1.countedClaims + 1 ≤ u.countedClaims) := by
  cases hh : u.contendingHead with
  | none =>
    rw [State.claimOutcome_of_none hh]
    exact ⟨le_refl _, fun _ r hr => by cases hr⟩
  | some r =>
    obtain ⟨-, rs, hrs⟩ := State.contendingHead_eq_some.mp hh
    have hlosing : r.losing.counted = r.counted := rfl
    rw [State.claimOutcome_of_some hh]
    simp only [State.countedClaims, hrs, List.tail_cons, List.filter_append, List.filter_cons, List.length_append]
    rcases r.settleOutcome_kept (o.outcome == some .sent) o.frame given with hgone | ⟨hlost, hkept⟩
    · rw [hgone]
      refine ⟨?_, ?_⟩
      · split_ifs <;> simp
      · rintro - x ⟨⟩ hx
        simp [hx]
    · rw [hkept]
      refine ⟨?_, fun ho => by simp [ho] at hlost⟩
      cases hc : r.counted <;> simp [hlosing, hc, Nat.add_comm]

/-- The heard CLAIM word does not touch the claim queue (R104 to R108). -/
theorem State.claims_applyClaim (u : State) (o : Occurrence) (role : Option Role) :
    (u.applyClaim o role).1.claims = u.claims := by
  unfold State.applyClaim
  split
  · rfl
  · split
    · split_ifs <;> rfl
    · split
      · rw [State.freeSlot_eq]
      · rfl

/-- The heard CLAIM word gives self a slot where it is self's own, SENT, and takes no more otherwise (R104 to R108). -/
theorem State.applyClaim_takes (u : State) (o : Occurrence) (role : Option Role) :
    u.TakesNoMore (u.applyClaim o role).1 ∨
      (u.applyClaim o role).1.holdings ≤ u.holdings + 1 ∧
        ∃ w, o.heard = .valid w ∧ w.claimCode ≠ 3 ∧ o.outcome = some .sent := by
  unfold State.applyClaim
  split
  · exact .inl (.refl u)
  · rename_i w hw
    obtain ⟨hacc, hsent⟩ := State.appliedClaim_eq_some hw
    split
    · rename_i n hn
      split_ifs with hself
      · refine .inr ⟨State.holdings_le_succ (n := n) rfl fun m hm => ?_,
          w, (Heard.acceptable_eq_some.mp hacc).1, State.claimCode_of_givenSlot hn, hsent hself⟩
        have hentry : (u.grantSelf n role).1.entry m =
            if n = m ∧ n < 96 then
              { u.entry n with owner := some u.self, silence := 0, role := some (u.grantRole role) }
            else u.entry m := Bank.get_set ..
        rw [State.isOwn_iff, hentry] at hm
        split_ifs at hm with hc
        · exact .inl hc.1.symm
        · exact .inr (State.isOwn_iff.mpr hm)
      · exact .inl (.setEntry_owner (.inr fun hk => hself (Option.some.inj hk)))
    · split
      · exact .inl (State.takesNoMore_freeSlot ..)
      · exact .inl (.refl u)

/-- The outcome of the contending head takes no more (R100 to R102). -/
theorem State.takesNoMore_claimOutcome (u : State) (o : Occurrence) (given : Option Nat) :
    u.TakesNoMore (u.claimOutcome o given).1 := by
  obtain ⟨hc, -, hp, -⟩ := State.front_eq_iff.mp (u.front_claimOutcome o given).1
  obtain ⟨ht, -⟩ := State.ownership_eq_iff.mp (u.ownership_claimOutcome o given)
  have hown : u.TakesNoMore { (u.claimOutcome o given).1 with claims := u.claims } :=
    .of_same ht (by rw [hc]) rfl (by rw [hp])
  exact ⟨hown.config, hown.own, (u.countedClaims_claimOutcome o given).1, hown.silent⟩

/-- Holdings and queued claims after the heard CLAIM word and the outcome of the contending head: within the limit, for a
slot that self is given takes the place of the record that won it, or had room (R94, R100, R108). -/
theorem State.limitCount_claimActs (hl : s.limitOk) (hst : s.stationOk) (hp : s.passes 2)
    (hon : s.control.state.onTrunk = true) (role : Option Role) (given : Option Nat) :
    (((s.portEnd bits).applyClaim (s.occurrence bits) role).1.claimOutcome (s.occurrence bits) given).1.limitCount ≤ 16 := by
  obtain ⟨a, ha⟩ : ∃ a, a = ((s.portEnd bits).applyClaim (s.occurrence bits) role).1 := ⟨_, rfl⟩
  have hcount := a.countedClaims_claimOutcome (s.occurrence bits) given
  have houtcome := (a.takesNoMore_claimOutcome (s.occurrence bits) given)
  have hqueue : a.claims = s.claims := ha ▸ State.claims_applyClaim ..
  have hclaims : a.countedClaims = s.countedClaims := by simp only [State.countedClaims, hqueue]
  have hhold := State.holdings_le houtcome.config houtcome.own
  have hlimit : s.limitCount ≤ 16 := hl.1
  rw [State.limitCount_eq] at hlimit ⊢
  rw [← ha]
  rcases (s.portEnd bits).applyClaim_takes (s.occurrence bits) role with htakes | ⟨hone, w, hv, hc, hsent⟩
  · have : a.holdings ≤ s.holdings := State.holdings_le (ha ▸ htakes.config) (ha ▸ htakes.own)
    omega
  · rw [← ha] at hone
    have hself : (s.portEnd bits).holdings = s.holdings := rfl
    have hword : s.port.word = some bits := by
      obtain ⟨b, hb, hout⟩ := Option.map_eq_some_iff.mp hsent
      by_cases hne : bits = b
      · rw [hne, hb]
      · exact absurd hout (outcomeOf_ne_sent hne)
    have hserving := State.serving_of_sent hst hon hp (le_refl 2) (by simp [hword])
    rcases State.room_of_claimWord hl hst hp hserving hword hv hc with hroom | ⟨r, hr, hcounted⟩
    · rw [State.limitCount_eq] at hroom
      omega
    · have hhead : a.contendingHead = some r := by
        rw [State.contendingHead, hqueue]
        exact hr
      have := hcount.2 hsent r hhead hcounted
      omega

/-- The end of slot 2 (R100, R104, R109). -/
theorem State.limitOk_endClaimSlot (hl : s.limitOk) (hst : s.stationOk) (he : s.claimEnds = true) (bits : SlotBits) :
    (s.endClaimSlot bits).limitOk := by
  obtain ⟨he, hon⟩ := Bool.and_eq_true_iff.mp he
  obtain ⟨p, hp, h2⟩ := State.passes_of_endsAt he
  obtain rfl : p = 2 := by simpa using h2
  unfold State.endClaimSlot
  dsimp only
  split
  · exact State.limitOk_of_cleared rfl rfl rfl
  · obtain ⟨-, -, hport, -⟩ := State.front_eq_iff.mp (State.front_claimActs (s.portEnd bits) (s.occurrence bits)
      ((s.portEnd bits).contendingHead.bind ClaimRecord.role) ((s.portEnd bits).ownGrant (s.occurrence bits))).1
    have hword := (congrArg TrunkPort.word hport).trans (TrunkPort.finish_word ..)
    exact ((State.TakesNoMore.refl _).ends 0 _ _).limitOk
      ⟨State.limitCount_claimActs hl hst hp hon _ _, State.claimWordOk_of (.inl hword)⟩ hword

/-- The settle pass leaves the records from some head on (R98). -/
theorem State.unsettled_suffix (u : State) (records : List ClaimRecord) : u.unsettled records <:+ records := by
  induction records with
  | nil => exact List.suffix_refl _
  | cons r rs ih =>
    unfold State.unsettled
    split
    · exact ih.trans (List.suffix_cons ..)
    · exact List.suffix_refl _

/-- The settle pass takes no more, and the word that it hands over is the contending head's (R98, R99). -/
theorem State.limitOk_settle (hl : s.limitOk) (hm : s.control.state = .member) : s.settle.limitOk := by
  refine ⟨Nat.le_trans (Nat.add_le_add_left ?_ s.holdings) hl.1,
    State.claimWordOk_iff.mpr fun b hb _ => ⟨fun _ => ?_, ?_⟩⟩
  · exact ((s.unsettled_suffix s.claims.records).sublist.filter _).length_le
  · have hword : ((s.unsettled s.claims.records).head?.map s.claimToSend).map SlotWord.bits = some b := hb
    cases hleft : s.unsettled s.claims.records with
    | nil => simp [hleft] at hword
    | cons r rs =>
      rw [hleft] at hword
      exact ⟨r, State.contendingHead_eq_some.mpr ⟨by simp [State.settle, hleft], rs, hleft⟩, Option.some.inj hword⟩
  · intro hleaving
    have : s.control.state = .leaving := hleaving
    rw [hm] at this
    cases this

/-! ### What every outcome of a command keeps -/

/-- Whatever state an outcome answers is within the limit. -/
def KeepsLimit (x : Host.Outcome State Fault Refusal) : Prop := ∀ t, x = .next t → t.limitOk

theorem State.keepsLimit_next (h : t.limitOk) : KeepsLimit (.next t) := by rintro _ ⟨⟩; exact h

/-- A command that acts on a condition and is idle otherwise. -/
theorem State.keepsLimit_ite (h : s.limitOk) {p : Prop} [Decidable p] {x : Host.Outcome State Fault Refusal}
    (hx : p → KeepsLimit x) : KeepsLimit (if p then x else .next s) := by
  split_ifs with hp
  · exact hx hp
  · exact State.keepsLimit_next h

/-! ### Hunting and slot starts -/

/-- A station that hunts serves no slot, nor does it when it joins or faults (R18, R19, R52). -/
theorem execHuntingCandidate_keepsLimit (h : s.limitOk) (bits : SlotBits) : KeepsLimit (execHuntingCandidate bits s) := by
  refine State.keepsLimit_ite h fun hh => State.keepsLimit_next ?_
  obtain ⟨hl, -⟩ := State.hunting_iff.mp hh
  unfold State.candidateHeard
  dsimp only
  split
  · exact State.TakesNoMore.limitOk_of_not_serving (u := s) (.of_same rfl rfl rfl rfl) h (by simp [hl, StationState.serving])
  · split_ifs
    · exact State.limitOk_of_cleared rfl rfl rfl
    · exact State.TakesNoMore.limitOk_of_not_serving (u := s) (.of_same rfl rfl rfl rfl) h rfl
    · exact State.limitOk_of_cleared rfl rfl rfl

/-- In LISTEN, where the listen window runs, no slot is served (R20). -/
theorem State.limitOk_frameTimePassed (h : s.limitOk) (hh : s.hunting = true) : s.frameTimePassed.limitOk := by
  obtain ⟨hl, -⟩ := State.hunting_iff.mp hh
  have hserving : s.control.state.serving = false := by rw [hl]; rfl
  unfold State.frameTimePassed State.windowPassed
  dsimp only
  split_ifs <;> exact State.TakesNoMore.limitOk_of_not_serving (u := s) (.of_same rfl rfl rfl rfl) h hserving

/-- An occurrence of a slot other than slot 2 begins. -/
theorem State.limitOk_begins {p : Nat} (h : s.limitOk) (ha : s.awaits p) (hp : p ≠ 2) (ht : v.table = s.table)
    (hc : v.control.config = s.control.config) (hq : v.claims = s.claims) (hpos : v.timer.position = s.timer.position) :
    v.limitOk := by
  have hsame : s.TakesNoMore { v with port := s.port } := .of_same ht hc hq rfl
  exact ⟨hsame.limitCount_le.trans h.1, State.claimWordOk_of (.inr (.inl (by rw [hpos, ha.2.2]; simpa using hp)))⟩

theorem execMarkSlotStart_keepsLimit (h : s.limitOk) : KeepsLimit (execMarkSlotStart s) := by
  refine State.keepsLimit_ite h fun hh => State.keepsLimit_next ?_
  obtain ⟨p, ha, hp⟩ := State.awaits_of_startsAt hh
  exact State.limitOk_begins h ha (by simp only [beq_iff_eq] at hp; omega) rfl
    (by simp [StationControl.frameBegins_eq]) rfl rfl

theorem execRollSlotStart_keepsLimit (h : s.limitOk) : KeepsLimit (execRollSlotStart s) := by
  refine State.keepsLimit_ite h fun hh => State.keepsLimit_next ?_
  obtain ⟨p, ha, hp⟩ := State.awaits_of_startsAt hh
  exact State.limitOk_begins h ha (by simp only [beq_iff_eq] at hp; omega) rfl rfl rfl rfl

/-- Outside MEMBER no word is sent in slot 2 (R38). -/
theorem execClaimSlotStart_keepsLimit (h : s.limitOk) : KeepsLimit (execClaimSlotStart s) := by
  refine State.keepsLimit_ite h fun _ => ?_
  split_ifs with hm
  · exact State.keepsLimit_next (State.limitOk_settle h hm)
  · exact State.keepsLimit_next ⟨h.1, State.claimWordOk_of (.inl rfl)⟩

theorem execAnswerSlotStart_keepsLimit (h : s.limitOk) : KeepsLimit (execAnswerSlotStart s) := by
  refine State.keepsLimit_ite h fun hh => State.keepsLimit_next ?_
  obtain ⟨p, ha, hp⟩ := State.awaits_of_startsAt hh
  exact State.limitOk_begins h ha (by simp only [beq_iff_eq] at hp; omega) rfl rfl rfl rfl

/-- The arbiter does not touch the claim queue (R137). -/
theorem State.claims_arbitrate (u : State) (n : Nat) : (u.arbitrate n).1.claims = u.claims := by
  unfold State.arbitrate
  cases u.oldestQueued <;> rfl

/-- Nor does the supplier of an own slot (R77). -/
theorem State.claims_supply (u : State) (n : Nat) : (u.supply n).1.claims = u.claims := by
  unfold State.supply
  split
  · unfold State.streamSupply
    split <;> rfl
  · unfold State.bulkSupply
    split
    · exact u.claims_arbitrate n
    · split_ifs
      · rfl
      · rfl
      · exact State.claims_arbitrate _ n
      · rfl
  · rfl
  · rfl

theorem State.limitOk_startDataSlot (h : s.limitOk) (ha : s.awaits n) (h4 : 4 ≤ n) : (s.startDataSlot n).limitOk := by
  unfold State.startDataSlot
  split_ifs
  · obtain ⟨hc, htimer, -⟩ := State.front_eq_iff.mp (s.front_supply n).1
    obtain ⟨ht, -⟩ := State.ownership_eq_iff.mp (s.ownership_supply n)
    exact State.limitOk_begins h ha (by omega) ht (congrArg _ hc) (s.claims_supply n)
      (by show (s.supply n).1.timer.position = s.timer.position; rw [htimer])
  · exact State.limitOk_begins h ha (by omega) rfl rfl rfl rfl

theorem State.dataStart_keepsLimit (h : s.limitOk) (hn : s.startingSlot = some n) : KeepsLimit (s.dataStart n) := by
  obtain ⟨ha, h4⟩ := State.startingSlot_eq_some hn
  have hstart := State.keepsLimit_next (State.limitOk_startDataSlot h ha h4)
  unfold State.dataStart
  split
  · split_ifs
    · exact hstart
    · rintro t ⟨⟩
  · exact hstart

theorem execDataSlotStart_keepsLimit (h : s.limitOk) : KeepsLimit (execDataSlotStart s) := by
  unfold execDataSlotStart
  split
  · rename_i n hn
    exact State.dataStart_keepsLimit h hn
  · exact State.keepsLimit_next h

theorem execTailResend_keepsLimit (h : s.limitOk) : KeepsLimit (execTailResend s) := by
  unfold execTailResend
  split
  · rename_i hn
    exact State.keepsLimit_ite h fun _ => State.dataStart_keepsLimit h hn
  · exact State.keepsLimit_next h

theorem execJobNoAnswer_keepsLimit (h : s.limitOk) : KeepsLimit (execJobNoAnswer s) := by
  unfold execJobNoAnswer
  split
  · rename_i hn
    split_ifs
    · exact State.keepsLimit_next h
    · exact State.dataStart_keepsLimit h hn
  · exact State.keepsLimit_next h

/-! ### The named cases of slot ends -/

theorem execClaimAging_keepsLimit (h : s.limitOk) (hst : s.stationOk) (bits : SlotBits) :
    KeepsLimit (execClaimAging bits s) := by
  unfold execClaimAging
  split
  · exact State.keepsLimit_next h
  · rename_i r hr
    exact State.keepsLimit_ite h fun _ =>
      State.keepsLimit_next (State.limitOk_endClaimSlot h hst (State.claimEnds_of_losingHead hr) bits)

theorem execClaimExpired_keepsLimit (h : s.limitOk) (hst : s.stationOk) (bits : SlotBits) :
    KeepsLimit (execClaimExpired bits s) := by
  unfold execClaimExpired
  split
  · exact State.keepsLimit_next h
  · rename_i r hr
    exact State.keepsLimit_ite h fun _ =>
      State.keepsLimit_next (State.limitOk_endClaimSlot h hst (State.claimEnds_of_losingHead hr) bits)

theorem State.dataFinish_keepsLimit (h : s.limitOk) (hst : s.stationOk) (he : s.dataEnds = true) (bits : SlotBits) :
    KeepsLimit (s.dataFinish bits) := fun t ht => by
  rw [State.dataFinish_next ht]
  exact (State.takesNoMore_endDataSlot hst he bits).limitOk_of_portEnd h

/-! ### Transactions of claim queue and allocation table -/

/-- A transaction of the claim queue in MEMBER that stays within the limit and leaves the contending head its word. -/
theorem State.limitOk_of_queue (h : s.limitOk) (hm : s.control.state = .member) (hs : s.SameStation v)
    (hcount : v.limitCount ≤ 16)
    (hhead : ∀ r, s.contendingHead = some r → ∃ x, v.contendingHead = some x ∧ s.claimToSend x = s.claimToSend r) :
    v.limitOk := by
  obtain ⟨hc, ht, hp, -, -⟩ := hs
  refine ⟨hcount, State.claimWordOk_iff.mpr fun b hw hpos => ⟨fun _ => ?_, fun hleaving => ?_⟩⟩
  · rw [hp] at hw
    rw [ht] at hpos
    obtain ⟨r, hr, rfl⟩ := (State.claimWordOk_iff.mp h.2 b hw hpos).1 hm
    obtain ⟨x, hx, hword⟩ := hhead r hr
    refine ⟨x, hx, ?_⟩
    rw [← hword, State.claimToSend, State.claimToSend, State.self_congr hc]
  · rw [hc, hm] at hleaving
    cases hleaving

/-- A record that is queued behind the others leaves the contending head. -/
theorem State.contendingHead_accept {request : ClaimRequest} {priority : Nat} {role : Option Role}
    (hr : s.contendingHead = some r) : (s.acceptRecord request priority role).1.contendingHead = some r := by
  obtain ⟨hc, rs, hrs⟩ := State.contendingHead_eq_some.mp hr
  exact State.contendingHead_eq_some.mpr ⟨hc, _, congrArg (· ++ _) hrs⟩

/-- A record that is queued counts for one at most, and a RELEASE for none (R94). -/
theorem State.limitCount_accept (s : State) (request : ClaimRequest) (priority : Nat) (role : Option Role) :
    (s.acceptRecord request priority role).1.limitCount = s.limitCount + if request.code = 3 then 0 else 1 := by
  have hhold : (s.acceptRecord request priority role).1.holdings = s.holdings := rfl
  rw [State.limitCount_eq, State.limitCount_eq, hhold, Nat.add_assoc, Nat.add_left_cancel_iff]
  simp only [State.countedClaims, State.acceptRecord, ClaimQueue.accept, List.filter_append, List.length_append]
  cases request <;> rfl

/-- CLAIM is refused at the limit (R94). -/
theorem State.limitOk_judgeClaim (h : s.limitOk) (req : ClaimArg) (priority : Nat) (role : RoleArg) :
    (s.judgeClaim req priority role).1.limitOk := by
  unfold State.judgeClaim
  split
  · exact h
  · rename_i hm
    split
    · exact h
    · split
      · split_ifs with _ hlimit
        · exact h
        · exact h
        · refine State.limitOk_of_queue h (by simpa using hm) ⟨rfl, rfl, rfl, rfl, rfl⟩ ?_
            fun r hr => ⟨r, State.contendingHead_accept hr, rfl⟩
          simp only [Config.claimLimit, not_le] at hlimit
          rw [State.limitCount_accept]
          split_ifs <;> omega
      · exact h

theorem State.limitOk_judgeRelease (h : s.limitOk) (n : Nat) : (s.judgeRelease n).1.limitOk := by
  unfold State.judgeRelease
  split_ifs with hm
  · exact h
  · exact h
  · exact h
  · exact h
  · refine State.limitOk_of_queue h (by simpa using hm) ⟨rfl, rfl, rfl, rfl, rfl⟩ ?_
      fun r hr => ⟨r, State.contendingHead_accept hr, rfl⟩
    rw [State.limitCount_accept]
    exact h.1

/-- A marked head counts as before. -/
theorem ClaimQueue.markHead_counted (q : ClaimQueue) :
    (q.markHead.records.filter ClaimRecord.counted).length = (q.records.filter ClaimRecord.counted).length := by
  unfold ClaimQueue.markHead
  split
  · rfl
  · rename_i r rs hrs
    have hmarked : ({ r with cancel := true } : ClaimRecord).counted = r.counted := rfl
    simp only [hrs, List.filter_cons, hmarked]
    split_ifs <;> rfl

/-- A removed record is not the contending head's, and a marked head keeps its word (R96). -/
theorem State.limitOk_judgeClaimCancel (h : s.limitOk) (tag : Nat) : (s.judgeClaimCancel tag).1.limitOk := by
  unfold State.judgeClaimCancel
  split
  · exact h
  · rename_i hm
    have hm : s.control.state = .member := by simpa using hm
    split
    · exact h
    · split_ifs with hcontends
      · refine State.limitOk_of_queue h hm ⟨rfl, rfl, rfl, rfl, rfl⟩ ?_ fun r hr => ?_
        · exact (congrArg (s.holdings + ·) s.claims.markHead_counted).trans_le h.1
        · obtain ⟨hc, rs, hrs⟩ := State.contendingHead_eq_some.mp hr
          exact ⟨{ r with cancel := true },
            State.contendingHead_eq_some.mpr ⟨by simp [ClaimQueue.markHead, hrs, hc], rs, by simp [ClaimQueue.markHead, hrs]⟩,
            rfl⟩
      · refine State.limitOk_of_queue h hm ⟨rfl, rfl, rfl, rfl, rfl⟩ ?_ fun r hr => ?_
        · exact (Nat.add_le_add_left ((List.eraseP_sublist.filter _).length_le) s.holdings).trans h.1
        · obtain ⟨hc, rs, hrs⟩ := State.contendingHead_eq_some.mp hr
          have htag : r.tag ≠ tag := by simpa [ClaimQueue.contends, hc, hrs] using hcontends
          exact ⟨r, State.contendingHead_eq_some.mpr ⟨hc, _, by simp [ClaimQueue.remove, hrs, htag]; rfl⟩, rfl⟩

/-- The same owners and the same queue, in the same station. -/
theorem State.limitOk_of_owners (h : s.limitOk) (hs : s.SameStation v) (hn : s.TakesNoMore v) (hq : v.claims = s.claims) :
    v.limitOk := by
  obtain ⟨hc, ht, hp, -, -⟩ := hs
  refine ⟨hn.limitCount_le.trans h.1, State.claimWordOk_iff.mpr fun b hw hpos => ?_⟩
  rw [hp] at hw
  rw [ht] at hpos
  obtain ⟨hmember, hleaving⟩ := State.claimWordOk_iff.mp h.2 b hw hpos
  have hhead : v.contendingHead = s.contendingHead := by rw [State.contendingHead, State.contendingHead, hq]
  have hword (r : ClaimRecord) : v.claimToSend r = s.claimToSend r := by
    rw [State.claimToSend, State.claimToSend, State.self_congr hc]
  rw [hc]
  simp only [hhead, hword]
  exact ⟨hmember, fun hl => (Nat.add_le_add_right hn.limitCount_le _).trans (hleaving hl)⟩

/-- SET_ROLE leaves the owners (R86). -/
theorem State.limitOk_changeRole (h : s.limitOk) (n : Nat) (role : Role) : (s.changeRole n role).limitOk := by
  refine State.limitOk_of_owners h (s.changeRole_same n role) ?_ ?_
  · unfold State.changeRole
    split_ifs
    · exact .refl s
    · have hentry : s.TakesNoMore (s.setEntry n { s.entry n with role := some role }) := .setEntry_owner (.inl rfl)
      exact hentry.trans (State.takesNoMore_lossNotice ..)
  · unfold State.changeRole
    split_ifs
    · rfl
    · rw [State.lossNotice_eq]
      rfl

theorem State.limitOk_judgeSetRole (h : s.limitOk) (n : Nat) (role : RoleArg) : (s.judgeSetRole n role).1.limitOk := by
  unfold State.judgeSetRole
  split
  · exact h
  · split
    · exact h
    · split
      · exact h
      · split_ifs
        · exact h
        · exact h
        · exact State.limitOk_changeRole h n _

/-! ### Transactions of the station controller -/

theorem State.limitOk_judgeStart (h : s.limitOk) (addr len : Nat) (eligible : Bool) :
    (s.judgeStart addr len eligible).1.limitOk := by
  unfold State.judgeStart
  split_ifs
  · exact h
  · exact h
  · exact State.limitOk_of_cleared rfl rfl rfl

theorem State.limitOk_judgeJoin (h : s.limitOk) : s.judgeJoin.1.limitOk := by
  unfold State.judgeJoin
  split_ifs
  · exact State.TakesNoMore.limitOk_of_not_serving (u := s) (.of_same rfl rfl rfl rfl) h rfl
  · exact h

/-- In LEAVING the word on the line may yet win a slot: the record that it answers has left the queue (R47, R94). -/
theorem State.limitOk_enterLeaving (h : s.limitOk) (hst : s.stationOk) (hm : s.control.state = .member) :
    s.enterLeaving.limitOk := by
  have hcount : s.enterLeaving.limitCount = s.holdings := rfl
  have hlimit : s.holdings + s.countedClaims ≤ 16 := h.1
  refine ⟨hcount.trans_le (show s.holdings ≤ 16 by omega),
    State.claimWordOk_iff.mpr fun b hw hpos => ⟨fun hmember => (by cases hmember), fun _ => ?_⟩⟩
  obtain ⟨r, hr, rfl⟩ := (State.claimWordOk_iff.mp h.2 b hw hpos).1 hm
  have hself := (State.config_ranges hst.1 (by simp [hm])).1
  have hle := claimAdds_le_one (s.claimToSend r).bits
  rw [hcount]
  by_cases hc : r.counted = true
  · obtain ⟨-, rs, hrs⟩ := State.contendingHead_eq_some.mp hr
    have : 1 ≤ s.countedClaims := by simp [State.countedClaims, hrs, hc]
    omega
  · have hcode : r.request.code = 3 := by simpa [ClaimRecord.counted_iff] using hc
    have : claimAdds (s.claimToSend r).bits = 0 := by
      simp [claimAdds, State.classify_claimToSend hself, State.claimToSend_claimCode, hcode]
    omega

theorem State.limitOk_judgeLeave (h : s.limitOk) (hst : s.stationOk) : s.judgeLeave.1.limitOk := by
  unfold State.judgeLeave
  split
  case h_2 => exact State.limitOk_of_cleared rfl rfl rfl
  case h_3 => exact State.limitOk_of_cleared rfl rfl rfl
  case h_4 hm => exact State.limitOk_enterLeaving h hst hm
  all_goals exact h

/-! ### Transactions of the other blocks -/

theorem State.limitOk_judgeBulkPost (h : s.limitOk) (dest win base len : Nat) :
    (s.judgeBulkPost dest win base len).1.limitOk := by
  unfold State.judgeBulkPost
  split
  · exact h
  · split
    · exact h
    · split <;> exact h

theorem State.limitOk_judgeBulkCancel (h : s.limitOk) (id : Nat) : (s.judgeBulkCancel id).1.limitOk := by
  unfold State.judgeBulkCancel
  split
  · exact h
  · split
    · exact h
    · split
      · exact h
      · split_ifs <;> exact h

theorem State.limitOk_judgeBulkStatus (h : s.limitOk) (id : Nat) : (s.judgeBulkStatus id).1.limitOk := by
  unfold State.judgeBulkStatus
  split
  · exact h
  · split
    · exact h
    · split <;> exact h

theorem State.limitOk_judgeBulkCollect (h : s.limitOk) (id : Nat) : (s.judgeBulkCollect id).1.limitOk := by
  unfold State.judgeBulkCollect
  split
  · exact h
  · split
    · exact h
    · split
      · exact h
      · split_ifs <;> exact h

/-- Every transaction keeps the limit. -/
theorem State.limitOk_judge (h : s.limitOk) (hst : s.stationOk) (i : Instr) : (s.judge i).1.limitOk := by
  cases i with
  | start addr len eligible => exact State.limitOk_judgeStart h addr len eligible
  | join => exact State.limitOk_judgeJoin h
  | leave => exact State.limitOk_judgeLeave h hst
  | claim req priority role => exact State.limitOk_judgeClaim h req priority role
  | release n => exact State.limitOk_judgeRelease h n
  | claimCancel tag => exact State.limitOk_judgeClaimCancel h tag
  | setRole n role => exact State.limitOk_judgeSetRole h n role
  | bulkPost dest win base len => exact State.limitOk_judgeBulkPost h dest win base len
  | bulkCancel id => exact State.limitOk_judgeBulkCancel h id
  | bulkStatus id => exact State.limitOk_judgeBulkStatus h id
  | bulkCollect id => exact State.limitOk_judgeBulkCollect h id
  | bindRx _ _ _ _ _ | unbindRx _ | channelStatus _ _ | windowOpen _ _ _ _ | windowClose _ | windowStatus _ | readSlot _
  | readRoster _ | push _ _ | pull _ _ | memoryWrite _ _ | memoryRead _ _ | eventRead _ =>
    simp only [State.judge, State.judgeBindRx, State.judgeUnbindRx, State.judgeChannelStatus, State.judgeWindowOpen,
      State.judgeWindowClose, State.judgeWindowStatus, State.judgeReadSlot, State.judgeReadRoster, State.judgePush,
      State.judgePull, State.judgeMemoryWrite, State.judgeMemoryRead, State.judgeEventRead]
    split_ifs <;> exact h
  | _ => exact h

/-- The reply to a transaction is a matter of the host port (R172). -/
theorem State.limitOk_reply (h : s.limitOk) (hst : s.stationOk) (i : Instr) (words : List PortWord) :
    (s.replyWith i words (s.judge i)).limitOk := State.limitOk_judge h hst i

theorem State.take_keepsLimit (h : s.limitOk) (hst : s.stationOk) (i : Instr) : KeepsLimit (.next (s.take i (s.judge i))) := by
  refine State.keepsLimit_next ?_
  by_cases hreq : s.host.state = .request
  · rw [State.take_request hreq]
    exact State.limitOk_reply h hst i _
  · rw [State.take_elsewhere hreq]
    exact h

/-! ### Host port and resets (R170, R181 to R183) -/

theorem execRequestWordShiftedIn_keepsLimit (h : s.limitOk) (hst : s.stationOk) (w : PortWord) :
    KeepsLimit (execRequestWordShiftedIn w s) := by
  refine State.keepsLimit_ite h fun _ => State.keepsLimit_next ?_
  unfold State.wordIn
  split
  · exact h
  · exact State.limitOk_reply h hst _ _

theorem State.limitOk_partReset (s : State) : s.partReset.limitOk := State.limitOk_of_cleared rfl rfl rfl

theorem State.limitOk_shiftOut (h : s.limitOk) : s.shiftOut.limitOk := by
  unfold State.shiftOut
  split_ifs
  · exact State.limitOk_partReset _
  · exact h

theorem State.limitOk_selectReleased (h : s.limitOk) : s.selectReleased.limitOk := by
  unfold State.selectReleased
  split_ifs
  · exact State.limitOk_partReset _
  · exact h

theorem execReplyWordShiftedOut_keepsLimit (h : s.limitOk) : KeepsLimit (execReplyWordShiftedOut s) := by
  unfold execReplyWordShiftedOut
  split
  · exact State.keepsLimit_next h
  · exact State.keepsLimit_next h
  · exact State.keepsLimit_next (State.limitOk_shiftOut h)

theorem execTargetSelectAsserted_keepsLimit (h : s.limitOk) : KeepsLimit (execTargetSelectAsserted s) := by
  unfold execTargetSelectAsserted
  split_ifs <;> exact State.keepsLimit_next h

theorem execResetPartTakesHold_keepsLimit (h : s.limitOk) (trigger : ResetTrigger) :
    KeepsLimit (execResetPartTakesHold trigger s) := by
  cases trigger with
  | replyShiftedOut => exact State.keepsLimit_ite h fun _ => State.keepsLimit_next (State.limitOk_shiftOut h)
  | selectReleased => exact State.keepsLimit_ite h fun _ => State.keepsLimit_next (State.limitOk_selectReleased h)

/-! ### Every command -/

/-- Whatever command runs, holdings and queued claims stay within the limit. -/
theorem exec_keepsLimit (c : Instr) (hst : s.stationOk) (h : s.limitOk) : KeepsLimit (exec c s) := by
  have idle (t : State) (ht : t.limitOk) : KeepsLimit (.next t) := State.keepsLimit_next ht
  have markEnd (bits : SlotBits) := idle _ ((s.takesNoMore_endMarkSlot bits).limitOk_of_portEnd h)
  have rollEnd (bits : SlotBits) := idle _ ((s.takesNoMore_endRollSlot bits).limitOk_of_portEnd h)
  have answerEnd (bits : SlotBits) := idle _ ((s.takesNoMore_endAnswerSlot bits).limitOk_of_portEnd h)
  have dataEnd (bits : SlotBits) (he : s.dataEnds = true) := State.dataFinish_keepsLimit h hst he bits
  cases c with
  | undefinedHeader header => exact State.keepsLimit_ite h fun _ => State.take_keepsLimit h hst _
  | targetSelectAsserted => exact execTargetSelectAsserted_keepsLimit h
  | targetSelectReleased => exact idle _ (State.limitOk_selectReleased h)
  | resetPartTakesHold trigger => exact execResetPartTakesHold_keepsLimit h trigger
  | resetLineAsserted => exact idle _ s.limitOk_partReset
  | resetLineReleased => exact State.keepsLimit_ite h fun _ => idle _ s.limitOk_partReset
  | powerOnReset lineRate => exact idle _ (State.limitOk_of_cleared rfl rfl rfl)
  | huntingCandidate bits => exact execHuntingCandidate_keepsLimit h bits
  | listenWindowPasses =>
    exact State.keepsLimit_ite h fun hh => idle _ (State.limitOk_frameTimePassed h (Bool.and_eq_true_iff.mp hh).1)
  | listenWindowFrameTime =>
    exact State.keepsLimit_ite h fun hh => idle _ (State.limitOk_frameTimePassed h (Bool.and_eq_true_iff.mp hh).1)
  | markSlotStart => exact execMarkSlotStart_keepsLimit h
  | markSlotEnd heard => exact State.keepsLimit_ite h fun _ => markEnd heard
  | candidateRule heard => exact State.keepsLimit_ite h fun _ => markEnd heard
  | escalation heard => exact State.keepsLimit_ite h fun _ => markEnd heard
  | joiningToListen heard => exact State.keepsLimit_ite h fun _ => markEnd heard
  | rollSlotStart => exact execRollSlotStart_keepsLimit h
  | rollSlotEnd heard => exact State.keepsLimit_ite h fun _ => rollEnd heard
  | stationLost heard => exact State.keepsLimit_ite h fun _ => rollEnd heard
  | claimSlotStart => exact execClaimSlotStart_keepsLimit h
  | claimSlotEnd heard => exact State.keepsLimit_ite h fun he => idle _ (State.limitOk_endClaimSlot h hst he heard)
  | claimAging heard => exact execClaimAging_keepsLimit h hst heard
  | claimExpired heard => exact execClaimExpired_keepsLimit h hst heard
  | answerSlotStart => exact execAnswerSlotStart_keepsLimit h
  | answerSlotEnd heard => exact State.keepsLimit_ite h fun _ => answerEnd heard
  | answerDropped heard => exact State.keepsLimit_ite h fun _ => answerEnd heard
  | dataSlotStart => exact execDataSlotStart_keepsLimit h
  | tailResend => exact execTailResend_keepsLimit h
  | jobNoAnswer => exact execJobNoAnswer_keepsLimit h
  | dataSlotEnd heard => exact State.keepsLimit_ite h fun he => dataEnd heard he
  | slotLapsed heard => exact State.keepsLimit_ite h fun he => dataEnd heard (State.dataEnds_of_lapses he)
  | windowStalled heard => exact State.keepsLimit_ite h fun he => dataEnd heard (State.dataEnds_of_stallsWindow he)
  | requestWordShiftedIn word => exact execRequestWordShiftedIn_keepsLimit h hst word
  | replyWordShiftedOut => exact execReplyWordShiftedOut_keepsLimit h
  | _ => exact State.take_keepsLimit h hst _

end Sys2Proof.Machine

open Sys2Proof Sys2Proof.Machine

/-- Settles O59: CLAIM is refused at the limit, and no other command adds to holdings and queued claims but the end of slot 2,
where self's own word has left room for the slot that it wins. -/
theorem holdingsStayWithinLimit : Obligations.HoldingsStayWithinLimit := by
  intro s t hst _ _ h hstep
  unfold step at hstep
  split at hstep
  · cases hstep
    exact h
  · rename_i c rest _
    exact exec_keepsLimit (s := { s with pending := rest }) c hst h t hstep
end

