-- ==== Sys2Proof/Proofs/StreamSupply.lean ====
section
/-! The start of a data slot outside BULK (R77, R114): what an own slot sends by its role, and nothing elsewhere. -/

namespace Sys2Proof.Machine

variable {s : State} {n c : Nat}

/-- An awaited data slot is the one that may start. -/
theorem State.startingSlot_of_awaits (ha : s.awaits n) (h4 : 4 ≤ n) (hlen : n < s.len) : s.startingSlot = some n := by
  have hdata : isDataSlot s.len n = true := by simp [isDataSlot, h4, hlen]
  rw [State.startingSlot, State.startsAt_of_awaits ha, if_pos hdata, ha.2.2]

/-- An own slot is served in MEMBER and LEAVING (R77). -/
theorem State.serves_iff :
    s.serves n = true ↔ (s.control.state = .member ∨ s.control.state = .leaving) ∧ (s.entry n).owner = some s.self := by
  rw [State.serves, Bool.and_eq_true, StationState.serving_iff, State.isOwn_iff]

/-- Outside BULK the start of a data slot reads nothing of the buffer, so it cannot fail (log 19). -/
theorem State.dataStart_of_not_bulk (h : s.serves n = true → (s.entry n).role ≠ some .bulk) :
    s.dataStart n = .next (s.startDataSlot n) := by
  unfold State.dataStart
  split_ifs with hs
  · simp [State.supplyReads, h hs]
  · rfl

/-- The start of a data slot that is awaited, outside BULK. -/
theorem exec_dataSlotStart_of_not_bulk (ha : s.awaits n) (h4 : 4 ≤ n) (hlen : n < s.len)
    (h : s.serves n = true → (s.entry n).role ≠ some .bulk) :
    exec .dataSlotStart s = .next (s.startDataSlot n) := by
  show execDataSlotStart s = _
  rw [execDataSlotStart, State.startingSlot_of_awaits ha h4 hlen]
  exact State.dataStart_of_not_bulk h

/-- A served slot starts with what its supplier hands over (R77). -/
theorem State.startDataSlot_of_serves (h : s.serves n = true) :
    s.startDataSlot n = ((s.supply n).1.postAll (s.supply n).2.2).beginWith (some (s.supply n).2.1) := if_pos h

/-- A slot that is not served starts without a word (R77). -/
theorem State.startDataSlot_of_not_serves (h : ¬s.serves n = true) : s.startDataSlot n = s.beginWith none := if_neg h

/-- A STREAM slot takes the oldest sample of its channel (R114). -/
theorem State.supply_of_sample {v : BitVec 24} {rest : List (BitVec 24)} (hrole : (s.entry n).role = some (.stream c))
    (hq : (s.txAt c).queue = v :: rest) :
    s.supply n = (s.setTx c { s.txAt c with queue := rest }, dataWord s.self v, []) := by
  simp only [State.supply, hrole, State.streamSupply, hq]

/-- Without a sample it sends FILL, and counts the underrun (R114). -/
theorem State.supply_of_underrun (hrole : (s.entry n).role = some (.stream c)) (hq : (s.txAt c).queue = []) :
    s.supply n =
      (s.setTx c { s.txAt c with underrun := satSucc 65535 (s.txAt c).underrun, starved := true }, fillWord s.self,
        if (s.txAt c).starved then []
        else [{ Event.of .txStarved s.timer.frame with
                channel := some c, slot := some n, count := some (satSucc 65535 (s.txAt c).underrun) }]) := by
  simp only [State.supply, hrole, State.streamSupply, hq]

/-- A SPARE slot sends FILL (R77). -/
theorem State.supply_of_spare (hrole : (s.entry n).role = some .spare) : s.supply n = (s, fillWord s.self, []) := by
  simp only [State.supply, hrole]

end Sys2Proof.Machine

open Sys2Proof Sys2Proof.Machine

/-- Settles O40: by whether the slot is served, then by its role and by what its channel's queue holds. -/
theorem streamSlotsSupplySamples : Obligations.StreamSlotsSupplySamples := by
  intro s n ha h4 hlen
  have hserved (hst : s.control.state = .member ∨ s.control.state = .leaving) (hown : (s.entry n).owner = some s.self)
      (hrole : (s.entry n).role ≠ some .bulk) :
      exec .dataSlotStart s =
        .next (((s.supply n).1.postAll (s.supply n).2.2).beginWith (some (s.supply n).2.1)) := by
    rw [exec_dataSlotStart_of_not_bulk ha h4 hlen fun _ => hrole,
      State.startDataSlot_of_serves (State.serves_iff.mpr ⟨hst, hown⟩)]
  refine ⟨fun c v rest hst hown hrole hq => ?sample, fun c hst hown hrole hq => ⟨_, rfl, ?underrun⟩,
    fun hst hown hrole => ?spare, fun hnot => ?other⟩
  case sample =>
    rw [hserved hst hown (by simp [hrole]), State.supply_of_sample hrole hq]
    rfl
  case underrun =>
    rw [hserved hst hown (by simp [hrole]), State.supply_of_underrun hrole hq]
    cases (s.txAt c).starved <;> rfl
  case spare =>
    rw [hserved hst hown (by simp [hrole]), State.supply_of_spare hrole]
    rfl
  case other =>
    have hidle : ¬s.serves n = true := fun hs => by
      obtain ⟨hst, hown⟩ := State.serves_iff.mp hs
      exact hnot.elim (· hst) (· hown)
    rw [exec_dataSlotStart_of_not_bulk ha h4 hlen fun hs => absurd hs hidle, State.startDataSlot_of_not_serves hidle]
    rfl
end

