-- ==== Sys2Proof/Proofs/SetRole.lean ====
section
/-! SET_ROLE by its table (R86): the roles that an argument names, and what a change of role writes. -/

namespace Sys2Proof.Machine

variable {s : State} {n : Nat} {ra : RoleArg} {role : Role}

/-- The arguments that name no role (R173). -/
theorem roleOf_eq_none (h : (∃ c, 8 ≤ c ∧ ra = .stream c) ∨ ra = .absent ∨ ∃ k, ra = .undefined k) :
    roleOf ra = none := by
  rcases h with ⟨c, hc, rfl⟩ | rfl | ⟨k, rfl⟩
  · exact if_neg (by omega)
  · rfl
  · rfl

/-- The arguments that name a role (R173). -/
theorem roleOf_eq_some
    (h : ra = .spare ∧ role = .spare ∨ ra = .bulk ∧ role = .bulk ∨ ∃ c < 8, ra = .stream c ∧ role = .stream c) :
    roleOf ra = some role := by
  rcases h with ⟨rfl, rfl⟩ | ⟨rfl, rfl⟩ | ⟨c, hc, rfl, rfl⟩
  · rfl
  · rfl
  · exact if_pos hc

/-- A role that a slot has already is never one too many (R86). -/
theorem State.channelFull_of_same (h : (s.entry n).role = some role) : s.channelFull n role = false := by
  cases role <;> simp [State.channelFull, h]

/-- A stream slot more is one too many for a channel with four slots (R86). -/
theorem State.channelFull_stream {c : Nat} (h : (s.entry n).role ≠ some (.stream c)) :
    s.channelFull n (.stream c) =
      decide (4 ≤ ((List.range s.len).filter (fun m => decide (4 ≤ m ∧ (s.entry m).role = some (.stream c)))).length) := by
  simp only [State.channelFull, State.boundSlots_eq, bne_iff_ne.mpr h, Bool.true_and, Config.streamSlots]

/-- Another role is written, and the job of a slot that was BULK is suspended (R81, R86, R148). -/
theorem State.changeRole_of_other (h : (s.entry n).role ≠ some role) :
    s.changeRole n role =
      { s with
        table := s.table.set n { s.entry n with role := some role }
        jobs := if (s.entry n).role = some .bulk then
            s.jobs.map (fun j => if j.slot = some n then
              { j with state := .queued, headDue := true, resume := true, timer := 0, slot := none } else j)
          else s.jobs } := by
  rw [State.changeRole, if_neg h, State.lossNotice_eq]
  rfl

/-- SET_ROLE needs a station that serves its slots (R86). -/
theorem State.judgeSetRole_of_not_serving (h : ¬(s.control.state = .member ∨ s.control.state = .leaving)) :
    s.judgeSetRole n ra = s.refuse .state :=
  if_pos (by rwa [← Bool.not_eq_true, StationState.serving_iff])

section
variable (hst : s.control.state = .member ∨ s.control.state = .leaving)
include hst

/-- The slot must be a data slot, and the argument must name a role (R173). -/
theorem State.judgeSetRole_of_range (h : ¬(4 ≤ n ∧ n < s.len) ∨ roleOf ra = none) :
    s.judgeSetRole n ra = s.refuse .range := by
  have hserving := StationState.serving_iff.mpr hst
  unfold State.judgeSetRole
  rcases h with h | h
  · simp [hserving, (isDataSlot_eq_false_iff s.len n).mpr h]
  · simp [hserving, h]

/-- The role of a data slot (R86). -/
theorem State.judgeSetRole_of_role (h4 : 4 ≤ n) (hlen : n < s.len) (hr : roleOf ra = some role) :
    s.judgeSetRole n ra =
      if (s.entry n).owner ≠ some s.self then s.refuse .notHeld
      else if s.channelFull n role = true then s.refuse .limit
      else (s.changeRole n role).doneWith .nothing := by
  have hdata : isDataSlot s.len n = true := by simp [isDataSlot, h4, hlen]
  simp only [State.judgeSetRole, StationState.serving_iff.mpr hst, hdata, hr, ← Bool.not_eq_true, State.isOwn_iff,
    not_true_eq_false, if_false, ne_eq]

end

end Sys2Proof.Machine

open Sys2Proof Sys2Proof.Machine

/-- Settles O36: by the lines of SET_ROLE's table, from the first. -/
theorem setRoleChangesRole : Obligations.SetRoleChangesRole := by
  intro s n ra hreq
  refine ⟨fun hm hl => ?state, fun hst hrange => ?range, fun role hst h4 hlen hrole => ?role⟩
  case state => exact congrArg _ (State.take_unchanged hreq (State.judgeSetRole_of_not_serving (by tauto)))
  case range =>
    exact congrArg _ (State.take_unchanged hreq (State.judgeSetRole_of_range hst (hrange.imp_right roleOf_eq_none)))
  case role =>
    refine congrArg _ ((State.take_request hreq ..).trans ?_)
    rw [State.judgeSetRole_of_role hst h4 hlen (roleOf_eq_some hrole)]
    by_cases hown : (s.entry n).owner = some s.self
    · rw [if_neg (not_not.mpr hown), if_neg (not_not.mpr hown)]
      by_cases hsame : (s.entry n).role = some role
      · rw [State.channelFull_of_same hsame, if_neg Bool.false_ne_true, if_pos hsame, State.changeRole, if_pos hsame]
        rfl
      · rw [if_neg hsame, State.changeRole_of_other hsame]
        cases role with
        | stream c =>
          rw [State.channelFull_stream hsame]
          dsimp only
          split_ifs <;> rfl
        | spare => rfl
        | bulk => rfl
    · rw [if_pos hown, if_pos hown]
      rfl
end

