-- ==== Sys2Proof/Proofs/SilentLapse.lean ====
section
/-! The eighth silent occurrence in a row of a data slot (R75, R78): the table frees the slot, roster and windows leave all
else, and a word of self heard as silence was DISTURBED. -/

namespace Sys2Proof.Machine

variable {s u : State} {o : Occurrence} {n k : Nat} {b : SlotBits} {e : SlotEntry}

/-! ### What is heard as silence -/

/-- A word heard as silence was DISTURBED: a line error alone turns a 0 that self drives into a 1 (R4). -/
theorem outcomeOf_allOnes (h : b ≠ BitVec.allOnes 40) : outcomeOf b (BitVec.allOnes 40) = .disturbed := by
  cases ho : outcomeOf b (BitVec.allOnes 40) with
  | sent => exact absurd ho (outcomeOf_ne_sent h.symm)
  | displaced => exact absurd classify_allOnes (classify_ne_silent_of_displaced ho)
  | disturbed => rfl

/-- The outcome of an occurrence that is heard as silence. -/
theorem State.outcome_allOnes (h : s.port.word ≠ some (BitVec.allOnes 40)) :
    (s.occurrence (BitVec.allOnes 40)).outcome = if s.port.word = none then none else some .disturbed := by
  rw [State.occurrence_outcome]
  cases hw : s.port.word with
  | none => rfl
  | some b => exact congrArg some (outcomeOf_allOnes fun hb => h (hw.trans (congrArg some hb)))

/-! ### Windows at a silent occurrence -/

/-- A window that writes nothing and gives no answer. -/
def WindowAct.Quiet (a : WindowAct) : Prop := a.write = none ∧ a.answer = none

theorem Window.stallOnce_quiet (x : Window) (n : Nat) (o : Occurrence) : (x.stallOnce n o).Quiet := by
  refine ⟨x.stallOnce_write n o, ?_⟩
  cases hx : x.state with
  | receiving => simp only [Window.stallOnce, hx]; split_ifs <;> rfl
  | gap => simp only [Window.stallOnce, hx]; split_ifs <;> rfl
  | _ => simp only [Window.stallOnce, hx]; rfl

/-- At a silent occurrence a window stalls at most (R157, R165). -/
theorem State.windowAct_quiet (hs : o.heard = .silent) (u : State) (n : Nat) : (u.windowAct o n).Quiet := by
  unfold State.windowAct Window.act Window.follow
  simp only [hs, Heard.acceptable_silent]
  split_ifs
  · exact Window.stallOnce_quiet ..
  · exact ⟨rfl, rfl⟩

theorem State.applyAct_of_quiet {a : WindowAct} (ha : a.Quiet) (u : State) (n : Nat) :
    u.applyAct n a = u.setWindow n a.window := by
  obtain ⟨hwrite, hanswer⟩ := ha
  simp only [State.applyAct, hwrite, hanswer]
  rfl

/-- Quiet windows leave all but themselves. -/
theorem State.windowsEnd_of_quiet (h : ∀ n, (u.windowAct o n).Quiet) :
    ∃ windows, u.windowsEnd o = { u with windows := windows } := by
  have acts (ns : List Nat) : ∀ t : State, ∃ windows,
      ns.foldl (fun t n => t.applyAct n (u.windowAct o n)) t = { t with windows := windows } := by
    induction ns with
    | nil => exact fun t => ⟨_, rfl⟩
    | cons n ns ih =>
      intro t
      obtain ⟨windows, hrest⟩ := ih (t.setWindow n (u.windowAct o n).window)
      refine ⟨windows, ?_⟩
      rw [List.foldl_cons, State.applyAct_of_quiet (h n), hrest]
      rfl
  exact acts windowIds u

/-- Nothing is written at a silent occurrence, within buffer memory or outside. -/
theorem State.strayWrite_of_silent (s : State) : s.strayWrite (BitVec.allOnes 40) = none := by
  have hwrites : s.windowWrites (s.occurrence (BitVec.allOnes 40)) = [] := by
    refine List.filterMap_eq_nil_iff.mpr fun n _ => ?_
    rw [(s.windowAct_quiet (o := s.occurrence (BitVec.allOnes 40)) classify_allOnes n).1]
    rfl
  unfold State.strayWrite
  split_ifs
  · rw [hwrites]
    rfl
  · rfl

/-- A silent data slot leaves answer queue and buffer memory. -/
theorem State.dataEnd_of_silent (hs : o.heard = .silent) {table : Bank SlotEntry 96} {roster : Bank RosterEntry 31}
    {jobs : List Job} {joined posts : List Event}
    (h : u.rosterAndTable o = ({ u with table := table, roster := roster, jobs := jobs }, joined, posts)) :
    (u.dataEnd o).answers = u.answers ∧ (u.dataEnd o).buffer = u.buffer := by
  obtain ⟨heard, hheard⟩ : ∃ heard : State, heard =
    { u with table := table, roster := roster, jobs := jobs, rx := u.rx.map (fun r => r.hear o) } := ⟨_, rfl⟩
  obtain ⟨windows, hacted⟩ : ∃ windows,
      (if u.control.state.serving then heard.windowsEnd o else heard) = { heard with windows := windows } := by
    split_ifs
    · exact State.windowsEnd_of_quiet (heard.windowAct_quiet hs)
    · exact ⟨_, rfl⟩
  unfold State.dataEnd
  simp only [h]
  rw [← hheard, hacted]
  obtain ⟨timer, control, hpass, -⟩ := State.ends_eq { heard with windows := windows } 0
    ([joined, posts, u.offSlotEvents o] ++ channelIds.map (fun c => (u.rxAt c).overrunEvents o c) ++
      (if u.control.state.serving then u.windowEvents o else [])) o
  rw [hpass, hheard]
  exact ⟨rfl, rfl⟩

/-! ### Roster and table at a silent occurrence -/

/-- Silence has no owner tag, in whichever order roster and table act (R66, R67). -/
theorem State.rosterAndTable_of_silent (hs : o.heard = .silent) :
    u.rosterAndTable o = ((u.tableEnd o).1, [], (u.tableEnd o).2) := by
  have hmark (t : State) : t.markPresent o = (t, []) := by
    unfold State.markPresent
    rw [hs]
    split_ifs <;> rfl
  unfold State.rosterAndTable
  rw [hmark, hmark]
  split_ifs <;> rfl

/-- The owner's steps at a silent occurrence are the silence run's alone (R74): nothing is heard that corrects an owner. -/
theorem State.ownerSteps_of_silent (hs : o.heard = .silent) (ho : o.outcome ≠ some .displaced) :
    u.ownerSteps o = u.silenceStep o := by
  have hcorrect : (u.silenceStep o).1.correct o = ((u.silenceStep o).1, []) := by
    unfold State.correct
    rw [hs]
    rfl
  unfold State.ownerSteps
  cases hout : o.outcome with
  | none => dsimp only; rw [hcorrect, List.append_nil]
  | some x =>
    cases x with
    | sent => rfl
    | displaced => exact absurd hout ho
    | disturbed => rfl

/-- The eighth silent occurrence in a row frees the slot (R73, R75). -/
theorem State.silenceStep_of_lapse (hs : o.heard = .silent) (hn : o.slot < 96) (ho : e.owner = some k) (he : e.silence = 7) :
    (u.setEntry o.slot e).silenceStep o =
      ({ u with table := u.table.set o.slot e.freed, jobs := u.jobsAfterLoss e.role o.slot },
        [{ Event.of .slotLapsed o.frame with slot := some o.slot, station := some k }]) := by
  have hrun : ¬7 + 1 < Config.lapseRun := by decide
  simp only [State.silenceStep, State.entry_setEntry_same u e hn, ho, hs, he, if_true, hrun, if_false, State.freeSlot_eq,
    State.setEntry_table, Bank.set_set]
  rfl

/-- The freed entry counts a DISTURBED word as corrupt (R74, R78). -/
theorem State.freed_noted_of_silent (hs : o.heard = .silent)
    (hout : o.outcome = if s.port.word = none then none else some .disturbed) (e : SlotEntry) :
    (e.noted o).freed =
      { e with
        owner := none, silence := 0, lastKind := some .silent, role := none
        corrupt := if s.port.word = none then e.corrupt else if e.corrupt < 255 then e.corrupt + 1 else 255 } := by
  have hcorrupt : (e.noted o).corrupt = if s.port.word = none then e.corrupt else satSucc 255 e.corrupt := by
    by_cases hw : s.port.word = none
    · simp [SlotEntry.noted, hs, hout, hw]
    · simp [SlotEntry.noted, hs, hout, hw]
  have hlast : (e.noted o).lastKind = some .silent := by simp [SlotEntry.noted, hs, Heard.last]
  rw [SlotEntry.freed, hcorrupt, hlast]
  rfl

/-- Roster and table at the eighth silent occurrence in a row (R74, R75). -/
theorem State.rosterAndTable_of_lapse (hs : o.heard = .silent) (hout : o.outcome ≠ some .displaced)
    (hobs : u.control.observing = false) (hslot : o.slot = n) (hn : n < 96) (ho : (u.entry n).owner = some k)
    (he : (u.entry n).silence = 7) :
    u.rosterAndTable o =
      ({ u with
          table := u.table.set n ((u.entry n).noted o).freed
          roster := u.roster
          jobs := u.jobsAfterLoss (u.entry n).role n },
        [], [{ Event.of .slotLapsed o.frame with slot := some n, station := some k }]) := by
  subst hslot
  have hnoted : ((u.entry o.slot).noted o).owner = some k := ho
  rw [State.rosterAndTable_of_silent hs, State.tableEnd_of_not_observing hobs, State.ownerSteps_of_silent hs hout,
    State.silenceStep_of_lapse hs hn hnoted he]
  rfl

/-- The eighth silent occurrence in a row is the named case SLOT_LAPSED (log 2). -/
theorem State.lapses_of_run (hp : s.passes n) (h4 : 4 ≤ n) (hlen : n < s.len) (hon : s.control.state.onTrunk = true)
    (hobs : s.control.observing = false) {bits : SlotBits} (hs : (s.occurrence bits).heard = .silent)
    (ho : (s.entry n).owner = some k) (he : (s.entry n).silence = 7) : s.lapses bits = true := by
  have hends : s.dataEnds = true := by simp [State.dataEnds, State.endsAt_of_passes hp, isDataSlot, h4, hlen, hon]
  simp only [State.lapses, hends, hobs, hs, State.occurrence_slot_of_passes hp bits, ho, he]
  rfl

end Sys2Proof.Machine

open Sys2Proof Sys2Proof.Machine

/-- Settles O37: silence lapses the slot by the table's own steps, and no other block has anything to act on. -/
theorem silentSlotsLapse : Obligations.SilentSlotsLapse := by
  intro s n k hp h4 hlen h96 hon hobs hword howner hrun
  obtain ⟨o, ho⟩ : ∃ o, o = s.occurrence (BitVec.allOnes 40) := ⟨_, rfl⟩
  have hs : o.heard = .silent := ho ▸ classify_allOnes
  obtain ⟨hslot, hslot96⟩ := ho ▸ State.occurrence_slot_lt hp hlen h96 (BitVec.allOnes 40)
  have hout : o.outcome = if s.port.word = none then none else some .disturbed := ho ▸ State.outcome_allOnes hword
  have hnotDisplaced : o.outcome ≠ some .displaced := by rw [hout]; split_ifs <;> simp
  have hacts := State.rosterAndTable_of_lapse (u := s.portEnd (BitVec.allOnes 40)) hs hnotDisplaced hobs hslot
    (hslot ▸ hslot96) howner hrun
  have hf : s.faultIn o = none := State.faultIn_none (by rw [hs]; rfl) (by rw [hs]; rfl)
  have hexec := exec_dataSlotEnd hp h4 hlen hon (ho ▸ hf) s.strayWrite_of_silent
  rw [← ho] at hexec
  obtain ⟨hanswers, hbuffer⟩ := State.dataEnd_of_silent hs hacts
  obtain ⟨es, hended⟩ := State.dataEnd_ended hacts
  have hlapses : s.lapses (BitVec.allOnes 40) = true :=
    State.lapses_of_run hp h4 hlen hon hobs (ho ▸ hs) howner hrun
  refine ⟨_, es, ?lapsed, hexec, ?table, hended.jobs, hended.events, ?posts, hended.roster, hended.claims, hended.tx,
    hanswers, hbuffer, hended.host, hended.pins⟩
  case lapsed =>
    rw [← hexec]
    exact (if_pos hlapses).trans (if_pos (State.dataEnds_of_lapses hlapses)).symm
  case table =>
    rw [hended.table]
    exact congrArg (s.table.set n) (State.freed_noted_of_silent hs hout _)
  case posts => exact (hended.posts .slotLapsed (by simp [tableKinds])).trans (ho ▸ rfl)
end

