-- ==== Sys2Proof/Proofs/ClaimWords.lean ====
section
/-! CLAIM words at the end of slot 2 (R100, R104 to R108): which slot a word gives or releases in self's table, and what the
table and the claim queue do with self's own SENT word and with a peer's. -/

namespace Sys2Proof.Machine

variable {s u v x : State} {o : Occurrence} {w : SlotWord} {n : Nat} {bits : SlotBits} {r : ClaimRecord} {role : Option Role}

/-! ### The slot that a CLAIM word names -/

theorem isDataSlot_iff {len n : Nat} : isDataSlot len n = true ↔ 4 ≤ n ∧ n < len := by
  rw [isDataSlot, Bool.and_eq_true, decide_eq_true_eq, decide_eq_true_eq]

/-- The lowest-numbered free data slot (R105). -/
theorem State.lowestFree_eq_some (h4 : 4 ≤ n) (hlen : n < u.len) (hfree : (u.entry n).owner = none)
    (hbelow : ∀ m < n, 4 ≤ m → (u.entry m).owner ≠ none) : u.lowestFree = some n := by
  rw [State.lowestFree, dataSlots, List.find?_filter, List.find?_range_eq_some]
  exact ⟨by simp [h4, hfree], List.mem_range.mpr hlen, fun m hm => by simpa [imp_iff_not_or] using hbelow m hm⟩

/-- No data slot is free (R105). -/
theorem State.lowestFree_eq_none (h : ∀ m < u.len, 4 ≤ m → (u.entry m).owner ≠ none) : u.lowestFree = none := by
  rw [State.lowestFree, List.find?_eq_none]
  intro m hm
  simp only [dataSlots, List.mem_filter, List.mem_range, decide_eq_true_eq] at hm
  simpa using h m hm.1 hm.2

/-- A SLOT word gives its slot where it is free (R104). -/
theorem State.givenSlot_of_slot (hc : w.claimCode = 1) :
    u.givenSlot w =
      if isDataSlot u.len w.claimSlot = true ∧ (u.entry w.claimSlot).owner = none then some w.claimSlot else none :=
  if_pos hc

/-- An ANY word gives the lowest free slot (R105). -/
theorem State.givenSlot_of_any (hc : w.claimCode = 2) : u.givenSlot w = u.lowestFree := by
  rw [State.givenSlot, if_neg (by omega), if_pos hc]

/-- A RELEASE word gives none (R106). -/
theorem State.givenSlot_of_release (hc : w.claimCode = 3) : u.givenSlot w = none := by
  rw [State.givenSlot, if_neg (by omega), if_neg (by omega)]

/-- A word that names a free slot, or asks for any, is given the slot (R104, R105). -/
theorem State.givenSlot_eq_of_free (h4 : 4 ≤ n) (hlen : n < u.len) (hfree : (u.entry n).owner = none)
    (h : w.claimCode = 1 ∧ w.claimSlot = n ∨ w.claimCode = 2 ∧ ∀ m < n, 4 ≤ m → (u.entry m).owner ≠ none) :
    u.givenSlot w = some n := by
  rcases h with ⟨hc, rfl⟩ | ⟨hc, hbelow⟩
  · rw [State.givenSlot_of_slot hc, if_pos ⟨isDataSlot_iff.mpr ⟨h4, hlen⟩, hfree⟩]
  · rw [State.givenSlot_of_any hc, State.lowestFree_eq_some h4 hlen hfree hbelow]

/-- A RELEASE word releases its sender's own slot alone (R106). -/
theorem State.releasedSlot_of_owner (h4 : 4 ≤ n) (hlen : n < u.len) (hc : w.claimCode = 3) (hslot : w.claimSlot = n)
    (ho : (u.entry n).owner = some w.sender) : u.releasedSlot w = some n := by
  subst hslot
  exact if_pos ⟨hc, isDataSlot_iff.mpr ⟨h4, hlen⟩, ho⟩

/-- A word for an owned slot, for any slot where none is free, or for the release of a slot that is not its sender's names
no slot that the table gives or frees (R104 to R106). -/
theorem State.no_slot_of_claimWord
    (h : w.claimCode = 1 ∧ w.claimSlot = n ∧ (u.entry n).owner ≠ none ∨
      w.claimCode = 2 ∧ (∀ m < u.len, 4 ≤ m → (u.entry m).owner ≠ none) ∨
      w.claimCode = 3 ∧ w.claimSlot = n ∧ (u.entry n).owner ≠ some w.sender) :
    u.givenSlot w = none ∧ u.releasedSlot w = none := by
  rcases h with ⟨hc, rfl, ho⟩ | ⟨hc, ho⟩ | ⟨hc, rfl, ho⟩
  · exact ⟨(State.givenSlot_of_slot hc).trans (if_neg fun h => ho h.2), if_neg (by omega)⟩
  · exact ⟨(State.givenSlot_of_any hc).trans (State.lowestFree_eq_none ho), if_neg (by omega)⟩
  · exact ⟨State.givenSlot_of_release hc, if_neg fun h => ho h.2.2⟩

/-! ### The application of a CLAIM word -/

/-- A CLAIM word that self has not sent in vain is applied (R104 to R108). -/
theorem State.appliedClaim_of_heard (hw : o.heard.acceptable .claim = some w)
    (hs : w.sender ≠ u.self ∨ o.outcome = some .sent) : u.appliedClaim o = some w := by
  simp only [State.appliedClaim, hw]
  exact if_neg fun h => hs.elim (· h.1) (h.2 ·)

theorem State.applyClaim_of_given (hw : u.appliedClaim o = some w) (hg : u.givenSlot w = some n) :
    u.applyClaim o role = if w.sender = u.self then u.grantSelf n role else (u.grantPeer n w.sender, []) := by
  simp only [State.applyClaim, hw, hg]

theorem State.applyClaim_of_released (hw : u.appliedClaim o = some w) (hg : u.givenSlot w = none)
    (hr : u.releasedSlot w = some n) : u.applyClaim o role = (u.freeSlot n, []) := by
  simp only [State.applyClaim, hw, hg, hr]

theorem State.applyClaim_of_neither (hw : u.appliedClaim o = some w) (hg : u.givenSlot w = none)
    (hr : u.releasedSlot w = none) : u.applyClaim o role = (u, []) := by
  simp only [State.applyClaim, hw, hg, hr]

/-- The role of a slot that self is granted (R80, R108). -/
theorem State.grantRole_eq (u : State) (role : Option Role) :
    u.grantRole role =
      match role with
      | none => .spare
      | some (.stream c) =>
        if ((List.range u.len).filter (fun m => decide (4 ≤ m ∧ (u.entry m).role = some (.stream c)))).length < 4
        then .stream c else .spare
      | some x => x := by
  rcases role with _ | _ | c | _
  · rfl
  · rfl
  · simp only [State.grantRole, State.boundSlots_eq, Config.streamSlots]
  · rfl

/-- The list of the things of a kind, each made where it is met. -/
theorem flatten_map_ite {α β : Type} (xs : List α) (p : α → Prop) [DecidablePred p] (g : α → β) :
    (xs.map (fun a => if p a then [g a] else [])).flatten = (xs.filter (fun a => decide (p a))).map g := by
  induction xs with
  | nil => rfl
  | cons a as ih => by_cases h : p a <;> simp [h, ih]

/-- The stream unit posts RX_UNBOUND once for every channel that was bound to the slot (R124). -/
theorem State.grantSelf_events_perm (u : State) (n : Nat) (role : Option Role) :
    (u.grantSelf n role).2.Perm
      (([0, 1, 2, 3, 4, 5, 6, 7].filter (fun c => decide ((u.rxAt c).binding.map Binding.slot = some n))).map (fun c =>
        { Event.of .rxUnbound u.timer.frame with channel := some c, slot := some n, result := some .ownSlot })) :=
  (mergeAll_perm ..).trans (.of_eq (flatten_map_ite channelIds _ _))

/-! ### The end of slot 2 -/

/-- Table and claim queue have acted, what they post is posted, and slot 3 comes next (R17). -/
theorem State.exec_claimSlotEnd (hp : s.passes 2) (hlen : 3 < s.len) (hon : s.control.state.onTrunk = true)
    (hf : s.faultIn (s.occurrence bits) = none) (hm : (classify bits).acceptable .mark = none) {applied done : List Event}
    (happly : (s.portEnd bits).applyClaim (s.occurrence bits) ((s.portEnd bits).contendingHead.bind ClaimRecord.role) =
      (v, applied))
    (hqueue : v.claimOutcome (s.occurrence bits) ((s.portEnd bits).ownGrant (s.occurrence bits)) = (x, done)) :
    exec (.claimSlotEnd bits) s = .next
      { x with
        timer := s.timer.next 2
        events := x.events.postAll (applied ++ done)
        happening := x.happening + 1 } := by
  have hends : s.claimEnds = true := by simp [State.claimEnds, State.endsAt_of_passes hp, hon]
  have hslot := State.occurrence_slot_of_passes hp bits
  have hfront := (State.front_claimActs (s.portEnd bits) (s.occurrence bits)
    ((s.portEnd bits).contendingHead.bind ClaimRecord.role) ((s.portEnd bits).ownGrant (s.occurrence bits))).1
  rw [happly, hqueue] at hfront
  obtain ⟨hc, ht, -⟩ := State.front_eq_iff.mp hfront
  have hxlen : x.len = s.len := by rw [State.len, hc]; rfl
  have hoff : (s.portEnd bits).offSlotEvents (s.occurrence bits) = [] := State.offSlotEvents_nil hm
  refine (if_pos hends).trans (congrArg _ ?_)
  rw [State.endClaimSlot_of_none hf, State.claimEnd]
  simp only [happly, hqueue, hoff]
  rw [State.passOn_next (State.realignsTo_none hm) (by rw [hslot, State.postGroups_len, hxlen]; exact hlen), hslot,
    State.postGroups, mergeAll_alone _ _ _ _ rfl, ← ht.trans (s.portEnd_timer bits)]
  rfl

/-! ### Self's own word, SENT -/

/-- The word of the contending head is one that tables apply (R104 to R106). -/
theorem State.acceptable_claimToSend (hself : 1 ≤ u.self ∧ u.self ≤ 30) (hslot : ∀ m ∈ r.request.named, m < 96) :
    (classify (u.claimToSend r).bits).acceptable .claim = some (u.claimToSend r) := by
  refine Heard.acceptable_eq_some.mpr ⟨State.classify_claimToSend hself r, ?_⟩
  unfold State.claimToSend
  cases hr : r.request with
  | slot m => exact ⟨rfl, claimWord_malformed _ _ (by decide) (by decide) (hslot m (by simp [hr, ClaimRequest.named]))⟩
  | any => exact ⟨rfl, claimWord_malformed _ _ (by decide) (by decide) (by decide)⟩
  | release m => exact ⟨rfl, claimWord_malformed _ _ (by decide) (by decide) (hslot m (by simp [hr, ClaimRequest.named]))⟩

/-- It names the slot of its record (R99). -/
theorem State.claimSlot_claimToSend (hr : r.request.named = some n) (hn : n < 96) : (u.claimToSend r).claimSlot = n := by
  unfold State.claimToSend
  cases hreq : r.request with
  | slot m =>
    obtain rfl : m = n := by simpa [hreq, ClaimRequest.named] using hr
    exact claimWord_claimSlot _ _ _ _ (by omega)
  | any => simp [hreq, ClaimRequest.named] at hr
  | release m =>
    obtain rfl : m = n := by simpa [hreq, ClaimRequest.named] using hr
    exact claimWord_claimSlot _ _ _ _ (by omega)

/-- In MEMBER the word of the contending head `r`, with the records `rs` behind it, is heard whole in slot 2. -/
structure State.WinsClaim (s : State) (r : ClaimRecord) (rs : List ClaimRecord) : Prop where
  passes : s.passes 2
  long : 3 < s.len
  member : s.control.state = .member
  self : 1 ≤ s.self ∧ s.self ≤ 30
  records : s.claims.records = r :: rs
  contending : s.claims.contending = true
  named : ∀ m ∈ r.request.named, m < 96
  word : s.port.word = some (s.claimToSend r).bits

section
variable {rs : List ClaimRecord} (hwin : s.WinsClaim r rs)
include hwin

theorem State.WinsClaim.outcome : (s.occurrence (s.claimToSend r).bits).outcome = some .sent := by
  rw [State.occurrence_outcome, hwin.word, Option.map_some, outcomeOf_self]

theorem State.WinsClaim.contendingHead : s.contendingHead = some r :=
  State.contendingHead_eq_some.mpr ⟨hwin.contending, rs, hwin.records⟩

theorem State.WinsClaim.applied :
    (s.portEnd (s.claimToSend r).bits).appliedClaim (s.occurrence (s.claimToSend r).bits) = some (s.claimToSend r) :=
  State.appliedClaim_of_heard (State.acceptable_claimToSend hwin.self hwin.named) (.inr hwin.outcome)

theorem State.WinsClaim.ownGrant :
    (s.portEnd (s.claimToSend r).bits).ownGrant (s.occurrence (s.claimToSend r).bits) = s.givenSlot (s.claimToSend r) := by
  simp only [State.ownGrant, hwin.applied]
  exact if_pos (s.claimToSend_sender r hwin.self.2)

theorem State.WinsClaim.portEnd :
    s.portEnd (s.claimToSend r).bits = { s with port := s.port.sentWhole (.valid (s.claimToSend r)) } := by
  rw [State.portEnd_of_sentWhole hwin.word, State.classify_claimToSend hwin.self]

/-- Table and claim queue act on self's own SENT word: the record leaves with its CLAIM_DONE (R100). -/
theorem State.WinsClaim.exec {applied : List Event}
    (happly : (s.portEnd (s.claimToSend r).bits).applyClaim (s.occurrence (s.claimToSend r).bits) r.role = (v, applied)) :
    exec (.claimSlotEnd (s.claimToSend r).bits) s = .next
      { v with
        timer := s.timer.next 2
        claims := { s.claims with records := rs, contending := false }
        events := v.events.postAll (applied ++ (r.settleOutcome true s.timer.frame (s.givenSlot (s.claimToSend r))).2)
        happening := v.happening + 1 } := by
  have hv : v.claims = s.claims := by
    have := (s.portEnd (s.claimToSend r).bits).claims_applyClaim (s.occurrence (s.claimToSend r).bits) r.role
    rwa [happly] at this
  have hhead : v.contendingHead = some r := by
    rw [State.contendingHead, hv]
    exact hwin.contendingHead
  have hrole : (s.portEnd (s.claimToSend r).bits).contendingHead.bind ClaimRecord.role = r.role :=
    congrArg (Option.bind · ClaimRecord.role) hwin.contendingHead
  have hgone : (r.settleOutcome true s.timer.frame (s.givenSlot (s.claimToSend r))).1 = none := by
    unfold ClaimRecord.settleOutcome
    cases r.request <;> rfl
  have hqueue : v.claimOutcome (s.occurrence (s.claimToSend r).bits)
      ((s.portEnd (s.claimToSend r).bits).ownGrant (s.occurrence (s.claimToSend r).bits)) =
      ({ v with claims := { s.claims with records := rs, contending := false } },
        (r.settleOutcome true s.timer.frame (s.givenSlot (s.claimToSend r))).2) := by
    have hwon : ((s.occurrence (s.claimToSend r).bits).outcome == some .sent) = true := by rw [hwin.outcome]; rfl
    rw [State.claimOutcome_of_some hhead, hwin.ownGrant, hwon, State.occurrence_frame, hgone, hv, hwin.records]
    rfl
  have hf : s.faultIn (s.occurrence (s.claimToSend r).bits) = none :=
    State.faultIn_eq_none (Occurrence.duplicate_eq_false_of_sent hwin.outcome (by simp))
      (Occurrence.lengthFault_eq_false_of_state _ (by simp [hwin.member]) (by simp [hwin.member]))
  have hheard := Heard.acceptable_eq_some.mp (State.acceptable_claimToSend hwin.self hwin.named)
  have hmark : (classify (s.claimToSend r).bits).acceptable .mark = none := by
    rw [hheard.1, Heard.acceptable_valid, if_neg (by simp [hheard.2.1])]
  exact State.exec_claimSlotEnd hwin.passes hwin.long (by rw [hwin.member]; rfl) hf hmark (hrole ▸ happly) hqueue

/-- Self is given its slot (R80, R100, R108, R124). -/
theorem State.WinsClaim.exec_of_given (hg : s.givenSlot (s.claimToSend r) = some n)
    (hreq : r.request = .slot n ∨ r.request = .any) :
    Machine.exec (.claimSlotEnd (s.claimToSend r).bits) s = .next
      { s with
        port := s.port.sentWhole (.valid (s.claimToSend r))
        timer := s.timer.next 2
        claims := { s.claims with records := rs, contending := false }
        table := s.table.set n { s.entry n with owner := some s.self, silence := 0, role := some (s.grantRole r.role) }
        rx := s.rx.map (RxChannel.unbindFrom n)
        events := s.events.postAll ((s.grantSelf n r.role).2 ++ [r.doneEvent s.timer.frame .granted (some n) none])
        happening := s.happening + 1 } := by
  have happly : (s.portEnd (s.claimToSend r).bits).applyClaim (s.occurrence (s.claimToSend r).bits) r.role =
      (s.portEnd (s.claimToSend r).bits).grantSelf n r.role :=
    (State.applyClaim_of_given hwin.applied hg).trans (if_pos (s.claimToSend_sender r hwin.self.2))
  have hdone : (r.settleOutcome true s.timer.frame (some n)).2 = [r.doneEvent s.timer.frame .granted (some n) none] := by
    rcases hreq with hreq | hreq <;> simp [ClaimRecord.settleOutcome, hreq]
  rw [hwin.exec happly, hg, hdone]
  unfold State.grantSelf
  rw [hwin.portEnd]
  rfl

/-- Self's slot is freed, and its job suspended (R81, R100, R106). -/
theorem State.WinsClaim.exec_of_released (hreq : r.request = .release n) (hr : s.releasedSlot (s.claimToSend r) = some n) :
    Machine.exec (.claimSlotEnd (s.claimToSend r).bits) s = .next
      { s with
        port := s.port.sentWhole (.valid (s.claimToSend r))
        timer := s.timer.next 2
        claims := { s.claims with records := rs, contending := false }
        table := s.table.set n (s.entry n).freed
        jobs := s.jobsAfterLoss (s.entry n).role n
        events := s.events.post (r.doneEvent s.timer.frame .released (some n) none)
        happening := s.happening + 1 } := by
  have hg : s.givenSlot (s.claimToSend r) = none :=
    State.givenSlot_of_release (by rw [State.claimToSend_claimCode, hreq]; rfl)
  have happly := State.applyClaim_of_released (role := r.role) hwin.applied hg hr
  have hdone (given : Option Nat) :
      (r.settleOutcome true s.timer.frame given).2 = [r.doneEvent s.timer.frame .released (some n) none] := by
    simp [ClaimRecord.settleOutcome, hreq]
  rw [hwin.exec happly, hdone, State.freeSlot_eq, hwin.portEnd]
  rfl

end

/-! ### A peer's word -/

/-- A peer's CLAIM word is heard in slot 2, self sending nothing. -/
structure State.HearsClaim (s : State) (bits : SlotBits) (w : SlotWord) : Prop where
  passes : s.passes 2
  long : 3 < s.len
  onTrunk : s.control.state.onTrunk = true
  unsent : s.port.word = none
  idle : s.claims.contending = false
  heard : classify bits = .valid w
  kind : w.kind = .claim
  wellFormed : w.malformed = false
  peer : w.sender ≠ s.self

section
variable (hh : s.HearsClaim bits w)
include hh

theorem State.HearsClaim.applied : (s.portEnd bits).appliedClaim (s.occurrence bits) = some w :=
  State.appliedClaim_of_heard (Heard.acceptable_eq_some.mpr ⟨hh.heard, hh.kind, hh.wellFormed⟩) (.inl hh.peer)

/-- The table alone acts on a peer's word: the claim queue has no head that contends (R104 to R108). -/
theorem State.HearsClaim.exec (happly : ∀ role, (s.portEnd bits).applyClaim (s.occurrence bits) role = (v, []))
    (hv : v.events = s.events ∧ v.happening = s.happening) :
    exec (.claimSlotEnd bits) s = .next { v with timer := s.timer.next 2, happening := s.happening + 1 } := by
  have hclaims : v.claims = s.claims := by
    have := (s.portEnd bits).claims_applyClaim (s.occurrence bits) none
    rwa [happly] at this
  have hidle : { v.claims with contending := false } = v.claims := by rw [hclaims, ← hh.idle]
  have hqueue (given : Option Nat) : v.claimOutcome (s.occurrence bits) given = (v, []) := by
    have hnone : v.contendingHead = none := by
      rw [State.contendingHead, hclaims, hh.idle]
      rfl
    rw [State.claimOutcome_of_none hnone, hidle]
  have hmark : (classify bits).acceptable .mark = none := by
    rw [hh.heard, Heard.acceptable_valid, if_neg (by simp [hh.kind])]
  have hf : s.faultIn (s.occurrence bits) = none :=
    State.faultIn_none (Heard.carries_eq_false fun x hx => by
      obtain rfl := Heard.valid.inj (hh.heard.symm.trans hx)
      exact hh.peer) hmark
  rw [State.exec_claimSlotEnd hh.passes hh.long hh.onTrunk hf hmark (happly _) (hqueue _), hv.2]
  rfl

/-- A peer is given a free slot (R88, R104, R105). -/
theorem State.HearsClaim.exec_of_given (hg : s.givenSlot w = some n) :
    Machine.exec (.claimSlotEnd bits) s = .next
      { s with
        port := s.port.listened (.valid w)
        timer := s.timer.next 2
        table := s.table.set n { s.entry n with owner := some w.sender, silence := 0 }
        happening := s.happening + 1 } := by
  have happly (role : Option Role) :
      (s.portEnd bits).applyClaim (s.occurrence bits) role = ((s.portEnd bits).grantPeer n w.sender, []) :=
    (State.applyClaim_of_given hh.applied hg).trans (if_neg hh.peer)
  rw [hh.exec happly ⟨rfl, rfl⟩, State.portEnd_of_unsent hh.unsent, hh.heard]
  rfl

/-- A word that names no slot to give or free changes nothing (R104 to R106). -/
theorem State.HearsClaim.exec_of_neither (hg : s.givenSlot w = none) (hr : s.releasedSlot w = none) :
    Machine.exec (.claimSlotEnd bits) s = .next
      { s with port := s.port.listened (.valid w), timer := s.timer.next 2, happening := s.happening + 1 } := by
  rw [hh.exec (fun _ => State.applyClaim_of_neither hh.applied hg hr) ⟨rfl, rfl⟩, State.portEnd_of_unsent hh.unsent, hh.heard]

/-- A peer's slot is freed; without a role no job leaves it (R106). -/
theorem State.HearsClaim.exec_of_released (hg : s.givenSlot w = none) (hr : s.releasedSlot w = some n)
    (hrole : (s.entry n).role = none) :
    Machine.exec (.claimSlotEnd bits) s = .next
      { s with
        port := s.port.listened (.valid w)
        timer := s.timer.next 2
        table := s.table.set n { s.entry n with owner := none, silence := 0, role := none }
        happening := s.happening + 1 } := by
  have hfree : (s.portEnd bits).freeSlot n = { s.portEnd bits with table := s.table.set n (s.entry n).freed } := by
    rw [State.freeSlot_eq, if_neg (by simp [hrole])]
    rfl
  have happly (role : Option Role) : (s.portEnd bits).applyClaim (s.occurrence bits) role =
      ({ s.portEnd bits with table := s.table.set n (s.entry n).freed }, []) :=
    (State.applyClaim_of_released hh.applied hg hr).trans (congrArg (·, []) hfree)
  rw [hh.exec happly ⟨rfl, rfl⟩, State.portEnd_of_unsent hh.unsent, hh.heard]
  rfl

end

end Sys2Proof.Machine

open Sys2Proof Sys2Proof.Machine

/-- Settles O34: self's own SENT word gives or frees its slot and takes its record off the queue, and a peer's word is a matter
of the table alone. -/
theorem claimWordsAreApplied : Obligations.ClaimWordsAreApplied := by
  refine ⟨?granted, ?released, ?peer⟩
  case granted =>
    intro s r rs n hp h96 hm h1 h30 hrecords hcontending h4 hlen hfree hreq w hw hword
    obtain rfl : w = s.claimToSend r := hw
    have hslots : r.request = .slot n ∨ r.request = .any := hreq.imp_right And.left
    have hnamed : ∀ m ∈ r.request.named, m < 96 := by
      rcases hslots with hreq | hreq <;> rw [hreq] <;> rintro m ⟨⟩
      omega
    have hwin : s.WinsClaim r rs := ⟨hp, by omega, hm, ⟨h1, h30⟩, hrecords, hcontending, hnamed, hword⟩
    have hg : s.givenSlot (s.claimToSend r) = some n := by
      refine State.givenSlot_eq_of_free h4 hlen hfree ?_
      rw [State.claimToSend_claimCode]
      rcases hreq with hreq | ⟨hreq, hbelow⟩
      · exact .inl ⟨by rw [hreq]; rfl, State.claimSlot_claimToSend (by rw [hreq]; rfl) (by omega)⟩
      · exact .inr ⟨by rw [hreq]; rfl, hbelow⟩
    refine ⟨_, (s.grantSelf n r.role).2, hwin.exec_of_given hg hslots, ?_, s.grantSelf_events_perm n r.role⟩
    rw [State.grantRole_eq]
    rfl
  case released =>
    intro s r rs n hp h96 hm h1 h30 hrecords hcontending h4 hlen hreq hown hword
    have hw : claimWord s.self 0 3 n = s.claimToSend r := by rw [State.claimToSend, hreq]
    rw [hw] at hword ⊢
    have hwin : s.WinsClaim r rs := ⟨hp, by omega, hm, ⟨h1, h30⟩, hrecords, hcontending,
      by rw [hreq]; rintro m ⟨⟩; omega, hword⟩
    refine (hwin.exec_of_released hreq (State.releasedSlot_of_owner h4 hlen ?_ ?_ ?_)).trans rfl
    · rw [State.claimToSend_claimCode, hreq]
      rfl
    · exact State.claimSlot_claimToSend (by rw [hreq]; rfl) (by omega)
    · rw [s.claimToSend_sender r h30, hown]
  case peer =>
    intro s h w n hp hlen3 h96 hon hword hidle hv hk hmal hpeer h4 hlen
    have hh : s.HearsClaim h w := ⟨hp, hlen3, hon, hword, hidle, hv, hk, hmal, hpeer⟩
    refine ⟨fun hclaim hfree => hh.exec_of_given (State.givenSlot_eq_of_free h4 hlen hfree hclaim), fun hnone => ?_,
      fun hc hslot ho hrole => hh.exec_of_released (State.givenSlot_of_release hc)
        (State.releasedSlot_of_owner h4 hlen hc hslot ho) hrole⟩
    obtain ⟨hg, hr⟩ := State.no_slot_of_claimWord hnone
    exact hh.exec_of_neither hg hr
end

