-- ==== Sys2Proof/Proofs/ClaimQueue.lean ====
section
/-! The claim queue as the host commands it: the tag that an accepted record takes (R92), CLAIM and RELEASE by their tables
(R93 to R95), and CLAIM_CANCEL (R96). -/

namespace Sys2Proof.Machine

variable {s : State} {q : ClaimQueue} {arg : ClaimArg} {req : ClaimRequest} {p n tag : Nat} {ra : RoleArg}
  {role : Option Role} {r : ClaimRecord} {before after : List ClaimRecord}

/-! ### Tags (R92) -/

/-- Among as many tags and one more as there are records, one is free. -/
theorem ClaimQueue.exists_free_tag (h : q.records.length < 256) :
    ∃ k, k ≤ q.records.length ∧ ∀ r ∈ q.records, r.tag ≠ (q.tagCounter + k) % 256 := by
  by_contra hall
  push Not at hall
  have hsub : (List.range (q.records.length + 1)).map (fun k => (q.tagCounter + k) % 256) ⊆
      q.records.map ClaimRecord.tag := by
    intro t ht
    obtain ⟨k, hk, rfl⟩ := List.mem_map.mp ht
    exact List.mem_map.mpr (hall k (by simpa [Nat.lt_succ_iff] using hk))
  have hnodup : ((List.range (q.records.length + 1)).map (fun k => (q.tagCounter + k) % 256)).Nodup := by
    refine List.Nodup.map_on (fun i hi j hj hij => ?_) List.nodup_range
    rw [List.mem_range] at hi hj
    omega
  have := (hnodup.subperm hsub).length_le
  simp at this

/-- The next tag is the first free one from the counter on (R92). -/
theorem ClaimQueue.nextTag_spec (h : q.records.length < 256) :
    ∃ k, k ≤ q.records.length ∧ q.nextTag = (q.tagCounter + k) % 256 ∧ (∀ r ∈ q.records, r.tag ≠ q.nextTag) ∧
      ∀ j < k, ∃ r ∈ q.records, r.tag = (q.tagCounter + j) % 256 := by
  have hfree : ∃ k, ∀ r ∈ q.records, r.tag ≠ (q.tagCounter + k) % 256 := (q.exists_free_tag h).imp fun _ hk => hk.2
  classical
  obtain ⟨k, hk, hmin⟩ : ∃ k, (∀ r ∈ q.records, r.tag ≠ (q.tagCounter + k) % 256) ∧
      ∀ j < k, ∃ r ∈ q.records, r.tag = (q.tagCounter + j) % 256 :=
    ⟨Nat.find hfree, Nat.find_spec hfree, fun j hj => by simpa using Nat.find_min hfree hj⟩
  have hle : k ≤ q.records.length := by
    obtain ⟨j, hj, hjfree⟩ := q.exists_free_tag h
    by_contra hlt
    obtain ⟨r, hr, htag⟩ := hmin j (by omega)
    exact hjfree r hr htag
  have hfind : (List.range 256).find? (fun i => !q.records.any (fun r => r.tag == (q.tagCounter + i) % 256)) = some k :=
    List.find?_range_eq_some.mpr ⟨by simpa using hk, List.mem_range.mpr (by omega), fun j hj => by simpa using hmin j hj⟩
  have hnext : q.nextTag = (q.tagCounter + k) % 256 := by
    rw [ClaimQueue.nextTag, List.find?_map, Function.comp_def, hfind, Option.map_some, Option.getD_some]
  exact ⟨k, hle, hnext, by rwa [hnext], hmin⟩

/-! ### CLAIM and RELEASE (R93 to R95) -/

/-- The arguments that name no request (R173). -/
theorem State.claimRequest_eq_none
    (h : (∃ n, arg = .slot n ∧ ¬(4 ≤ n ∧ n < s.len)) ∨ ∃ k, arg = .undefined k) : s.claimRequest arg = none := by
  rcases h with ⟨n, rfl, hn⟩ | ⟨k, rfl⟩
  · exact if_neg (mt isDataSlot_iff.mp hn)
  · rfl

/-- The arguments that name a request (R93). -/
theorem State.claimRequest_eq_some
    (h : arg = .any ∧ req = .any ∨ ∃ m, 4 ≤ m ∧ m < s.len ∧ arg = .slot m ∧ req = .slot m) :
    s.claimRequest arg = some req := by
  rcases h with ⟨rfl, rfl⟩ | ⟨m, h4, hlen, rfl, rfl⟩
  · rfl
  · exact if_pos (isDataSlot_iff.mpr ⟨h4, hlen⟩)

/-- The arguments that name no grant role (R173). -/
theorem grantRoleOf_eq_none (h : (∃ c, 8 ≤ c ∧ ra = .stream c) ∨ ∃ k, ra = .undefined k) : grantRoleOf ra = none := by
  rcases h with ⟨c, hc, rfl⟩ | ⟨k, rfl⟩
  · exact if_neg (by omega)
  · rfl

/-- The arguments that name a grant role, or leave it out (R93). -/
theorem grantRoleOf_eq_some
    (h : ra = .absent ∧ role = none ∨ ra = .spare ∧ role = some .spare ∨ ra = .bulk ∧ role = some .bulk ∨
      ∃ c < 8, ra = .stream c ∧ role = some (.stream c)) : grantRoleOf ra = some role := by
  rcases h with ⟨rfl, rfl⟩ | ⟨rfl, rfl⟩ | ⟨rfl, rfl⟩ | ⟨c, hc, rfl, rfl⟩
  · rfl
  · rfl
  · rfl
  · exact if_pos hc

/-- CLAIM with a parameter out of range (R93). -/
theorem State.judgeClaim_of_range (hm : s.control.state = .member)
    (h : 3 < p ∨ s.claimRequest arg = none ∨ grantRoleOf ra = none) : s.judgeClaim arg p ra = s.refuse .range := by
  unfold State.judgeClaim
  rw [if_neg (not_not.mpr hm)]
  by_cases hp : 3 < p
  · exact if_pos hp
  · rw [if_neg hp]
    rcases h with h | h | h
    · exact absurd h hp
    · rw [h]
    · rw [h]
      cases s.claimRequest arg <;> rfl

/-- CLAIM with every parameter in range (R93). -/
theorem State.judgeClaim_in_range (hm : s.control.state = .member) (hp : p ≤ 3) (hreq : s.claimRequest arg = some req)
    (hrole : grantRoleOf ra = some role) :
    s.judgeClaim arg p ra =
      if 8 ≤ s.claims.records.length then s.refuse .queueFull
      else if 16 ≤ s.limitCount then s.refuse .limit
      else s.acceptRecord req p role := by
  unfold State.judgeClaim
  rw [if_neg (not_not.mpr hm), if_neg (by omega), hreq, hrole]

/-- RELEASE of a data slot in MEMBER (R95). -/
theorem State.judgeRelease_in_range (hm : s.control.state = .member) (h4 : 4 ≤ n) (hlen : n < s.len) :
    s.judgeRelease n =
      if 8 ≤ s.claims.records.length then s.refuse .queueFull
      else if (s.entry n).owner ≠ some s.self then s.refuse .notHeld
      else s.acceptRecord (.release n) 0 none := by
  unfold State.judgeRelease
  rw [if_neg (not_not.mpr hm), if_neg (by simp [isDataSlot_iff.mpr ⟨h4, hlen⟩])]
  simp only [← Bool.not_eq_true, State.isOwn_iff, ne_eq, Config.claimCapacity]

/-! ### CLAIM_CANCEL (R96) -/

/-- No record holds the tag (R96). -/
theorem ClaimQueue.withTag_eq_none (h : ∀ r ∈ q.records, r.tag ≠ tag) : q.withTag tag = none :=
  List.find?_eq_none.mpr fun r hr => by simpa using h r hr

/-- The first record with the tag holds it (R96). -/
theorem ClaimQueue.withTag_eq_some (hq : q.records = before ++ r :: after) (hr : r.tag = tag)
    (hb : ∀ x ∈ before, x.tag ≠ tag) : q.withTag tag = some r := by
  rw [ClaimQueue.withTag, hq, List.find?_append, List.find?_eq_none.mpr (fun x hx => by simpa using hb x hx)]
  simp [hr]

/-- A record that does not contend, or stands behind another, is not the contending head (R90). -/
theorem ClaimQueue.contends_eq_false (hq : q.records = before ++ r :: after) (hb : ∀ x ∈ before, x.tag ≠ tag)
    (hc : q.contending = false ∨ before ≠ []) : q.contends tag = false := by
  rcases hc with hc | hc
  · simp [ClaimQueue.contends, hc]
  · obtain ⟨x, xs, rfl⟩ := List.exists_cons_of_ne_nil hc
    have : x.tag ≠ tag := hb x (List.mem_cons_self ..)
    simp [ClaimQueue.contends, hq, this]

/-- The record with the tag is removed, and the others keep their order (R96). -/
theorem ClaimQueue.remove_eq (hq : q.records = before ++ r :: after) (hr : r.tag = tag) (hb : ∀ x ∈ before, x.tag ≠ tag) :
    q.remove tag = { q with records := before ++ after } := by
  rw [ClaimQueue.remove, hq, List.eraseP_append_right _ (fun x hx => by simpa using hb x hx),
    List.eraseP_cons_of_pos (by simpa using hr)]

/-- CLAIM_CANCEL of a record that is queued: the contending head is marked, another record is removed (R96). -/
theorem State.judgeClaimCancel_of_record (hm : s.control.state = .member) (hw : s.claims.withTag tag = some r) :
    s.judgeClaimCancel tag =
      if s.claims.contends tag = true then ({ s with claims := s.claims.markHead }, .accepted (.tag tag))
      else
        (({ s with claims := s.claims.remove tag } : State).postAll
          [r.doneEvent s.timer.frame .cancelled r.request.named none]).doneWith .nothing := by
  unfold State.judgeClaimCancel
  rw [if_neg (not_not.mpr hm), hw]

end Sys2Proof.Machine

open Sys2Proof Sys2Proof.Machine

/-- Settles O31: by the lines of both tables, from the first; the tag is the first free one from the counter on. -/
theorem claimsAndReleasesAreQueued : Obligations.ClaimsAndReleasesAreQueued := by
  intro s hreq
  refine ⟨fun arg p ra => ⟨fun hst => ?claimState, fun hm hrange => ?claimRange⟩,
    fun n => ⟨fun hst => ?releaseState, fun hm hrange => ?releaseRange⟩,
    fun hm arg req p ra role n hp harg hra h4 hlen => ⟨fun hfull => ⟨?claimFull, ?releaseFull⟩, fun hroom => ?accepted⟩⟩
  case claimState => exact congrArg _ (State.take_unchanged hreq (if_pos hst))
  case claimRange =>
    refine congrArg _ (State.take_unchanged hreq (State.judgeClaim_of_range hm ?_))
    rcases hrange with hp | hslot | hstream | hcode | hrole
    · exact .inl hp
    · exact .inr (.inl (State.claimRequest_eq_none (.inl hslot)))
    · exact .inr (.inr (grantRoleOf_eq_none (.inl hstream)))
    · exact .inr (.inl (State.claimRequest_eq_none (.inr hcode)))
    · exact .inr (.inr (grantRoleOf_eq_none (.inr hrole)))
  case releaseState => exact congrArg _ (State.take_unchanged hreq (if_pos hst))
  case releaseRange =>
    refine congrArg _ (State.take_unchanged hreq ?_)
    exact (if_neg (not_not.mpr hm)).trans (if_pos ((isDataSlot_eq_false_iff ..).mpr hrange))
  case claimFull =>
    refine congrArg _ (State.take_unchanged hreq ?_)
    exact (State.judgeClaim_in_range hm hp (State.claimRequest_eq_some harg) (grantRoleOf_eq_some hra)).trans (if_pos hfull)
  case releaseFull =>
    exact congrArg _ (State.take_unchanged hreq ((State.judgeRelease_in_range hm h4 hlen).trans (if_pos hfull)))
  case accepted =>
    obtain ⟨k, hk, htag, hfree, hheld⟩ := ClaimQueue.nextTag_spec (q := s.claims) (by omega)
    refine ⟨s.claims.nextTag, k, hk, htag, hfree, hheld, ?claim, ?release⟩
    case claim =>
      refine congrArg _ ((State.take_request hreq ..).trans ?_)
      rw [State.judgeClaim_in_range hm hp (State.claimRequest_eq_some harg) (grantRoleOf_eq_some hra),
        if_neg (by omega)]
      split_ifs <;> rfl
    case release =>
      refine congrArg _ ((State.take_request hreq ..).trans ?_)
      rw [State.judgeRelease_in_range hm h4 hlen, if_neg (by omega)]
      split_ifs <;> rfl

/-- Settles O32: by whether a record holds the tag, and whether that record is the contending head. -/
theorem claimCancelRemovesOrMarks : Obligations.ClaimCancelRemovesOrMarks := by
  intro s tag hreq
  refine ⟨fun hst => ?state, fun hm hnone => ?noSuch, fun r rs hm hq htag hc => ?head,
    fun before r after hm hq htag hb hc => ?removed⟩
  case state => exact congrArg _ (State.take_unchanged hreq (if_pos hst))
  case noSuch =>
    refine congrArg _ (State.take_unchanged hreq ?_)
    rw [State.judgeClaimCancel, if_neg (not_not.mpr hm), ClaimQueue.withTag_eq_none hnone]
    rfl
  case head =>
    refine congrArg _ ((State.take_request hreq ..).trans ?_)
    have hw : s.claims.withTag tag = some r := ClaimQueue.withTag_eq_some (before := []) hq htag (by simp)
    rw [State.judgeClaimCancel_of_record hm hw, if_pos (by simp [ClaimQueue.contends, hc, hq, htag]), ClaimQueue.markHead,
      hq]
    rfl
  case removed =>
    refine congrArg _ ((State.take_request hreq ..).trans ?_)
    rw [State.judgeClaimCancel_of_record hm (ClaimQueue.withTag_eq_some hq htag hb),
      if_neg (by simp [ClaimQueue.contends_eq_false hq hb hc]), ClaimQueue.remove_eq hq htag hb, ← htag]
    unfold ClaimRecord.doneEvent
    cases r.request <;> rfl
end

