-- ==== Sys2Proof/Proofs/ClaimSlot.lean ====
section
/-! Slot 2 for the claim queue: the settle pass at its start (R98, R99), and the contending head that has lost at its end
(R101 to R103). -/

namespace Sys2Proof.Machine

variable {s u : State} {o : Occurrence} {w : SlotWord} {bits : SlotBits} {r : ClaimRecord} {rs : List ClaimRecord}

/-! ### The settle pass (R98) -/

/-- No data slot is free (R105). -/
theorem State.lowestFree_eq_none_iff : u.lowestFree = none ↔ ¬∃ n < u.len, 4 ≤ n ∧ (u.entry n).owner = none := by
  simp [State.lowestFree, dataSlots, List.find?_eq_none]

/-- The answer that self's table knows for each request (R98). -/
theorem State.settles_eq (u : State) (r : ClaimRecord) :
    u.settles r =
      match r.request with
      | .slot n => if (u.entry n).owner = none then none else some (.refusedHeld, (u.entry n).owner)
      | .any => if ∃ n < u.len, 4 ≤ n ∧ (u.entry n).owner = none then none else some (.refusedFull, none)
      | .release n => if (u.entry n).owner = some u.self then none else some (.notHeld, none) := by
  unfold State.settles
  cases r.request with
  | slot n => rfl
  | any => simp only [State.lowestFree_eq_none_iff, ite_not]
  | release n => simp only [State.isOwn_iff]

/-- The pass stops at the first head whose answer is not known (R98). -/
theorem State.unsettled_eq (u : State) (records : List ClaimRecord) :
    u.unsettled records = records.dropWhile (fun r => (u.settles r).isSome) := by
  induction records with
  | nil => rfl
  | cons r rs ih => cases h : u.settles r <;> simp [State.unsettled, h, ih]

/-- The heads before it leave with their answers (R98, R110). -/
theorem State.settleEvents_eq (u : State) (records : List ClaimRecord) :
    u.settleEvents records = (records.takeWhile (fun r => (u.settles r).isSome)).map (fun r =>
      { Event.of .claimDone u.timer.frame with
        tag := some r.tag, result := (u.settles r).map (fun x => EventResult.claim x.1), slot := r.request.named,
        station := (u.settles r).bind Prod.snd, count := some r.lost }) := by
  induction records with
  | nil => rfl
  | cons r rs ih => cases h : u.settles r <;> simp [State.settleEvents, ClaimRecord.doneEvent, h, ih]

/-- The word of a record (R99). -/
theorem State.claimToSend_eq (u : State) : u.claimToSend = fun r => claimWord u.self
    (match r.request with
      | .release _ => 0
      | _ => r.effective)
    (match r.request with
      | .slot _ => 1
      | .any => 2
      | .release _ => 3)
    (match r.request with
      | .slot n => n
      | .any => 0
      | .release n => n) := by
  funext r
  unfold State.claimToSend
  cases r.request <;> rfl

theorem exec_claimSlotStart (ha : s.awaits 2) :
    exec .claimSlotStart s = if s.control.state = .member then .next s.settle else .next (s.beginWith none) :=
  if_pos (State.startsAt_of_awaits ha _)

/-! ### A contention that is lost (R101 to R103) -/

/-- The thresholds 16, 32 and 48 are one step for each 16 losses (R101). -/
theorem agedPriority_eq {base lost : Nat} (h : lost < 64) : agedPriority base lost = base - lost / 16 := by
  unfold agedPriority
  split_ifs <;> omega

/-- A head that has lost stays and ages, or leaves with its CLAIM_DONE (R101, R102). -/
theorem ClaimRecord.settleOutcome_of_lost (r : ClaimRecord) (frame : Nat) (given : Option Nat) :
    r.settleOutcome false frame given =
      if r.cancel = false ∧ r.lost + 1 < 64 then
        (some { r with lost := r.lost + 1, effective := r.base - (r.lost + 1) / 16 }, [])
      else
        (none, [{ Event.of .claimDone frame with
          tag := some r.tag, result := some (.claim (if r.cancel then .cancelled else .expired)),
          slot := r.request.named, count := some (r.lost + 1) }]) := by
  unfold ClaimRecord.settleOutcome
  cases hc : r.cancel with
  | true => rfl
  | false =>
    by_cases hl : r.lost + 1 < 64
    · simp only [hc, hl, Config.claimExpiry, ClaimRecord.losing, agedPriority_eq hl, and_self, Bool.false_eq_true, if_true,
        if_false]
    · simp only [hl, Config.claimExpiry, and_false, Bool.false_eq_true, if_false]
      rfl

/-- The contending head has lost: it stays before the others or leaves them (R101, R102). -/
theorem State.claimOutcome_of_lost (hc : u.claims.contending = true) (hrs : u.claims.records = r :: rs)
    (ho : o.outcome ≠ some .sent) (given : Option Nat) :
    u.claimOutcome o given =
      ({ u with claims := { u.claims with
          records := (r.settleOutcome false o.frame none).1.toList ++ rs, contending := false } },
        (r.settleOutcome false o.frame none).2) := by
  have hlost : (o.outcome == some .sent) = false := by simpa using ho
  rw [State.claimOutcome_of_some (State.contendingHead_eq_some.mpr ⟨hc, rs, hrs⟩), hlost, hrs,
    r.settleOutcome_of_lost _ given, r.settleOutcome_of_lost _ none]
  rfl

/-- A peer's CLAIM word is a matter of self's table alone: the slots that it frees have no role (R104 to R106). -/
theorem State.applyClaim_of_peer (ht : u.tableOk) (hpeer : ∀ w, o.heard = .valid w → w.sender ≠ u.self)
    (role : Option Role) : u.applyClaim o role = ({ u with table := (u.applyClaim o role).1.table }, []) := by
  cases hw : u.appliedClaim o with
  | none => simp only [State.applyClaim, hw]
  | some w =>
    obtain ⟨hacc, -⟩ := State.appliedClaim_eq_some hw
    have hne := hpeer w (Heard.acceptable_eq_some.mp hacc).1
    cases hg : u.givenSlot w with
    | some n =>
      rw [State.applyClaim_of_given hw hg, if_neg hne]
      rfl
    | none =>
      cases hr : u.releasedSlot w with
      | none => rw [State.applyClaim_of_neither hw hg hr]
      | some n =>
        have hrole : (u.entry n).role = none := by
          by_contra hsome
          have hown := (State.entryFits ht n).role.mp (Option.isSome_iff_ne_none.mpr hsome)
          unfold State.releasedSlot at hr
          split_ifs at hr with hc
          cases hr
          exact hne (Option.some.inj (hc.2.2.symm.trans hown))
        rw [State.applyClaim_of_released hw hg hr, State.freeSlot_eq, if_neg (by simp [hrole])]

/-- A peer's SLOT word gives it its slot where that is free (R104). -/
theorem State.table_applyClaim_of_slot (hw : o.heard.acceptable .claim = some w) (hpeer : w.sender ≠ u.self)
    (hc : w.claimCode = 1) (h4 : 4 ≤ w.claimSlot) (hlen : w.claimSlot < u.len) (role : Option Role) :
    (u.applyClaim o role).1.table =
      if (u.entry w.claimSlot).owner = none then
        u.table.set w.claimSlot { u.entry w.claimSlot with owner := some w.sender, silence := 0 }
      else u.table := by
  have happlied := State.appliedClaim_of_heard hw (.inl hpeer)
  split_ifs with hfree
  · rw [State.applyClaim_of_given happlied (State.givenSlot_eq_of_free h4 hlen hfree (.inl ⟨hc, rfl⟩)), if_neg hpeer]
    rfl
  · obtain ⟨hg, hr⟩ := State.no_slot_of_claimWord (.inl ⟨hc, rfl, hfree⟩)
    rw [State.applyClaim_of_neither happlied hg hr]

/-- In MEMBER the contending head `r`, with the records `rs` behind it, has lost to what is heard in slot 2. -/
structure State.LosesClaim (s : State) (bits : SlotBits) (r : ClaimRecord) (rs : List ClaimRecord) : Prop where
  sound : s.tableOk
  passes : s.passes 2
  member : s.control.state = .member
  records : s.claims.records = r :: rs
  contending : s.claims.contending = true
  lost : ∀ b, s.port.word = some b → b ≠ bits
  peer : ∀ w, classify bits = .valid w → w.sender ≠ s.self

section
variable (hlose : s.LosesClaim bits r rs)
include hlose

theorem State.LosesClaim.contendingHead : s.contendingHead = some r :=
  State.contendingHead_eq_some.mpr ⟨hlose.contending, rs, hlose.records⟩

theorem State.LosesClaim.outcome : (s.occurrence bits).outcome ≠ some .sent := by
  intro hsent
  obtain ⟨b, hb, hout⟩ := Option.map_eq_some_iff.mp hsent
  exact outcomeOf_ne_sent (hlose.lost b hb).symm hout

theorem State.LosesClaim.noFault : s.faultIn (s.occurrence bits) = none :=
  State.faultIn_eq_none (Occurrence.duplicate_eq_false_of_peer hlose.peer)
    (Occurrence.lengthFault_eq_false_of_state _ (by simp [hlose.member]) (by simp [hlose.member]))

theorem State.LosesClaim.claimEnds : s.claimEnds = true := by
  simp [State.claimEnds, State.endsAt_of_passes hlose.passes, hlose.member, StationState.onTrunk]

theorem State.LosesClaim.exec : Machine.exec (.claimSlotEnd bits) s = .next (s.endClaimSlot bits) := if_pos hlose.claimEnds

/-- Table and claim queue act beside the frame timer (R100 to R103). -/
theorem State.LosesClaim.endClaimSlot_eq :
    ∃ timer control, s.endClaimSlot bits =
      { s.portEnd bits with
        timer := timer
        control := control
        table := ((s.portEnd bits).applyClaim (s.occurrence bits) r.role).1.table
        claims := { s.claims with
          records := (r.settleOutcome false s.timer.frame none).1.toList ++ rs, contending := false }
        events := s.events.postAll (mergeAll s.happening 0
          [(r.settleOutcome false s.timer.frame none).2, (s.portEnd bits).offSlotEvents (s.occurrence bits)])
        happening := s.happening + 1 } := by
  have happly := State.applyClaim_of_peer (u := s.portEnd bits) (o := s.occurrence bits) hlose.sound hlose.peer r.role
  have hrole : (s.portEnd bits).contendingHead.bind ClaimRecord.role = r.role :=
    congrArg (Option.bind · ClaimRecord.role) hlose.contendingHead
  obtain ⟨v, hv⟩ : ∃ v, v = ({ s.portEnd bits with
      table := ((s.portEnd bits).applyClaim (s.occurrence bits) r.role).1.table } : State) := ⟨_, rfl⟩
  have hclaims : v.claims = s.claims := hv ▸ rfl
  have hqueue (given : Option Nat) := State.claimOutcome_of_lost (u := v) (hclaims ▸ hlose.contending)
    (hclaims ▸ hlose.records) hlose.outcome given
  rw [← hv] at happly
  rw [State.endClaimSlot_of_none hlose.noFault, State.claimEnd, hrole]
  simp only [happly, hqueue, List.nil_append]
  obtain ⟨timer, control, hends, -⟩ := State.ends_eq
    { v with claims := { v.claims with
        records := (r.settleOutcome false (s.occurrence bits).frame none).1.toList ++ rs, contending := false } }
    0 [(r.settleOutcome false (s.occurrence bits).frame none).2, (s.portEnd bits).offSlotEvents (s.occurrence bits)]
    (s.occurrence bits)
  exact ⟨timer, control, hends.trans (by rw [hv]; rfl)⟩

/-- A head that is not marked loses, in the words of the named cases (R101, log 2). -/
theorem State.LosesClaim.losingHead (hc : r.cancel = false) : s.losingHead bits = some r := by
  unfold State.losingHead
  rw [if_pos ⟨hlose.claimEnds, hlose.outcome, by rw [hlose.noFault]; rfl⟩, hlose.contendingHead]
  simp [hc]

theorem State.LosesClaim.exec_claimAging (hc : r.cancel = false) (hl : r.lost + 1 < 64) (h16 : (r.lost + 1) % 16 = 0) :
    Machine.exec (.claimAging bits) s = .next (s.endClaimSlot bits) := by
  show execClaimAging bits s = _
  have : r.lost + 1 = 16 ∨ r.lost + 1 = 32 ∨ r.lost + 1 = 48 := by omega
  rw [execClaimAging, hlose.losingHead hc]
  exact if_pos (by simpa [or_assoc] using this)

theorem State.LosesClaim.exec_claimExpired (hc : r.cancel = false) (hl : 64 ≤ r.lost + 1) :
    Machine.exec (.claimExpired bits) s = .next (s.endClaimSlot bits) := by
  show execClaimExpired bits s = _
  rw [execClaimExpired, hlose.losingHead hc]
  exact if_pos hl

end

end Sys2Proof.Machine

open Sys2Proof Sys2Proof.Machine

/-- Settles O33: the pass drops the heads that self's table answers, and hands over the word of the next one. -/
theorem claimSlotStarts : Obligations.ClaimSlotStarts := by
  intro s answer ha hanswer
  obtain rfl : answer = s.settles := funext fun r => (hanswer r).trans (s.settles_eq r).symm
  refine ⟨fun hm => ⟨_, rfl, ?member⟩, fun hm => ?other⟩
  case member =>
    rw [exec_claimSlotStart ha, if_pos hm, State.settle, State.unsettled_eq, State.settleEvents_eq]
    cases s.claims.records.dropWhile fun r => (s.settles r).isSome with
    | nil => rfl
    | cons r rs =>
      rw [State.claimToSend_eq s]
      rfl
  case other => exact (exec_claimSlotStart ha).trans (if_neg hm)

/-- Settles O35: the head that has lost stays and ages or leaves with its CLAIM_DONE, the word that won is a matter of the
table, and whatever the frame timer hears is a matter of timer and station controller. -/
theorem lostClaimsAgeAndExpire : Obligations.LostClaimsAgeAndExpire := by
  intro s h r rs htable hp _ _ hm hrecords hcontending hlost hpeer
  have hlose : s.LosesClaim h r rs := ⟨htable, hp, hm, hrecords, hcontending, hlost, hpeer⟩
  obtain ⟨timer, control, hend⟩ := hlose.endClaimSlot_eq
  have hposts : ∀ g ∈ [(s.portEnd h).offSlotEvents (s.occurrence h)], eventsOf .claimDone g = [] := by
    simpa using ((s.portEnd h).offSlotEvents_postsOnly (s.occurrence h)).eventsOf_eq_nil (by decide)
  have hdone := eventsOf_mergeAll s.happening (before := []) (g := (r.settleOutcome false s.timer.frame none).2) (by simp)
    hposts 0
  have haging := hlose.exec_claimAging
  have hexpired := hlose.exec_claimExpired
  rw [hend] at haging hexpired
  refine ⟨_, _, hlose.exec.trans (congrArg _ hend), rfl, rfl, rfl, rfl, rfl, rfl, rfl, rfl, rfl, rfl, rfl, rfl,
    fun w hv hk hmal hc h4 hlen => ?slot, ?queue⟩
  case slot =>
    exact State.table_applyClaim_of_slot (u := s.portEnd h) (o := s.occurrence h)
      (Heard.acceptable_eq_some.mpr ⟨hv, hk, hmal⟩) (hpeer w hv) hc h4 hlen r.role
  case queue =>
    rw [List.nil_append] at hdone
    rw [hdone]
    have hlost := r.settleOutcome_of_lost s.timer.frame none
    by_cases hstays : r.cancel = false ∧ r.lost + 1 < 64
    · rw [if_pos hstays] at hlost ⊢
      exact ⟨congrArg (·.1.toList ++ rs) hlost, congrArg (eventsOf .claimDone ·.2) hlost, haging hstays.1 hstays.2⟩
    · rw [if_neg hstays] at hlost ⊢
      exact ⟨congrArg (·.1.toList ++ rs) hlost, (congrArg (eventsOf .claimDone ·.2) hlost).trans rfl,
        fun hc => hexpired hc (Nat.le_of_not_lt fun hl => hstays ⟨hc, hl⟩)⟩
end

