-- ==== Sys2Proof/Proofs/Bounds.lean ====
section
/-! Buffer memory stays canonical and the queues stay within their bounds (R90, R112, R117, R175, R177). Roster, allocation
table, job table, windows and answers have no part in this but for the words that the windows write. -/

namespace Sys2Proof.Machine

variable {s t u v : State} {o : Occurrence} {n c : Nat} {bits : SlotBits}

/-! ### What is kept -/

/-- From `u` to `v` each of the bounded blocks stays within its bounds, whatever the other blocks hold. -/
structure State.KeepsBounds (u v : State) : Prop where
  buffer : u.bufferOk → v.bufferOk
  events : u.events.ok → v.events.ok
  channels : u.channelsOk → v.channelsOk
  claims : u.claims.ok → v.claims.ok

theorem State.KeepsBounds.refl (u : State) : u.KeepsBounds u := ⟨id, id, id, id⟩

theorem State.KeepsBounds.trans (h : s.KeepsBounds u) (h' : u.KeepsBounds v) : s.KeepsBounds v :=
  ⟨h'.buffer ∘ h.buffer, h'.events ∘ h.events, h'.channels ∘ h.channels, h'.claims ∘ h.claims⟩

/-- The bounded blocks, and the windows, whose words are written to buffer memory. -/
def State.stores (s : State) : Buffer × EventQueue × Bank TxChannel 8 × Bank RxChannel 8 × ClaimQueue × Bank Window 4 :=
  (s.buffer, s.events, s.tx, s.rx, s.claims, s.windows)

theorem State.stores_eq_iff :
    v.stores = u.stores ↔ v.buffer = u.buffer ∧ v.events = u.events ∧ v.tx = u.tx ∧ v.rx = u.rx ∧ v.claims = u.claims ∧
      v.windows = u.windows := by
  simp [State.stores]

/-- The bounded blocks stay as they are. -/
theorem State.KeepsBounds.of_same (hb : v.buffer = u.buffer) (he : v.events = u.events) (ht : v.tx = u.tx)
    (hr : v.rx = u.rx) (hq : v.claims = u.claims) : u.KeepsBounds v where
  buffer h := by rw [State.bufferOk, hb]; exact h
  events h := by rw [he]; exact h
  channels h := by rw [State.channelsOk, ht, hr]; exact h
  claims h := by rw [hq]; exact h

theorem State.KeepsBounds.of_stores (h : v.stores = u.stores) : u.KeepsBounds v := by
  obtain ⟨hb, he, ht, hr, hq, -⟩ := State.stores_eq_iff.mp h
  exact .of_same hb he ht hr hq

/-! ### Event queue (R177) -/

/-- An event is recorded, or counted as lost (R177). -/
theorem EventQueue.post_ok {q : EventQueue} (h : q.ok) (e : Event) : (q.post e).ok := by
  obtain ⟨hlen, hlost⟩ := h
  unfold EventQueue.post
  split
  · rename_i l hl
    refine ⟨hlen, ?_⟩
    rintro x ⟨⟩
    exact ⟨one_le_satSucc (by omega), satSucc_le (hlost l hl).2⟩
  · rename_i hnone
    split_ifs with hroom
    · refine ⟨?_, hlost⟩
      rw [List.length_append]
      exact hroom
    · refine ⟨hlen, ?_⟩
      rintro x ⟨⟩
      exact ⟨le_refl 1, show 1 ≤ 65535 by decide⟩

theorem EventQueue.postAll_ok (es : List Event) : ∀ {q : EventQueue}, q.ok → (q.postAll es).ok := by
  induction es with
  | nil => exact id
  | cons e es ih => exact fun h => ih (EventQueue.post_ok h e)

/-- EVENT_READ takes the oldest records (R178). -/
theorem EventQueue.dropped_ok {q : EventQueue} (h : q.ok) (n : Nat) : (q.dropped n).ok := by
  obtain ⟨hlen, hlost⟩ := h
  refine ⟨?_, fun l hl => ?_⟩
  · simp only [EventQueue.dropped, List.length_drop]
    omega
  · simp only [EventQueue.dropped] at hl
    split_ifs at hl
    · exact hlost l hl
    · cases hl

/-- Events are posted, and the other bounded blocks stay. -/
theorem State.KeepsBounds.of_posted (hb : v.buffer = u.buffer) (he : ∃ es, v.events = u.events.postAll es)
    (ht : v.tx = u.tx) (hr : v.rx = u.rx) (hq : v.claims = u.claims) : u.KeepsBounds v := by
  obtain ⟨es, he⟩ := he
  have hsame : ({ u with events := v.events } : State).KeepsBounds v := .of_same hb rfl ht hr hq
  exact ⟨hsame.buffer, fun h => hsame.events (by rw [he]; exact EventQueue.postAll_ok es h), hsame.channels, hsame.claims⟩

theorem State.keepsBounds_postAll (u : State) (es : List Event) : u.KeepsBounds (u.postAll es) :=
  .of_posted rfl ⟨es, rfl⟩ rfl rfl rfl

/-- An occurrence passes whose blocks have kept their bounds (R17, R177). -/
theorem State.KeepsBounds.ends (h : s.KeepsBounds u) (base : Nat) (gs : List (List Event)) (o : Occurrence) :
    s.KeepsBounds ((u.postGroups base gs).passOn o).nextHappening := by
  obtain ⟨timer, control, heq, -⟩ := u.ends_eq base gs o
  rw [heq]
  exact h.trans (.of_posted rfl ⟨_, rfl⟩ rfl rfl rfl)

/-! ### Channels (R112, R117) -/

theorem TxChannel.reset_ok : TxChannel.reset.ok := by decide

theorem RxChannel.reset_ok : RxChannel.reset.ok := by decide

/-- Every channel that is read is within its bounds, one that is not there too. -/
theorem State.txAt_ok (h : u.channelsOk) (c : Nat) : (u.txAt c).ok := by
  by_cases hc : c < 8
  · exact (Bank.forall_items u.tx _ TxChannel.reset).mp h.1 c hc
  · rw [State.txAt, Bank.get_out _ _ _ (by omega)]
    exact TxChannel.reset_ok

theorem State.rxAt_ok (h : u.channelsOk) (c : Nat) : (u.rxAt c).ok := by
  by_cases hc : c < 8
  · exact (Bank.forall_items u.rx _ RxChannel.reset).mp h.2 c hc
  · rw [State.rxAt, Bank.get_out _ _ _ (by omega)]
    exact RxChannel.reset_ok

/-- A transmit channel is written. -/
theorem State.keepsBounds_setTx {x : TxChannel} (h : (u.txAt c).ok → x.ok) : u.KeepsBounds (u.setTx c x) :=
  ⟨id, id, fun hu => ⟨Bank.forall_set hu.1 (h (State.txAt_ok hu c)), hu.2⟩, id⟩

/-- A receive channel is written. -/
theorem State.keepsBounds_setRx {x : RxChannel} (h : (u.rxAt c).ok → x.ok) : u.KeepsBounds (u.setRx c x) :=
  ⟨id, id, fun hu => ⟨hu.1, Bank.forall_set hu.2 (h (State.rxAt_ok hu c))⟩, id⟩

/-- Every receive channel is written. -/
theorem State.keepsBounds_mapRx {f : RxChannel → RxChannel} (h : ∀ r : RxChannel, r.ok → (f r).ok) :
    u.KeepsBounds { u with rx := u.rx.map f } :=
  ⟨id, id, fun hu => ⟨hu.1, Bank.forall_map fun r hr => h r (hu.2 r hr)⟩, id⟩

/-- PUSH adds what there is room for (R113). -/
theorem TxChannel.pushed_ok {x : TxChannel} (h : x.ok) (samples : List DataWord) : (x.pushed samples).ok := by
  obtain ⟨hlen, hunder⟩ := h
  refine ⟨?_, hunder⟩
  simp only [TxChannel.pushed, List.length_append, List.length_take]
  omega

/-- PULL takes the oldest entries (R122). -/
theorem RxChannel.pulled_ok {r : RxChannel} (h : r.ok) (n : Nat) : (r.pulled n).ok := by
  obtain ⟨hlen, hcounts⟩ := h
  refine ⟨?_, hcounts⟩
  simp only [RxChannel.pulled, List.length_drop]
  omega

/-- A full channel keeps its length, and counts the overrun (R121). -/
theorem RxChannel.add_ok {r : RxChannel} (h : r.ok) (p : Policy) (e : RxEntry) : (r.add p e).ok := by
  obtain ⟨hlen, hover, hmis⟩ := h
  unfold RxChannel.add
  split_ifs with hroom
  · refine ⟨?_, hover, hmis⟩
    rw [List.length_append]
    exact hroom
  · refine ⟨?_, satSucc_le hover, hmis⟩
    simp only [Config.channelCapacity] at hroom hlen ⊢
    cases p with
    | keepNewest =>
      simp only [List.length_append, List.length_tail, List.length_singleton]
      omega
    | keepOldest => exact hlen

/-- A channel hears a data slot (R120). -/
theorem RxChannel.hear_ok {r : RxChannel} (h : r.ok) (o : Occurrence) : (r.hear o).ok := by
  unfold RxChannel.hear
  split
  · exact h
  · split_ifs
    · split
      · exact RxChannel.add_ok h ..
      · exact ⟨h.1, h.2.1, satSucc_le h.2.2⟩
      · exact h
    · exact h

/-- A binding goes (R124). -/
theorem RxChannel.unbindFrom_ok {r : RxChannel} (h : r.ok) (n : Nat) : (r.unbindFrom n).ok := by
  unfold RxChannel.unbindFrom
  split_ifs <;> exact h

/-- Some channels may hear a data slot before a fault (R54). -/
theorem State.keepsBounds_hearBeforeFault (u : State) (o : Occurrence) : u.KeepsBounds (u.hearBeforeFault o) := by
  have hear (cs : List Nat) : ∀ t : State, u.KeepsBounds t →
      u.KeepsBounds (cs.foldl (fun t c => if u.choice (4104 + c) then t.setRx c ((u.rxAt c).hear o) else t) t) := by
    induction cs with
    | nil => exact fun _ ht => ht
    | cons c cs ih =>
      intro t ht
      rw [List.foldl_cons]
      split_ifs
      · refine ih _ ⟨ht.buffer, ht.events, fun hu => ?_, ht.claims⟩
        obtain ⟨htx, hrx⟩ := ht.channels hu
        exact ⟨htx, Bank.forall_set hrx (RxChannel.hear_ok (State.rxAt_ok hu c) o)⟩
      · exact ih _ ht
  exact hear channelIds u (.refl u)

/-- A STREAM slot takes a sample, or counts an underrun (R114). -/
theorem State.keepsBounds_streamSupply (u : State) (c n : Nat) : u.KeepsBounds (u.streamSupply c n).1 := by
  unfold State.streamSupply
  split
  · rename_i v vs hq
    refine State.keepsBounds_setTx fun hx => ⟨?_, hx.2⟩
    have := hx.1
    rw [hq, List.length_cons] at this
    exact Nat.le_of_succ_le this
  · exact State.keepsBounds_setTx fun hx => ⟨hx.1, satSucc_le hx.2⟩

/-! ### Claim queue (R90) -/

/-- A record is added behind fewer than eight, with a tag that none of them has (R92, R93). -/
theorem ClaimQueue.accept_ok {q : ClaimQueue} (h : q.ok) (hroom : q.records.length < 8) (request : ClaimRequest) {p : Nat}
    (hp : p ≤ 3) (role : Option Role) : (q.accept request p role).ok := by
  obtain ⟨-, hnodup, hrecords, -, hhead⟩ := h
  obtain ⟨k, -, htag, hfree, -⟩ := ClaimQueue.nextTag_spec (q := q) (by omega)
  refine ⟨?_, ?_, ?_, Nat.mod_lt _ (by decide), fun _ => by simp [ClaimQueue.accept]⟩
  · simp only [ClaimQueue.accept, List.length_append, List.length_singleton, Config.claimCapacity]
    omega
  · simp only [ClaimQueue.accept, List.map_append, List.map_singleton]
    refine hnodup.append (List.nodup_singleton _) ?_
    simpa using hfree
  · intro r hr
    rcases List.mem_append.mp hr with hr | hr
    · exact hrecords r hr
    · obtain rfl := List.mem_singleton.mp hr
      exact ⟨htag ▸ Nat.mod_lt _ (by decide), hp, le_refl p, show 0 < 64 by decide⟩

/-- Some records leave the queue, and a head contends only if there is one. -/
theorem ClaimQueue.ok_of_sublist {q : ClaimQueue} (h : q.ok) {records : List ClaimRecord} {contending : Bool}
    (hsub : records.Sublist q.records) (hhead : contending = true → records ≠ []) :
    ({ q with records := records, contending := contending } : ClaimQueue).ok := by
  obtain ⟨hlen, hnodup, hrecords, hcounter, -⟩ := h
  exact ⟨hsub.length_le.trans hlen, hnodup.sublist (hsub.map _), fun r hr => hrecords r (hsub.subset hr), hcounter, hhead⟩

/-- The head of the queue becomes another with the same tag. -/
theorem ClaimQueue.ok_of_head {q : ClaimQueue} {r x : ClaimRecord} {rs : List ClaimRecord} (h : q.ok)
    (hq : q.records = r :: rs) (htag : x.tag = r.tag) (hx : r.ok → x.ok) (contending : Bool) :
    ({ q with records := x :: rs, contending := contending } : ClaimQueue).ok := by
  obtain ⟨hlen, hnodup, hrecords, hcounter, -⟩ := h
  rw [hq] at hlen hnodup hrecords
  refine ⟨hlen, ?_, fun y hy => ?_, hcounter, fun _ => List.cons_ne_nil _ _⟩
  · simpa only [List.map_cons, htag] using hnodup
  · rcases List.mem_cons.mp hy with rfl | hy
    · exact hx (hrecords r (List.mem_cons_self ..))
    · exact hrecords y (List.mem_cons_of_mem _ hy)

theorem ClaimQueue.markHead_ok {q : ClaimQueue} (h : q.ok) : q.markHead.ok := by
  unfold ClaimQueue.markHead
  split
  · exact h
  · rename_i r rs hq
    exact ClaimQueue.ok_of_head (x := { r with cancel := true }) h hq rfl id q.contending

/-- A record that is not the contending head is removed (R96). -/
theorem ClaimQueue.remove_ok {q : ClaimQueue} (h : q.ok) {tag : Nat} (hc : q.contends tag = false) : (q.remove tag).ok := by
  refine ClaimQueue.ok_of_sublist h List.eraseP_sublist fun hcontending => ?_
  obtain ⟨-, -, -, -, hhead⟩ := h
  obtain ⟨r, rs, hq⟩ := List.exists_cons_of_ne_nil (hhead hcontending)
  have htag : r.tag ≠ tag := by simpa [ClaimQueue.contends, hcontending, hq] using hc
  simp [hq, htag]

/-- A head that has lost ages within its bounds (R101). -/
theorem ClaimRecord.losing_ok {r : ClaimRecord} (h : r.ok) (hl : r.lost + 1 < 64) : r.losing.ok :=
  ⟨h.1, h.2.1, Nat.sub_le .., hl⟩

/-- The contending head that stays has lost fewer than 64 times (R101). -/
theorem ClaimRecord.settleOutcome_stays (r : ClaimRecord) (won : Bool) (frame : Nat) (given : Option Nat) :
    (r.settleOutcome won frame given).1 = none ∨
      r.lost + 1 < 64 ∧ (r.settleOutcome won frame given).1 = some r.losing := by
  unfold ClaimRecord.settleOutcome
  split_ifs with _ _ hl
  · left
    split <;> rfl
  · exact .inl rfl
  · exact .inr ⟨hl, rfl⟩
  · exact .inl rfl

/-- The contending head goes, or stays having lost (R100 to R102). -/
theorem State.keepsBounds_claimOutcome (u : State) (o : Occurrence) (given : Option Nat) :
    u.KeepsBounds (u.claimOutcome o given).1 := by
  cases hh : u.contendingHead with
  | none =>
    rw [State.claimOutcome_of_none hh]
    exact ⟨id, id, id, fun h => ClaimQueue.ok_of_sublist h (List.Sublist.refl _) (by simp)⟩
  | some r =>
    obtain ⟨-, rs, hrs⟩ := State.contendingHead_eq_some.mp hh
    rw [State.claimOutcome_of_some hh]
    refine ⟨id, id, id, fun h => ?_⟩
    rcases r.settleOutcome_stays (o.outcome == some .sent) o.frame given with hgone | ⟨hl, hstays⟩
    · rw [hgone]
      exact ClaimQueue.ok_of_sublist h (List.tail_sublist _) (by simp)
    · rw [hstays, hrs]
      exact ClaimQueue.ok_of_head (x := r.losing) h hrs rfl (fun hr => ClaimRecord.losing_ok hr hl) false

/-- The settle pass takes heads off the queue, and the next one contends (R98, R99). -/
theorem State.keepsBounds_settle (s : State) : s.KeepsBounds s.settle :=
  (s.keepsBounds_postAll (s.settleEvents s.claims.records)).trans
    ⟨id, id, id, fun h => ClaimQueue.ok_of_sublist h (s.unsettled_suffix _).sublist (by simp)⟩

/-- The session ends: the queue is emptied, and events are posted (R47, R50, R53). -/
theorem State.KeepsBounds.of_ended (hb : v.buffer = u.buffer) (he : ∃ es, v.events = u.events.postAll es)
    (ht : v.tx = u.tx) (hr : v.rx = u.rx) (hq : v.claims = { u.claims with records := [], contending := false }) :
    u.KeepsBounds v :=
  .trans (u := { u with claims := { u.claims with records := [], contending := false } })
    ⟨id, id, id, fun h => ClaimQueue.ok_of_sublist h (List.nil_sublist _) (by simp)⟩ (.of_posted hb he ht hr hq)

theorem State.keepsBounds_enterFault (u : State) (cause : FaultCause) : u.KeepsBounds (u.enterFault cause) :=
  .of_ended rfl ⟨_, rfl⟩ rfl rfl rfl

theorem State.keepsBounds_enterDetached (u : State) (others : List (List Event)) :
    u.KeepsBounds (u.enterDetached others) := .of_ended rfl ⟨_, rfl⟩ rfl rfl rfl

/-! ### Buffer memory (R175) -/

/-- A window writes within buffer memory, or not at all (R162). -/
theorem State.keepsBounds_applyAct {a : WindowAct} (h : ∀ p ∈ a.write, p.1 < 8192) : u.KeepsBounds (u.applyAct n a) := by
  refine ⟨fun hu => ?_, id, id, id⟩
  unfold State.applyAct
  cases ha : a.write with
  | none => exact hu
  | some p => exact Buffer.wf_write _ _ _ (h p ha) hu

/-- The windows act one after the other (R157). -/
theorem State.keepsBounds_windowsEnd (h : ∀ n ∈ windowIds, ∀ p ∈ (u.windowAct o n).write, p.1 < 8192) :
    u.KeepsBounds (u.windowsEnd o) := by
  have acts (ns : List Nat) (hns : ∀ n ∈ ns, ∀ p ∈ (u.windowAct o n).write, p.1 < 8192) :
      ∀ t : State, t.KeepsBounds (ns.foldl (fun t n => t.applyAct n (u.windowAct o n)) t) := by
    induction ns with
    | nil => exact .refl
    | cons n ns ih =>
      exact fun t => (State.keepsBounds_applyAct (hns n (List.mem_cons_self ..))).trans
        (ih (fun m hm => hns m (List.mem_cons_of_mem _ hm)) _)
  exact acts windowIds h u

/-- Where no window would write outside buffer memory (log 19). -/
theorem State.windowAct_write_lt (h : s.strayWrite bits = none) (hs : s.control.state.serving = true)
    (hf : s.faultIn (s.occurrence bits) = none) :
    ∀ n ∈ windowIds, ∀ p ∈ (s.windowAct (s.occurrence bits) n).write, p.1 < 8192 := by
  intro n hn p hp
  unfold State.strayWrite at h
  rw [if_pos ⟨hs, by rw [hf]; rfl⟩, List.find?_eq_none] at h
  have := h p.1 (List.mem_filterMap.mpr ⟨n, hn, by rw [Option.mem_def.mp hp]; rfl⟩)
  simpa [Config.bufferWords] using this

/-! ### What leaves the bounded blocks and the windows -/

@[simp] theorem State.stores_lossNotice (u : State) (role : Option Role) (n : Nat) :
    (u.lossNotice role n).stores = u.stores := by
  rw [State.lossNotice_eq]
  rfl

@[simp] theorem State.stores_freeSlot (u : State) (n : Nat) : (u.freeSlot n).stores = u.stores := by
  rw [State.freeSlot_eq]
  rfl

/-- The frame timer's outcomes of slot 0 (R24, R26, R27). -/
theorem State.stores_holderEnd (u : State) (o : Occurrence) : (u.holderEnd o).1.stores = u.stores := by
  unfold State.holderEnd
  split_ifs
  · split
    · split_ifs <;> rfl
    · rfl
  · rfl

theorem State.stores_missMark (u : State) : u.missMark.1.stores = u.stores := by
  rcases u.missMark_cases with h | h <;> rw [h] <;> rfl

/-- The turn of slot 1 (R58 to R65). -/
theorem State.stores_peerTurn (u : State) (o : Occurrence) (a : Nat) : (u.peerTurn o a).1.stores = u.stores := by
  unfold State.peerTurn
  split
  · split_ifs <;> rfl
  · unfold State.rollMissed
    split_ifs <;> rfl

theorem State.stores_rollTurn (u : State) (o : Occurrence) : (u.rollTurn o).1.stores = u.stores := by
  unfold State.rollTurn
  split_ifs
  · unfold State.ownTurn
    split
    · split <;> rfl
    · rfl
    · rfl
  · exact u.stores_peerTurn o _

/-- The frame timer at the end of slot 1 (R31). -/
theorem State.stores_rollTimer (u : State) (o : Occurrence) : (u.rollTimer o).1.stores = u.stores := by
  rcases u.rollTimer_cases o with h | h | h <;> rw [h] <;> rfl

/-- Answer queue and job table at the end of slot 3 (R143, R167). -/
theorem State.stores_answerOutcome (u : State) (o : Occurrence) : (u.answerOutcome o).1.stores = u.stores := by
  unfold State.answerOutcome
  split
  · rfl
  · split_ifs <;> rfl

theorem State.stores_applyAnswer (u : State) (o : Occurrence) : (u.applyAnswer o).1.stores = u.stores := by
  unfold State.applyAnswer
  split <;> rfl

/-- The job table at the start of a BULK slot (R137 to R142). -/
theorem State.stores_arbitrate (u : State) (n : Nat) : (u.arbitrate n).1.stores = u.stores := by
  unfold State.arbitrate
  cases u.oldestQueued <;> rfl

theorem State.stores_bulkSupply (u : State) (n : Nat) : (u.bulkSupply n).1.stores = u.stores := by
  unfold State.bulkSupply
  split
  · exact u.stores_arbitrate n
  · split_ifs
    · rfl
    · rfl
    · exact State.stores_arbitrate _ n
    · rfl

/-- The allocation table at the end of a data slot (R74 to R79). -/
theorem State.stores_silenceStep (u : State) (o : Occurrence) : (u.silenceStep o).1.stores = u.stores := by
  unfold State.silenceStep
  dsimp only
  split
  · rfl
  · split_ifs
    · rfl
    · exact u.stores_freeSlot _
    · rfl

theorem State.stores_correct (u : State) (o : Occurrence) : (u.correct o).1.stores = u.stores := by
  unfold State.correct
  split
  · rfl
  · dsimp only
    split_ifs <;> rfl

theorem State.stores_loseSlot (u : State) (o : Occurrence) : (u.loseSlot o).1.stores = u.stores := by
  unfold State.loseSlot
  dsimp only
  split
  · exact u.stores_freeSlot _
  · split_ifs
    · exact State.stores_lossNotice ..
    · exact u.stores_freeSlot _

theorem State.stores_tableEnd (u : State) (o : Occurrence) : (u.tableEnd o).1.stores = u.stores := by
  have steps (x : State) : (x.ownerSteps o).1.stores = x.stores := by
    have hsilence := x.stores_silenceStep o
    unfold State.ownerSteps
    split
    · exact (State.stores_correct ..).trans hsilence
    · split_ifs
      · exact (State.stores_loseSlot ..).trans hsilence
      · exact hsilence
    · exact hsilence
    · exact hsilence
  unfold State.tableEnd
  dsimp only
  split_ifs
  · rfl
  · exact steps _

/-- Roster and table in either order (R66, R67). -/
theorem State.stores_rosterAndTable (u : State) (o : Occurrence) : (u.rosterAndTable o).1.stores = u.stores := by
  have marks (x : State) : (x.markPresent o).1.stores = x.stores := by
    obtain ⟨_, _, h⟩ := x.markPresent_eq o
    rw [h]
    rfl
  unfold State.rosterAndTable
  split_ifs
  · exact (State.stores_tableEnd ..).trans (marks u)
  · exact (marks _).trans (u.stores_tableEnd o)

/-! ### Slot ends -/

theorem State.keepsBounds_foundingEnd (u : State) (o : Occurrence) : u.KeepsBounds (u.foundingEnd o) := by
  unfold State.foundingEnd
  split_ifs
  · split
    · exact .of_posted rfl ⟨_, rfl⟩ rfl rfl rfl
    · exact .of_stores rfl
  · exact .of_posted rfl ⟨_, rfl⟩ rfl rfl rfl

theorem State.keepsBounds_passOn (u : State) (o : Occurrence) : u.KeepsBounds (u.passOn o).nextHappening := by
  obtain ⟨_, _, heq, -⟩ := u.passOn_eq o
  rw [heq]
  exact .of_stores rfl

theorem State.keepsBounds_markEnd (u : State) (o : Occurrence) : u.KeepsBounds (u.markEnd o) := by
  unfold State.markEnd
  split
  · exact (State.KeepsBounds.of_stores (u.stores_holderEnd o)).trans
      ((State.keepsBounds_postAll ..).trans (State.keepsBounds_passOn ..))
  · split
    · exact .trans (u := u.follow _) (.of_stores rfl) ((State.keepsBounds_postAll ..).trans (State.keepsBounds_passOn ..))
    · split_ifs
      · exact .of_posted rfl ⟨_, rfl⟩ rfl rfl rfl
      · exact (State.KeepsBounds.of_stores u.stores_missMark).ends _ _ o

/-- The end of slot 0 (R21 to R30). -/
theorem State.keepsBounds_endMarkSlot (s : State) (bits : SlotBits) : s.KeepsBounds (s.endMarkSlot bits) := by
  refine .trans (u := s.portEnd bits) (.of_stores rfl) ?_
  unfold State.endMarkSlot
  dsimp only
  split
  · exact (State.keepsBounds_postAll ..).trans (State.keepsBounds_enterFault ..)
  · split_ifs
    · exact State.keepsBounds_foundingEnd ..
    · exact State.keepsBounds_markEnd ..

/-- The end of slot 1 (R58 to R65). -/
theorem State.keepsBounds_endRollSlot (s : State) (bits : SlotBits) : s.KeepsBounds (s.endRollSlot bits) := by
  refine .trans (u := s.portEnd bits) (.of_stores rfl) ?_
  unfold State.endRollSlot
  dsimp only
  split
  · exact (State.keepsBounds_postAll ..).trans (State.keepsBounds_enterFault ..)
  · split_ifs with hl
    · have hst : s.control.state = .leaving := by
        simp only [State.leavesNow, Bool.and_eq_true, beq_iff_eq] at hl
        exact hl.1
      obtain ⟨_, _, heq, -⟩ := State.leaveTrunk_eq (u := s.portEnd bits) hst (s.occurrence bits)
      rw [heq]
      exact .of_ended rfl ⟨_, rfl⟩ rfl rfl rfl
    · exact (State.KeepsBounds.of_stores ((State.stores_rollTimer ..).trans (State.stores_rollTurn ..))).ends _ _ _

/-- A CLAIM word that is applied may unbind receive channels (R104 to R108, R124). -/
theorem State.keepsBounds_applyClaim (u : State) (o : Occurrence) (role : Option Role) :
    u.KeepsBounds (u.applyClaim o role).1 := by
  unfold State.applyClaim
  split
  · exact .refl u
  · split
    · split_ifs
      · exact .trans (u := u.setEntry _ _) (.of_stores rfl)
          (State.keepsBounds_mapRx (u := u.setEntry _ _) fun r hr => RxChannel.unbindFrom_ok hr _)
      · exact .of_stores rfl
    · split
      · exact .of_stores (u.stores_freeSlot _)
      · exact .refl u

/-- The end of slot 2 (R100 to R109). -/
theorem State.keepsBounds_endClaimSlot (s : State) (bits : SlotBits) : s.KeepsBounds (s.endClaimSlot bits) := by
  refine .trans (u := s.portEnd bits) (.of_stores rfl) ?_
  unfold State.endClaimSlot
  dsimp only
  split
  · refine .trans ?_ (State.keepsBounds_enterFault ..)
    unfold State.claimBeforeFault
    split_ifs
    · exact (State.keepsBounds_claimOutcome ..).trans (State.keepsBounds_postAll ..)
    · exact .refl _
  · exact ((State.keepsBounds_applyClaim ..).trans (State.keepsBounds_claimOutcome ..)).ends _ _ _

/-- The end of slot 3 (R143, R167). -/
theorem State.keepsBounds_endAnswerSlot (s : State) (bits : SlotBits) : s.KeepsBounds (s.endAnswerSlot bits) := by
  refine .trans (u := s.portEnd bits) (.of_stores rfl) ?_
  unfold State.endAnswerSlot
  dsimp only
  split
  · exact (State.keepsBounds_postAll ..).trans (State.keepsBounds_enterFault ..)
  · have hown := State.stores_answerOutcome (s.portEnd bits) (s.occurrence bits)
    unfold State.answerEnd
    dsimp only
    split_ifs
    · exact (State.KeepsBounds.of_stores ((State.stores_applyAnswer ..).trans hown)).ends _ _ _
    · exact (State.KeepsBounds.of_stores hown).ends _ _ _

/-- The end of a data slot, no fault found, in which the windows write within buffer memory (R9, R120, R162). -/
theorem State.keepsBounds_dataEnd (h : u.control.state.serving = true →
    ∀ n ∈ windowIds, ∀ p ∈ (u.windowAct o n).write, p.1 < 8192) : u.KeepsBounds (u.dataEnd o) := by
  have hstores := u.stores_rosterAndTable o
  obtain ⟨heard, hheard⟩ : ∃ heard : State, heard =
    { (u.rosterAndTable o).1 with rx := (u.rosterAndTable o).1.rx.map (fun r => r.hear o) } := ⟨_, rfl⟩
  have hkeeps : u.KeepsBounds heard := hheard ▸
    (State.KeepsBounds.of_stores hstores).trans (State.keepsBounds_mapRx fun r hr => RxChannel.hear_ok hr o)
  have hact (n : Nat) : heard.windowAct o n = u.windowAct o n := by
    obtain ⟨-, -, -, -, -, hwindows⟩ := State.stores_eq_iff.mp hstores
    have hself := State.self_congr (State.front_eq_iff.mp (u.front_rosterAndTable o)).1
    rw [hheard]
    show ((u.rosterAndTable o).1.windowAt n).act n o (u.rosterAndTable o).1.self = _
    rw [hself, State.windowAt, hwindows]
    rfl
  unfold State.dataEnd
  dsimp only
  rw [← hheard]
  split_ifs with hs
  · exact (hkeeps.trans (State.keepsBounds_windowsEnd (by simpa only [hact] using h hs))).ends _ _ o
  · exact hkeeps.ends _ _ o

/-- The end of a data slot, which writes within buffer memory or not at all (R74, R175, log 19). -/
theorem State.keepsBounds_dataFinish (h : s.dataFinish bits = .next t) : s.KeepsBounds t := by
  have hstray : s.strayWrite bits = none := by
    unfold State.dataFinish at h
    split at h
    · cases h
    · assumption
  rw [State.dataFinish_next h]
  refine .trans (u := s.portEnd bits) (.of_stores rfl) ?_
  cases hf : s.faultIn (s.occurrence bits) with
  | none =>
    rw [State.endDataSlot_of_none hf]
    exact State.keepsBounds_dataEnd fun hs => State.windowAct_write_lt hstray hs hf
  | some cause =>
    rw [State.endDataSlot_of_some hf]
    exact (State.keepsBounds_hearBeforeFault ..).trans
      ((State.keepsBounds_postAll ..).trans (State.keepsBounds_enterFault ..))

/-! ### Hunting and slot starts -/

theorem State.keepsBounds_candidateHeard (s : State) (bits : SlotBits) : s.KeepsBounds (s.candidateHeard bits) := by
  unfold State.candidateHeard
  dsimp only
  split
  · exact .of_stores rfl
  · split_ifs
    · exact .of_ended rfl ⟨_, rfl⟩ rfl rfl rfl
    · exact .of_posted rfl ⟨_, rfl⟩ rfl rfl rfl
    · exact .of_ended rfl ⟨_, rfl⟩ rfl rfl rfl

/-- The listen window founds, or posts NO_TRUNK (R20). -/
theorem State.keepsBounds_frameTimePassed (s : State) : s.KeepsBounds s.frameTimePassed := by
  unfold State.frameTimePassed State.windowPassed
  dsimp only
  split_ifs
  · exact .of_stores rfl
  · exact .of_posted rfl ⟨[_], rfl⟩ rfl rfl rfl
  · exact .of_stores rfl
  · exact .of_stores rfl

theorem State.keepsBounds_supply (u : State) (n : Nat) : u.KeepsBounds (u.supply n).1 := by
  unfold State.supply
  split
  · exact u.keepsBounds_streamSupply _ n
  · exact .of_stores (u.stores_bulkSupply n)
  · exact .refl u
  · exact .refl u

theorem State.keepsBounds_startDataSlot (s : State) (n : Nat) : s.KeepsBounds (s.startDataSlot n) := by
  unfold State.startDataSlot
  split_ifs
  · exact ((s.keepsBounds_supply n).trans (State.keepsBounds_postAll ..)).trans (.of_stores rfl)
  · exact .of_stores rfl

/-! ### Transactions -/

theorem State.keepsBounds_judgeStart (s : State) (addr len : Nat) (eligible : Bool) :
    s.KeepsBounds (s.judgeStart addr len eligible).1 := by
  unfold State.judgeStart
  split_ifs
  · exact .refl s
  · exact .refl s
  · have hended : State.KeepsBounds
        { s with tx := Bank.fill 8 TxChannel.reset, rx := Bank.fill 8 RxChannel.reset }
        (s.started { addr := addr, len := len, eligible := eligible }) := .of_ended rfl ⟨_, rfl⟩ rfl rfl rfl
    obtain ⟨-, -, hchannels, -⟩ := resetStateIsSound
    exact ⟨hended.buffer, hended.events, fun _ => hended.channels hchannels, hended.claims⟩

theorem State.keepsBounds_judgeJoin (s : State) : s.KeepsBounds s.judgeJoin.1 := by
  unfold State.judgeJoin
  split_ifs
  · exact .of_posted rfl ⟨_, rfl⟩ rfl rfl rfl
  · exact .refl s

theorem State.keepsBounds_judgeLeave (s : State) : s.KeepsBounds s.judgeLeave.1 := by
  unfold State.judgeLeave
  split
  case h_2 | h_3 => exact s.keepsBounds_enterDetached []
  case h_4 => exact .of_ended rfl ⟨_, rfl⟩ rfl rfl rfl
  all_goals exact .refl s

theorem State.keepsBounds_acceptRecord (s : State) (hroom : s.claims.records.length < 8) (request : ClaimRequest) {p : Nat}
    (hp : p ≤ 3) (role : Option Role) : s.KeepsBounds (s.acceptRecord request p role).1 :=
  ⟨id, id, id, fun h => ClaimQueue.accept_ok h hroom request hp role⟩

theorem State.keepsBounds_judgeClaim (s : State) (req : ClaimArg) (p : Nat) (role : RoleArg) :
    s.KeepsBounds (s.judgeClaim req p role).1 := by
  unfold State.judgeClaim
  split
  · exact .refl s
  · split
    · exact .refl s
    · rename_i hp
      split
      · split_ifs with hfull
        · exact .refl s
        · exact .refl s
        · exact s.keepsBounds_acceptRecord (Nat.lt_of_not_le hfull) _ (Nat.le_of_not_lt hp) _
      · exact .refl s

theorem State.keepsBounds_judgeRelease (s : State) (n : Nat) : s.KeepsBounds (s.judgeRelease n).1 := by
  unfold State.judgeRelease
  split_ifs with _ _ hfull
  · exact .refl s
  · exact .refl s
  · exact .refl s
  · exact .refl s
  · exact s.keepsBounds_acceptRecord (Nat.lt_of_not_le hfull) _ (by decide) _

theorem State.keepsBounds_judgeClaimCancel (s : State) (tag : Nat) : s.KeepsBounds (s.judgeClaimCancel tag).1 := by
  unfold State.judgeClaimCancel
  split
  · exact .refl s
  · split
    · exact .refl s
    · split_ifs with hc
      · exact ⟨id, id, id, ClaimQueue.markHead_ok⟩
      · exact .trans (u := { s with claims := s.claims.remove tag })
          ⟨id, id, id, fun h => ClaimQueue.remove_ok h (by simpa using hc)⟩ (State.keepsBounds_postAll ..)

theorem State.keepsBounds_judgeSetRole (s : State) (n : Nat) (role : RoleArg) : s.KeepsBounds (s.judgeSetRole n role).1 := by
  have change (r : Role) : s.KeepsBounds (s.changeRole n r) := by
    unfold State.changeRole
    split_ifs
    · exact .refl s
    · exact .of_stores (State.stores_lossNotice ..)
  unfold State.judgeSetRole
  split
  · exact .refl s
  · split
    · exact .refl s
    · split
      · exact .refl s
      · split_ifs
        · exact .refl s
        · exact .refl s
        · exact change _

theorem State.keepsBounds_judgeBindRx (s : State) (c n : Nat) (expected : Option Nat) (policy : Policy) (gaps : Bool) :
    s.KeepsBounds (s.judgeBindRx c n expected policy gaps).1 := by
  unfold State.judgeBindRx
  split_ifs
  case neg => exact State.keepsBounds_setRx id
  all_goals exact .refl s

theorem State.keepsBounds_judgeUnbindRx (s : State) (c : Nat) : s.KeepsBounds (s.judgeUnbindRx c).1 := by
  unfold State.judgeUnbindRx
  split_ifs
  case neg => exact State.keepsBounds_setRx id
  all_goals exact .refl s

theorem State.keepsBounds_judgePush (s : State) (c : Nat) (samples : List DataWord) :
    s.KeepsBounds (s.judgePush c samples).1 := by
  unfold State.judgePush
  split_ifs
  case neg => exact State.keepsBounds_setTx fun h => TxChannel.pushed_ok h samples
  all_goals exact .refl s

theorem State.keepsBounds_judgePull (s : State) (c n : Nat) : s.KeepsBounds (s.judgePull c n).1 := by
  unfold State.judgePull
  split_ifs
  case neg => exact State.keepsBounds_setRx fun h => RxChannel.pulled_ok h n
  all_goals exact .refl s

theorem State.keepsBounds_judgeMemoryWrite (s : State) (a : Nat) (words : List DataWord) :
    s.KeepsBounds (s.judgeMemoryWrite a words).1 := by
  unfold State.judgeMemoryWrite
  split_ifs with hrange
  · simp only [memoryRange, Bool.and_eq_true, decide_eq_true_eq] at hrange
    exact ⟨Buffer.wf_writeAll words _ a hrange.2, id, id, id⟩
  · exact .refl s

theorem State.keepsBounds_judgeEventRead (s : State) (n : Nat) : s.KeepsBounds (s.judgeEventRead n).1 := by
  unfold State.judgeEventRead
  split_ifs
  · exact ⟨id, fun h => EventQueue.dropped_ok h n, id, id⟩
  · exact .refl s

/-- The commands of the bulk sender write the job table (R132 to R135). -/
theorem State.stores_judgeBulkPost (s : State) (dest win base len : Nat) :
    (s.judgeBulkPost dest win base len).1.stores = s.stores := by
  unfold State.judgeBulkPost
  split
  · rfl
  · split
    · rfl
    · split <;> rfl

theorem State.stores_judgeBulkCancel (s : State) (id : Nat) : (s.judgeBulkCancel id).1.stores = s.stores := by
  unfold State.judgeBulkCancel
  split
  · rfl
  · split
    · rfl
    · split
      · rfl
      · split_ifs <;> rfl

theorem State.stores_judgeBulkCollect (s : State) (id : Nat) : (s.judgeBulkCollect id).1.stores = s.stores := by
  unfold State.judgeBulkCollect
  split
  · rfl
  · split
    · rfl
    · split
      · rfl
      · split_ifs <;> rfl

theorem State.stores_judgeBulkStatus (s : State) (id : Nat) : (s.judgeBulkStatus id).1.stores = s.stores := by
  unfold State.judgeBulkStatus
  split
  · rfl
  · split
    · rfl
    · split <;> rfl

/-- Every transaction keeps the bounds. -/
theorem State.keepsBounds_judge (s : State) (i : Instr) : s.KeepsBounds (s.judge i).1 := by
  cases i with
  | start addr len eligible => exact s.keepsBounds_judgeStart addr len eligible
  | join => exact s.keepsBounds_judgeJoin
  | leave => exact s.keepsBounds_judgeLeave
  | claim req priority role => exact s.keepsBounds_judgeClaim req priority role
  | release n => exact s.keepsBounds_judgeRelease n
  | claimCancel tag => exact s.keepsBounds_judgeClaimCancel tag
  | setRole n role => exact s.keepsBounds_judgeSetRole n role
  | bindRx c n expected policy gaps => exact s.keepsBounds_judgeBindRx c n expected policy gaps
  | unbindRx c => exact s.keepsBounds_judgeUnbindRx c
  | push c samples => exact s.keepsBounds_judgePush c samples
  | pull c n => exact s.keepsBounds_judgePull c n
  | memoryWrite a words => exact s.keepsBounds_judgeMemoryWrite a words
  | eventRead n => exact s.keepsBounds_judgeEventRead n
  | bulkPost dest win base len => exact .of_stores (s.stores_judgeBulkPost dest win base len)
  | bulkCancel id => exact .of_stores (s.stores_judgeBulkCancel id)
  | bulkStatus id => exact .of_stores (s.stores_judgeBulkStatus id)
  | bulkCollect id => exact .of_stores (s.stores_judgeBulkCollect id)
  | channelStatus _ _ | windowOpen _ _ _ _ | windowClose _ | windowStatus _ | readSlot _ | readRoster _ | memoryRead _ _ =>
    simp only [State.judge, State.judgeChannelStatus, State.judgeWindowOpen, State.judgeWindowClose,
      State.judgeWindowStatus, State.judgeReadSlot, State.judgeReadRoster, State.judgeMemoryRead]
    split_ifs <;> exact .of_same rfl rfl rfl rfl rfl
  | _ => exact .of_stores rfl

/-! ### Every command -/

/-- Whatever state an outcome answers keeps the bounds of `s`. -/
def State.Bounds (s : State) (x : Host.Outcome State Fault Refusal) : Prop := ∀ t, x = .next t → s.KeepsBounds t

theorem State.KeepsBounds.next (h : s.KeepsBounds t) : s.Bounds (.next t) := by
  rintro _ ⟨⟩
  exact h

/-- A command that acts on a condition and is idle otherwise. -/
theorem State.bounds_ite {p : Prop} [Decidable p] {x : Host.Outcome State Fault Refusal} (hx : s.Bounds x) :
    s.Bounds (if p then x else .next s) := by
  split_ifs
  · exact hx
  · exact (State.KeepsBounds.refl s).next

/-- The reply to a transaction is a matter of the host port (R172). -/
theorem State.keepsBounds_reply (s : State) (i : Instr) (words : List PortWord) :
    s.KeepsBounds (s.replyWith i words (s.judge i)) := (s.keepsBounds_judge i).trans (.of_stores rfl)

theorem State.bounds_take (s : State) (i : Instr) : s.Bounds (.next (s.take i (s.judge i))) := by
  refine State.KeepsBounds.next ?_
  unfold State.take
  split_ifs
  · exact s.keepsBounds_reply i _
  · exact .refl s

/-- A part reset empties every queue and keeps buffer memory (R181). -/
theorem State.keepsBounds_partReset (s : State) : s.KeepsBounds s.partReset := by
  obtain ⟨-, hevents, hchannels, -, -, hclaims, -⟩ := resetStateIsSound
  exact ⟨id, fun _ => hevents, fun _ => hchannels, fun _ => hclaims⟩

theorem State.bounds_requestWord (s : State) (w : PortWord) : s.Bounds (execRequestWordShiftedIn w s) := by
  refine State.bounds_ite (State.KeepsBounds.next ?_)
  unfold State.wordIn
  split
  · exact .of_stores rfl
  · exact s.keepsBounds_reply _ _

theorem State.keepsBounds_shiftOut (s : State) : s.KeepsBounds s.shiftOut := by
  unfold State.shiftOut
  split_ifs
  · exact .trans (u := s.wordOut) (.of_stores rfl) (State.keepsBounds_partReset _)
  · exact .of_stores rfl

theorem State.keepsBounds_selectReleased (s : State) : s.KeepsBounds s.selectReleased := by
  unfold State.selectReleased
  split_ifs
  · exact .trans (u := s.setSelect false) (.of_stores rfl) (State.keepsBounds_partReset _)
  · exact .of_stores rfl

theorem State.bounds_replyWord (s : State) : s.Bounds (execReplyWordShiftedOut s) := by
  unfold execReplyWordShiftedOut
  split
  · exact State.KeepsBounds.next (.of_stores rfl)
  · exact State.KeepsBounds.next (.of_stores rfl)
  · exact s.keepsBounds_shiftOut.next

theorem State.bounds_select (s : State) : s.Bounds (execTargetSelectAsserted s) := by
  unfold execTargetSelectAsserted
  split_ifs <;> exact State.KeepsBounds.next (.of_stores rfl)

theorem State.bounds_dataStart (s : State) (n : Nat) : s.Bounds (s.dataStart n) := by
  unfold State.dataStart
  split
  · split_ifs
    · exact (s.keepsBounds_startDataSlot n).next
    · rintro t ⟨⟩
  · exact (s.keepsBounds_startDataSlot n).next

theorem State.bounds_dataSlotStart (s : State) : s.Bounds (execDataSlotStart s) := by
  unfold execDataSlotStart
  split
  · exact s.bounds_dataStart _
  · exact (State.KeepsBounds.refl s).next

theorem State.bounds_tailResend (s : State) : s.Bounds (execTailResend s) := by
  unfold execTailResend
  split
  · exact State.bounds_ite (s.bounds_dataStart _)
  · exact (State.KeepsBounds.refl s).next

theorem State.bounds_jobNoAnswer (s : State) : s.Bounds (execJobNoAnswer s) := by
  unfold execJobNoAnswer
  split
  · split_ifs
    · exact (State.KeepsBounds.refl s).next
    · exact s.bounds_dataStart _
  · exact (State.KeepsBounds.refl s).next

theorem State.bounds_claimSlotStart (s : State) : s.Bounds (execClaimSlotStart s) := by
  refine State.bounds_ite ?_
  split_ifs
  · exact s.keepsBounds_settle.next
  · exact State.KeepsBounds.next (.of_stores rfl)

theorem State.bounds_claimAging (s : State) (bits : SlotBits) : s.Bounds (execClaimAging bits s) := by
  unfold execClaimAging
  split
  · exact (State.KeepsBounds.refl s).next
  · exact State.bounds_ite (s.keepsBounds_endClaimSlot bits).next

theorem State.bounds_claimExpired (s : State) (bits : SlotBits) : s.Bounds (execClaimExpired bits s) := by
  unfold execClaimExpired
  split
  · exact (State.KeepsBounds.refl s).next
  · exact State.bounds_ite (s.keepsBounds_endClaimSlot bits).next

/-- Whatever command runs, the bounded blocks stay within their bounds. -/
theorem exec_bounds (c : Instr) (s : State) : s.Bounds (exec c s) := by
  have same {t : State} (h : t.stores = s.stores) : s.Bounds (.next t) := State.KeepsBounds.next (.of_stores h)
  have markEnd (bits : SlotBits) := (s.keepsBounds_endMarkSlot bits).next
  have rollEnd (bits : SlotBits) := (s.keepsBounds_endRollSlot bits).next
  have answerEnd (bits : SlotBits) := (s.keepsBounds_endAnswerSlot bits).next
  have dataEnd (bits : SlotBits) : s.Bounds (s.dataFinish bits) := fun _ => State.keepsBounds_dataFinish
  have reset {pins : Pins} : s.Bounds (.next { s.partReset with pins := pins }) :=
    State.KeepsBounds.next (s.keepsBounds_partReset.trans (.of_stores rfl))
  cases c with
  | undefinedHeader header => exact State.bounds_ite (s.bounds_take _)
  | targetSelectAsserted => exact s.bounds_select
  | targetSelectReleased => exact s.keepsBounds_selectReleased.next
  | resetPartTakesHold trigger =>
    cases trigger with
    | replyShiftedOut => exact State.bounds_ite s.keepsBounds_shiftOut.next
    | selectReleased => exact State.bounds_ite s.keepsBounds_selectReleased.next
  | resetLineAsserted => exact reset
  | resetLineReleased => exact State.bounds_ite reset
  | powerOnReset lineRate =>
    exact State.KeepsBounds.next ⟨fun _ => rfl, s.keepsBounds_partReset.events, s.keepsBounds_partReset.channels,
      s.keepsBounds_partReset.claims⟩
  | huntingCandidate bits => exact State.bounds_ite (s.keepsBounds_candidateHeard bits).next
  | listenWindowPasses => exact State.bounds_ite s.keepsBounds_frameTimePassed.next
  | listenWindowFrameTime => exact State.bounds_ite s.keepsBounds_frameTimePassed.next
  | markSlotStart => exact State.bounds_ite (same rfl)
  | markSlotEnd heard => exact State.bounds_ite (markEnd heard)
  | candidateRule heard => exact State.bounds_ite (markEnd heard)
  | escalation heard => exact State.bounds_ite (markEnd heard)
  | joiningToListen heard => exact State.bounds_ite (markEnd heard)
  | rollSlotStart => exact State.bounds_ite (same rfl)
  | rollSlotEnd heard => exact State.bounds_ite (rollEnd heard)
  | stationLost heard => exact State.bounds_ite (rollEnd heard)
  | claimSlotStart => exact s.bounds_claimSlotStart
  | claimSlotEnd heard => exact State.bounds_ite (s.keepsBounds_endClaimSlot heard).next
  | claimAging heard => exact s.bounds_claimAging heard
  | claimExpired heard => exact s.bounds_claimExpired heard
  | answerSlotStart => exact State.bounds_ite (same rfl)
  | answerSlotEnd heard => exact State.bounds_ite (answerEnd heard)
  | answerDropped heard => exact State.bounds_ite (answerEnd heard)
  | dataSlotStart => exact s.bounds_dataSlotStart
  | tailResend => exact s.bounds_tailResend
  | jobNoAnswer => exact s.bounds_jobNoAnswer
  | dataSlotEnd heard => exact State.bounds_ite (dataEnd heard)
  | slotLapsed heard => exact State.bounds_ite (dataEnd heard)
  | windowStalled heard => exact State.bounds_ite (dataEnd heard)
  | requestWordShiftedIn word => exact s.bounds_requestWord word
  | replyWordShiftedOut => exact s.bounds_replyWord
  | _ => exact s.bounds_take _

end Sys2Proof.Machine

open Sys2Proof Sys2Proof.Machine

/-- Settles O54: every command posts to the event queue, writes within buffer memory and adds to channels and claim queue only
what they have room for, each block by its own bounds alone. -/
theorem memoryAndQueuesStayBounded : Obligations.MemoryAndQueuesStayBounded := by
  intro s t hstep
  have hkeeps : s.KeepsBounds t := by
    unfold step at hstep
    split at hstep
    · cases hstep
      exact .refl s
    · rename_i c rest _
      exact .trans (u := { s with pending := rest }) (.of_stores rfl) (exec_bounds c _ t hstep)
  exact ⟨hkeeps.buffer, hkeeps.events, hkeeps.channels, hkeeps.claims⟩
end

