-- ==== Sys2Proof/Proofs/ReceiveChannels.lean ====
section
/-! What the end of a data slot gives the receive channels (R120, R121): each hears the occurrence by its own binding, and of
all that is posted its RX_OVERRUN is its own. -/

namespace Sys2Proof.Machine

variable {s t u : State} {o : Occurrence} {w : SlotWord} {n c : Nat} {bits : SlotBits} {r : RxChannel} {b : Binding}

/-! ### What a binding takes (R120) -/

/-- The gap reason of an occurrence that brings no DATA word (R117, R120). -/
def Heard.gap : Heard → Gap
  | .silent => .silent
  | .corrupt => .corrupt
  | .valid w => if w.kind = .fill then .fill else .other

/-- A DATA word is taken from the expected source, or from any where none is expected. -/
theorem Binding.takes_data (b : Binding) (hk : w.kind = .data) :
    b.takes (.valid w) = if b.expected = none ∨ b.expected = some w.sender then .entry (.value w.body) else .mismatch := by
  simp only [Binding.takes, hk]

/-- Whatever else is heard is a gap, where gaps are marked. -/
theorem Binding.takes_gap (b : Binding) {h : Heard} (hk : ∀ w, h = .valid w → w.kind ≠ .data) :
    b.takes h = if b.gaps then .entry (.gap h.gap) else .nothing := by
  cases h with
  | silent => rfl
  | corrupt => rfl
  | valid w =>
    have hne := hk w rfl
    cases hw : w.kind <;> simp_all [Binding.takes, Heard.gap]

/-! ### What a channel hears (R120, R121) -/

/-- A channel without a binding, or bound to another slot, hears nothing. -/
theorem RxChannel.hear_elsewhere (h : ∀ b, r.binding = some b → b.slot ≠ o.slot) : r.hear o = r := by
  unfold RxChannel.hear
  split
  · rfl
  · rename_i b hb
    exact if_neg (h b hb)

/-- A channel bound to the slot hears what its binding takes. -/
theorem RxChannel.hear_bound (hb : r.binding = some b) (hslot : b.slot = o.slot) :
    r.hear o = match b.takes o.heard with
      | .entry x => r.add b.policy { frame := o.frame, content := x }
      | .mismatch => { r with mismatch := satSucc 65535 r.mismatch }
      | .nothing => r := by
  rw [RxChannel.hear, hb]
  exact if_pos hslot

/-- Without a change of the overrun flag there is no RX_OVERRUN. -/
theorem RxChannel.overrunEvents_of_same (h : (r.hear o).overrunFlag = r.overrunFlag) (c : Nat) :
    r.overrunEvents o c = [] :=
  if_neg fun ⟨hset, hclear⟩ => Bool.false_ne_true (hclear.symm.trans (h.symm.trans hset))

/-- A channel with room takes the entry at its tail (R121). -/
theorem RxChannel.add_of_room (h : r.queue.length < 16) (p : Policy) (e : RxEntry) :
    r.add p e = { r with queue := r.queue ++ [e] } := if_pos h

/-- A full channel gives up its oldest entry or the new one, and counts the overrun (R121). -/
theorem RxChannel.add_of_full (h : ¬r.queue.length < 16) (p : Policy) (e : RxEntry) :
    r.add p e = { r with
      queue := if p = .keepNewest then r.queue.tail ++ [e] else r.queue
      overrun := if r.overrun < 65535 then r.overrun + 1 else 65535
      overrunFlag := true } := by
  refine (if_neg h).trans ?_
  cases p <;> rfl

/-! ### RX_OVERRUN among all that is posted (R121, R177) -/

/-- RX_OVERRUN of channel `c`. -/
def Event.overrunOf (c : Nat) (e : Event) : Bool := e.channel == some c && e.kind == .rxOverrun

/-- Events that one block alone posts stand in its order in a free order of several blocks. -/
theorem filter_mergeAll (p : Event → Bool) (h : Nat) {before after : List (List Event)} {g : List Event}
    (hb : ∀ x ∈ before, x.filter p = []) (ha : ∀ x ∈ after, x.filter p = []) :
    ∀ base, (mergeAll h base (before ++ g :: after)).filter p = g.filter p := by
  have hafter : after.flatten.filter p = [] := by
    rw [List.filter_flatten, List.flatten_eq_nil_iff]
    simpa using ha
  induction before with
  | nil => exact fun base => mergeAll_filter_head p h base g after hafter
  | cons x before ih =>
    intro base
    exact (mergeAll_filter_tail p h base x _ (hb x (List.mem_cons_self ..))).trans
      (ih (fun y hy => hb y (List.mem_cons_of_mem x hy)) (base + 64))

/-- A block that posts other kinds posts no RX_OVERRUN of any channel. -/
theorem PostsOnly.filter_overrunOf {ks : List EventKind} {es : List Event} (h : PostsOnly ks es) (hk : .rxOverrun ∉ ks)
    (c : Nat) : es.filter (Event.overrunOf c) = [] :=
  List.filter_eq_nil_iff.mpr fun e he hover => by
    rw [Event.overrunOf, Bool.and_eq_true, beq_iff_eq, beq_iff_eq] at hover
    exact hk (hover.2 ▸ h.kinds e he)

/-- A channel's RX_OVERRUN is its own. -/
theorem RxChannel.filter_overrunEvents (r : RxChannel) (o : Occurrence) (d c : Nat) :
    (r.overrunEvents o d).filter (Event.overrunOf c) = if d = c then r.overrunEvents o d else [] := by
  unfold RxChannel.overrunEvents
  by_cases hd : d = c <;> split_ifs <;> simp [Event.overrunOf, Event.of, hd]

/-- Channel `c` stands once among the eight. -/
theorem channelIds_split (hc : c < 8) : ∃ before after, channelIds = before ++ c :: after ∧ ∀ d ∈ before ++ after, d ≠ c := by
  have hmem : c ∈ channelIds := by simp only [channelIds, List.mem_cons, List.not_mem_nil, or_false]; omega
  obtain ⟨before, after, hsplit⟩ := List.append_of_mem hmem
  have hnodup : (before ++ c :: after).Nodup := hsplit ▸ by decide
  exact ⟨before, after, hsplit, fun d hd heq => (List.nodup_cons.mp (List.nodup_middle.mp hnodup)).1 (heq ▸ hd)⟩

/-- Of all that the end of a data slot posts, the RX_OVERRUN of channel `c` is what channel `c` posts. -/
theorem overrunOf_mergeAll (hc : c < 8) (u : State) (o : Occurrence) {roster table off : List Event}
    {windowPosts : List (List Event)} (hroster : PostsOnly [.stationJoined] roster) (htable : PostsOnly tableKinds table)
    (hoff : PostsOnly [.holderChanged, .markStray, .markMismatch] off) (hwin : ∀ g ∈ windowPosts, PostsOnly windowKinds g)
    (happening : Nat) :
    (mergeAll happening 0 ([roster, table, off] ++ channelIds.map (fun d => (u.rxAt d).overrunEvents o d) ++
      windowPosts)).filter (Event.overrunOf c) = (u.rxAt c).overrunEvents o c := by
  obtain ⟨before, after, hsplit, hother⟩ := channelIds_split hc
  have others (ds : List Nat) (hds : ∀ d ∈ ds, d ≠ c) :
      ∀ g ∈ ds.map (fun d => (u.rxAt d).overrunEvents o d), g.filter (Event.overrunOf c) = [] := by
    intro g hg
    obtain ⟨d, hd, rfl⟩ := List.mem_map.mp hg
    rw [RxChannel.filter_overrunEvents, if_neg (hds d hd)]
  have hgroups : [roster, table, off] ++ channelIds.map (fun d => (u.rxAt d).overrunEvents o d) ++ windowPosts =
      ([roster, table, off] ++ before.map (fun d => (u.rxAt d).overrunEvents o d)) ++ (u.rxAt c).overrunEvents o c ::
        (after.map (fun d => (u.rxAt d).overrunEvents o d) ++ windowPosts) := by
    simp [hsplit]
  rw [hgroups, filter_mergeAll _ _ ?before ?after, RxChannel.filter_overrunEvents, if_pos rfl]
  case before =>
    intro g hg
    rcases List.mem_append.mp hg with hg | hg
    · simp only [List.mem_cons, List.not_mem_nil, or_false] at hg
      rcases hg with rfl | rfl | rfl
      · exact hroster.filter_overrunOf (by simp) c
      · exact htable.filter_overrunOf (by simp [tableKinds]) c
      · exact hoff.filter_overrunOf (by simp) c
    · exact others before (fun d hd => hother d (List.mem_append_left _ hd)) g hg
  case after =>
    intro g hg
    rcases List.mem_append.mp hg with hg | hg
    · exact others after (fun d hd => hother d (List.mem_append_right _ hd)) g hg
    · exact (hwin g hg).filter_overrunOf (by simp [windowKinds]) c

/-! ### The end of a data slot -/

/-- At the end of a data slot each channel has heard the occurrence, and its RX_OVERRUN is posted. -/
theorem State.dataEnd_receives (hc : c < 8) (u : State) (o : Occurrence) :
    ∃ es, (u.dataEnd o).events = u.events.postAll es ∧ es.filter (Event.overrunOf c) = (u.rxAt c).overrunEvents o c ∧
      (u.dataEnd o).rxAt c = (u.rxAt c).hear o := by
  obtain ⟨-, hevents, -, hrx, -⟩ := State.stores_eq_iff.mp (u.stores_rosterAndTable o)
  obtain ⟨hroster, htable⟩ := u.rosterAndTable_postsOnly o
  have hwin : ∀ g ∈ (if u.control.state.serving then u.windowEvents o else []), PostsOnly windowKinds g := by
    split_ifs
    · exact u.windowEvents_postsOnly o
    · simp
  obtain ⟨heard, hheard⟩ : ∃ heard : State, heard =
    { (u.rosterAndTable o).1 with rx := (u.rosterAndTable o).1.rx.map (fun r => r.hear o) } := ⟨_, rfl⟩
  obtain ⟨windows, answers, buffer, hacted, -⟩ := heard.windowsServed_eq o u.control.state.serving
  obtain ⟨gs, hgs⟩ : ∃ gs, gs = [(u.rosterAndTable o).2.1, (u.rosterAndTable o).2.2, u.offSlotEvents o] ++
      channelIds.map (fun d => (u.rxAt d).overrunEvents o d) ++
      (if u.control.state.serving then u.windowEvents o else []) := ⟨_, rfl⟩
  obtain ⟨timer, control, hends, -⟩ := State.ends_eq
    { heard with windows := windows, answers := answers, buffer := buffer } 0 gs o
  have hend : u.dataEnd o =
      ((State.postGroups { heard with windows := windows, answers := answers, buffer := buffer } 0 gs).passOn
        o).nextHappening := by
    rw [State.dataEnd, ← hacted, hheard, hgs]
  refine ⟨mergeAll heard.happening 0 gs, ?events, ?overruns, ?channel⟩
  case events =>
    rw [hend, hends, ← hevents, hheard]
  case overruns =>
    rw [hgs]
    exact overrunOf_mergeAll hc u o hroster htable (u.offSlotEvents_postsOnly o) hwin _
  case channel =>
    rw [hend, hends, hheard, State.rxAt, State.rxAt, ← hrx]
    exact Bank.get_map_lt _ _ c _ hc

/-- No fault is found in a word of a peer that is no MARK of another length, or that a MEMBER or LEAVING station hears
(R33, R52). -/
theorem State.faultIn_of_peerWord (hon : s.control.state.onTrunk = true)
    (hw : ∀ w, classify bits = .valid w → w.sender ≠ s.self ∧
      (w.kind = .mark → w.malformed = false → w.markLength = some s.len ∨ s.control.state ≠ .joining)) :
    s.faultIn (s.occurrence bits) = none := by
  refine State.faultIn_eq_none (Occurrence.duplicate_eq_false_of_peer fun w hv => (hw w hv).1) ?_
  by_cases hj : s.control.state = .joining
  · exact Occurrence.lengthFault_eq_false_of_length fun w hv hk hm =>
      ((hw w hv).2 hk hm).resolve_right (not_not.mpr hj)
  · exact Occurrence.lengthFault_eq_false_of_state _ hj (by rintro hl; simp [hl, StationState.onTrunk] at hon)

/-- DATA_SLOT_END without a fault. -/
theorem State.dataSlotEnd_eq (hp : s.passes n) (h4 : 4 ≤ n) (hlen : n < s.len) (hon : s.control.state.onTrunk = true)
    (hf : s.faultIn (s.occurrence bits) = none) (he : exec (.dataSlotEnd bits) s = .next t) :
    t = (s.portEnd bits).dataEnd (s.occurrence bits) := by
  have hends : s.dataEnds = true := by simp [State.dataEnds, State.endsAt_of_passes hp, isDataSlot, h4, hlen, hon]
  have hfinish : exec (.dataSlotEnd bits) s = s.dataFinish bits := if_pos hends
  rw [State.dataFinish_next (hfinish.symm.trans he), State.endDataSlot_of_none hf]

/-! ### The entry that the statement names -/

/-- A DATA word from an expected source, or what gap marking makes of any other occurrence, is the entry taken (R120). -/
theorem Binding.takes_entry {h : Heard} {x : RxContent}
    (hx : (∃ w, h = .valid w ∧ w.kind = .data ∧ (∀ k, b.expected = some k → w.sender = k) ∧ x = .value w.body) ∨
      (b.gaps = true ∧
        (h = .silent ∧ x = .gap .silent ∨ h = .corrupt ∧ x = .gap .corrupt ∨
          (∃ w, h = .valid w ∧ w.kind = .fill ∧ x = .gap .fill) ∨
          ∃ w, h = .valid w ∧ w.kind ≠ .data ∧ w.kind ≠ .fill ∧ x = .gap .other))) :
    b.takes h = .entry x := by
  have gap (hb : b.gaps = true) (hk : ∀ w, h = .valid w → w.kind ≠ .data) (hg : x = .gap h.gap) :
      b.takes h = .entry x := by rw [Binding.takes_gap b hk, if_pos hb, hg]
  rcases hx with ⟨w, rfl, hk, hsource, rfl⟩ | ⟨hb, ⟨rfl, hx⟩ | ⟨rfl, hx⟩ | ⟨w, rfl, hk, hx⟩ | ⟨w, rfl, hd, hk, hx⟩⟩
  · rw [Binding.takes_data b hk, if_pos]
    cases he : b.expected with
    | none => exact .inl rfl
    | some k => exact .inr (congrArg some (hsource k he).symm)
  · exact gap hb (by simp) hx
  · exact gap hb (by simp) hx
  · exact gap hb (by simp [hk]) (by simpa [Heard.gap, hk] using hx)
  · exact gap hb (by simpa using hd) (by simpa [Heard.gap, hk] using hx)

end Sys2Proof.Machine

open Sys2Proof Sys2Proof.Machine

/-- Settles O41: the channel hears the occurrence by what its binding takes, and RX_OVERRUN is posted where its overrun flag is
set by that. -/
theorem receiveChannelsHear : Obligations.ReceiveChannelsHear := by
  intro s t h n c hp h4 hlen hon hw he hc
  have hslot : (s.occurrence h).slot = n := State.occurrence_slot_of_passes hp h
  obtain ⟨es, hevents, hover, hhear⟩ := State.dataEnd_receives hc (s.portEnd h) (s.occurrence h)
  rw [← State.dataSlotEnd_eq hp h4 hlen hon (State.faultIn_of_peerWord hon hw) he] at hevents hhear
  replace hhear : t.rxAt c = (s.rxAt c).hear (s.occurrence h) := hhear
  have hoverruns : (eventsOf .rxOverrun es).filter (fun e => e.channel == some c) =
      (s.rxAt c).overrunEvents (s.occurrence h) c := by
    rw [eventsOf, List.filter_filter]
    exact hover
  refine ⟨es, _, hevents, rfl, ?_⟩
  rw [hoverruns, hhear]
  -- A channel whose overrun flag stays posts nothing.
  have quiet {r : RxChannel} (hr : (s.rxAt c).hear (s.occurrence h) = r) (hflag : r.overrunFlag = (s.rxAt c).overrunFlag) :
      (s.rxAt c).hear (s.occurrence h) = r ∧ (s.rxAt c).overrunEvents (s.occurrence h) c = [] :=
    ⟨hr, RxChannel.overrunEvents_of_same (by rw [hr, hflag]) c⟩
  refine ⟨fun hnot => quiet (RxChannel.hear_elsewhere (by rwa [hslot])) rfl, fun b hb hbn => ?_⟩
  have hbound := RxChannel.hear_bound (o := s.occurrence h) hb (hbn.trans hslot.symm)
  rw [State.occurrence_heard] at hbound
  refine ⟨fun w k hv hk hexp hne => ?mismatch, fun hnot hgaps => ?nothing, fun entry hframe hentry => ?entry⟩
  case mismatch =>
    rw [hv, Binding.takes_data b hk, if_neg (by simp [hexp, hne.symm])] at hbound
    exact quiet hbound rfl
  case nothing =>
    rw [Binding.takes_gap b hnot, hgaps, if_neg Bool.false_ne_true] at hbound
    exact quiet hbound rfl
  case entry =>
    rw [Binding.takes_entry hentry, State.occurrence_frame, ← hframe] at hbound
    by_cases hroom : (s.rxAt c).queue.length < 16
    · rw [if_pos hroom]
      exact quiet (hbound.trans (RxChannel.add_of_room hroom ..)) rfl
    · rw [if_neg hroom]
      replace hbound := hbound.trans (RxChannel.add_of_full hroom ..)
      refine ⟨_, rfl, hbound, ?_⟩
      rw [RxChannel.overrunEvents, hbound, hslot, State.occurrence_frame]
      cases (s.rxAt c).overrunFlag <;> rfl
end

