-- ==== Sys2Proof/Proofs/ChannelCommands.lean ====
section
/-! BIND_RX, UNBIND_RX, PUSH and PULL by their tables (R113, R118, R119, R122). -/

namespace Sys2Proof.Machine

variable {s : State} {c n : Nat} {expected : Option Nat} {policy : Policy} {gaps : Bool}

/-- The two states in which bindings and pushes are refused. -/
theorem StationState.idle_iff {st : StationState} : st.idle = true ↔ st = .off ∨ st = .fault := by
  simp [StationState.idle]

/-- A station operand that is out of range or names self (R118, R153). -/
theorem State.otherStation_eq_false_iff :
    s.otherStation expected = false ↔ ∃ k, expected = some k ∧ (k = 0 ∨ 30 < k ∨ k = s.self) := by
  cases expected with
  | none => simp [State.otherStation]
  | some k =>
    simp only [State.otherStation, Config.stations, Bool.and_eq_false_iff, decide_eq_false_iff_not, bne_eq_false_iff_eq,
      Option.some.injEq, exists_eq_left']
    omega

/-- BIND_RX outside OFF and FAULT with an operand out of range (R118). -/
theorem State.judgeBindRx_of_range (hidle : ¬s.control.state.idle = true)
    (h : 8 ≤ c ∨ n < 4 ∨ s.len ≤ n ∨ ∃ k, expected = some k ∧ (k = 0 ∨ 30 < k ∨ k = s.self)) :
    s.judgeBindRx c n expected policy gaps = s.refuse .range := by
  refine (if_neg hidle).trans (if_pos ?_)
  rw [isDataSlot_eq_false_iff, State.otherStation_eq_false_iff]
  rcases h with h | h | h | h
  · exact .inl h
  · exact .inr (.inl (by omega))
  · exact .inr (.inl (by omega))
  · exact .inr (.inr h)

/-- BIND_RX outside OFF and FAULT with every operand in range (R118). -/
theorem State.judgeBindRx_in_range (hidle : ¬s.control.state.idle = true) (hc : c < 8) (h4 : 4 ≤ n) (hlen : n < s.len)
    (hexp : ∀ k, expected = some k → 1 ≤ k ∧ k ≤ 30 ∧ k ≠ s.self) :
    s.judgeBindRx c n expected policy gaps =
      if (s.rxAt c).binding ≠ none then s.refuse .busy
      else if (s.entry n).owner = some s.self then s.refuse .ownSlot
      else (s.setRx c { s.rxAt c with
        binding := some { slot := n, expected := expected, policy := policy, gaps := gaps } }).doneWith .nothing := by
  have hrange : ¬(8 ≤ c ∨ isDataSlot s.len n = false ∨ s.otherStation expected = false) := by
    rw [isDataSlot_eq_false_iff, State.otherStation_eq_false_iff]
    rintro (h | h | ⟨k, hk, h⟩)
    · omega
    · omega
    · obtain ⟨h1, h30, hself⟩ := hexp k hk
      omega
  rw [State.judgeBindRx, if_neg hidle, if_neg hrange]
  simp only [Option.isSome_iff_ne_none, State.isOwn_iff]

/-- What PUSH adds are as many samples as it accepts (R113). -/
theorem TxChannel.pushed_eq (t : TxChannel) (samples : List DataWord) :
    t.pushed samples =
      { t with
        queue := t.queue ++ samples.take (min samples.length (16 - t.queue.length))
        starved := false } := by
  have htake : samples.take (16 - t.queue.length) = samples.take (min samples.length (16 - t.queue.length)) := by
    rw [List.take_eq_take_iff]
    omega
  rw [← htake]
  rfl

end Sys2Proof.Machine

open Sys2Proof Sys2Proof.Machine

/-- Settles O39: by the lines of the four tables, from the first. -/
theorem channelCommands : Obligations.ChannelCommands := by
  intro s c hreq
  refine ⟨fun n expected policy gaps => ⟨fun hst => ?bindState, fun hoff hfault hrange => ?bindRange,
    fun hoff hfault hc h4 hlen hexp => ?bind⟩, ?unbind, fun samples => ?push, fun n => ?pull⟩
  case bindState => exact congrArg _ (State.take_unchanged hreq (if_pos (StationState.idle_iff.mpr hst)))
  case bindRange =>
    have hidle := mt StationState.idle_iff.mp (not_or.mpr ⟨hoff, hfault⟩)
    exact congrArg _ (State.take_unchanged hreq (State.judgeBindRx_of_range hidle hrange))
  case bind =>
    have hidle := mt StationState.idle_iff.mp (not_or.mpr ⟨hoff, hfault⟩)
    refine congrArg _ ((State.take_request hreq ..).trans ?_)
    rw [State.judgeBindRx_in_range hidle hc h4 hlen hexp]
    split_ifs <;> rfl
  case unbind =>
    refine congrArg _ ((State.take_request hreq ..).trans ?_)
    simp only [State.judgeUnbindRx, StationState.idle_iff, Option.isNone_iff_eq_none]
    split_ifs <;> rfl
  case push =>
    refine congrArg _ ((State.take_request hreq ..).trans ?_)
    simp only [State.judgePush, StationState.idle_iff, TxChannel.pushed_eq, not_and_or, Nat.not_le]
    split_ifs <;> rfl
  case pull =>
    refine congrArg _ ((State.take_request hreq ..).trans ?_)
    simp only [State.judgePull, not_and_or, Nat.not_le]
    split_ifs <;> rfl
end

