-- ==== Sys2Proof/Proofs/JobTable.lean ====
section
/-! The job table as a list of records in posting order (R130): where a record is found, what writing one makes of the
list, and what keeps a sound table sound. -/

namespace Sys2Proof.Machine

variable {s : State} {jobs before after : List Job} {j x : Job} {n : Nat}

/-! ### Sound tables -/

/-- The soundness of a job table, of the list alone: `s.jobsOk` is this of `s.jobs`. -/
def SoundJobs (jobs : List Job) : Prop :=
  (∀ j ∈ jobs, j.ok) ∧ (jobs.map Job.id).Nodup ∧ (jobs.filterMap Job.slot).Nodup

theorem State.jobsOk_iff : s.jobsOk ↔ SoundJobs s.jobs := Iff.rfl

/-- Soundness says nothing of the order of posting. -/
theorem SoundJobs.perm {jobs' : List Job} (h : SoundJobs jobs) (hp : jobs.Perm jobs') : SoundJobs jobs' := by
  obtain ⟨hok, hids, hslots⟩ := h
  exact ⟨fun j hj => hok j (hp.mem_iff.mpr hj), (hp.map _).nodup_iff.mp hids, (hp.filterMap _).nodup_iff.mp hslots⟩

/-- A record at the front: sound itself, and with an id and a slot that no other has. -/
theorem soundJobs_cons :
    SoundJobs (j :: jobs) ↔
      j.ok ∧ SoundJobs jobs ∧ (∀ y ∈ jobs, y.id ≠ j.id) ∧ ∀ n, j.slot = some n → ∀ y ∈ jobs, y.slot ≠ some n := by
  have hslots : ((j :: jobs).filterMap Job.slot).Nodup ↔
      (jobs.filterMap Job.slot).Nodup ∧ ∀ n, j.slot = some n → ∀ y ∈ jobs, y.slot ≠ some n := by
    cases hj : j.slot with
    | none => simp [hj]
    | some m => simp [hj, and_comm]
  simp only [SoundJobs, hslots, List.forall_mem_cons, List.map_cons, List.nodup_cons, List.mem_map, not_exists, not_and]
  tauto

/-- A record anywhere in the table. -/
theorem soundJobs_middle :
    SoundJobs (before ++ j :: after) ↔
      j.ok ∧ SoundJobs (before ++ after) ∧ (∀ y ∈ before ++ after, y.id ≠ j.id) ∧
        ∀ n, j.slot = some n → ∀ y ∈ before ++ after, y.slot ≠ some n :=
  ⟨fun h => soundJobs_cons.mp (h.perm List.perm_middle), fun h => (soundJobs_cons.mpr h).perm List.perm_middle.symm⟩

/-- A record becomes another with its id, in a slot that no other record has. -/
theorem SoundJobs.replace (h : SoundJobs (before ++ j :: after)) (hok : x.ok) (hid : x.id = j.id)
    (hslot : ∀ n, x.slot = some n → ∀ y ∈ before ++ after, y.slot ≠ some n) : SoundJobs (before ++ x :: after) := by
  obtain ⟨-, hothers, hids, -⟩ := soundJobs_middle.mp h
  exact soundJobs_middle.mpr ⟨hok, hothers, hid ▸ hids, hslot⟩

/-- A record becomes another with its id, in the same slot or in none. -/
theorem SoundJobs.replace_keeping (h : SoundJobs (before ++ j :: after)) (hok : x.ok) (hid : x.id = j.id)
    (hslot : x.slot = j.slot ∨ x.slot = none) : SoundJobs (before ++ x :: after) := by
  refine h.replace hok hid fun n hn => ?_
  obtain ⟨-, -, -, hslots⟩ := soundJobs_middle.mp h
  rcases hslot with hsame | hnone
  · exact hslots n (hsame ▸ hn)
  · rw [hnone] at hn
    cases hn

/-- Every record is written, each with its id kept and in the same slot or in none. -/
theorem SoundJobs.map {f : Job → Job} (h : SoundJobs jobs) (hok : ∀ j : Job, j.ok → (f j).ok) (hid : ∀ j, (f j).id = j.id)
    (hslot : ∀ j, (f j).slot = j.slot ∨ (f j).slot = none) : SoundJobs (jobs.map f) := by
  induction jobs with
  | nil => exact h
  | cons j js ih =>
    obtain ⟨hj, hjs, hids, hslots⟩ := soundJobs_cons.mp h
    refine soundJobs_cons.mpr ⟨hok j hj, ih hjs, ?_, fun n hn => ?_⟩
    · simpa only [List.forall_mem_map, hid] using hids
    · have hn : j.slot = some n := by
        rcases hslot j with hsame | hnone
        · exact hsame ▸ hn
        · rw [hnone] at hn
          cases hn
      refine List.forall_mem_map.mpr fun y hy => ?_
      rcases hslot y with hsame | hnone
      · exact hsame ▸ hslots n hn y hy
      · simp [hnone]

/-- Some records leave the table. -/
theorem SoundJobs.filter (h : SoundJobs jobs) (p : Job → Bool) : SoundJobs (jobs.filter p) := by
  obtain ⟨hok, hids, hslots⟩ := h
  have hsub : (jobs.filter p).Sublist jobs := List.filter_sublist
  exact ⟨fun j hj => hok j (hsub.subset hj), hids.sublist (hsub.map _), hslots.sublist (hsub.filterMap _)⟩

/-! ### Jobs that end or are suspended -/

/-- A job of another state with its other fields is as sound, if it has a slot exactly in SENDING and AWAIT_ANSWER (R130,
R137). -/
theorem Job.ok_of_state {st : JobState} {slot : Option Nat} {result : Option JobResult} (h : j.ok)
    (hslot : slot.isSome ↔ st = .sending ∨ st = .awaitAnswer) :
    Job.ok { j with state := st, slot := slot, result := result } := by
  obtain ⟨hid, hnext, hlength, harea, hrewinds, hresends, htimer, -⟩ := h
  exact ⟨hid, hnext, hlength, harea, hrewinds, hresends, htimer, hslot⟩

theorem Job.finish_ok (h : j.ok) {st : JobState} (hst : st ≠ .sending ∧ st ≠ .awaitAnswer) (r : JobResult) :
    (j.finish st r).ok :=
  Job.ok_of_state h (by simp [hst])

/-- A suspended job is QUEUED, with no slot (R148). -/
theorem Job.suspend_ok (h : j.ok) : j.suspend.ok := by
  obtain ⟨hid, hnext, hlength, harea, hrewinds, hresends, -, -⟩ := h
  exact ⟨hid, hnext, hlength, harea, hrewinds, hresends, Nat.zero_le _, by simp [Job.suspend]⟩

/-- Every live job fails (R150). -/
theorem SoundJobs.failLive (h : SoundJobs jobs) (r : JobResult) : SoundJobs (failLive r jobs) := by
  refine h.map (fun j hj => ?_) (fun j => ?_) fun j => ?_ <;> split_ifs
  · exact Job.finish_ok hj (by decide) r
  · exact hj
  · rfl
  · rfl
  · exact .inr rfl
  · exact .inl rfl

/-- The job of a slot that is lost is suspended (R81, R148). -/
theorem SoundJobs.suspend (h : SoundJobs jobs) (n : Nat) :
    SoundJobs (jobs.map fun j => if j.slot = some n then j.suspend else j) := by
  refine h.map (fun j hj => ?_) (fun j => ?_) fun j => ?_ <;> split_ifs
  · exact Job.suspend_ok hj
  · exact hj
  · rfl
  · rfl
  · exact .inr rfl
  · exact .inl rfl

/-! ### Finding and writing a record -/

/-- A record by its id. -/
theorem State.job_of_split (hs : s.jobs = before ++ j :: after) (hids : ∀ y ∈ before, y.id ≠ j.id) :
    s.job j.id = some j := by
  rw [State.job, hs, List.find?_eq_some_iff_append]
  exact ⟨beq_self_eq_true _, before, after, rfl, fun y hy => by simpa using hids y hy⟩

theorem State.job_eq_none_iff {id : Nat} : s.job id = none ↔ ∀ y ∈ s.jobs, y.id ≠ id := by
  simp [State.job]

theorem State.exists_split_of_job {id : Nat} (h : s.job id = some j) :
    j.id = id ∧ ∃ before after, s.jobs = before ++ j :: after := by
  obtain ⟨hid, before, after, hs, -⟩ := List.find?_eq_some_iff_append.mp h
  exact ⟨beq_iff_eq.mp hid, before, after, hs⟩

/-- The job assigned to a slot (R137). -/
theorem State.assignedJob_of_split (hs : s.jobs = before ++ j :: after) (hn : j.slot = some n)
    (hslots : ∀ y ∈ before, y.slot ≠ some n) : s.assignedJob n = some j := by
  rw [State.assignedJob, hs, List.find?_eq_some_iff_append]
  exact ⟨beq_iff_eq.mpr hn, before, after, rfl, fun y hy => by simpa using hslots y hy⟩

theorem State.assignedJob_eq_none_iff : s.assignedJob n = none ↔ ∀ y ∈ s.jobs, y.slot ≠ some n := by
  simp [State.assignedJob]

theorem State.exists_split_of_assignedJob (h : s.assignedJob n = some j) :
    j.slot = some n ∧ ∃ before after, s.jobs = before ++ j :: after := by
  obtain ⟨hn, before, after, hs, -⟩ := List.find?_eq_some_iff_append.mp h
  exact ⟨beq_iff_eq.mp hn, before, after, hs⟩

/-- The QUEUED job posted first (R137). -/
theorem State.oldestQueued_of_split (hs : s.jobs = before ++ j :: after) (hq : j.state = .queued)
    (hfirst : ∀ y ∈ before, y.state ≠ .queued) : s.oldestQueued = some j := by
  rw [State.oldestQueued, hs, List.find?_eq_some_iff_append]
  exact ⟨beq_iff_eq.mpr hq, before, after, rfl, fun y hy => by simpa using hfirst y hy⟩

theorem State.oldestQueued_eq_none_iff : s.oldestQueued = none ↔ ∀ y ∈ s.jobs, y.state ≠ .queued := by
  simp [State.oldestQueued]

theorem State.exists_split_of_oldestQueued (h : s.oldestQueued = some j) :
    j.state = .queued ∧ ∃ before after, s.jobs = before ++ j :: after ∧ ∀ y ∈ before, y.state ≠ .queued := by
  obtain ⟨hq, before, after, hs, hfirst⟩ := List.find?_eq_some_iff_append.mp h
  exact ⟨beq_iff_eq.mp hq, before, after, hs, fun y hy => by simpa using hfirst y hy⟩

/-- The part with another job table. -/
def State.withJobs (s : State) (jobs : List Job) : State := { s with jobs := jobs }

@[simp] theorem State.withJobs_jobs (s : State) (jobs : List Job) : (s.withJobs jobs).jobs = jobs := rfl

/-- The record with the id of `j` is written, and no other. -/
theorem State.setJob_of_split (hs : s.jobs = before ++ j :: after) (hids : ∀ y ∈ before ++ after, y.id ≠ j.id)
    (hx : x.id = j.id) : s.setJob x = s.withJobs (before ++ x :: after) := by
  have hkeep (ys : List Job) (hys : ∀ y ∈ ys, y ∈ before ++ after) :
      ys.map (fun y => if y.id = x.id then x else y) = ys :=
    (List.map_congr_left fun y hy => if_neg (hx ▸ hids y (hys y hy))).trans (List.map_id ys)
  rw [State.setJob, hs, List.map_append, List.map_cons, hkeep before fun y hy => List.mem_append_left _ hy,
    hkeep after fun y hy => List.mem_append_right _ hy, if_pos hx.symm]
  rfl

end Sys2Proof.Machine
end

