-- ==== Sys2Proof/Proofs/BulkSupply.lean ====
section
/-! The start of an own BULK slot (R137, R139, R140, R142): the word of the assigned job, the arbiter's choice where there
is none, and a job that waits for its answer. -/

namespace Sys2Proof.Machine

variable {s v : State} {before after : List Job} {j : Job} {n : Nat} {word : SlotWord} {es : List Event}

/-! ### The word of a SENDING job (R139, R140) -/

theorem State.jobWord_of_headDue (h : j.headDue = true) :
    s.jobWord j =
      ({ j with headDue := false }, headWord s.self j.dest j.window (decide (0 < j.next ∨ j.resume = true)) j.next) := by
  rw [State.jobWord, if_pos h, Bool.decide_or, Bool.decide_eq_true]

theorem State.jobWord_of_lt (h : ¬j.headDue = true) (hl : j.next < j.length) :
    s.jobWord j = ({ j with next := j.next + 1 }, bulkWord s.self (s.buffer.read (j.base + j.next))) :=
  (if_neg h).trans (if_pos hl)

theorem State.jobWord_of_end (h : ¬j.headDue = true) (hl : ¬j.next < j.length) :
    s.jobWord j = ({ j with state := .awaitAnswer, timer := 0 }, tailWord s.self j.length) :=
  (if_neg h).trans (if_neg hl)

/-- Sending a word leaves the job its id and its slot. -/
theorem State.jobWord_keeps (s : State) (j : Job) : (s.jobWord j).1.id = j.id ∧ (s.jobWord j).1.slot = j.slot := by
  unfold State.jobWord
  split_ifs <;> exact ⟨rfl, rfl⟩

/-- A sound SENDING job is sound after its word. -/
theorem State.jobWord_ok (h : j.ok) (hst : j.state = .sending) : (s.jobWord j).1.ok := by
  obtain ⟨hid, hnext, hlength, harea, hrewinds, hresends, htimer, hslot⟩ := h
  unfold State.jobWord
  split_ifs with _ hlt
  · exact ⟨hid, hnext, hlength, harea, hrewinds, hresends, htimer, hslot⟩
  · exact ⟨hid, hlt, hlength, harea, hrewinds, hresends, htimer, hslot⟩
  · exact ⟨hid, hnext, hlength, harea, hrewinds, hresends, Nat.zero_le _, by simpa [hst] using hslot⟩

/-- In a slot a sound job is SENDING or waits for its answer (R137). -/
theorem Job.state_of_slot (h : j.ok) (hn : j.slot = some n) : j.state = .sending ∨ j.state = .awaitAnswer := by
  obtain ⟨-, -, -, -, -, -, -, hslot⟩ := h
  exact hslot.mp (by rw [hn]; rfl)

/-- What a sound job reads lies within buffer memory (R130). -/
theorem Job.reads_lt (h : j.ok) {a : Nat} (ha : j.reads = some a) : a < 8192 := by
  obtain ⟨-, -, -, harea, -⟩ := h
  simp only [Config.bufferWords] at harea
  unfold Job.reads at ha
  split_ifs at ha with hr
  obtain rfl := Option.some.inj ha
  omega

/-! ### The arbiter (R137) -/

/-- The oldest QUEUED job takes the slot and sends. -/
theorem State.arbitrate_of_queued (hs : s.jobs = before ++ j :: after) (hids : ∀ y ∈ before ++ after, y.id ≠ j.id)
    (hq : j.state = .queued) (hfirst : ∀ y ∈ before, y.state ≠ .queued) (n : Nat) :
    s.arbitrate n =
      (s.withJobs (before ++ (s.jobWord { j with state := .sending, slot := some n }).1 :: after),
        (s.jobWord { j with state := .sending, slot := some n }).2) := by
  rw [State.arbitrate, State.oldestQueued_of_split hs hq hfirst]
  exact Prod.ext (State.setJob_of_split hs hids (s.jobWord_keeps _).1) rfl

/-- What it sends is its HEAD, where one is due (R139). -/
theorem State.arbitrate_of_due (hs : s.jobs = before ++ j :: after) (hids : ∀ y ∈ before ++ after, y.id ≠ j.id)
    (hq : j.state = .queued) (hdue : j.headDue = true) (hfirst : ∀ y ∈ before, y.state ≠ .queued) (n : Nat) :
    s.arbitrate n =
      (s.withJobs (before ++ { j with state := .sending, slot := some n, headDue := false } :: after),
        headWord s.self j.dest j.window (decide (0 < j.next ∨ j.resume = true)) j.next) := by
  rw [State.arbitrate_of_queued hs hids hq hfirst,
    State.jobWord_of_headDue (j := { j with state := .sending, slot := some n }) hdue]

theorem State.arbitrate_of_idle (h : ∀ y ∈ s.jobs, y.state ≠ .queued) (n : Nat) : s.arbitrate n = (s, fillWord s.self) := by
  rw [State.arbitrate, State.oldestQueued_eq_none_iff.mpr h]

/-- The arbiter writes the job table alone. -/
theorem State.arbitrate_eq (s : State) (n : Nat) : ∃ jobs, (s.arbitrate n).1 = s.withJobs jobs := by
  unfold State.arbitrate
  split
  · exact ⟨_, rfl⟩
  · exact ⟨s.jobs, rfl⟩

/-- A slot without a job keeps the table sound when the arbiter gives it to one. -/
theorem State.jobsOk_arbitrate (h : s.jobsOk) (hfree : ∀ y ∈ s.jobs, y.slot ≠ some n) : (s.arbitrate n).1.jobsOk := by
  cases hq : s.oldestQueued with
  | none => rwa [State.arbitrate_of_idle (State.oldestQueued_eq_none_iff.mp hq)]
  | some j =>
    obtain ⟨hqueued, before, after, hs, hfirst⟩ := State.exists_split_of_oldestQueued hq
    have hsound : SoundJobs (before ++ j :: after) := hs ▸ h
    obtain ⟨hj, -, hids, -⟩ := soundJobs_middle.mp hsound
    obtain ⟨hid, hslot⟩ := s.jobWord_keeps { j with state := .sending, slot := some n }
    rw [State.arbitrate_of_queued hs hids hqueued hfirst]
    refine hsound.replace (State.jobWord_ok (Job.ok_of_state hj (by simp)) rfl) hid fun m hm y hy => ?_
    rw [hslot] at hm
    obtain rfl := Option.some.inj hm
    refine hfree y (hs ▸ ?_)
    rcases List.mem_append.mp hy with hy | hy
    · exact List.mem_append_left _ hy
    · exact List.mem_append_right _ (List.mem_cons_of_mem _ hy)

/-! ### A slot and its job (R137, R139, R142) -/

/-- A slot that no job has is the arbiter's. -/
theorem State.bulkSupply_of_free (h : ∀ y ∈ s.jobs, y.slot ≠ some n) :
    s.bulkSupply n = ((s.arbitrate n).1, (s.arbitrate n).2, []) := by
  rw [State.bulkSupply, State.assignedJob_eq_none_iff.mpr h]

/-- Job `j` of a sound table is assigned to slot `n`, among the jobs posted before and after it. -/
structure State.Assigned (s : State) (n : Nat) (before : List Job) (j : Job) (after : List Job) : Prop where
  sound : s.jobsOk
  split : s.jobs = before ++ j :: after
  slot : j.slot = some n

theorem State.exists_assigned (h : s.jobsOk) (hj : s.assignedJob n = some j) :
    ∃ before after, s.Assigned n before j after := by
  obtain ⟨hn, before, after, hs⟩ := State.exists_split_of_assignedJob hj
  exact ⟨before, after, h, hs, hn⟩

section Assigned

variable (ha : s.Assigned n before j after)
include ha

theorem State.Assigned.soundJobs : SoundJobs (before ++ j :: after) := ha.split ▸ ha.sound

/-- The job is sound, and no other has its id or its slot. -/
theorem State.Assigned.alone :
    j.ok ∧ (∀ y ∈ before ++ after, y.id ≠ j.id) ∧ ∀ y ∈ before ++ after, y.slot ≠ some n := by
  obtain ⟨hok, -, hids, hslots⟩ := soundJobs_middle.mp ha.soundJobs
  exact ⟨hok, hids, hslots n ha.slot⟩

theorem State.Assigned.assignedJob : s.assignedJob n = some j :=
  let ⟨_, _, hslots⟩ := ha.alone
  State.assignedJob_of_split ha.split ha.slot fun y hy => hslots y (List.mem_append_left _ hy)

theorem State.Assigned.setJob {x : Job} (hx : x.id = j.id) : s.setJob x = s.withJobs (before ++ x :: after) :=
  let ⟨_, hids, _⟩ := ha.alone
  State.setJob_of_split ha.split hids hx

/-- A SENDING job sends its word (R139). -/
theorem State.Assigned.bulkSupply_of_sending (hst : j.state = .sending) :
    s.bulkSupply n = (s.withJobs (before ++ (s.jobWord j).1 :: after), (s.jobWord j).2, []) := by
  simp only [State.bulkSupply, ha.assignedJob, hst, reduceCtorEq, if_false, ha.setJob (s.jobWord_keeps j).1]

section Waiting

variable (hst : j.state = .awaitAnswer)
include hst

/-- A job that waits sends FILL (R142). -/
theorem State.Assigned.bulkSupply_of_wait (ht : j.timer < 16) :
    s.bulkSupply n = (s.withJobs (before ++ { j with timer := j.timer + 1 } :: after), fillWord s.self, []) := by
  rw [← ha.setJob (x := { j with timer := j.timer + 1 }) rfl]
  simp only [State.bulkSupply, ha.assignedJob, hst, if_true, Config.answerWait, ht]

variable (ht : j.timer = 16)
include ht

/-- At 16 it sends its TAIL again (R142). -/
theorem State.Assigned.bulkSupply_of_resend (hr : j.resends < 4) :
    s.bulkSupply n =
      (s.withJobs (before ++ { j with resends := j.resends + 1, timer := 0 } :: after), tailWord s.self j.length, []) := by
  rw [← ha.setJob (x := { j with resends := j.resends + 1, timer := 0 }) rfl]
  simp only [State.bulkSupply, ha.assignedJob, hst, if_true, Config.answerWait, ht, lt_irrefl, if_false, Config.tailResends,
    hr]

/-- After four times it fails, and the arbiter serves the slot (R137, R142). -/
theorem State.Assigned.bulkSupply_of_noAnswer (hr : j.resends = 4) :
    s.bulkSupply n =
      (((s.withJobs (before ++ j.finish .failed .noAnswer :: after)).arbitrate n).1,
        ((s.withJobs (before ++ j.finish .failed .noAnswer :: after)).arbitrate n).2,
        [j.failedEvent s.timer.frame .noAnswer j.length]) := by
  rw [← ha.setJob (x := j.finish .failed .noAnswer) rfl]
  simp only [State.bulkSupply, ha.assignedJob, hst, if_true, Config.answerWait, ht, lt_irrefl, if_false, Config.tailResends,
    hr]

end Waiting

/-- The table after the failure of the job is sound. -/
theorem State.Assigned.failed : SoundJobs (before ++ j.finish .failed .noAnswer :: after) :=
  let ⟨hok, _, _⟩ := ha.alone
  ha.soundJobs.replace_keeping (Job.finish_ok hok (by decide) _) rfl (.inr rfl)

/-- The slot of the failed job has none. -/
theorem State.Assigned.failed_free : ∀ y ∈ before ++ j.finish .failed .noAnswer :: after, y.slot ≠ some n := by
  obtain ⟨-, -, hslots⟩ := ha.alone
  intro y hy
  rcases List.mem_append.mp hy with hy | hy
  · exact hslots y (List.mem_append_left _ hy)
  · rcases List.mem_cons.mp hy with rfl | hy
    · simp [Job.finish]
    · exact hslots y (List.mem_append_right _ hy)

/-- By the timer and the resends of a job that waits (R142), within their bounds (R130). -/
theorem State.Assigned.waiting_cases : j.timer < 16 ∨ j.timer = 16 ∧ j.resends < 4 ∨ j.timer = 16 ∧ j.resends = 4 := by
  obtain ⟨⟨-, -, -, -, -, hresends, htimer, -⟩, -⟩ := ha.alone
  simp only [Config.tailResends, Config.answerWait] at hresends htimer
  omega

end Assigned

/-- The bulk sender writes the job table alone. -/
theorem State.bulkSupply_eq (s : State) (n : Nat) : ∃ jobs, (s.bulkSupply n).1 = s.withJobs jobs := by
  unfold State.bulkSupply
  split
  · exact s.arbitrate_eq n
  · split_ifs
    · exact ⟨_, rfl⟩
    · exact ⟨_, rfl⟩
    · obtain ⟨jobs, h⟩ := State.arbitrate_eq (s.setJob _) n
      exact ⟨jobs, h⟩
    · exact ⟨_, rfl⟩

/-- Whatever the slot supplies, the job table stays sound. -/
theorem State.jobsOk_bulkSupply (h : s.jobsOk) (n : Nat) : (s.bulkSupply n).1.jobsOk := by
  cases hj : s.assignedJob n with
  | none =>
    have hfree := State.assignedJob_eq_none_iff.mp hj
    rw [State.bulkSupply_of_free hfree]
    exact State.jobsOk_arbitrate h hfree
  | some j =>
    obtain ⟨before, after, ha⟩ := State.exists_assigned h hj
    obtain ⟨hok, -⟩ := ha.alone
    have ⟨hid, hnext, hlength, harea, hrewinds, hresends, htimer, hslot⟩ := hok
    rcases Job.state_of_slot hok ha.slot with hst | hst
    · rw [ha.bulkSupply_of_sending hst]
      obtain ⟨hid, hslot⟩ := s.jobWord_keeps j
      exact ha.soundJobs.replace_keeping (State.jobWord_ok hok hst) hid (.inl hslot)
    · rcases ha.waiting_cases with ht | ⟨ht, hr⟩ | ⟨ht, hr⟩
      · rw [ha.bulkSupply_of_wait hst ht]
        exact ha.soundJobs.replace_keeping (x := { j with timer := j.timer + 1 })
          ⟨hid, hnext, hlength, harea, hrewinds, hresends, ht, hslot⟩ rfl (.inl rfl)
      · rw [ha.bulkSupply_of_resend hst ht hr]
        exact ha.soundJobs.replace_keeping (x := { j with resends := j.resends + 1, timer := 0 })
          ⟨hid, hnext, hlength, harea, hrewinds, hr, Nat.zero_le _, hslot⟩ rfl (.inl rfl)
      · rw [ha.bulkSupply_of_noAnswer hst ht hr]
        exact State.jobsOk_arbitrate (s := s.withJobs _) ha.failed ha.failed_free

/-! ### The start of the slot as a command -/

/-- The oldest QUEUED job of a sound table reads within buffer memory (R140). -/
theorem State.oldestQueued_reads_lt (h : s.jobsOk) {a : Nat} (ha : s.oldestQueued.bind Job.reads = some a) : a < 8192 := by
  obtain ⟨j, hj, hreads⟩ := Option.bind_eq_some_iff.mp ha
  exact Job.reads_lt (h.1 j (List.mem_of_find?_eq_some hj)) hreads

/-- What a slot reads from a sound table lies within buffer memory (R130, R140). -/
theorem State.supplyReads_lt (h : s.jobsOk) {a : Nat} (hreads : s.supplyReads n = some a) : a < 8192 := by
  unfold State.supplyReads at hreads
  split_ifs at hreads
  cases hj : s.assignedJob n with
  | none =>
    rw [hj] at hreads
    exact State.oldestQueued_reads_lt h hreads
  | some j =>
    obtain ⟨before, after, ha⟩ := State.exists_assigned h hj
    rw [hj] at hreads
    dsimp only at hreads
    split_ifs at hreads
    · rw [ha.setJob (x := j.finish .failed .noAnswer) rfl] at hreads
      exact State.oldestQueued_reads_lt (s := s.withJobs _) ha.failed hreads
    · exact Job.reads_lt (h.1 j (List.mem_of_find?_eq_some hj)) hreads

/-- With a sound job table the start of a data slot is never the fault of log 19. -/
theorem State.dataStart_of_jobsOk (h : s.jobsOk) (n : Nat) : s.dataStart n = .next (s.startDataSlot n) := by
  unfold State.dataStart
  split
  · rename_i a ha
    split_ifs at ha
    exact if_pos (State.supplyReads_lt h ha)
  · rfl

/-- An own BULK slot whose occurrence is to begin, with a sound job table. -/
structure State.ServesBulk (s : State) (n : Nat) : Prop where
  sound : s.jobsOk
  awaits : s.awaits n
  low : 4 ≤ n
  high : n < s.len
  state : s.control.state = .member ∨ s.control.state = .leaving
  owner : (s.entry n).owner = some s.self
  role : (s.entry n).role = some .bulk

section ServesBulk

variable (hb : s.ServesBulk n)
include hb

theorem State.ServesBulk.startingSlot : s.startingSlot = some n := State.startingSlot_of_awaits hb.awaits hb.low hb.high

theorem State.ServesBulk.serves : s.serves n = true := State.serves_iff.mpr ⟨hb.state, hb.owner⟩

/-- The slot starts with what the bulk sender hands over. -/
theorem State.ServesBulk.exec_dataSlotStart (h : s.bulkSupply n = (v, word, es)) :
    exec .dataSlotStart s = .next ((v.postAll es).beginWith (some word)) := by
  have hsupply : s.supply n = (v, word, es) := by rw [State.supply, hb.role]; exact h
  show execDataSlotStart s = _
  rw [execDataSlotStart, hb.startingSlot]
  dsimp only
  rw [State.dataStart_of_jobsOk hb.sound, State.startDataSlot_of_serves hb.serves, hsupply]

/-- The job whose answer is overdue (R142). -/
theorem State.ServesBulk.waitedOut (ha : s.Assigned n before j after) (hst : j.state = .awaitAnswer) (ht : j.timer = 16) :
    s.waitedOut = some j := by
  simp [State.waitedOut, hb.startingSlot, hb.serves, hb.role, ha.assignedJob, hst, ht, Config.answerWait]

theorem State.ServesBulk.dataSlotStart_eq_tailResend (ha : s.Assigned n before j after) (hst : j.state = .awaitAnswer)
    (ht : j.timer = 16) (hr : j.resends < 4) : exec .dataSlotStart s = exec .tailResend s := by
  show execDataSlotStart s = execTailResend s
  rw [execDataSlotStart, execTailResend, hb.startingSlot, hb.waitedOut ha hst ht]
  exact (if_pos hr).symm

theorem State.ServesBulk.dataSlotStart_eq_jobNoAnswer (ha : s.Assigned n before j after) (hst : j.state = .awaitAnswer)
    (ht : j.timer = 16) (hr : j.resends = 4) : exec .dataSlotStart s = exec .jobNoAnswer s := by
  show execDataSlotStart s = execJobNoAnswer s
  rw [execDataSlotStart, execJobNoAnswer, hb.startingSlot, hb.waitedOut ha hst ht]
  exact (if_neg (by simp [hr, Config.tailResends])).symm

end ServesBulk

end Sys2Proof.Machine

open Sys2Proof Sys2Proof.Machine

/-- Settles O43: what the bulk sender hands over, by whether a job has the slot and by what is left of it to send. -/
theorem bulkSlotsSupplyWords : Obligations.BulkSlotsSupplyWords := by
  intro s n hsound hawaits h4 hlen hst hown hrole
  have hb : s.ServesBulk n := ⟨hsound, hawaits, h4, hlen, hst, hown, hrole⟩
  obtain ⟨jobs, hjobs⟩ := s.bulkSupply_eq n
  obtain ⟨⟨v, word, es⟩, hr⟩ : ∃ r, s.bulkSupply n = r := ⟨_, rfl⟩
  refine ⟨word, _, hb.exec_dataSlotStart hr, ?frame, fun before j after hs hslot hsending => ?sending,
    fun before j after hs hq hdue hfirst hfree => ?queued, fun hnone => ?none⟩
  case frame =>
    obtain rfl : v = s.withJobs jobs := (congrArg Prod.fst hr).symm.trans hjobs
    rfl
  case sending =>
    have ha : s.Assigned n before j after := ⟨hsound, hs, hslot⟩
    rw [ha.bulkSupply_of_sending hsending] at hr
    split_ifs with hdue hlt
    · rw [State.jobWord_of_headDue hdue] at hr
      cases hr
      exact ⟨rfl, rfl, rfl⟩
    · rw [State.jobWord_of_lt hdue hlt] at hr
      cases hr
      exact ⟨rfl, rfl, rfl⟩
    · rw [State.jobWord_of_end hdue hlt] at hr
      cases hr
      exact ⟨rfl, rfl, rfl⟩
  case queued =>
    obtain ⟨-, -, hids, -⟩ := soundJobs_middle.mp (hs ▸ hsound : SoundJobs (before ++ j :: after))
    rw [State.bulkSupply_of_free hfree, State.arbitrate_of_due hs hids hq hdue hfirst] at hr
    cases hr
    exact ⟨rfl, rfl, rfl⟩
  case none =>
    rw [State.bulkSupply_of_free fun y hy => (hnone y hy).2, State.arbitrate_of_idle fun y hy => (hnone y hy).1] at hr
    cases hr
    exact ⟨rfl, rfl, rfl⟩

/-- Settles O44: by the answer timer and the resends of the job that waits, and for the one that fails by what the arbiter
finds QUEUED in the table without it. -/
theorem jobsWaitForTheirAnswer : Obligations.JobsWaitForTheirAnswer := by
  intro s n before j after hsound hawaits h4 hlen hst hown hrole hs hslot hwaits
  have hb : s.ServesBulk n := ⟨hsound, hawaits, h4, hlen, hst, hown, hrole⟩
  have ha : s.Assigned n before j after := ⟨hsound, hs, hslot⟩
  refine ⟨fun ht => ?wait, fun ht hr => ?resend, fun ht hr hidle => ?fails, fun ht hr first q rest hsplit hq hdue hfirst =>
    ?yields⟩
  case wait => exact hb.exec_dataSlotStart (ha.bulkSupply_of_wait hwaits ht)
  case resend =>
    have hnamed := hb.dataSlotStart_eq_tailResend ha hwaits ht hr
    exact ⟨hnamed.symm.trans (hb.exec_dataSlotStart (ha.bulkSupply_of_resend hwaits ht hr)), hnamed⟩
  case fails =>
    have hnamed := hb.dataSlotStart_eq_jobNoAnswer ha hwaits ht hr
    have hnone : ∀ y ∈ before ++ j.finish .failed .noAnswer :: after, y.state ≠ .queued := by
      simpa [Job.finish, or_imp, forall_and] using hidle
    have hsupply := ha.bulkSupply_of_noAnswer hwaits ht hr
    rw [State.arbitrate_of_idle (s := s.withJobs _) hnone] at hsupply
    exact ⟨hnamed.symm.trans (hb.exec_dataSlotStart hsupply), hnamed⟩
  case yields =>
    have hnamed := hb.dataSlotStart_eq_jobNoAnswer ha hwaits ht hr
    have hfailed : before ++ j.finish .failed .noAnswer :: after = first ++ q :: rest := hsplit
    obtain ⟨-, -, hids, -⟩ := soundJobs_middle.mp (hfailed ▸ ha.failed)
    have hsupply := ha.bulkSupply_of_noAnswer hwaits ht hr
    rw [State.arbitrate_of_due (s := s.withJobs _) hfailed hids hq hdue hfirst] at hsupply
    exact ⟨hnamed.symm.trans (hb.exec_dataSlotStart hsupply), hnamed⟩
end

