-- ==== Sys2Proof/Proofs/BulkAnswers.lean ====
section
/-! An ANSWER heard by the bulk sender (R143 to R146): the job that it matches, and what its verdict makes of that job. -/

namespace Sys2Proof.Machine

variable {s u : State} {o : Occurrence} {w : SlotWord} {before after jobs : List Job} {j : Job} {es : List Event}

/-! ### The verdict (R144 to R146) -/

theorem Job.answered_of_done (hw : w.answerCode = 1) (j : Job) (frame : Nat) :
    j.answered w frame = (j.finish .done (.done w.answerCount), [j.doneEvent frame w.answerCount]) := if_pos hw

theorem Job.answered_of_rewind (hw : w.answerCode = 2) (hr : j.rewinds < 8) (frame : Nat) :
    j.answered w frame = (j.rewound w.answerCount, []) := by
  rw [Job.answered, if_neg (by omega), if_pos hw, if_neg (Nat.not_le_of_lt hr)]

/-- After eight times a REWIND fails the job (R145), as a REFUSE does (R146). -/
theorem Job.answered_of_failed {cause : JobResult}
    (h : w.answerCode = 2 ∧ 8 ≤ j.rewinds ∧ cause = .rewinds ∨
      w.answerCode = 3 ∧ cause = .refused (reasonOfCode w.answerReason)) (frame : Nat) :
    j.answered w frame = (j.finish .failed cause, [j.failedEvent frame cause j.next]) := by
  rcases h with ⟨hw, hr, rfl⟩ | ⟨hw, rfl⟩
  · rw [Job.answered, if_neg (by omega), if_pos hw, if_pos (show Config.rewindLimit ≤ j.rewinds from hr)]
  · rw [Job.answered, if_neg (by omega), if_neg (by omega)]

/-- Where the block goes on after a REWIND (R145). -/
theorem Job.rewound_eq (j : Job) (k : Nat) :
    j.rewound k =
      { j with
        next := min k j.length, rewinds := j.rewinds + 1, headDue := true, resume := true
        state := if j.state = .awaitAnswer then .sending else j.state
        timer := if j.state = .awaitAnswer then 0 else j.timer } := by
  rw [Job.rewound, Nat.min_def]

theorem Job.answered_id (j : Job) (w : SlotWord) (frame : Nat) : (j.answered w frame).1.id = j.id := by
  unfold Job.answered
  split_ifs <;> rfl

/-- A rewound job goes on within its block, in its slot if it has one (R130, R145). -/
theorem Job.rewound_ok (h : j.ok) (hr : j.rewinds < 8) (k : Nat) : (j.rewound k).ok := by
  obtain ⟨hid, -, hlength, harea, -, hresends, htimer, hslot⟩ := h
  rw [Job.rewound_eq]
  refine ⟨hid, Nat.min_le_right .., hlength, harea, hr, hresends, ?_, ?_⟩
  · split_ifs
    · exact Nat.zero_le _
    · exact htimer
  · split_ifs with hst
    · simpa [hst] using hslot
    · exact hslot

/-- Whatever the verdict, the job stays within its bounds, in its slot or in none. -/
theorem Job.answered_keeps (h : j.ok) (w : SlotWord) (frame : Nat) :
    (j.answered w frame).1.ok ∧ ((j.answered w frame).1.slot = j.slot ∨ (j.answered w frame).1.slot = none) := by
  unfold Job.answered
  split_ifs with _ _ hr
  · exact ⟨Job.finish_ok h (by decide) _, .inr rfl⟩
  · exact ⟨Job.finish_ok h (by decide) _, .inr rfl⟩
  · exact ⟨Job.rewound_ok h (Nat.lt_of_not_le hr) _, .inl rfl⟩
  · exact ⟨Job.finish_ok h (by decide) _, .inr rfl⟩

/-! ### The job that is answered (R143) -/

theorem State.matchingJob_of_split (hs : u.jobs = before ++ j :: after) (hl : j.live = true) (hd : j.dest = w.sender)
    (hw : j.window = w.answerWindow)
    (hfirst : ∀ x ∈ before, ¬(x.live = true ∧ x.dest = w.sender ∧ x.window = w.answerWindow)) :
    u.matchingJob w = some j := by
  rw [State.matchingJob, hs, List.find?_eq_some_iff_append]
  exact ⟨by simp [hl, hd, hw], before, after, rfl, fun x hx => by simpa [imp_iff_not_or, or_assoc] using hfirst x hx⟩

theorem State.answerHeard_eq_some (hv : o.heard = .valid w) (hk : w.kind = .answer) (hm : w.malformed = false)
    (ht : w.answerTarget = u.self) : u.answerHeard o = some w := by
  rw [State.answerHeard, Heard.acceptable_eq_some.mpr ⟨hv, hk, hm⟩]
  exact if_pos ht

theorem State.applyAnswer_of_match (hw : u.answerHeard o = some w) (hj : u.matchingJob w = some j) :
    u.applyAnswer o = (u.setJob (j.answered w o.frame).1, (j.answered w o.frame).2) := by
  simp [State.applyAnswer, hw, hj]

/-- An ANSWER is applied to one job of the table, or to none. -/
theorem State.applyAnswer_cases (u : State) (o : Occurrence) :
    u.applyAnswer o = (u, []) ∨
      ∃ w j, j ∈ u.jobs ∧ u.applyAnswer o = (u.setJob (j.answered w o.frame).1, (j.answered w o.frame).2) := by
  unfold State.applyAnswer
  split
  · rename_i j w hmatch _
    obtain ⟨v, -, hj⟩ := Option.bind_eq_some_iff.mp hmatch
    exact .inr ⟨w, j, List.mem_of_find?_eq_some hj, rfl⟩
  · exact .inl rfl

/-- The job table stays sound. -/
theorem State.jobsOk_applyAnswer (h : u.jobsOk) (o : Occurrence) : (u.applyAnswer o).1.jobsOk := by
  rcases u.applyAnswer_cases o with heq | ⟨w, j, hj, heq⟩
  · rwa [heq]
  · obtain ⟨before, after, hs⟩ := List.append_of_mem hj
    have hsound : SoundJobs (before ++ j :: after) := hs ▸ h
    obtain ⟨hok, -, hids, -⟩ := soundJobs_middle.mp hsound
    obtain ⟨hok', hslot⟩ := Job.answered_keeps hok w o.frame
    rw [heq, State.setJob_of_split hs hids (j.answered_id w _)]
    exact hsound.replace_keeping hok' (j.answered_id w _) hslot

/-! ### The end of slot 3 -/

/-- Without a contending answer the answer queue stays as it is (R167). -/
theorem State.answerOutcome_of_idle (h : u.answers.contending = false) (o : Occurrence) : u.answerOutcome o = (u, []) := by
  have hq : ({ u.answers with contending := false } : AnswerQueue) = u.answers := h ▸ rfl
  simp [State.answerOutcome, State.contendingAnswer, h, hq]

/-- Where no MARK is heard and no answer contends, the bulk sender alone acts, and slot 4 comes next. -/
theorem State.answerEnd_of_idle (hst : u.control.state.serving = true) (hidle : u.answers.contending = false)
    (happly : u.applyAnswer o = (u.withJobs jobs, es)) (hm : o.heard.acceptable .mark = none) (hslot : o.slot = 3)
    (hlen : 4 < u.len) :
    u.answerEnd o =
      ({ (u.withJobs jobs).postAll es with timer := u.timer.next 3 } : State).nextHappening := by
  have hpost : mergeAll u.happening 0 [[], es, []] = es := (mergeAll_nil_cons ..).trans (mergeAll_alone _ _ _ _ rfl)
  rw [State.answerEnd]
  simp only [State.answerOutcome_of_idle hidle, hst, if_true, happly, State.offSlotEvents_nil hm]
  rw [State.passOn_next (State.realignsTo_none hm) (by rw [hslot]; exact hlen), hslot]
  simp only [State.postGroups, State.withJobs, hpost]
  rfl

end Sys2Proof.Machine

open Sys2Proof Sys2Proof.Machine

/-- Settles O45: the verdict applied to the job that the ANSWER matches, where no other block acts in slot 3. -/
theorem answersEndOrRewindJobs : Obligations.AnswersEndOrRewindJobs := by
  intro s h w before j after hp hlen hst hword hidle hv hk hm hpeer htarget hs hids hlive hdest hwindow hfirst
  have hheard : (s.occurrence h).heard = .valid w := hv
  have hmark : (s.occurrence h).heard.acceptable .mark = none :=
    Heard.acceptable_none_of_kind fun v hv' => by
      obtain rfl := Heard.valid.inj (hheard.symm.trans hv')
      simp [hk]
  have hfault : s.faultIn (s.occurrence h) = none :=
    State.faultIn_none (Heard.carries_eq_false fun v hv' => by
      obtain rfl := Heard.valid.inj (hheard.symm.trans hv')
      exact hpeer) hmark
  have happly : (s.portEnd h).applyAnswer (s.occurrence h) =
      ((s.portEnd h).withJobs (before ++ (j.answered w s.timer.frame).1 :: after), (j.answered w s.timer.frame).2) := by
    rw [State.applyAnswer_of_match (State.answerHeard_eq_some (u := s.portEnd h) hheard hk hm htarget)
      (State.matchingJob_of_split (u := s.portEnd h) hs hlive hdest hwindow hfirst),
      State.setJob_of_split (s := s.portEnd h) hs hids (j.answered_id w _)]
    rfl
  have hexec : exec (.answerSlotEnd h) s = .next ((s.portEnd h).answerEnd (s.occurrence h)) := by
    rw [exec_answerSlotEnd hp (StationState.onTrunk_iff.mpr (.inr hst)), State.endAnswerSlot_of_none hfault]
  refine ⟨(j.answered w s.timer.frame).1, (j.answered w s.timer.frame).2, ?runs, fun hdone => ?done,
    fun hrewind hr => ?rewind, fun cause hcause => ?failed⟩
  case runs =>
    rw [hexec, State.answerEnd_of_idle (u := s.portEnd h) (StationState.serving_iff.mpr hst) hidle happly hmark
      (State.occurrence_slot_of_passes hp h) hlen, State.portEnd_of_unsent hword, hv]
    rfl
  case done =>
    rw [Job.answered_of_done hdone]
    exact ⟨rfl, rfl⟩
  case rewind =>
    rw [Job.answered_of_rewind hrewind hr, Job.rewound_eq]
    exact ⟨rfl, rfl⟩
  case failed =>
    rw [Job.answered_of_failed (cause := cause)]
    · exact ⟨rfl, rfl⟩
    · refine hcause.imp id fun ⟨hw, hreason⟩ => ⟨hw, ?_⟩
      rcases hreason with ⟨hc, rfl⟩ | ⟨hc, rfl⟩ | ⟨hc, rfl⟩ | ⟨hc, rfl⟩ <;> rw [hc] <;> rfl
end

