-- ==== Sys2Proof/Proofs/BulkCommands.lean ====
section
/-! BULK_POST, BULK_CANCEL and BULK_COLLECT by their tables (R132, R133, R135). -/

namespace Sys2Proof.Machine

variable {s : State} {before after : List Job} {j : Job} {id dest win base len : Nat}

/-! ### BULK_POST (R132) -/

/-- Without a free record the table is full. -/
theorem State.freeJob_eq_none (h : ∀ id < 4, s.job id ≠ none) : s.freeJob = none := by
  have hrange : [0, 1, 2, 3] = List.range 4 := rfl
  rw [State.freeJob, hrange, List.find?_range_eq_none]
  simpa [Option.isSome_iff_ne_none] using h

/-- The free record with the lowest id is taken. -/
theorem State.freeJob_eq_some (hid : id < 4) (hfree : s.job id = none) (hlower : ∀ i < id, s.job i ≠ none) :
    s.freeJob = some id := by
  have hrange : [0, 1, 2, 3] = List.range 4 := rfl
  rw [State.freeJob, hrange, List.find?_range_eq_some]
  exact ⟨by simp [hfree], List.mem_range.mpr hid, fun i hi => by simpa [Option.isSome_iff_ne_none] using hlower i hi⟩

/-- What BULK_POST refuses with RANGE (R132). -/
theorem State.postInRange_eq_false_iff :
    s.postInRange dest win base len = false ↔
      dest = 0 ∨ 30 < dest ∨ dest = s.self ∨ 4 ≤ win ∨ 8192 ≤ base ∨ len = 0 ∨ 4096 < len ∨ 8192 < base + len := by
  simp only [State.postInRange, areaOk, Config.bufferWords, Bool.and_eq_false_iff, State.otherStation_eq_false_iff,
    Option.some.injEq, exists_eq_left', decide_eq_false_iff_not]
  omega

theorem State.judgeBulkPost_of_range (hst : s.control.state = .member) (h : s.postInRange dest win base len = false) :
    s.judgeBulkPost dest win base len = s.refuse .range :=
  (if_neg (not_not.mpr hst)).trans (if_pos h)

theorem State.postInRange_ne_false (h1 : 1 ≤ dest) (h30 : dest ≤ 30) (hself : dest ≠ s.self) (hwin : win < 4)
    (hlen : 1 ≤ len) (hlen' : len ≤ 4096) (harea : base + len ≤ 8192) : ¬s.postInRange dest win base len = false := by
  rw [State.postInRange_eq_false_iff]
  omega

section InRange

variable (hst : s.control.state = .member) (hrange : ¬s.postInRange dest win base len = false)
include hst hrange

theorem State.judgeBulkPost_of_full (h : s.freeJob = none) : s.judgeBulkPost dest win base len = s.refuse .queueFull := by
  rw [State.judgeBulkPost, if_neg (not_not.mpr hst), if_neg hrange, h]

/-- The job goes to the newest place, with the record's id. -/
theorem State.judgeBulkPost_of_free (h : s.freeJob = some id) :
    s.judgeBulkPost dest win base len =
      (s.withJobs (s.jobs ++ [Job.posted id dest win base len]), .accepted (.job id)) := by
  rw [State.judgeBulkPost, if_neg (not_not.mpr hst), if_neg hrange, h]
  rfl

end InRange

/-! ### BULK_CANCEL and BULK_COLLECT (R133, R135) -/

/-- Why a command that names a job is refused before the job is looked at (R133, R135). -/
def State.JobRefused (s : State) (id : Nat) (x : Reason) : Prop :=
  s.control.state = .off ∧ x = .state ∨ s.control.state ≠ .off ∧ 4 ≤ id ∧ x = .range ∨
    s.control.state ≠ .off ∧ id < 4 ∧ s.job id = none ∧ x = .noSuch

theorem State.JobRefused.judge {x : Reason} (h : s.JobRefused id x) :
    s.judgeBulkCancel id = s.refuse x ∧ s.judgeBulkCollect id = s.refuse x := by
  unfold State.judgeBulkCancel State.judgeBulkCollect
  rcases h with ⟨hoff, rfl⟩ | ⟨hon, hid, rfl⟩ | ⟨hon, hid, hnone, rfl⟩
  · simp [hoff]
  · simp [hon, hid]
  · simp [hon, Nat.not_le_of_lt hid, hnone]

/-- A job is live in QUEUED, SENDING and AWAIT_ANSWER (R130). -/
theorem Job.live_iff : j.live = true ↔ j.state = .queued ∨ j.state = .sending ∨ j.state = .awaitAnswer := by
  unfold Job.live
  cases j.state <;> simp

theorem Job.not_live_iff : j.live = false ↔ j.state = .done ∨ j.state = .failed ∨ j.state = .cancelled := by
  unfold Job.live
  cases j.state <;> simp

section Named

variable (hon : s.control.state ≠ .off) (hs : s.jobs = before ++ j :: after) (hid : j.id < 4)
  (hids : ∀ x ∈ before ++ after, x.id ≠ j.id)
include hon hs hid hids

/-- A live job is cancelled, a final one is not (R133). -/
theorem State.judgeBulkCancel_of_split :
    s.judgeBulkCancel j.id =
      if j.live = false then s.refuse .state
      else (s.withJobs (before ++ { j with state := .cancelled, slot := none } :: after)).doneWith .nothing := by
  have hjob : s.job j.id = some j := State.job_of_split hs fun y hy => hids y (List.mem_append_left _ hy)
  rw [State.judgeBulkCancel, if_neg hon, if_neg (Nat.not_le_of_lt hid), hjob]
  dsimp only
  rw [State.setJob_of_split (x := { j with state := .cancelled, slot := none }) hs hids rfl]

/-- A final job is collected, a live one is not (R135). -/
theorem State.judgeBulkCollect_of_split :
    s.judgeBulkCollect j.id =
      if j.live = true then s.refuse .state
      else (s.withJobs (before ++ after)).doneWith (.collected j.state j.result j.next j.rewinds j.resends) := by
  have hjob : s.job j.id = some j := State.job_of_split hs fun y hy => hids y (List.mem_append_left _ hy)
  have hothers : s.jobs.filter (fun x => x.id != j.id) = before ++ after := by
    rw [hs, List.filter_append, List.filter_cons_of_neg (by simp), ← List.filter_append, List.filter_eq_self]
    exact fun y hy => by simpa using hids y hy
  rw [State.judgeBulkCollect, if_neg hon, if_neg (Nat.not_le_of_lt hid), hjob]
  dsimp only
  rw [hothers]
  rfl

end Named

end Sys2Proof.Machine

open Sys2Proof Sys2Proof.Machine

/-- Settles O42: by the lines of the three tables, from the first. -/
theorem jobsArePostedAndCollected : Obligations.JobsArePostedAndCollected := by
  intro s hreq
  refine ⟨fun dest win base len => ⟨fun hst => ?postState, fun hst hrange => ?postRange,
      fun hst h1 h30 hself hwin hlen hlen' harea => ⟨fun hfull => ?postFull, fun id hid hfree hlower => ?post⟩⟩,
    fun id x hrefused => ?refused, fun before j after hon hs hid hids => ⟨fun hlive => ?live, fun hfinal => ?final⟩⟩
  case postState => exact congrArg _ (State.take_unchanged hreq (if_pos hst))
  case postRange =>
    exact congrArg _ (State.take_unchanged hreq
      (State.judgeBulkPost_of_range hst (State.postInRange_eq_false_iff.mpr hrange)))
  case postFull =>
    have hrange := State.postInRange_ne_false h1 h30 hself hwin hlen hlen' harea
    exact congrArg _ (State.take_unchanged hreq
      (State.judgeBulkPost_of_full hst hrange (State.freeJob_eq_none hfull)))
  case post =>
    have hrange := State.postInRange_ne_false h1 h30 hself hwin hlen hlen' harea
    refine congrArg _ ((State.take_request hreq ..).trans ?_)
    rw [State.judgeBulkPost_of_free hst hrange (State.freeJob_eq_some hid hfree hlower)]
    rfl
  case refused =>
    obtain ⟨hcancel, hcollect⟩ := State.JobRefused.judge (s := s) hrefused
    exact ⟨congrArg _ (State.take_unchanged hreq hcancel), congrArg _ (State.take_unchanged hreq hcollect)⟩
  case live =>
    have hlive := Job.live_iff.mpr hlive
    refine ⟨congrArg _ ((State.take_request hreq ..).trans ?_), congrArg _ (State.take_unchanged hreq ?_)⟩
    · rw [State.judgeBulkCancel_of_split hon hs hid hids, if_neg (by simp [hlive])]
      rfl
    · rw [State.judgeBulkCollect_of_split hon hs hid hids, if_pos hlive]
      rfl
  case final =>
    have hfinal := Job.not_live_iff.mpr hfinal
    refine ⟨congrArg _ ((State.take_request hreq ..).trans ?_), congrArg _ (State.take_unchanged hreq ?_)⟩
    · rw [State.judgeBulkCollect_of_split hon hs hid hids, if_neg (by simp [hfinal])]
      rfl
    · rw [State.judgeBulkCancel_of_split hon hs hid hids, if_pos hfinal]
      rfl
end

