-- ==== Sys2Proof/Proofs/WindowBounds.lean ====
section
/-! Windows and answer queue stay within their bounds (R151, R166) whatever one occurrence makes of them (R157 to R167). -/

namespace Sys2Proof.Machine

variable {s t u : State} {x y : Window} {n : Nat} {o : Occurrence} {w : SlotWord} {a : WindowAct} {q : AnswerQueue}

/-! ### A window and what it answers -/

theorem Window.count_le (h : x.ok) : x.count ≤ 4096 := by
  obtain ⟨hcount, hcap, -⟩ := h
  exact hcount.trans hcap

/-- In the same area, and neither COMPLETE nor CLOSED: the count and the stall count are all that is bounded (R151). -/
theorem Window.ok_of_area (h : x.ok) (hbase : y.base = x.base) (hcap : y.capacity = x.capacity)
    (hcount : y.count ≤ x.capacity.getD 0) (hstall : y.stall ≤ 64) (hst : y.state ≠ .complete ∧ y.state ≠ .closed) :
    y.ok := by
  obtain ⟨-, hlen, harea, -⟩ := h
  refine ⟨hcap ▸ hcount, hcap ▸ hlen, ?_, hstall, fun hc => absurd hc hst.1, fun hc => absurd hc hst.2⟩
  rw [hbase, hcap]
  exact harea

/-- What a window does leaves it within its bounds, and what it answers counts at most 4096 (R166). -/
structure WindowAct.Ok (a : WindowAct) : Prop where
  window : a.window.ok
  count : ∀ p ∈ a.answer, p.2.2 ≤ 4096

theorem WindowAct.Ok.of_silent (hw : a.window.ok) (ha : a.answer = none) : a.Ok := ⟨hw, by simp [ha]⟩

theorem Window.answers_ok (h : x.ok) {c : Nat} (hc : c ≤ 4096) (k : Nat) (v : Verdict) : (x.answers k v c).Ok :=
  ⟨h, by rintro p ⟨⟩; exact hc⟩

theorem Window.idle_ok (h : x.ok) : x.idle.Ok := .of_silent h rfl

theorem Window.toGap_ok (h : x.ok) : x.toGap.ok :=
  Window.ok_of_area h rfl rfl h.1 (Nat.zero_le _) (by simp [Window.toGap])

/-- A window that has missed words asks for them from its count on (R159, R162 to R164). -/
theorem Window.toGap_answers_ok (h : x.ok) (k : Nat) (v : Verdict) : (x.toGap.answers k v x.count).Ok :=
  Window.answers_ok (Window.toGap_ok h) (Window.count_le h) k v

/-! ### HEAD (R158 to R161) -/

theorem Window.resumeAt_ok (h : x.ok) (slot : Nat) {offset : Nat} (ho : offset ≤ x.count) : (x.resumeAt slot offset).ok :=
  Window.ok_of_area h rfl rfl (ho.trans h.1) (Nat.zero_le _) (by simp [Window.resumeAt])

theorem Window.headInBlock_ok (h : x.ok) (n : Nat) (o : Occurrence) (w : SlotWord) : (x.headInBlock n o w).Ok := by
  unfold Window.headInBlock
  split_ifs with _ hle
  · exact .of_silent (Window.resumeAt_ok h _ hle) rfl
  · exact .of_silent (Window.resumeAt_ok h _ hle) rfl
  · refine Window.answers_ok ?_ (Window.count_le h) _ _
    exact Window.ok_of_area h rfl rfl h.1 (Nat.zero_le _) (by simp [Window.toGap])
  · exact Window.answers_ok h (Window.count_le h) _ _

/-- A COMPLETE window has recorded its count (R151). -/
theorem Window.recorded_of_complete (h : x.ok) (hc : x.state = .complete) {k : Nat} (hr : x.recorded = some k) :
    k = x.count := by
  obtain ⟨-, -, -, -, hcomplete, -⟩ := h
  exact Option.some.inj (hr.symm.trans (hcomplete hc))

/-- A COMPLETE window whose sender slot alone changes. -/
theorem Window.ok_of_complete (h : x.ok) (hc : x.state = .complete) (slot : Option Nat) :
    Window.ok { x with senderSlot := slot } := by
  obtain ⟨hcount, hcap, harea, hstall, hcomplete, -⟩ := h
  exact ⟨hcount, hcap, harea, hstall, hcomplete, by simp [hc]⟩

theorem Window.head_ok (h : x.ok) (n : Nat) (o : Occurrence) (w : SlotWord) : (x.head n o w).Ok := by
  unfold Window.head
  split
  case h_1 | h_2 => exact Window.answers_ok h (Window.count_le h) _ _
  case h_3 =>
    split_ifs
    · exact Window.answers_ok h (Window.count_le h) _ _
    · exact Window.idle_ok (Window.ok_of_area h rfl rfl (Nat.zero_le _) (Nat.zero_le _) (by simp))
    · exact Window.answers_ok h (Nat.zero_le _) _ _
  case h_4 | h_5 | h_6 => exact Window.headInBlock_ok h n o w
  case h_7 hc =>
    split_ifs with hr
    · obtain ⟨-, -, hrecorded⟩ := hr
      exact Window.answers_ok (Window.ok_of_complete h hc _)
        (Window.recorded_of_complete h hc hrecorded ▸ Window.count_le h) _ _
    · exact Window.answers_ok h (Window.count_le h) _ _

theorem Window.withdrawn_ok (h : x.ok) (n : Nat) (o : Occurrence) : (x.withdrawn n o).Ok := by
  have ⟨hcount, _, _, hstall, _⟩ := h
  unfold Window.withdrawn
  split
  case h_1 | h_2 => exact .of_silent (Window.ok_of_area h rfl rfl hcount hstall (by simp)) rfl
  case h_3 hs => exact Window.idle_ok (Window.ok_of_area h rfl rfl hcount hstall (by simp [hs]))
  case h_4 hc => exact Window.idle_ok (Window.ok_of_complete h hc none)
  all_goals exact Window.idle_ok h

/-! ### Other words in the sender slot (R162 to R165) -/

theorem Window.stallOnce_ok (h : x.ok) (n : Nat) (o : Occurrence) : (x.stallOnce n o).Ok := by
  have ⟨hcount, _, _, _, _⟩ := h
  cases hs : x.state with
  | receiving | gap =>
    simp only [Window.stallOnce, hs]
    split_ifs with hlt
    · exact Window.idle_ok (Window.ok_of_area h rfl rfl hcount hlt.le (by simp))
    · exact .of_silent (Window.ok_of_area h rfl rfl hcount (le_refl 64) (by simp)) rfl
  | _ =>
    simp only [Window.stallOnce, hs]
    exact Window.idle_ok h

theorem Window.overruns_ok (h : x.ok) (n : Nat) (o : Occurrence) (k : Nat) : (x.overruns n o k).Ok := by
  have ⟨hcount, _, _, hstall, _⟩ := h
  exact ⟨Window.ok_of_area h rfl rfl hcount hstall (by simp [Window.overruns]),
    by rintro p ⟨⟩; exact Window.count_le h⟩

theorem Window.bulk_ok (h : x.ok) (n : Nat) (o : Occurrence) (w : SlotWord) : (x.bulk n o w).Ok := by
  unfold Window.bulk
  split_ifs with _ hroom
  · exact .of_silent (Window.ok_of_area h rfl rfl hroom (Nat.zero_le _) (by simp)) rfl
  · exact Window.overruns_ok h n o _
  · exact Window.stallOnce_ok h n o
  · exact Window.toGap_answers_ok h _ _

theorem Window.tailByState_ok (h : x.ok) (n : Nat) (o : Occurrence) (w : SlotWord) : (x.tailByState n o w).Ok := by
  have ⟨hcount, hcap, harea, hstall, _⟩ := h
  unfold Window.tailByState
  split_ifs with hc hr _ heq
  · exact Window.answers_ok h (Window.recorded_of_complete h hc hr ▸ Window.count_le h) _ _
  · exact Window.answers_ok h (Window.count_le h) _ _
  · refine ⟨⟨hcount, hcap, harea, hstall, fun _ => congrArg some heq.symm, by simp⟩, ?_⟩
    rintro p ⟨⟩
    exact heq ▸ Window.count_le h
  · exact Window.toGap_answers_ok h _ _
  · exact Window.overruns_ok h n o _
  · exact Window.toGap_answers_ok h _ _

/-- The stall count is set to 0 (R165); that of a CLOSED window is. -/
theorem Window.ok_unstalled (h : x.ok) : Window.ok { x with stall := 0 } := by
  obtain ⟨hcount, hcap, harea, -, hcomplete, hclosed⟩ := h
  refine ⟨hcount, hcap, harea, Nat.zero_le _, hcomplete, fun hc => ?_⟩
  rw [hclosed hc]
  rfl

theorem Window.corruptWord_ok (h : x.ok) (n : Nat) (o : Occurrence) : (x.corruptWord n o).Ok := by
  unfold Window.corruptWord
  split_ifs
  · exact Window.toGap_answers_ok h _ _
  · exact Window.stallOnce_ok h n o
  · exact Window.idle_ok h

theorem Window.follow_ok (h : x.ok) (n : Nat) (o : Occurrence) : (x.follow n o).Ok := by
  unfold Window.follow
  split
  · exact Window.stallOnce_ok h n o
  · exact Window.corruptWord_ok h n o
  · split_ifs
    · exact Window.bulk_ok h n o _
    · exact Window.tailByState_ok (Window.ok_unstalled h) n o _
    · exact Window.stallOnce_ok h n o

/-- Whatever the occurrence, a window within its bounds stays so (R157). -/
theorem Window.act_ok (h : x.ok) (n : Nat) (o : Occurrence) (self : Nat) : (x.act n o self).Ok := by
  unfold Window.act
  dsimp only
  split
  · rename_i w _
    have hhead := Window.head_ok h n o w
    split_ifs
    · exact Window.idle_ok h
    · exact ⟨(Window.stallOnce_ok hhead.window n o).window, hhead.count⟩
    · exact hhead
    · exact Window.withdrawn_ok h n o
    · exact Window.stallOnce_ok h n o
    · exact Window.idle_ok h
    · exact Window.stallOnce_ok h n o
    · exact Window.idle_ok h
  · split_ifs
    · exact Window.follow_ok h n o
    · exact Window.idle_ok h

/-! ### Session ends (R50, R53, R152) -/

theorem Window.detached_ok (h : x.ok) : x.detached.ok := by
  have ⟨hcount, _, _, hstall, _⟩ := h
  unfold Window.detached
  split
  case h_1 | h_2 => exact Window.ok_of_area h rfl rfl hcount hstall (by simp)
  case h_3 hs => exact Window.ok_of_area h rfl rfl hcount hstall (by simp [hs])
  all_goals exact h

theorem Window.faulted_ok (h : x.ok) : x.faulted.ok := by
  have ⟨hcount, _, _, hstall, _⟩ := h
  unfold Window.faulted
  split
  case h_1 | h_2 => exact h
  all_goals exact Window.ok_of_area h rfl rfl hcount hstall (by simp)

/-! ### WINDOW_OPEN and WINDOW_CLOSE (R153, R154) -/

theorem Window.closed_ok : Window.closed.ok := by decide

theorem Window.openedWith_ok {base cap : Nat} (h : areaOk base cap = true) (allowed : Option Nat) :
    (Window.openedWith base cap allowed).ok := by
  simp only [areaOk, Bool.and_eq_true, decide_eq_true_eq] at h
  obtain ⟨⟨-, -, hcap⟩, harea⟩ := h
  exact ⟨Nat.zero_le _, hcap, harea, Nat.zero_le _, by simp [Window.openedWith], by simp [Window.openedWith]⟩

/-! ### The answer queue (R166 to R168) -/

theorem AnswerQueue.reset_ok : AnswerQueue.reset.ok := by decide

/-- An answer takes the place of its window's, or the tail (R166). -/
theorem AnswerQueue.put_ok {a : Answer} (h : q.ok) (ha : a.window < 4 ∧ a.count ≤ 4096 ∧ a.lost < 32) : (q.put a).ok := by
  obtain ⟨hnodup, hanswers, hhead⟩ := h
  unfold AnswerQueue.put
  split_ifs with hany
  · refine ⟨?_, fun b hb => ?_, fun hc => by simpa using hhead hc⟩
    · have hwindows : (q.answers.map (fun b => if b.window = a.window then a else b)).map Answer.window =
          q.answers.map Answer.window := by
        rw [List.map_map]
        refine List.map_congr_left fun b _ => ?_
        rw [Function.comp_apply]
        split_ifs with hb
        · exact hb.symm
        · rfl
      rwa [hwindows]
    · obtain ⟨c, hc, rfl⟩ := List.mem_map.mp hb
      split_ifs
      · exact ha
      · exact hanswers c hc
  · refine ⟨?_, fun b hb => ?_, fun _ => by simp⟩
    · rw [List.map_append]
      refine hnodup.append (List.nodup_singleton _) ?_
      simpa using hany
    · rcases List.mem_append.mp hb with hb | hb
      · exact hanswers b hb
      · obtain rfl := List.mem_singleton.mp hb
        exact ha

/-- Some answers leave the queue, and the head contends only if there is one. -/
theorem AnswerQueue.ok_of_sublist {answers : List Answer} {contending : Bool} (h : q.ok) (hsub : answers.Sublist q.answers)
    (hhead : contending = true → answers ≠ []) : AnswerQueue.ok { answers := answers, contending := contending } := by
  obtain ⟨hnodup, hanswers, -⟩ := h
  exact ⟨hnodup.sublist (hsub.map _), fun b hb => hanswers b (hsub.subset hb), hhead⟩

/-- WINDOW_CLOSE takes one answer out; a head that contends on is another (R154, R168). -/
theorem AnswerQueue.withdraw_ok (h : q.ok) (n : Nat) : (q.withdraw n).ok := by
  refine AnswerQueue.ok_of_sublist h List.filter_sublist fun hc => ?_
  obtain ⟨-, -, hhead⟩ := h
  simp only [Bool.and_eq_true, bne_iff_ne] at hc
  obtain ⟨hcontending, hne⟩ := hc
  obtain ⟨b, bs, hq⟩ := List.exists_cons_of_ne_nil (hhead hcontending)
  have hb : b.window ≠ n := by simpa [hq] using hne
  simp [hq, hb]

/-- The contending answer goes, or stays having lost fewer than 32 times (R167). -/
theorem State.answersOk_answerOutcome (h : u.answers.ok) (o : Occurrence) : (u.answerOutcome o).1.answers.ok := by
  unfold State.answerOutcome
  split
  · exact AnswerQueue.ok_of_sublist h (List.Sublist.refl _) (by simp)
  · rename_i b hb
    split_ifs with _ hl
    · exact AnswerQueue.ok_of_sublist h (List.tail_sublist _) (by simp)
    · obtain ⟨hnodup, hanswers, -⟩ := h
      obtain ⟨rest, hq⟩ : ∃ rest, u.answers.answers = b :: rest := by
        unfold State.contendingAnswer at hb
        split_ifs at hb
        exact List.head?_eq_some_iff.mp hb
      rw [hq] at hnodup hanswers ⊢
      refine ⟨hnodup, fun c hc => ?_, by simp⟩
      rcases List.mem_cons.mp hc with rfl | hc
      · obtain ⟨hwindow, hcount, -⟩ := hanswers b (List.mem_cons_self ..)
        exact ⟨hwindow, hcount, hl⟩
      · exact hanswers c (List.mem_cons_of_mem _ hc)
    · exact AnswerQueue.ok_of_sublist h (List.tail_sublist _) (by simp)

/-! ### All windows -/

theorem State.windowsOk_setWindow (h : s.windowsOk) (hx : x.ok) (n : Nat) : (s.setWindow n x).windowsOk :=
  ⟨Bank.forall_set h.1 hx, h.2⟩

/-- A window acts, and the answer queue takes its answer (R157, R166). -/
theorem State.windowsOk_applyAct (h : s.windowsOk) (hn : n < 4) (ha : a.Ok) : (s.applyAct n a).windowsOk := by
  refine ⟨Bank.forall_set h.1 ha.window, ?_⟩
  unfold State.applyAct
  cases hp : a.answer with
  | none => exact h.2
  | some p => exact AnswerQueue.put_ok h.2 ⟨hn, ha.count p hp, show 0 < 32 by decide⟩

/-- The windows act one after the other (R157). -/
theorem State.windowsOk_windowsEnd (h : s.windowsOk) (o : Occurrence) : (s.windowsEnd o).windowsOk := by
  have acts (ns : List Nat) (hns : ∀ n ∈ ns, n < 4) :
      ∀ t : State, t.windowsOk → (ns.foldl (fun t n => t.applyAct n (s.windowAct o n)) t).windowsOk := by
    induction ns with
    | nil => exact fun _ ht => ht
    | cons n ns ih =>
      intro t ht
      have hn := hns n (List.mem_cons_self ..)
      exact ih (fun m hm => hns m (List.mem_cons_of_mem _ hm)) _
        (State.windowsOk_applyAct ht hn (Window.act_ok (State.windowAt_ok h hn) n o s.self))
  exact acts windowIds (by decide) s h

end Sys2Proof.Machine
end

