-- ==== Sys2Proof/Proofs/TransfersStaySound.lean ====
section
/-! Job table, windows and answer queue stay sound (R130, R137, R148, R151, R166), and with them sound no command stops
the part (log 19): the one fault of the model is a buffer address that no sound job and no sound window names. -/

namespace Sys2Proof.Machine

variable {s t u v : State} {o : Occurrence} {n : Nat} {bits : SlotBits}

/-! ### What is kept -/

/-- From `u` to `v` a sound job table stays sound, and so do sound windows and answers, each whatever the other. -/
structure State.KeepsTransfers (u v : State) : Prop where
  jobs : u.jobsOk → v.jobsOk
  windows : u.windowsOk → v.windowsOk

theorem State.KeepsTransfers.refl (u : State) : u.KeepsTransfers u := ⟨id, id⟩

theorem State.KeepsTransfers.trans (h : s.KeepsTransfers u) (h' : u.KeepsTransfers v) : s.KeepsTransfers v :=
  ⟨h'.jobs ∘ h.jobs, h'.windows ∘ h.windows⟩

/-- The blocks of bulk transfer. -/
def State.transfers (s : State) : List Job × Bank Window 4 × AnswerQueue := (s.jobs, s.windows, s.answers)

theorem State.transfers_eq_iff :
    v.transfers = u.transfers ↔ v.jobs = u.jobs ∧ v.windows = u.windows ∧ v.answers = u.answers := by
  simp [State.transfers]

/-- The blocks of bulk transfer stay as they are. -/
theorem State.KeepsTransfers.of_transfers (h : v.transfers = u.transfers) : u.KeepsTransfers v := by
  obtain ⟨hjobs, hwindows, hanswers⟩ := State.transfers_eq_iff.mp h
  refine ⟨fun hu => ?_, fun hu => ?_⟩
  · rwa [State.jobsOk_iff, hjobs]
  · rwa [State.windowsOk, hwindows, hanswers]

/-- Only the job table is written. -/
theorem State.KeepsTransfers.of_jobs (hwindows : v.windows = u.windows) (hanswers : v.answers = u.answers)
    (h : u.jobsOk → v.jobsOk) : u.KeepsTransfers v :=
  ⟨h, fun hu => by rwa [State.windowsOk, hwindows, hanswers]⟩

/-- Only windows and answers are written. -/
theorem State.KeepsTransfers.of_windows (hjobs : v.jobs = u.jobs) (h : u.windowsOk → v.windowsOk) : u.KeepsTransfers v :=
  ⟨fun hu => by rwa [State.jobsOk_iff, hjobs], h⟩

/-- The blocks of bulk transfer are at their reset values (R131, R152). -/
theorem State.KeepsTransfers.of_cleared (hjobs : v.jobs = []) (hwindows : v.windows = Bank.fill 4 Window.closed)
    (hanswers : v.answers = AnswerQueue.reset) : u.KeepsTransfers v := by
  refine ⟨fun _ => ?_, fun _ => ?_⟩
  · rw [State.jobsOk_iff, hjobs]
    exact ⟨by simp, List.nodup_nil, List.nodup_nil⟩
  · rw [State.windowsOk, hwindows, hanswers]
    exact ⟨fun x hx => List.eq_of_mem_replicate hx ▸ Window.closed_ok, AnswerQueue.reset_ok⟩

/-! ### Freed slots and session ends -/

/-- The job of a slot that is lost is suspended (R81, R148). -/
theorem State.keepsTransfers_lossNotice (u : State) (role : Option Role) (n : Nat) :
    u.KeepsTransfers (u.lossNotice role n) := by
  rw [State.lossNotice_eq]
  refine .of_jobs rfl rfl fun hu => ?_
  rw [State.jobsOk_iff]
  dsimp only
  split_ifs
  · exact SoundJobs.suspend hu n
  · exact hu

theorem State.keepsTransfers_freeSlot (u : State) (n : Nat) : u.KeepsTransfers (u.freeSlot n) :=
  .trans (u := u.setEntry n (u.entry n).freed) (.of_transfers rfl) (State.keepsTransfers_lossNotice ..)

/-- At entry into FAULT live jobs fail, and windows that are in use (R53, R150, R152). -/
theorem State.KeepsTransfers.fault (h : v.transfers = u.transfers) (cause : FaultCause) :
    u.KeepsTransfers (v.enterFault cause) :=
  .trans (u := v) (.of_transfers h)
    ⟨fun hv => SoundJobs.failLive hv .fault,
      fun ⟨hwindows, _⟩ => ⟨Bank.forall_map fun x hx => Window.faulted_ok (hwindows x hx), AnswerQueue.reset_ok⟩⟩

/-- At entry into DETACHED windows in a block stall (R50, R152). -/
theorem State.KeepsTransfers.detached (h : v.transfers = u.transfers) (others : List (List Event)) :
    u.KeepsTransfers (v.enterDetached others) :=
  .trans (u := v) (.of_transfers h) <| .of_windows rfl fun ⟨hwindows, _⟩ =>
    ⟨Bank.forall_map fun x hx => Window.detached_ok (hwindows x hx), AnswerQueue.reset_ok⟩

/-- Live jobs fail (R47, R150). -/
theorem State.keepsTransfers_enterLeaving (u : State) : u.KeepsTransfers u.enterLeaving :=
  .of_jobs rfl rfl fun hu => SoundJobs.failLive hu .leaving

/-! ### What leaves the blocks of bulk transfer -/

theorem State.transfers_passOn (u : State) (o : Occurrence) : (u.passOn o).transfers = u.transfers := by
  obtain ⟨_, _, heq, -⟩ := u.passOn_eq o
  rw [heq]
  rfl

/-- An occurrence passes whose blocks have kept jobs, windows and answers sound (R17, R177). -/
theorem State.KeepsTransfers.ends (h : s.KeepsTransfers u) (base : Nat) (gs : List (List Event)) (o : Occurrence) :
    s.KeepsTransfers ((u.postGroups base gs).passOn o).nextHappening :=
  h.trans (.of_transfers ((u.postGroups base gs).transfers_passOn o))

/-- The frame timer's outcomes of slot 0 (R24, R26, R27). -/
theorem State.transfers_holderEnd (u : State) (o : Occurrence) : (u.holderEnd o).1.transfers = u.transfers := by
  unfold State.holderEnd
  split_ifs
  · split
    · split_ifs <;> rfl
    · rfl
  · rfl

theorem State.transfers_missMark (u : State) : u.missMark.1.transfers = u.transfers := by
  rcases u.missMark_cases with h | h <;> rw [h] <;> rfl

theorem State.transfers_foundingEnd (u : State) (o : Occurrence) : (u.foundingEnd o).transfers = u.transfers := by
  unfold State.foundingEnd
  split_ifs
  · split <;> rfl
  · rfl

/-- The end of slot 0 without a fault (R22 to R30). -/
theorem State.transfers_markEnd (u : State) (o : Occurrence) : (u.markEnd o).transfers = u.transfers := by
  unfold State.markEnd
  split
  · exact (State.transfers_passOn ..).trans (u.transfers_holderEnd o)
  · split
    · exact State.transfers_passOn ..
    · split_ifs
      · rfl
      · exact (State.transfers_passOn ..).trans u.transfers_missMark

/-- The turn of slot 1 (R58 to R65). -/
theorem State.transfers_peerTurn (u : State) (o : Occurrence) (a : Nat) : (u.peerTurn o a).1.transfers = u.transfers := by
  unfold State.peerTurn
  split
  · split_ifs <;> rfl
  · unfold State.rollMissed
    split_ifs <;> rfl

theorem State.transfers_rollTurn (u : State) (o : Occurrence) : (u.rollTurn o).1.transfers = u.transfers := by
  unfold State.rollTurn
  split_ifs
  · unfold State.ownTurn
    split
    · split <;> rfl
    · rfl
    · rfl
  · exact u.transfers_peerTurn o _

/-- The frame timer at the end of slot 1 (R31). -/
theorem State.transfers_rollTimer (u : State) (o : Occurrence) : (u.rollTimer o).1.transfers = u.transfers := by
  rcases u.rollTimer_cases o with h | h | h <;> rw [h] <;> rfl

/-- The claim queue at the end of slot 2 (R100 to R102). -/
theorem State.transfers_claimOutcome (u : State) (o : Occurrence) (given : Option Nat) :
    (u.claimOutcome o given).1.transfers = u.transfers := by
  unfold State.claimOutcome
  split <;> rfl

/-- The roster in a data slot (R66). -/
theorem State.transfers_markPresent (u : State) (o : Occurrence) : (u.markPresent o).1.transfers = u.transfers := by
  obtain ⟨_, _, h⟩ := u.markPresent_eq o
  rw [h]
  rfl

theorem State.transfers_correct (u : State) (o : Occurrence) : (u.correct o).1.transfers = u.transfers := by
  unfold State.correct
  split
  · rfl
  · dsimp only
    split_ifs <;> rfl

/-- A STREAM slot (R114). -/
theorem State.transfers_streamSupply (u : State) (c n : Nat) : (u.streamSupply c n).1.transfers = u.transfers := by
  unfold State.streamSupply
  split <;> rfl

/-! ### Slots 0 to 3 -/

/-- The end of slot 0 (R21 to R30). -/
theorem State.keepsTransfers_endMarkSlot (s : State) (bits : SlotBits) : s.KeepsTransfers (s.endMarkSlot bits) := by
  refine .trans (u := s.portEnd bits) (.of_transfers rfl) ?_
  unfold State.endMarkSlot
  dsimp only
  split
  · exact .fault (by rfl) _
  · split_ifs
    · exact .of_transfers (State.transfers_foundingEnd ..)
    · exact .of_transfers (State.transfers_markEnd ..)

/-- The end of slot 1 (R58 to R65). -/
theorem State.keepsTransfers_endRollSlot (s : State) (bits : SlotBits) : s.KeepsTransfers (s.endRollSlot bits) := by
  refine .trans (u := s.portEnd bits) (.of_transfers rfl) ?_
  unfold State.endRollSlot
  dsimp only
  split
  · exact .fault (by rfl) _
  · split_ifs with hl
    · have hst : s.control.state = .leaving := by
        simp only [State.leavesNow, Bool.and_eq_true, beq_iff_eq] at hl
        exact hl.1
      obtain ⟨_, _, heq, -⟩ := State.leaveTrunk_eq (u := s.portEnd bits) hst (s.occurrence bits)
      rw [heq]
      exact .detached (by rfl) _
    · exact (State.KeepsTransfers.of_transfers
        ((State.transfers_rollTimer ..).trans (State.transfers_rollTurn ..))).ends _ _ _

/-- A CLAIM word that is applied may free a slot (R104 to R108). -/
theorem State.keepsTransfers_applyClaim (u : State) (o : Occurrence) (role : Option Role) :
    u.KeepsTransfers (u.applyClaim o role).1 := by
  unfold State.applyClaim
  split
  · exact .refl u
  · split
    · split_ifs <;> exact .of_transfers rfl
    · split
      · exact u.keepsTransfers_freeSlot _
      · exact .refl u

/-- The end of slot 2 (R100 to R109). -/
theorem State.keepsTransfers_endClaimSlot (s : State) (bits : SlotBits) : s.KeepsTransfers (s.endClaimSlot bits) := by
  refine .trans (u := s.portEnd bits) (.of_transfers rfl) ?_
  unfold State.endClaimSlot
  dsimp only
  split
  · refine .fault ?_ _
    unfold State.claimBeforeFault
    split_ifs
    · exact State.transfers_claimOutcome ..
    · rfl
  · exact ((State.keepsTransfers_applyClaim ..).trans (.of_transfers (State.transfers_claimOutcome ..))).ends _ _ _

/-- The head answer contends (R167). -/
theorem State.keepsTransfers_startAnswerSlot (s : State) : s.KeepsTransfers s.startAnswerSlot := by
  refine .of_windows rfl fun ⟨hwindows, hanswers⟩ =>
    ⟨hwindows, AnswerQueue.ok_of_sublist hanswers (List.Sublist.refl _) fun hc hnil => ?_⟩
  unfold State.answerToSend at hc
  rw [hnil] at hc
  split_ifs at hc
  · cases hc
  · cases hc

theorem State.keepsTransfers_answerOutcome (u : State) (o : Occurrence) : u.KeepsTransfers (u.answerOutcome o).1 := by
  have hothers : (u.answerOutcome o).1.jobs = u.jobs ∧ (u.answerOutcome o).1.windows = u.windows := by
    unfold State.answerOutcome
    split
    · exact ⟨rfl, rfl⟩
    · split_ifs <;> exact ⟨rfl, rfl⟩
  obtain ⟨hjobs, hwindows⟩ := hothers
  refine .of_windows hjobs fun ⟨hu, hanswers⟩ => ⟨?_, State.answersOk_answerOutcome hanswers o⟩
  rwa [hwindows]

theorem State.keepsTransfers_applyAnswer (u : State) (o : Occurrence) : u.KeepsTransfers (u.applyAnswer o).1 := by
  refine ⟨fun h => State.jobsOk_applyAnswer h o, fun h => ?_⟩
  rcases u.applyAnswer_cases o with heq | ⟨_, _, -, heq⟩ <;> rw [heq] <;> exact h

/-- The end of slot 3 (R143, R167). -/
theorem State.keepsTransfers_endAnswerSlot (s : State) (bits : SlotBits) : s.KeepsTransfers (s.endAnswerSlot bits) := by
  refine .trans (u := s.portEnd bits) (.of_transfers rfl) ?_
  unfold State.endAnswerSlot
  dsimp only
  split
  · exact .fault (by rfl) _
  · have hown := State.keepsTransfers_answerOutcome (s.portEnd bits) (s.occurrence bits)
    unfold State.answerEnd
    dsimp only
    split_ifs
    · exact (hown.trans (State.keepsTransfers_applyAnswer ..)).ends _ _ _
    · exact hown.ends _ _ _

/-! ### Data slots -/

theorem State.keepsTransfers_bulkSupply (u : State) (n : Nat) : u.KeepsTransfers (u.bulkSupply n).1 := by
  obtain ⟨jobs, heq⟩ := u.bulkSupply_eq n
  exact .of_jobs (by rw [heq]; rfl) (by rw [heq]; rfl) fun h => State.jobsOk_bulkSupply h n

/-- The start of a data slot (R77). -/
theorem State.keepsTransfers_startDataSlot (s : State) (n : Nat) : s.KeepsTransfers (s.startDataSlot n) := by
  have hsupply : s.KeepsTransfers (s.supply n).1 := by
    unfold State.supply
    split
    · exact .of_transfers (State.transfers_streamSupply ..)
    · exact s.keepsTransfers_bulkSupply n
    · exact .refl s
    · exact .refl s
  unfold State.startDataSlot
  split_ifs
  · exact hsupply.trans (.of_transfers rfl)
  · exact .of_transfers rfl

/-- Silence may free the slot (R75). -/
theorem State.keepsTransfers_silenceStep (u : State) (o : Occurrence) : u.KeepsTransfers (u.silenceStep o).1 := by
  unfold State.silenceStep
  dsimp only
  split
  · exact .refl u
  · split_ifs
    · exact .of_transfers rfl
    · exact u.keepsTransfers_freeSlot _
    · exact .of_transfers rfl

/-- A displaced word loses the slot (R79). -/
theorem State.keepsTransfers_loseSlot (u : State) (o : Occurrence) : u.KeepsTransfers (u.loseSlot o).1 := by
  unfold State.loseSlot
  dsimp only
  split
  · exact u.keepsTransfers_freeSlot _
  · split_ifs
    · exact .trans (u := u.setEntry _ _) (.of_transfers rfl) (State.keepsTransfers_lossNotice ..)
    · exact (u.keepsTransfers_freeSlot _).trans (.of_transfers rfl)

theorem State.keepsTransfers_ownerSteps (u : State) (o : Occurrence) : u.KeepsTransfers (u.ownerSteps o).1 := by
  have hsilence := u.keepsTransfers_silenceStep o
  unfold State.ownerSteps
  split
  · exact hsilence.trans (.of_transfers (State.transfers_correct ..))
  · split_ifs
    · exact hsilence.trans (State.keepsTransfers_loseSlot ..)
    · exact hsilence
  · exact hsilence
  · exact hsilence

/-- The allocation table at the end of a data slot (R74 to R79). -/
theorem State.keepsTransfers_tableEnd (u : State) (o : Occurrence) : u.KeepsTransfers (u.tableEnd o).1 := by
  unfold State.tableEnd
  dsimp only
  split_ifs
  · exact .of_transfers rfl
  · exact .trans (u := u.setEntry _ _) (.of_transfers rfl) (State.keepsTransfers_ownerSteps ..)

/-- Roster and table in either order (R66, R67). -/
theorem State.keepsTransfers_rosterAndTable (u : State) (o : Occurrence) : u.KeepsTransfers (u.rosterAndTable o).1 := by
  unfold State.rosterAndTable
  split_ifs
  · exact .trans (.of_transfers (u.transfers_markPresent o)) (State.keepsTransfers_tableEnd ..)
  · exact (u.keepsTransfers_tableEnd o).trans (.of_transfers (State.transfers_markPresent ..))

theorem State.keepsTransfers_windowsEnd (u : State) (o : Occurrence) : u.KeepsTransfers (u.windowsEnd o) := by
  obtain ⟨_, _, _, heq⟩ := u.windowsEnd_eq o
  exact .of_windows (by rw [heq]) fun h => State.windowsOk_windowsEnd h o

/-- The end of a data slot without a fault (R9, R74, R157). -/
theorem State.keepsTransfers_dataEnd (u : State) (o : Occurrence) : u.KeepsTransfers (u.dataEnd o) := by
  have hheard : u.KeepsTransfers
      { (u.rosterAndTable o).1 with rx := (u.rosterAndTable o).1.rx.map (fun r => r.hear o) } :=
    (u.keepsTransfers_rosterAndTable o).trans (.of_transfers rfl)
  unfold State.dataEnd
  dsimp only
  split_ifs
  · exact (hheard.trans (State.keepsTransfers_windowsEnd ..)).ends _ _ o
  · exact hheard.ends _ _ o

/-- The end of a data slot (R52, R74). -/
theorem State.keepsTransfers_endDataSlot (s : State) (bits : SlotBits) : s.KeepsTransfers (s.endDataSlot bits) := by
  refine .trans (u := s.portEnd bits) (.of_transfers rfl) ?_
  cases hf : s.faultIn (s.occurrence bits) with
  | none =>
    rw [State.endDataSlot_of_none hf]
    exact State.keepsTransfers_dataEnd ..
  | some cause =>
    obtain ⟨rx, hrx⟩ := (s.portEnd bits).hearBeforeFault_eq (s.occurrence bits)
    rw [State.endDataSlot_of_some hf, hrx]
    exact .fault (by rfl) _

/-! ### Hunting -/

theorem State.keepsTransfers_candidateHeard (s : State) (bits : SlotBits) : s.KeepsTransfers (s.candidateHeard bits) := by
  unfold State.candidateHeard
  dsimp only
  split
  · exact .of_transfers rfl
  · split_ifs
    · exact .fault (by rfl) _
    · exact .of_transfers rfl
    · exact .fault (by rfl) _

/-- The listen window founds, or posts NO_TRUNK (R20). -/
theorem State.transfers_frameTimePassed (s : State) : s.frameTimePassed.transfers = s.transfers := by
  unfold State.frameTimePassed State.windowPassed
  dsimp only
  split_ifs <;> rfl

/-! ### Transactions of the bulk sender (R132 to R135) -/

/-- A posted job is QUEUED, with nothing sent (R132). -/
theorem Job.posted_ok {id dest win base len : Nat} (hid : id < 4) (h : areaOk base len = true) :
    (Job.posted id dest win base len).ok := by
  simp only [areaOk, Bool.and_eq_true, decide_eq_true_eq] at h
  obtain ⟨⟨-, -, hlen⟩, harea⟩ := h
  exact ⟨hid, Nat.zero_le _, hlen, harea, Nat.zero_le _, Nat.zero_le _, Nat.zero_le _, by simp [Job.posted]⟩

/-- The record that BULK_POST takes is one of the four, and free (R132). -/
theorem State.freeJob_spec {id : Nat} (h : s.freeJob = some id) : id < 4 ∧ s.job id = none := by
  unfold State.freeJob at h
  have hmem := List.mem_of_find?_eq_some h
  have hfree := List.find?_some h
  refine ⟨?_, Option.isNone_iff_eq_none.mp hfree⟩
  simp only [List.mem_cons, List.not_mem_nil, or_false] at hmem
  omega

theorem State.keepsTransfers_judgeBulkPost (s : State) (dest win base len : Nat) :
    s.KeepsTransfers (s.judgeBulkPost dest win base len).1 := by
  unfold State.judgeBulkPost
  split
  · exact .refl s
  · split
    · exact .refl s
    · rename_i hrange
      split
      · exact .refl s
      · rename_i id hid
        obtain ⟨hlt, hfree⟩ := State.freeJob_spec hid
        simp only [State.postInRange, Bool.not_eq_false, Bool.and_eq_true] at hrange
        obtain ⟨-, harea⟩ := hrange
        refine .of_jobs rfl rfl fun h => soundJobs_middle.mpr ⟨Job.posted_ok hlt harea, ?_, ?_, ?_⟩
        · rw [List.append_nil]
          exact h
        · rw [List.append_nil]
          exact State.job_eq_none_iff.mp hfree
        · simp [Job.posted]

theorem State.keepsTransfers_judgeBulkCancel (s : State) (id : Nat) : s.KeepsTransfers (s.judgeBulkCancel id).1 := by
  unfold State.judgeBulkCancel
  split
  · exact .refl s
  · split
    · exact .refl s
    · split
      · exact .refl s
      · rename_i j hj
        split_ifs
        · exact .refl s
        · refine .of_jobs rfl rfl fun h => ?_
          obtain ⟨-, before, after, hs⟩ := State.exists_split_of_job hj
          have hsound : SoundJobs (before ++ j :: after) := hs ▸ h
          obtain ⟨hok, -, hids, -⟩ := soundJobs_middle.mp hsound
          rw [State.doneWith, State.setJob_of_split (x := { j with state := .cancelled, slot := none }) hs hids rfl]
          exact hsound.replace_keeping (Job.ok_of_state hok (by simp)) rfl (.inr rfl)

theorem State.keepsTransfers_judgeBulkCollect (s : State) (id : Nat) : s.KeepsTransfers (s.judgeBulkCollect id).1 := by
  unfold State.judgeBulkCollect
  split
  · exact .refl s
  · split
    · exact .refl s
    · split
      · exact .refl s
      · split_ifs
        · exact .refl s
        · exact .of_jobs rfl rfl fun h => SoundJobs.filter h _

theorem State.transfers_judgeBulkStatus (s : State) (id : Nat) : (s.judgeBulkStatus id).1.transfers = s.transfers := by
  unfold State.judgeBulkStatus
  split
  · rfl
  · split
    · rfl
    · split <;> rfl

/-! ### Transactions of the bulk receiver (R153, R154) -/

theorem State.keepsTransfers_judgeWindowOpen (s : State) (w base cap : Nat) (allowed : Option Nat) :
    s.KeepsTransfers (s.judgeWindowOpen w base cap allowed).1 := by
  unfold State.judgeWindowOpen
  split_ifs with _ hrange
  · exact .refl s
  · exact .refl s
  · exact .refl s
  · simp only [not_or, Bool.not_eq_false] at hrange
    obtain ⟨-, harea, -⟩ := hrange
    exact .of_windows rfl fun h => State.windowsOk_setWindow h (Window.openedWith_ok harea allowed) w

theorem State.keepsTransfers_judgeWindowClose (s : State) (w : Nat) : s.KeepsTransfers (s.judgeWindowClose w).1 := by
  unfold State.judgeWindowClose
  split_ifs
  · exact .refl s
  · exact .refl s
  · exact .of_windows rfl fun ⟨hwindows, hanswers⟩ =>
      ⟨Bank.forall_set hwindows Window.closed_ok, AnswerQueue.withdraw_ok hanswers w⟩

/-! ### Transactions of the other blocks -/

theorem State.keepsTransfers_judgeStart (s : State) (addr len : Nat) (eligible : Bool) :
    s.KeepsTransfers (s.judgeStart addr len eligible).1 := by
  unfold State.judgeStart
  split_ifs
  · exact .refl s
  · exact .refl s
  · exact .of_cleared rfl rfl rfl

theorem State.keepsTransfers_judgeLeave (s : State) : s.KeepsTransfers s.judgeLeave.1 := by
  unfold State.judgeLeave
  split
  case h_2 | h_3 => exact .detached rfl []
  case h_4 => exact s.keepsTransfers_enterLeaving
  all_goals exact .refl s

theorem State.keepsTransfers_judgeSetRole (s : State) (n : Nat) (role : RoleArg) :
    s.KeepsTransfers (s.judgeSetRole n role).1 := by
  have change (r : Role) : s.KeepsTransfers (s.changeRole n r) := by
    unfold State.changeRole
    split_ifs
    · exact .refl s
    · exact .trans (u := s.setEntry _ _) (.of_transfers rfl) (State.keepsTransfers_lossNotice ..)
  unfold State.judgeSetRole
  split
  · exact .refl s
  · split
    · exact .refl s
    · split
      · exact .refl s
      · split_ifs
        · exact .refl s
        · exact .refl s
        · exact change _

/-- The claim queue's transactions (R93 to R96). -/
theorem State.transfers_judgeClaim (s : State) (req : ClaimArg) (p : Nat) (role : RoleArg) :
    (s.judgeClaim req p role).1.transfers = s.transfers := by
  unfold State.judgeClaim
  split
  · rfl
  · split
    · rfl
    · split
      · split_ifs <;> rfl
      · rfl

theorem State.transfers_judgeClaimCancel (s : State) (tag : Nat) :
    (s.judgeClaimCancel tag).1.transfers = s.transfers := by
  unfold State.judgeClaimCancel
  split
  · rfl
  · split
    · rfl
    · split_ifs <;> rfl

/-- Every transaction keeps jobs, windows and answers sound. -/
theorem State.keepsTransfers_judge (s : State) (i : Instr) : s.KeepsTransfers (s.judge i).1 := by
  cases i with
  | start addr len eligible => exact s.keepsTransfers_judgeStart addr len eligible
  | leave => exact s.keepsTransfers_judgeLeave
  | setRole n role => exact s.keepsTransfers_judgeSetRole n role
  | claim req priority role => exact .of_transfers (s.transfers_judgeClaim req priority role)
  | claimCancel tag => exact .of_transfers (s.transfers_judgeClaimCancel tag)
  | bulkPost dest win base len => exact s.keepsTransfers_judgeBulkPost dest win base len
  | bulkCancel id => exact s.keepsTransfers_judgeBulkCancel id
  | bulkCollect id => exact s.keepsTransfers_judgeBulkCollect id
  | bulkStatus id => exact .of_transfers (s.transfers_judgeBulkStatus id)
  | windowOpen w base cap allowed => exact s.keepsTransfers_judgeWindowOpen w base cap allowed
  | windowClose w => exact s.keepsTransfers_judgeWindowClose w
  | join | release _ | bindRx _ _ _ _ _ | unbindRx _ | channelStatus _ _ | push _ _ | pull _ _ | windowStatus _
  | readSlot _ | readRoster _ | memoryWrite _ _ | memoryRead _ _ | eventRead _ =>
    simp only [State.judge, State.judgeJoin, State.judgeRelease, State.judgeBindRx, State.judgeUnbindRx,
      State.judgeChannelStatus, State.judgePush, State.judgePull, State.judgeWindowStatus, State.judgeReadSlot,
      State.judgeReadRoster, State.judgeMemoryWrite, State.judgeMemoryRead, State.judgeEventRead]
    split_ifs <;> exact .of_transfers rfl
  | _ => exact .of_transfers rfl

/-! ### Every command -/

/-- Whatever state an outcome answers keeps jobs, windows and answers sound, and with them sound it does answer one. -/
structure State.Transfers (s : State) (x : Host.Outcome State Fault Refusal) : Prop where
  keeps : ∀ t, x = .next t → s.KeepsTransfers t
  answers : s.jobsOk → s.windowsOk → ∃ t, x = .next t

theorem State.KeepsTransfers.next (h : s.KeepsTransfers t) : s.Transfers (.next t) :=
  ⟨by rintro _ ⟨⟩; exact h, fun _ _ => ⟨t, rfl⟩⟩

theorem State.transfers_idle (s : State) : s.Transfers (.next s) := (State.KeepsTransfers.refl s).next

/-- A command that acts on a condition and is idle otherwise. -/
theorem State.transfers_ite {p : Prop} [Decidable p] {x : Host.Outcome State Fault Refusal} (hx : s.Transfers x) :
    s.Transfers (if p then x else .next s) := by
  split_ifs
  · exact hx
  · exact s.transfers_idle

/-- The reply to a transaction is a matter of the host port (R172). -/
theorem State.keepsTransfers_reply (s : State) (i : Instr) (words : List PortWord) :
    s.KeepsTransfers (s.replyWith i words (s.judge i)) := (s.keepsTransfers_judge i).trans (.of_transfers rfl)

theorem State.transfers_take (s : State) (i : Instr) : s.Transfers (.next (s.take i (s.judge i))) := by
  refine State.KeepsTransfers.next ?_
  unfold State.take
  split_ifs
  · exact s.keepsTransfers_reply i _
  · exact .refl s

theorem State.transfers_requestWord (s : State) (w : PortWord) : s.Transfers (execRequestWordShiftedIn w s) := by
  refine State.transfers_ite (State.KeepsTransfers.next ?_)
  unfold State.wordIn
  split
  · exact .of_transfers rfl
  · exact s.keepsTransfers_reply _ _

theorem State.keepsTransfers_shiftOut (s : State) : s.KeepsTransfers s.shiftOut := by
  unfold State.shiftOut
  split_ifs
  · exact .of_cleared rfl rfl rfl
  · exact .of_transfers rfl

theorem State.keepsTransfers_selectReleased (s : State) : s.KeepsTransfers s.selectReleased := by
  unfold State.selectReleased
  split_ifs
  · exact .of_cleared rfl rfl rfl
  · exact .of_transfers rfl

theorem State.transfers_replyWord (s : State) : s.Transfers (execReplyWordShiftedOut s) := by
  unfold execReplyWordShiftedOut
  split
  · exact State.KeepsTransfers.next (.of_transfers rfl)
  · exact State.KeepsTransfers.next (.of_transfers rfl)
  · exact s.keepsTransfers_shiftOut.next

theorem State.transfers_select (s : State) : s.Transfers (execTargetSelectAsserted s) := by
  unfold execTargetSelectAsserted
  split_ifs <;> exact State.KeepsTransfers.next (.of_transfers rfl)

/-- The start of a data slot reads within buffer memory if the job table is sound (R140). -/
theorem State.transfers_dataStart (s : State) (n : Nat) : s.Transfers (s.dataStart n) := by
  refine ⟨fun t ht => ?_, fun hjobs _ => ⟨_, State.dataStart_of_jobsOk hjobs n⟩⟩
  unfold State.dataStart at ht
  split at ht
  · split_ifs at ht
    cases ht
    exact s.keepsTransfers_startDataSlot n
  · cases ht
    exact s.keepsTransfers_startDataSlot n

/-- The end of a data slot writes within buffer memory if the windows are sound (R162). -/
theorem State.transfers_dataFinish (s : State) (bits : SlotBits) : s.Transfers (s.dataFinish bits) := by
  refine ⟨fun t ht => State.dataFinish_next ht ▸ s.keepsTransfers_endDataSlot bits, fun _ hwindows =>
    ⟨s.endDataSlot bits, ?_⟩⟩
  rw [State.dataFinish, State.strayWrite_eq_none hwindows]

theorem State.transfers_dataSlotStart (s : State) : s.Transfers (execDataSlotStart s) := by
  unfold execDataSlotStart
  split
  · exact s.transfers_dataStart _
  · exact s.transfers_idle

theorem State.transfers_tailResend (s : State) : s.Transfers (execTailResend s) := by
  unfold execTailResend
  split
  · exact State.transfers_ite (s.transfers_dataStart _)
  · exact s.transfers_idle

theorem State.transfers_jobNoAnswer (s : State) : s.Transfers (execJobNoAnswer s) := by
  unfold execJobNoAnswer
  split
  · split_ifs
    · exact s.transfers_idle
    · exact s.transfers_dataStart _
  · exact s.transfers_idle

theorem State.transfers_claimSlotStart (s : State) : s.Transfers (execClaimSlotStart s) := by
  refine State.transfers_ite ?_
  split_ifs <;> exact State.KeepsTransfers.next (.of_transfers rfl)

theorem State.transfers_claimAging (s : State) (bits : SlotBits) : s.Transfers (execClaimAging bits s) := by
  unfold execClaimAging
  split
  · exact s.transfers_idle
  · exact State.transfers_ite (s.keepsTransfers_endClaimSlot bits).next

theorem State.transfers_claimExpired (s : State) (bits : SlotBits) : s.Transfers (execClaimExpired bits s) := by
  unfold execClaimExpired
  split
  · exact s.transfers_idle
  · exact State.transfers_ite (s.keepsTransfers_endClaimSlot bits).next

/-- Whatever command runs. -/
theorem exec_transfers (c : Instr) (s : State) : s.Transfers (exec c s) := by
  have same {t : State} (h : t.transfers = s.transfers) : s.Transfers (.next t) :=
    State.KeepsTransfers.next (.of_transfers h)
  have reset {t : State} (h : t.transfers = State.reset.transfers) : s.Transfers (.next t) := by
    obtain ⟨hjobs, hwindows, hanswers⟩ := State.transfers_eq_iff.mp h
    exact State.KeepsTransfers.next (.of_cleared hjobs hwindows hanswers)
  have markEnd (bits : SlotBits) := (s.keepsTransfers_endMarkSlot bits).next
  have rollEnd (bits : SlotBits) := (s.keepsTransfers_endRollSlot bits).next
  have answerEnd (bits : SlotBits) := (s.keepsTransfers_endAnswerSlot bits).next
  have dataEnd (bits : SlotBits) := s.transfers_dataFinish bits
  cases c with
  | undefinedHeader header => exact State.transfers_ite (s.transfers_take _)
  | targetSelectAsserted => exact s.transfers_select
  | targetSelectReleased => exact s.keepsTransfers_selectReleased.next
  | resetPartTakesHold trigger =>
    cases trigger with
    | replyShiftedOut => exact State.transfers_ite s.keepsTransfers_shiftOut.next
    | selectReleased => exact State.transfers_ite s.keepsTransfers_selectReleased.next
  | resetLineAsserted => exact reset rfl
  | resetLineReleased => exact State.transfers_ite (reset rfl)
  | powerOnReset lineRate => exact reset rfl
  | huntingCandidate bits => exact State.transfers_ite (s.keepsTransfers_candidateHeard bits).next
  | listenWindowPasses => exact State.transfers_ite (same s.transfers_frameTimePassed)
  | listenWindowFrameTime => exact State.transfers_ite (same s.transfers_frameTimePassed)
  | markSlotStart => exact State.transfers_ite (same rfl)
  | markSlotEnd heard => exact State.transfers_ite (markEnd heard)
  | candidateRule heard => exact State.transfers_ite (markEnd heard)
  | escalation heard => exact State.transfers_ite (markEnd heard)
  | joiningToListen heard => exact State.transfers_ite (markEnd heard)
  | rollSlotStart => exact State.transfers_ite (same rfl)
  | rollSlotEnd heard => exact State.transfers_ite (rollEnd heard)
  | stationLost heard => exact State.transfers_ite (rollEnd heard)
  | claimSlotStart => exact s.transfers_claimSlotStart
  | claimSlotEnd heard => exact State.transfers_ite (s.keepsTransfers_endClaimSlot heard).next
  | claimAging heard => exact s.transfers_claimAging heard
  | claimExpired heard => exact s.transfers_claimExpired heard
  | answerSlotStart => exact State.transfers_ite s.keepsTransfers_startAnswerSlot.next
  | answerSlotEnd heard => exact State.transfers_ite (answerEnd heard)
  | answerDropped heard => exact State.transfers_ite (answerEnd heard)
  | dataSlotStart => exact s.transfers_dataSlotStart
  | tailResend => exact s.transfers_tailResend
  | jobNoAnswer => exact s.transfers_jobNoAnswer
  | dataSlotEnd heard => exact State.transfers_ite (dataEnd heard)
  | slotLapsed heard => exact State.transfers_ite (dataEnd heard)
  | windowStalled heard => exact State.transfers_ite (dataEnd heard)
  | requestWordShiftedIn word => exact s.transfers_requestWord word
  | replyWordShiftedOut => exact s.transfers_replyWord
  | _ => exact s.transfers_take _

/-- One step, whatever waits. -/
theorem step_transfers (s : State) : s.Transfers (step s) := by
  unfold step
  split
  · exact s.transfers_idle
  · rename_i c rest _
    have hexec := exec_transfers c { s with pending := rest }
    exact ⟨fun t ht => .trans (u := { s with pending := rest }) (.of_transfers rfl) (hexec.keeps t ht), hexec.answers⟩

end Sys2Proof.Machine

open Sys2Proof Sys2Proof.Machine

/-- Settles O55: every block that writes the job table keeps it sound, and the others leave it. -/
theorem jobTableStaysSound : Obligations.JobTableStaysSound :=
  fun s t hjobs hstep => ((step_transfers s).keeps t hstep).jobs hjobs

/-- Settles O60: a sound job reads and a sound window writes within buffer memory, so that the step answers a state; and
it keeps both sound. -/
theorem noCommandStopsThePart : Obligations.NoCommandStopsThePart := by
  intro s hjobs hwindows
  obtain ⟨t, hstep⟩ := (step_transfers s).answers hjobs hwindows
  have hkeeps := (step_transfers s).keeps t hstep
  exact ⟨t, hstep, hkeeps.jobs hjobs, hkeeps.windows hwindows⟩
end

