-- ==== Sys2Proof/Proofs/WindowActs.lean ====
section
/-! The bulk receiver at the end of a data slot (R157): what the four windows make of windows, pending answers and buffer
memory, and which of the events posted are one window's. -/

namespace Sys2Proof.Machine

variable {s u v : State} {n p : Nat} {o : Occurrence} {bits : SlotBits} {a : WindowAct} {q : AnswerQueue}

/-! ### What one window writes and answers -/

/-- Buffer memory with the word that a window writes, if it writes one (R162). -/
def Buffer.wrote (b : Buffer) (write : Option (Nat × DataWord)) : Buffer :=
  match write with
  | some c => b.write c.1 c.2
  | none => b

/-- Window `n`'s pending answer after what it does: the answer it calls for, else the one it had (R166). -/
def WindowAct.pending (a : WindowAct) (n : Nat) (old : Option Answer) : Option Answer :=
  match a.answer with
  | some c => some { window := n, target := c.1, verdict := c.2.1, count := c.2.2, lost := 0 }
  | none => old

/-- Asking again for what has been asked for changes nothing. -/
@[simp] theorem WindowAct.pending_pending (a : WindowAct) (n : Nat) (old : Option Answer) :
    a.pending n (a.pending n old) = a.pending n old := by
  unfold WindowAct.pending
  cases a.answer <;> rfl

/-- A window's pending answer names it. -/
theorem AnswerQueue.window_of_ofWindow {b : Answer} (h : q.ofWindow n = some b) : b.window = n := by
  have hfound := List.find?_some h
  exact beq_iff_eq.mp hfound

/-- An answer put is its window's pending answer, and no other window's (R166). -/
theorem AnswerQueue.ofWindow_put (q : AnswerQueue) (b : Answer) (n : Nat) :
    (q.put b).ofWindow n = if b.window = n then some b else q.ofWindow n := by
  have hsame : ((fun c : Answer => c.window == n) ∘ fun c => if c.window = b.window then b else c) =
      fun c => c.window == n := by
    funext c
    rw [Function.comp_apply]
    split_ifs with hc
    · rw [hc]
    · rfl
  unfold AnswerQueue.put AnswerQueue.ofWindow
  split_ifs with hany hn hn
  · obtain ⟨c, hc, hcn⟩ := List.any_eq_true.mp hany
    obtain ⟨d, hd⟩ : ∃ d, q.answers.find? (fun c => c.window == n) = some d :=
      Option.isSome_iff_exists.mp (List.find?_isSome.mpr ⟨c, hc, hn ▸ hcn⟩)
    have hdn : d.window = b.window := (AnswerQueue.window_of_ofWindow hd).trans hn.symm
    rw [List.find?_map, hsame, hd]
    exact congrArg some (if_pos hdn)
  · rw [List.find?_map, hsame]
    cases hd : q.answers.find? (fun c => c.window == n) with
    | none => rfl
    | some d =>
      have hdn : d.window ≠ b.window := fun h => hn (h.symm.trans (AnswerQueue.window_of_ofWindow hd))
      exact congrArg some (if_neg hdn)
  · have hnone : q.answers.find? (fun c => c.window == n) = none := by simpa [← hn] using hany
    rw [List.find?_append, hnone]
    simp [hn]
  · rw [List.find?_append]
    simp [hn]

/-! ### The effect of one window (R157) -/

theorem State.windowAt_applyAct (hn : n < 4) (u : State) (m : Nat) (a : WindowAct) :
    (u.applyAct m a).windowAt n = if m = n then a.window else u.windowAt n := by
  rw [State.windowAt, show (u.applyAct m a).windows = u.windows.set m a.window from rfl, Bank.get_set]
  by_cases h : m = n
  · rw [if_pos ⟨h, h ▸ hn⟩, if_pos h]
  · rw [if_neg (fun hm => h hm.1), if_neg h]
    rfl

theorem State.ofWindow_applyAct (u : State) (m n : Nat) (a : WindowAct) :
    (u.applyAct m a).answers.ofWindow n =
      if m = n then a.pending n (u.answers.ofWindow n) else u.answers.ofWindow n := by
  unfold State.applyAct WindowAct.pending
  cases a.answer with
  | none => exact (ite_self _).symm
  | some c =>
    refine (AnswerQueue.ofWindow_put ..).trans ?_
    by_cases h : m = n
    · subst h
      rw [if_pos rfl]
    · rw [if_neg h, if_neg h]

theorem State.buffer_applyAct (u : State) (m : Nat) (a : WindowAct) : (u.applyAct m a).buffer = u.buffer.wrote a.write := rfl

theorem State.answers_applyAct_of_none (ha : a.answer = none) (u : State) (m : Nat) :
    (u.applyAct m a).answers = u.answers := by
  unfold State.applyAct
  rw [ha]

/-! ### The windows one after the other -/

section Fold

variable (acts : Nat → WindowAct)

/-- The windows `ns` act in this order. -/
def State.applyActs (u : State) (ns : List Nat) : State := ns.foldl (fun t m => t.applyAct m (acts m)) u

theorem State.windowAt_applyActs (hn : n < 4) (ns : List Nat) :
    ∀ u : State, (u.applyActs acts ns).windowAt n = if n ∈ ns then (acts n).window else u.windowAt n := by
  induction ns with
  | nil => exact fun u => rfl
  | cons m ns ih =>
    intro u
    refine (ih (u.applyAct m (acts m))).trans ?_
    rw [State.windowAt_applyAct hn]
    by_cases hm : m = n
    · subst hm
      simp
    · simp [hm, Ne.symm hm]

theorem State.ofWindow_applyActs (n : Nat) (ns : List Nat) :
    ∀ u : State, (u.applyActs acts ns).answers.ofWindow n =
      if n ∈ ns then (acts n).pending n (u.answers.ofWindow n) else u.answers.ofWindow n := by
  induction ns with
  | nil => exact fun u => rfl
  | cons m ns ih =>
    intro u
    refine (ih (u.applyAct m (acts m))).trans ?_
    rw [State.ofWindow_applyAct]
    by_cases hm : m = n
    · subst hm
      simp
    · simp [hm, Ne.symm hm]

theorem State.answers_applyActs {ns : List Nat} (h : ∀ m ∈ ns, (acts m).answer = none) :
    ∀ u : State, (u.applyActs acts ns).answers = u.answers := by
  induction ns with
  | nil => exact fun u => rfl
  | cons m ns ih =>
    intro u
    refine (ih (fun k hk => h k (List.mem_cons_of_mem m hk)) (u.applyAct m (acts m))).trans ?_
    exact State.answers_applyAct_of_none (h m (List.mem_cons_self ..)) u m

/-- Where window `n` alone writes, buffer memory takes its word alone. -/
theorem State.buffer_applyActs {ns : List Nat} (hns : ns.Nodup) (h : ∀ m ∈ ns, m ≠ n → (acts m).write = none) :
    ∀ u : State, (u.applyActs acts ns).buffer = if n ∈ ns then u.buffer.wrote (acts n).write else u.buffer := by
  induction ns with
  | nil => exact fun u => rfl
  | cons m ns ih =>
    intro u
    obtain ⟨hm, hnodup⟩ := List.nodup_cons.mp hns
    refine (ih hnodup (fun k hk => h k (List.mem_cons_of_mem m hk)) (u.applyAct m (acts m))).trans ?_
    rw [State.buffer_applyAct]
    by_cases hmn : m = n
    · subst hmn
      rw [if_neg hm, if_pos (List.mem_cons_self ..)]
    · rw [h m (List.mem_cons_self ..) hmn]
      simp only [List.mem_cons, Ne.symm hmn, false_or]
      rfl

end Fold

theorem State.windowsEnd_eq_applyActs (u : State) (o : Occurrence) :
    u.windowsEnd o = u.applyActs (u.windowAct o) windowIds := rfl

theorem mem_windowIds : n ∈ windowIds ↔ n < 4 := by
  simp only [windowIds, List.mem_cons, List.not_mem_nil, or_false]
  omega

/-- What a window does is a matter of the windows and the configuration. -/
theorem State.windowAct_congr (hw : v.windows = u.windows) (hc : v.control = u.control) (o : Occurrence) :
    v.windowAct o = u.windowAct o := by
  funext n
  rw [State.windowAct, State.windowAct, State.self_congr hc, State.windowAt, State.windowAt, hw]

/-! ### Roster and table leave the answer queue -/

theorem State.answers_lossNotice (u : State) (role : Option Role) (n : Nat) : (u.lossNotice role n).answers = u.answers := by
  rw [State.lossNotice_eq]

theorem State.answers_freeSlot (u : State) (n : Nat) : (u.freeSlot n).answers = u.answers := by
  rw [State.freeSlot_eq]

theorem State.answers_silenceStep (u : State) (o : Occurrence) : (u.silenceStep o).1.answers = u.answers := by
  unfold State.silenceStep
  dsimp only
  split
  · rfl
  · split_ifs
    · rfl
    · exact u.answers_freeSlot _
    · rfl

theorem State.answers_correct (u : State) (o : Occurrence) : (u.correct o).1.answers = u.answers := by
  obtain ⟨-, -, h⟩ := State.transfers_eq_iff.mp (u.transfers_correct o)
  exact h

theorem State.answers_markPresent (u : State) (o : Occurrence) : (u.markPresent o).1.answers = u.answers := by
  obtain ⟨-, -, h⟩ := State.transfers_eq_iff.mp (u.transfers_markPresent o)
  exact h

theorem State.answers_loseSlot (u : State) (o : Occurrence) : (u.loseSlot o).1.answers = u.answers := by
  unfold State.loseSlot
  dsimp only
  split
  · exact u.answers_freeSlot _
  · split_ifs
    · exact State.answers_lossNotice ..
    · exact u.answers_freeSlot _

theorem State.answers_tableEnd (u : State) (o : Occurrence) : (u.tableEnd o).1.answers = u.answers := by
  have steps (y : State) : (y.ownerSteps o).1.answers = y.answers := by
    have hsilence := y.answers_silenceStep o
    unfold State.ownerSteps
    split
    · exact (State.answers_correct ..).trans hsilence
    · split_ifs
      · exact (State.answers_loseSlot ..).trans hsilence
      · exact hsilence
    · exact hsilence
    · exact hsilence
  unfold State.tableEnd
  dsimp only
  split_ifs
  · rfl
  · exact steps _

/-- Roster and table in either order (R66, R67). -/
theorem State.answers_rosterAndTable (u : State) (o : Occurrence) : (u.rosterAndTable o).1.answers = u.answers := by
  unfold State.rosterAndTable
  split_ifs
  · exact (State.answers_tableEnd ..).trans (u.answers_markPresent o)
  · exact (State.answers_markPresent ..).trans (u.answers_tableEnd o)

/-! ### Events of one window -/

/-- Window `n` stands once among the four. -/
theorem windowIds_split (hn : n < 4) :
    ∃ before after, windowIds = before ++ n :: after ∧ ∀ m ∈ before ++ after, m < 4 ∧ m ≠ n := by
  obtain ⟨before, after, hsplit⟩ := List.append_of_mem (mem_windowIds.mpr hn)
  have hnodup : (before ++ n :: after).Nodup := hsplit ▸ by decide
  refine ⟨before, after, hsplit, fun m hm => ⟨mem_windowIds.mp ?_, fun heq => ?_⟩⟩
  · rw [hsplit]
    exact List.perm_middle.mem_iff.mpr (List.mem_cons_of_mem n hm)
  · exact (List.nodup_cons.mp (List.nodup_middle.mp hnodup)).1 (heq ▸ hm)

/-- Among events of other kinds none is picked. -/
theorem PostsOnly.filter_eq_nil {ks ls : List EventKind} {es : List Event} {pick : Event → Bool} (h : PostsOnly ks es)
    (hpick : ∀ e, pick e = true → e.kind ∈ ls) (hdisjoint : ∀ k ∈ ks, k ∉ ls) : es.filter pick = [] :=
  List.filter_eq_nil_iff.mpr fun e he hp => hdisjoint _ (h.kinds e he) (hpick e hp)

/-- Of all that the end of a data slot posts, the events of windows that no window but `n` posts are window `n`'s. -/
theorem filter_mergeAll_windowEvents (hn : n < 4) {pick : Event → Bool} (hpick : ∀ e, pick e = true → e.kind ∈ windowKinds)
    (hothers : ∀ m < 4, m ≠ n → (u.windowAct o m).events.filter pick = []) {roster table off : List Event}
    (hroster : PostsOnly [.stationJoined] roster) (htable : PostsOnly tableKinds table)
    (hoff : PostsOnly [.holderChanged, .markStray, .markMismatch] off) (happening : Nat) :
    (mergeAll happening 0 ([roster, table, off] ++ channelIds.map (fun c => (u.rxAt c).overrunEvents o c) ++
      u.windowEvents o)).filter pick = (u.windowAct o n).events.filter pick := by
  obtain ⟨before, after, hsplit, hne⟩ := windowIds_split hn
  have others (ms : List Nat) (hms : ∀ m ∈ ms, m < 4 ∧ m ≠ n) :
      ∀ g ∈ ms.map (fun m => (u.windowAct o m).events), g.filter pick = [] := by
    intro g hg
    obtain ⟨m, hm, rfl⟩ := List.mem_map.mp hg
    exact hothers m (hms m hm).1 (hms m hm).2
  have hgroups : [roster, table, off] ++ channelIds.map (fun c => (u.rxAt c).overrunEvents o c) ++ u.windowEvents o =
      ([roster, table, off] ++ channelIds.map (fun c => (u.rxAt c).overrunEvents o c) ++
        before.map (fun m => (u.windowAct o m).events)) ++ (u.windowAct o n).events ::
        after.map (fun m => (u.windowAct o m).events) := by
    simp [State.windowEvents, hsplit]
  rw [hgroups]
  refine filter_mergeAll pick happening (fun g hg => ?_)
    (others after fun m hm => hne m (List.mem_append_right before hm)) 0
  rcases List.mem_append.mp hg with hg | hg
  · rcases List.mem_append.mp hg with hg | hg
    · simp only [List.mem_cons, List.not_mem_nil, or_false] at hg
      rcases hg with rfl | rfl | rfl
      · exact hroster.filter_eq_nil hpick (by decide)
      · exact htable.filter_eq_nil hpick (by decide)
      · exact hoff.filter_eq_nil hpick (by decide)
    · obtain ⟨c, -, rfl⟩ := List.mem_map.mp hg
      exact (RxChannel.overrunEvents_postsOnly ..).filter_eq_nil hpick (by decide)
  · exact others before (fun m hm => hne m (List.mem_append_left after hm)) g hg

/-! ### The end of a data slot -/

/-- From `s` to `t` the four windows have acted on the occurrence, and `es` has been posted (R157, R166, R177). -/
structure State.WindowsActed (s : State) (o : Occurrence) (t : State) (es : List Event) : Prop where
  windowAt : ∀ n < 4, t.windowAt n = (s.windowAct o n).window
  ofWindow : ∀ n < 4, t.answers.ofWindow n = (s.windowAct o n).pending n (s.answers.ofWindow n)
  answers : (∀ n < 4, (s.windowAct o n).answer = none) → t.answers = s.answers
  buffer : ∀ n < 4, (∀ m < 4, m ≠ n → (s.windowAct o m).write = none) →
    t.buffer = s.buffer.wrote (s.windowAct o n).write
  events : t.events = s.events.postAll es
  posts : ∀ n < 4, ∀ pick : Event → Bool, (∀ e, pick e = true → e.kind ∈ windowKinds) →
    (∀ m < 4, m ≠ n → (s.windowAct o m).events.filter pick = []) → es.filter pick = (s.windowAct o n).events.filter pick

/-- At the end of a data slot in MEMBER and LEAVING the windows act beside all other blocks (R38, R157). -/
theorem State.dataEnd_windowsActed (u : State) (o : Occurrence) (hserving : u.control.state.serving = true) :
    ∃ es, u.WindowsActed o (u.dataEnd o) es := by
  obtain ⟨hbuffer, hevents, -, -, -, hwindows⟩ := State.stores_eq_iff.mp (u.stores_rosterAndTable o)
  obtain ⟨hcontrol, -⟩ := State.front_eq_iff.mp (u.front_rosterAndTable o)
  have hanswers := u.answers_rosterAndTable o
  obtain ⟨hroster, htable⟩ := u.rosterAndTable_postsOnly o
  obtain ⟨heard, hheard⟩ : ∃ heard : State, heard =
    { (u.rosterAndTable o).1 with rx := (u.rosterAndTable o).1.rx.map (fun r => r.hear o) } := ⟨_, rfl⟩
  obtain ⟨gs, hgs⟩ : ∃ gs, gs = [(u.rosterAndTable o).2.1, (u.rosterAndTable o).2.2, u.offSlotEvents o] ++
      channelIds.map (fun c => (u.rxAt c).overrunEvents o c) ++ u.windowEvents o := ⟨_, rfl⟩
  have hacts : heard.windowAct o = u.windowAct o :=
    State.windowAct_congr (by rw [hheard, hwindows]) (by rw [hheard, hcontrol]) o
  have hacted : heard.windowsEnd o = heard.applyActs (u.windowAct o) windowIds := by
    rw [State.windowsEnd_eq_applyActs, hacts]
  obtain ⟨timer, control, hends, -⟩ := State.ends_eq (heard.applyActs (u.windowAct o) windowIds) 0 gs o
  have hend : u.dataEnd o =
      ((State.postGroups (heard.applyActs (u.windowAct o) windowIds) 0 gs).passOn o).nextHappening := by
    rw [State.dataEnd, ← hacted, hheard, hgs]
    simp only [hserving, if_true]
  have hfront : (heard.applyActs (u.windowAct o) windowIds).events = u.events := by
    obtain ⟨-, -, -, -, -, h⟩ := State.front_eq_iff.mp (State.front_foldl_applyAct (u.windowAct o) windowIds heard).1
    exact h.trans (by rw [hheard, hevents])
  rw [hend, hends]
  refine ⟨_, ?windowAt, ?ofWindow, ?answers, ?buffer, by rw [hfront], ?posts⟩
  case windowAt =>
    intro n hn
    exact (State.windowAt_applyActs (u.windowAct o) hn windowIds heard).trans (if_pos (mem_windowIds.mpr hn))
  case ofWindow =>
    intro n hn
    refine (State.ofWindow_applyActs (u.windowAct o) n windowIds heard).trans ((if_pos (mem_windowIds.mpr hn)).trans ?_)
    rw [hheard, hanswers]
  case answers =>
    intro hnone
    refine (State.answers_applyActs (u.windowAct o) (fun m hm => hnone m (mem_windowIds.mp hm)) heard).trans ?_
    rw [hheard, hanswers]
  case buffer =>
    intro n hn hnone
    refine (State.buffer_applyActs (u.windowAct o) (n := n) (by decide) (fun m hm => hnone m (mem_windowIds.mp hm))
      heard).trans ((if_pos (mem_windowIds.mpr hn)).trans ?_)
    rw [hheard, hbuffer]
  case posts =>
    intro n hn pick hpick hothers
    rw [hgs]
    exact filter_mergeAll_windowEvents hn hpick hothers hroster htable (u.offSlotEvents_postsOnly o) _

section Served

variable (hst : s.control.state = .member ∨ s.control.state = .leaving)
include hst

/-- A MEMBER or LEAVING station finds no fault but a duplicate address (R33, R52). -/
theorem State.faultIn_of_served (hd : o.duplicate s.self = false) : s.faultIn o = none := by
  obtain ⟨hj, hl⟩ : s.control.state ≠ .joining ∧ s.control.state ≠ .listen := by rcases hst with h | h <;> simp [h]
  exact State.faultIn_eq_none hd (Occurrence.lengthFault_eq_false_of_state s.len hj hl)

variable (hp : s.passes p) (h4 : 4 ≤ p) (hlen : p < s.len)
include hp h4 hlen

/-- The end of a data slot of the frame is acted on in MEMBER and LEAVING (R39). -/
theorem State.dataEnds_of_served : s.dataEnds = true := by
  have hon : s.control.state.onTrunk = true := by rcases hst with h | h <;> rw [h] <;> rfl
  simp [State.dataEnds, State.endsAt_of_passes hp, isDataSlot, h4, hlen, hon]

/-- DATA_SLOT_END in MEMBER and LEAVING, no fault found and no write outside buffer memory. -/
theorem State.exec_dataSlotEnd_windowsActed (hd : (s.occurrence bits).duplicate s.self = false)
    (hstray : s.strayWrite bits = none) :
    ∃ o t es, o = s.occurrence bits ∧ o.slot = p ∧ o.heard = classify bits ∧ o.frame = s.timer.frame ∧
      exec (.dataSlotEnd bits) s = .next t ∧ s.WindowsActed o t es := by
  have hexec : exec (.dataSlotEnd bits) s = s.dataFinish bits := if_pos (State.dataEnds_of_served hst hp h4 hlen)
  rw [State.dataFinish, hstray, State.endDataSlot_of_none (State.faultIn_of_served hst hd)] at hexec
  obtain ⟨es, hacted⟩ := (s.portEnd bits).dataEnd_windowsActed (s.occurrence bits) (StationState.serving_iff.mpr hst)
  exact ⟨_, _, es, rfl, State.occurrence_slot_of_passes hp bits, rfl, rfl, hexec, hacted.windowAt, hacted.ofWindow,
    hacted.answers, hacted.buffer, hacted.events, hacted.posts⟩

end Served

end Sys2Proof.Machine
end

