-- ==== Sys2Proof/Proofs/WindowWords.lean ====
section
/-! What a word heard in a data slot does to a window (R157 to R165): which of chapter 9's rules takes it, what that rule
makes of the window, and that the other windows stay. -/

namespace Sys2Proof.Machine

variable {x : Window} {n self : Nat} {o : Occurrence} {w : SlotWord} {a : WindowAct} {source : StallOrigin}

/-! ### Which rule takes an occurrence (R157) -/

theorem Window.hasSender_iff :
    x.hasSender = true ↔ x.state = .receiving ∨ x.state = .gap ∨ x.state = .stalled ∨ x.state = .complete := by
  cases hst : x.state <;> simp [Window.hasSender, hst]

theorem Window.inStep_iff :
    x.inStep = true ↔ x.state = .receiving ∨ x.state = .stalled ∧ x.origin = some .receiving := by
  simp [Window.inStep]

/-- A window that has missed no word of its block has a sender. -/
theorem Window.hasSender_of_inStep (h : x.inStep = true) : x.hasSender = true :=
  Window.hasSender_iff.mpr ((Window.inStep_iff.mp h).imp_right fun hstalled => .inr (.inl hstalled.1))

/-- A word of one kind is no acceptable word of another. -/
theorem Heard.acceptable_eq_none_of_valid {h : Heard} {k : Kind} (hv : h = .valid w) (hk : w.kind ≠ k) :
    h.acceptable k = none :=
  Heard.acceptable_none_of_kind fun _ hv' => Heard.valid.inj (hv.symm.trans hv') ▸ hk

/-- A window that is neither in its sender slot nor named by a HEAD stays (R157). -/
theorem Window.act_of_elsewhere (hslot : x.senderSlot ≠ some o.slot)
    (hname : ∀ w, o.heard.acceptable .head = some w → w.headDest = self → w.headWindow ≠ n) :
    x.act n o self = x.idle := by
  unfold Window.act
  cases hw : o.heard.acceptable .head with
  | none => simp [hslot]
  | some w =>
    have hnot : ¬(w.headDest = self ∧ w.headWindow = n) := fun ⟨hdest, h⟩ => hname w hw hdest h
    simp [hslot, hnot]

/-- Outside its sender slot a window posts at most that its block restarts (R159). -/
theorem Window.act_elsewhere_postsOnly (hslot : x.senderSlot ≠ some o.slot) :
    PostsOnly [.windowRestarted] (x.act n o self).events := by
  have block (w : SlotWord) : PostsOnly [.windowRestarted] (x.headInBlock n o w).events := by
    unfold Window.headInBlock
    split_ifs
    · exact .singleton (by simp)
    all_goals exact .nil
  have head (w : SlotWord) : PostsOnly [.windowRestarted] (x.head n o w).events := by
    unfold Window.head
    cases x.state with
    | receiving | gap | stalled => exact block w
    | opened | complete => dsimp only; split_ifs <;> exact .nil
    | closed | failed => exact .nil
  unfold Window.act
  cases o.heard.acceptable .head with
  | none =>
    simp only [hslot, beq_iff_eq, Bool.and_eq_true, and_false, if_false]
    exact .nil
  | some w =>
    simp only [hslot, beq_iff_eq, Bool.and_eq_true, and_false, false_and, if_false]
    split_ifs
    · exact .nil
    · exact head w
    · exact .nil

/-- Outside RECEIVING and GAP no stall is counted (R165). -/
theorem Window.stallOnce_of_settled (hst : x.state ≠ .receiving ∧ x.state ≠ .gap) (n : Nat) (o : Occurrence) :
    x.stallOnce n o = x.idle := by
  unfold Window.stallOnce
  cases hx : x.state with
  | receiving => exact absurd hx hst.1
  | gap => exact absurd hx hst.2
  | _ => rfl

/-- A HEAD of another station than its sender leaves a window that has one (R159, R160). -/
theorem Window.head_window_of_other (hx : x.hasSender = true) (hother : x.sender ≠ some w.sender) :
    (x.head n o w).window = x := by
  rcases Window.hasSender_iff.mp hx with hst | hst | hst | hst <;>
    simp [Window.head, Window.headInBlock, hst, hother, Window.answers]

/-- An act that leaves the window is not changed by staying idle besides. -/
theorem WindowAct.add_idle (h : a.window = x) :
    { a with window := x.idle.window, events := a.events ++ x.idle.events } = a := by
  subst h
  simp [Window.idle]

section Head

variable (hw : o.heard.acceptable .head = some w) (hself : w.sender ≠ self)
include hw hself

/-- A HEAD that names the window is the window's, where it cannot count as a stall occurrence too (log 14). -/
theorem Window.act_of_named (hdest : w.headDest = self) (hname : w.headWindow = n)
    (hquiet : x.sender = some w.sender ∨ (x.state ≠ .receiving ∧ x.state ≠ .gap) ∨ x.senderSlot ≠ some o.slot) :
    x.act n o self = x.head n o w := by
  unfold Window.act
  simp only [hw, hself, hdest, hname, and_false, and_true, if_false, if_true, Bool.and_eq_true, beq_iff_eq]
  split_ifs with hforeign
  · obtain ⟨hother, ⟨hx, hslot⟩, -⟩ := hforeign
    have hsettled := (hquiet.resolve_left hother).resolve_right (not_not.mpr hslot)
    have hwindow := Window.head_window_of_other (n := n) (o := o) hx hother
    rw [hwindow, Window.stallOnce_of_settled hsettled]
    exact WindowAct.add_idle hwindow
  · rfl

/-- The sender's HEAD that names another window or another station withdraws the slot (R161). -/
theorem Window.act_of_withdrawal (hnot : w.headDest ≠ self ∨ w.headWindow ≠ n) (hx : x.hasSender = true)
    (hslot : x.senderSlot = some o.slot) (hsender : x.sender = some w.sender) : x.act n o self = x.withdrawn n o := by
  have hnamed : ¬(w.headDest = self ∧ w.headWindow = n) := fun ⟨hdest, hname⟩ =>
    hnot.elim (· hdest) (· hname)
  simp [Window.act, hw, hself, hnamed, hx, hslot, hsender]

end Head

section InSlot

variable (hx : x.hasSender = true) (hslot : x.senderSlot = some o.slot)
include hx hslot

/-- Any other word in the sender slot is followed (R162 to R165). -/
theorem Window.act_of_follow (hw : o.heard.acceptable .head = none) : x.act n o self = x.follow n o := by
  simp [Window.act, hw, hx, hslot]

/-- Another station's HEAD for another station is a stall occurrence (R165). -/
theorem Window.act_of_foreignHead (hw : o.heard.acceptable .head = some w) (hdest : w.headDest ≠ self)
    (hother : x.sender ≠ some w.sender) : x.act n o self = x.stallOnce n o := by
  simp [Window.act, hw, hdest, hx, hslot, hother]

end InSlot

/-! ### HEAD (R158 to R160) -/

/-- Who is refused, and why: all by a window that is not open, and by an OPEN one whom it does not allow (R158). -/
theorem Window.head_of_refused {reason : RefuseReason}
    (h : x.state = .opened ∧ x.allowed ≠ none ∧ x.allowed ≠ some w.sender ∧ reason = .sender ∨
      (x.state = .closed ∨ x.state = .failed) ∧ reason = .closed) :
    x.head n o w = x.answers w.sender (.refuse reason) x.count := by
  rcases h with ⟨hst, hsome, hother, rfl⟩ | ⟨hst | hst, rfl⟩
  · simp [Window.head, hst, hsome, hother]
  · simp [Window.head, hst]
  · simp [Window.head, hst]

/-- An OPEN window takes a block from its start (R158). -/
theorem Window.head_of_opened (hst : x.state = .opened) (hallowed : x.allowed = none ∨ x.allowed = some w.sender) :
    x.head n o w =
      if w.headOffset = 0 then
        Window.idle { x with
          state := .receiving, sender := some w.sender, senderSlot := some o.slot, count := 0, stall := 0 }
      else x.answers w.sender .rewind 0 := by
  have hnot : ¬(x.allowed ≠ none ∧ x.allowed ≠ some w.sender) := fun ⟨hsome, hother⟩ =>
    hallowed.elim hsome hother
  rw [Window.head, hst]
  exact if_neg hnot

theorem Window.head_of_block (hst : x.state = .receiving ∨ x.state = .gap ∨ x.state = .stalled) :
    x.head n o w = x.headInBlock n o w := by
  rcases hst with hst | hst | hst <;> rw [Window.head, hst]

/-- A COMPLETE window (R160). -/
theorem Window.head_of_complete (hst : x.state = .complete) :
    x.head n o w =
      if x.sender = some w.sender ∧ w.headResume = true ∧ x.recorded = some w.headOffset then
        Window.answers { x with senderSlot := some o.slot } w.sender .done w.headOffset
      else x.answers w.sender (.refuse .busy) x.count := by
  rw [Window.head, hst]

/-! ### The sender's HEAD for another window (R161) -/

theorem Window.withdrawn_of_block (hst : x.state = .receiving ∨ x.state = .gap) :
    x.withdrawn n o =
      { window := { x with state := .stalled, senderSlot := none, origin := some .gap }, write := none, answer := none,
        events := [x.event .windowStalled o.frame n x.count] } := by
  rcases hst with hst | hst <;> rw [Window.withdrawn, hst]

theorem Window.withdrawn_of_stalled (hst : x.state = .stalled) :
    x.withdrawn n o = Window.idle { x with senderSlot := none, origin := some .gap } := by
  rw [Window.withdrawn, hst]

theorem Window.withdrawn_of_complete (hst : x.state = .complete) :
    x.withdrawn n o = Window.idle { x with senderSlot := none } := by
  rw [Window.withdrawn, hst]

/-! ### TAIL, CORRUPT and BULK from the sender (R162 to R164) -/

theorem Window.follow_of_corrupt (h : o.heard = .corrupt) : x.follow n o = x.corruptWord n o := by
  rw [Window.follow, h]

theorem Window.follow_of_tail (h : o.heard = .valid w) (hsender : x.sender = some w.sender) (hk : w.kind = .tail)
    (hm : w.malformed = false) : x.follow n o = x.tail n o w := by
  simp [Window.follow, h, hsender, hk, hm]

theorem Window.follow_of_bulk (h : o.heard = .valid w) (hsender : x.sender = some w.sender) (hk : w.kind = .bulk)
    (hst : x.state ≠ .complete) : x.follow n o = x.bulk n o w := by
  simp [Window.follow, h, hsender, hk, hst]

/-- A COMPLETE window answers the TAIL (R163). -/
theorem Window.tail_of_complete (hst : x.state = .complete) :
    x.tail n o w =
      if x.recorded = some w.tailLength then Window.answers { x with stall := 0 } w.sender .done w.tailLength
      else Window.answers { x with stall := 0 } w.sender (.refuse .busy) x.count :=
  if_pos hst

/-- Where no word has been missed, the count tells whether the block is complete (R163). -/
theorem Window.tail_of_inStep (h : x.inStep = true) :
    x.tail n o w =
      if x.count = w.tailLength then
        { window := { x with state := .complete, recorded := some w.tailLength, stall := 0, origin := none }, write := none,
          answer := some (w.sender, .done, w.tailLength), events := [x.event .windowComplete o.frame n w.tailLength] }
      else if x.count < w.tailLength then x.toGap.answers w.sender .rewind x.count
      else Window.overruns { x with stall := 0 } n o w.sender := by
  have hst : x.state ≠ .complete := fun hc => by simp [Window.inStep, hc] at h
  exact (if_neg hst).trans (if_pos h)

/-- Where words have been missed, the block is asked for again from the count (R163). -/
theorem Window.tail_of_missed (hst : x.state ≠ .complete) (h : x.inStep = false) :
    x.tail n o w = x.toGap.answers w.sender .rewind x.count :=
  (if_neg hst).trans (if_neg (ne_true_of_eq_false h))

/-- Where no word has been missed, a BULK word is written behind the words that the window has, if there is room (R162). -/
theorem Window.bulk_of_inStep {base cap : Nat} (h : x.inStep = true) (hbase : x.base = some base)
    (hcap : x.capacity = some cap) :
    x.bulk n o w =
      if x.count < cap then
        { window := { x with state := .receiving, count := x.count + 1, stall := 0, origin := none },
          write := some (base + x.count, w.body), answer := none, events := [] }
      else x.overruns n o w.sender := by
  rw [Window.bulk, if_pos h, hbase, hcap]
  rfl

/-- A window STALLED after a missed word asks for the words from its count on (R162). -/
theorem Window.bulk_of_missed (hst : x.state = .stalled) (horigin : x.origin = some .gap) :
    x.bulk n o w = x.toGap.answers w.sender .rewind x.count := by
  simp [Window.bulk, Window.inStep, hst, horigin]

/-! ### Stall occurrences (R165) -/

/-- A window in a block, which a stall leaves with its state as stall origin (R165). -/
theorem Window.stallOnce_eq (hst : x.state = .receiving ∧ source = .receiving ∨ x.state = .gap ∧ source = .gap) :
    x.stallOnce n o =
      if x.stall + 1 < 64 then Window.idle { x with stall := x.stall + 1 }
      else
        { window := { x with state := .stalled, stall := 64, origin := some source }, write := none, answer := none,
          events := [x.event .windowStalled o.frame n x.count] } := by
  rcases hst with ⟨hst, rfl⟩ | ⟨hst, rfl⟩ <;> rw [Window.stallOnce, hst]

/-- What is no accepted word to a window in a block is a stall occurrence (R162, R164, R165). -/
theorem Window.act_of_unaccepted (hst : x.state = .receiving ∧ source = .receiving ∨ x.state = .gap ∧ source = .gap)
    (hslot : x.senderSlot = some o.slot)
    (h : o.heard = .silent ∨ o.heard = .corrupt ∧ source = .gap ∨
      ∃ w, o.heard = .valid w ∧
        (w.kind = .head → w.malformed = true ∨ w.headDest ≠ self ∧ x.sender ≠ some w.sender) ∧
        (x.sender = some w.sender → (w.kind = .bulk → source = .gap) ∧ (w.kind = .tail → w.malformed = true))) :
    x.act n o self = x.stallOnce n o := by
  have hx : x.hasSender = true := Window.hasSender_iff.mpr (hst.elim (fun h => .inl h.1) fun h => .inr (.inl h.1))
  have gap (hgap : source = .gap) : x.state = .gap ∧ x.inStep = false := by
    subst hgap
    have hgap : x.state = .gap := by simpa using hst
    exact ⟨hgap, by simp [Window.inStep, hgap]⟩
  rcases h with h | ⟨h, hgap⟩ | ⟨w, h, hhead, hsent⟩
  · rw [Window.act_of_follow hx hslot (by rw [h]; rfl), Window.follow, h]
  · obtain ⟨hstate, hstep⟩ := gap hgap
    rw [Window.act_of_follow hx hslot (by rw [h]; rfl), Window.follow_of_corrupt h, Window.corruptWord, hstep, hstate]
    rfl
  · cases hw : o.heard.acceptable .head with
    | some v =>
      obtain ⟨hv, hk, hm⟩ := Heard.acceptable_eq_some.mp hw
      obtain rfl : w = v := Heard.valid.inj (h.symm.trans hv)
      obtain ⟨hdest, hother⟩ := (hhead hk).resolve_left (by simp [hm])
      exact Window.act_of_foreignHead hx hslot hw hdest hother
    | none =>
      rw [Window.act_of_follow hx hslot hw, Window.follow, h]
      dsimp only
      split_ifs with hbulk htail
      · obtain ⟨hsender, hk, -⟩ := hbulk
        obtain ⟨hstate, hstep⟩ := gap ((hsent hsender).1 hk)
        rw [Window.bulk, hstep, hstate]
        rfl
      · obtain ⟨hsender, hk, hm⟩ := htail
        rw [(hsent hsender).2 hk] at hm
        cases hm
      · rfl

end Sys2Proof.Machine
end

