-- ==== Sys2Proof/Proofs/WindowSlots.lean ====
section
/-! The end of a window's sender slot as a command (R157 to R165): which words write to buffer memory, which events are one
window's, and what chapter 9 asks of HEAD, TAIL, CORRUPT, BULK and of silence. -/

namespace Sys2Proof.Machine

variable {s t : State} {x : Window} {n p self : Nat} {o : Occurrence} {w : SlotWord} {bits : SlotBits} {a : WindowAct}
  {es fs : List Event} {k : EventKind}

/-! ### Words that are no BULK -/

theorem Window.follow_write_of_not_bulk (h : ∀ w, o.heard = .valid w → w.kind ≠ .bulk) : (x.follow n o).write = none := by
  unfold Window.follow
  split
  · exact x.stallOnce_write n o
  · exact x.corruptWord_write n o
  · rename_i w hw
    rw [if_neg fun hbulk => h w hw hbulk.2.1]
    split_ifs
    · exact x.tail_write n o w
    · exact x.stallOnce_write n o

/-- No other word is written (R162). -/
theorem Window.act_write_of_not_bulk (h : ∀ w, o.heard = .valid w → w.kind ≠ .bulk) : (x.act n o self).write = none := by
  unfold Window.act
  dsimp only
  split
  · split_ifs
    · rfl
    · exact x.head_write n o _
    · exact x.head_write n o _
    · exact x.withdrawn_write n o
    · exact x.stallOnce_write n o
    · rfl
    · exact x.stallOnce_write n o
    · rfl
  · split_ifs
    · exact Window.follow_write_of_not_bulk h
    · rfl

theorem State.strayWrite_of_not_bulk (h : ∀ w, classify bits = .valid w → w.kind ≠ .bulk) : s.strayWrite bits = none := by
  have hwrites : s.windowWrites (s.occurrence bits) = [] := by
    refine List.filterMap_eq_nil_iff.mpr fun n _ => ?_
    rw [State.windowAct, Window.act_write_of_not_bulk h]
    rfl
  unfold State.strayWrite
  rw [hwrites]
  exact ite_self none

/-! ### Events of window `n` -/

/-- Every event of the list is of window `n`. -/
structure PostsFor (n : Nat) (es : List Event) : Prop where
  window : ∀ e ∈ es, e.window = some n

theorem PostsFor.nil : PostsFor n [] := ⟨by simp⟩

theorem PostsFor.singleton {e : Event} (h : e.window = some n) : PostsFor n [e] := ⟨by simpa using h⟩

theorem PostsFor.append (h : PostsFor n es) (h' : PostsFor n fs) : PostsFor n (es ++ fs) :=
  ⟨fun e he => (List.mem_append.mp he).elim (h.window e) (h'.window e)⟩

theorem Window.stallOnce_postsFor (x : Window) (n : Nat) (o : Occurrence) : PostsFor n (x.stallOnce n o).events := by
  unfold Window.stallOnce
  dsimp only
  split
  case h_1 | h_2 =>
    split_ifs
    · exact .nil
    · exact .singleton rfl
  all_goals exact .nil

theorem Window.headInBlock_postsFor (x : Window) (n : Nat) (o : Occurrence) (w : SlotWord) :
    PostsFor n (x.headInBlock n o w).events := by
  unfold Window.headInBlock
  split_ifs
  · exact .singleton rfl
  all_goals exact .nil

theorem Window.head_postsFor (x : Window) (n : Nat) (o : Occurrence) (w : SlotWord) : PostsFor n (x.head n o w).events := by
  unfold Window.head
  cases x.state with
  | receiving | gap | stalled => exact x.headInBlock_postsFor n o w
  | opened | complete => dsimp only; split_ifs <;> exact .nil
  | closed | failed => exact .nil

theorem Window.withdrawn_postsFor (x : Window) (n : Nat) (o : Occurrence) : PostsFor n (x.withdrawn n o).events := by
  unfold Window.withdrawn
  split
  case h_1 | h_2 => exact .singleton rfl
  all_goals exact .nil

theorem Window.follow_postsFor (x : Window) (n : Nat) (o : Occurrence) : PostsFor n (x.follow n o).events := by
  unfold Window.follow
  split
  · exact x.stallOnce_postsFor n o
  · unfold Window.corruptWord
    split_ifs
    · exact .nil
    · exact x.stallOnce_postsFor n o
    · exact .nil
  · split_ifs
    · unfold Window.bulk
      split_ifs
      · exact .nil
      · exact .singleton rfl
      · exact x.stallOnce_postsFor n o
      · exact .nil
    · unfold Window.tail Window.tailByState
      split_ifs
      · exact .nil
      · exact .nil
      · exact .singleton rfl
      · exact .nil
      · exact .singleton rfl
      · exact .nil
    · exact x.stallOnce_postsFor n o

/-- What a window posts names it (R151). -/
theorem Window.act_postsFor (x : Window) (n : Nat) (o : Occurrence) (self : Nat) : PostsFor n (x.act n o self).events := by
  unfold Window.act
  dsimp only
  split
  · split_ifs
    · exact .nil
    · exact (x.head_postsFor n o _).append (Window.stallOnce_postsFor ..)
    · exact x.head_postsFor n o _
    · exact x.withdrawn_postsFor n o
    · exact x.stallOnce_postsFor n o
    · exact .nil
    · exact x.stallOnce_postsFor n o
    · exact .nil
  · split_ifs
    · exact x.follow_postsFor n o
    · exact .nil

/-! ### One window among four -/

/-- Every window but `n` stays as it is. -/
def State.OthersIdle (s : State) (o : Occurrence) (n : Nat) : Prop :=
  ∀ m < 4, m ≠ n → s.windowAct o m = (s.windowAt m).idle

/-- Window `n` is alone in the slot, and no HEAD names another window. -/
theorem State.othersIdle_of_alone (halone : ∀ m < 4, m ≠ n → (s.windowAt m).senderSlot ≠ some o.slot)
    (hname : ∀ w, o.heard.acceptable .head = some w → w.headDest = s.self → w.headWindow = n) : s.OthersIdle o n :=
  fun m hm hne => Window.act_of_elsewhere (halone m hm hne) fun w hw hdest h => hne (h.symm.trans (hname w hw hdest))

section Acted

variable (h : s.WindowsActed o t es)
include h

/-- What window `n` does, seen in the state after it. -/
theorem State.WindowsActed.does (hn : n < 4) (hact : s.windowAct o n = a) :
    t.windowAt n = a.window ∧ t.answers.ofWindow n = a.pending n (s.answers.ofWindow n) :=
  hact ▸ ⟨h.windowAt n hn, h.ofWindow n hn⟩

/-- Events of a kind that no other window posts are window `n`'s. -/
theorem State.WindowsActed.posted (hn : n < 4) (hk : k ∈ windowKinds)
    (hothers : ∀ m < 4, m ≠ n → eventsOf k (s.windowAct o m).events = []) (hact : s.windowAct o n = a) :
    eventsOf k es = eventsOf k a.events :=
  hact ▸ h.posts n hn _ (fun _ he => beq_iff_eq.mp he ▸ hk) hothers

variable (hothers : s.OthersIdle o n)
include hothers

theorem State.WindowsActed.windowAt_other : ∀ m < 4, m ≠ n → t.windowAt m = s.windowAt m :=
  fun m hm hne => (h.does hm (hothers m hm hne)).1

variable (hact : s.windowAct o n = a)
include hact

theorem State.WindowsActed.answers_of_idle (ha : a.answer = none) : t.answers = s.answers := by
  refine h.answers fun m hm => ?_
  by_cases hne : m = n
  · rw [hne, hact, ha]
  · rw [hothers m hm hne]
    rfl

theorem State.WindowsActed.posted_of_idle (hn : n < 4) (hk : k ∈ windowKinds) : eventsOf k es = eventsOf k a.events :=
  h.posted hn hk (fun m hm hne => by rw [hothers m hm hne]; rfl) hact

theorem State.WindowsActed.buffer_of_idle (hn : n < 4) : t.buffer = s.buffer.wrote a.write :=
  hact ▸ h.buffer n hn fun m hm hne => by rw [hothers m hm hne]; rfl

end Acted

/-- Self's address is heard in a word that self sent and did not lose to another alone (R52). -/
theorem State.duplicate_eq_false_of_own
    (h : ∀ w, classify bits = .valid w → w.sender = s.self → ∃ b, s.port.word = some b ∧ outcomeOf b bits ≠ .displaced) :
    (s.occurrence bits).duplicate s.self = false := by
  by_cases hself : ∃ w, classify bits = .valid w ∧ w.sender = s.self
  · obtain ⟨w, hv, hw⟩ := hself
    obtain ⟨b, hb, hout⟩ := h w hv hw
    exact Occurrence.duplicate_eq_false_of_sent (x := outcomeOf b bits) (by simp [hb]) hout
  · exact Occurrence.duplicate_eq_false_of_peer fun w hv hw => hself ⟨w, hv, hw⟩

/-- WINDOW_STALLED of window `n`. -/
def Event.stalledOf (n : Nat) (e : Event) : Bool := e.window == some n && e.kind == .windowStalled

/-- The WINDOW_STALLED events of window `n` among all that is posted are those that it posts. -/
theorem State.WindowsActed.stalledOf (h : s.WindowsActed o t es) (hn : n < 4) (hact : s.windowAct o n = a) :
    (eventsOf .windowStalled es).filter (fun e => e.window == some n) = a.events.filter (Event.stalledOf n) := by
  have hkind (e : Event) (he : e.stalledOf n = true) : e.kind ∈ windowKinds := by
    simp only [Event.stalledOf, Bool.and_eq_true, beq_iff_eq] at he
    simp [windowKinds, he.2]
  have hothers (m : Nat) (_ : m < 4) (hne : m ≠ n) : (s.windowAct o m).events.filter (Event.stalledOf n) = [] :=
    List.filter_eq_nil_iff.mpr fun e he hstalled => by
      have hwindow := (Window.act_postsFor ..).window e he
      simp [Event.stalledOf, hwindow, hne] at hstalled
  rw [eventsOf, List.filter_filter]
  exact hact ▸ h.posts n hn (Event.stalledOf n) hkind hothers

/-- The end of a sender slot that stalls its window is the named case WINDOW_STALLED (log 2). -/
theorem State.exec_windowStalled (hst : s.control.state = .member ∨ s.control.state = .leaving) (hp : s.passes p)
    (h4 : 4 ≤ p) (hlen : p < s.len) (hd : (s.occurrence bits).duplicate s.self = false)
    (hn : n < 4) (hblock : (s.windowAt n).state = .receiving ∨ (s.windowAt n).state = .gap)
    (hact : s.windowAct (s.occurrence bits) n = a) (hstalled : a.window.state = .stalled)
    (hslot : a.window.senderSlot.isSome = true) : exec (.windowStalled bits) s = exec (.dataSlotEnd bits) s := by
  have hends := State.dataEnds_of_served hst hp h4 hlen
  have hstalls : s.stallsWindow bits = true := by
    simp only [State.stallsWindow, hends, StationState.serving_iff.mpr hst, State.faultIn_of_served hst hd, Bool.true_and,
      Option.isNone_none, List.any_eq_true]
    exact ⟨n, mem_windowIds.mpr hn, by simp [hact, hstalled, hslot, hblock]⟩
  exact (if_pos hstalls).trans (if_pos hends).symm

end Sys2Proof.Machine

open Sys2Proof Sys2Proof.Machine

/-- Settles O48: by the rule of chapter 9 that takes the word, whatever state the window is in. -/
theorem headsOpenAndTailsComplete : Obligations.HeadsOpenAndTailsComplete := by
  intro s h x n p hx hp h4 hlen hst _ hn hw halone
  obtain ⟨o, t, es, -, rfl, hheard, hframe, hexec, hacted⟩ := State.exec_dataSlotEnd_windowsActed hst hp h4 hlen
    (Occurrence.duplicate_eq_false_of_peer fun w hv => (hw w hv).1) (State.strayWrite_of_not_bulk fun w hv => (hw w hv).2)
  subst hx
  rw [← hheard] at hw
  rw [← hheard, ← hframe]
  refine ⟨t, es, hexec, ?buffer, hacted.events, ?others, ?named, ?withdrawn, ?tail, ?corrupt⟩
  case buffer =>
    have hwrite (m : Nat) : (s.windowAct o m).write = none := Window.act_write_of_not_bulk fun w hv => (hw w hv).2
    rw [hacted.buffer n hn fun m _ _ => hwrite m, hwrite]
    rfl
  case others =>
    intro m hm hne hname
    refine hacted.does hm (Window.act_of_elsewhere (halone m hm hne) fun w hacc hdest => ?_)
    obtain ⟨hv, hk, hwf⟩ := Heard.acceptable_eq_some.mp hacc
    exact hname w hv hk hwf hdest
  case named =>
    intro w hv hk hwf hdest hname
    have hacc : o.heard.acceptable .head = some w := Heard.acceptable_eq_some.mpr ⟨hv, hk, hwf⟩
    have hidle : s.OthersIdle o n := State.othersIdle_of_alone halone fun v hacc' _ =>
      Option.some.inj (hacc.symm.trans hacc') ▸ hname
    have acts (hquiet) : s.windowAct o n = (s.windowAt n).head n o w :=
      Window.act_of_named hacc (hw w hv).1 hdest hname hquiet
    refine ⟨fun hopen hallowed => ?opened, fun reason hrefused => ?refused,
      fun hblock => ⟨fun hsender hle => ?resumed, fun hsender hlt => ?above, fun hother hquiet => ?busy⟩,
      fun hcomplete => ?complete⟩
    case opened =>
      have hact := (acts (.inr (.inl (by simp [hopen])))).trans (Window.head_of_opened hopen hallowed)
      split_ifs at hact ⊢
      · exact ⟨(hacted.does hn hact).1, hacted.answers_of_idle hidle hact rfl⟩
      · exact hacted.does hn hact
    case refused =>
      have hsettled : (s.windowAt n).state ≠ .receiving ∧ (s.windowAt n).state ≠ .gap := by
        rcases hrefused with ⟨hstate, -⟩ | ⟨hstate | hstate, -⟩ <;> simp [hstate]
      exact hacted.does hn ((acts (.inr (.inl hsettled))).trans (Window.head_of_refused hrefused))
    case resumed =>
      have hact := (acts (.inl hsender)).trans ((Window.head_of_block hblock).trans ((if_pos hsender).trans (if_pos hle)))
      refine ⟨(hacted.does hn hact).1, hacted.answers_of_idle hidle hact rfl,
        (hacted.posted_of_idle hidle hact hn (by decide)).trans ?_⟩
      split_ifs <;> simp [Window.event, Event.of, hsender]
    case above =>
      exact hacted.does hn ((acts (.inl hsender)).trans
        ((Window.head_of_block hblock).trans ((if_pos hsender).trans (if_neg (Nat.not_le_of_lt hlt)))))
    case busy =>
      have hquiet := hquiet.imp_left fun hstalled =>
        show (s.windowAt n).state ≠ .receiving ∧ (s.windowAt n).state ≠ .gap by simp [hstalled]
      exact hacted.does hn ((acts (.inr hquiet)).trans ((Window.head_of_block hblock).trans (if_neg hother)))
    case complete =>
      have hact := (acts (.inr (.inl (by simp [hcomplete])))).trans (Window.head_of_complete hcomplete)
      split_ifs at hact ⊢ <;> exact hacted.does hn hact
  case withdrawn =>
    intro w hv hk hwf hnot hsender hslot
    have hacc : o.heard.acceptable .head = some w := Heard.acceptable_eq_some.mpr ⟨hv, hk, hwf⟩
    have acts (hx) : s.windowAct o n = (s.windowAt n).withdrawn n o :=
      Window.act_of_withdrawal hacc (hw w hv).1 hnot (Window.hasSender_iff.mpr hx) hslot hsender
    have hothers (m : Nat) (hm : m < 4) (hne : m ≠ n) : eventsOf .windowStalled (s.windowAct o m).events = [] :=
      (Window.act_elsewhere_postsOnly (halone m hm hne)).eventsOf_eq_nil (by decide)
    refine ⟨fun hblock => ?inBlock, fun hstalled => ?stalled, fun hcomplete => ?complete⟩
    case inBlock =>
      have hact := (acts (hblock.imp_right .inl)).trans (Window.withdrawn_of_block hblock)
      obtain ⟨hwindow, hanswer⟩ := hacted.does hn hact
      refine ⟨hwindow, hanswer, (hacted.posted hn (by decide) hothers hact).trans ?_⟩
      simp [Window.event, Event.of, hsender]
    case stalled =>
      have hact := (acts (.inr (.inr (.inl hstalled)))).trans (Window.withdrawn_of_stalled hstalled)
      obtain ⟨hwindow, hanswer⟩ := hacted.does hn hact
      exact ⟨hwindow, hanswer, hacted.posted hn (by decide) hothers hact⟩
    case complete =>
      exact hacted.does hn ((acts (.inr (.inr (.inr hcomplete)))).trans (Window.withdrawn_of_complete hcomplete))
  case tail =>
    intro w hv hk hwf hsender hslot
    have hnoHead : o.heard.acceptable .head = none := Heard.acceptable_eq_none_of_valid hv (by simp [hk])
    have hidle : s.OthersIdle o n := State.othersIdle_of_alone halone (by simp [hnoHead])
    have acts (hx) : s.windowAct o n = (s.windowAt n).tail n o w :=
      (Window.act_of_follow hx hslot hnoHead).trans (Window.follow_of_tail hv hsender hk hwf)
    refine ⟨fun hstep => ?inStep, fun hmissed => ?missed, fun hcomplete => ?complete⟩
    case inStep =>
      replace hstep := Window.inStep_iff.mpr hstep
      have hact := (acts (Window.hasSender_of_inStep hstep)).trans (Window.tail_of_inStep hstep)
      refine ⟨fun heq => ?_, fun hlt => ?_, fun hgt => ?_⟩
      · rw [if_pos heq] at hact
        obtain ⟨hwindow, hanswer⟩ := hacted.does hn hact
        refine ⟨hwindow, (hacted.posted_of_idle hidle hact hn (by decide)).trans ?_, hanswer⟩
        simp [Window.event, Event.of, hsender]
      · rw [if_neg hlt.ne, if_pos hlt] at hact
        exact hacted.does hn hact
      · rw [if_neg hgt.ne', if_neg (Nat.lt_asymm hgt)] at hact
        obtain ⟨hwindow, hanswer⟩ := hacted.does hn hact
        refine ⟨hwindow, (hacted.posted_of_idle hidle hact hn (by decide)).trans ?_, hanswer⟩
        simp [Window.overruns, Window.event, Event.of, hsender]
    case missed =>
      have hx := Window.hasSender_iff.mpr (.inr (hmissed.imp_right fun hstalled => .inl hstalled.1))
      have hnot : (s.windowAt n).state ≠ .complete ∧ (s.windowAt n).inStep = false := by
        rcases hmissed with hgap | ⟨hstalled, horigin⟩
        · simp [Window.inStep, hgap]
        · simp [Window.inStep, hstalled, horigin]
      exact hacted.does hn ((acts hx).trans (Window.tail_of_missed hnot.1 hnot.2))
    case complete =>
      have hact := (acts (Window.hasSender_iff.mpr (.inr (.inr (.inr hcomplete))))).trans (Window.tail_of_complete hcomplete)
      split_ifs at hact ⊢ <;> exact hacted.does hn hact
  case corrupt =>
    intro k hcorrupt hsender hslot
    have hnoHead : o.heard.acceptable .head = none := by rw [hcorrupt]; rfl
    have hidle : s.OthersIdle o n := State.othersIdle_of_alone halone (by simp [hnoHead])
    have acts (hx) : s.windowAct o n = (s.windowAt n).corruptWord n o :=
      (Window.act_of_follow hx hslot hnoHead).trans (Window.follow_of_corrupt hcorrupt)
    refine ⟨fun hstep => ?inStep, fun hstalled => ?stalled⟩
    case inStep =>
      replace hstep := Window.inStep_iff.mpr hstep
      have hact := (acts (Window.hasSender_of_inStep hstep)).trans (if_pos hstep)
      rw [hsender] at hact
      exact hacted.does hn hact
    case stalled =>
      have hstays : (s.windowAt n).corruptWord n o = (s.windowAt n).idle := by
        simp [Window.corruptWord, Window.inStep, hstalled]
      have hact := (acts (Window.hasSender_iff.mpr (.inr (.inr (.inl hstalled.1))))).trans hstays
      exact ⟨(hacted.does hn hact).1, hacted.answers_of_idle hidle hact rfl⟩

/-- Settles O49: by whether a word has been missed, and by whether the window has room. -/
theorem bulkWordsAreWritten : Obligations.BulkWordsAreWritten := by
  intro s h w x n p base cap hwin hx hp h4 hlen hst _ hv hk hpeer hn hsender hslot hbase hcap halone hstate
  obtain ⟨o, t, es, -, rfl, hheard, hframe, hexec, hacted⟩ := State.exec_dataSlotEnd_windowsActed hst hp h4 hlen
    (Occurrence.duplicate_eq_false_of_peer fun v hv' => Heard.valid.inj (hv.symm.trans hv') ▸ hpeer)
    (State.strayWrite_eq_none hwin h)
  rw [← hframe]
  replace hheard := hheard.trans hv
  have hnoHead : o.heard.acceptable .head = none := Heard.acceptable_eq_none_of_valid hheard (by simp [hk])
  have hidle : s.OthersIdle o n := State.othersIdle_of_alone halone (by simp [hnoHead])
  have hbulk : s.windowAct o n = x.bulk n o w := by
    have hsome : x.hasSender = true := Window.hasSender_iff.mpr (hstate.imp_right fun h => .inr (.inl h.1))
    have hopen : x.state ≠ .complete := by rcases hstate with hstate | ⟨hstate, -⟩ <;> simp [hstate]
    rw [State.windowAct, ← hx, Window.act_of_follow hsome hslot hnoHead, Window.follow_of_bulk hheard hsender hk hopen]
  refine ⟨t, es, hexec, hacted.events, hacted.windowAt_other hidle, fun hstep => ?inStep, fun hstalled hgap => ?missed⟩
  case inStep =>
    have hstep : x.inStep = true := Window.inStep_iff.mpr <|
      hstate.elim .inl fun hstalled => hstep.imp_right fun horigin => ⟨hstalled.1, horigin⟩
    have hact := hbulk.trans (Window.bulk_of_inStep hstep hbase hcap)
    split_ifs at hact ⊢
    · refine ⟨(hacted.does hn hact).1, ?_, fun a ha => ?_, hacted.answers_of_idle hidle hact rfl,
        hacted.posted_of_idle hidle hact hn (by decide)⟩
      · rw [hacted.buffer_of_idle hidle hact hn]
        exact (Buffer.read_write ..).trans (if_pos rfl)
      · rw [hacted.buffer_of_idle hidle hact hn]
        exact (Buffer.read_write ..).trans (if_neg ha.symm)
    · obtain ⟨hwindow, hanswer⟩ := hacted.does hn hact
      refine ⟨hwindow, hacted.buffer_of_idle hidle hact hn, (hacted.posted_of_idle hidle hact hn (by decide)).trans ?_,
        hanswer⟩
      simp [Window.overruns, Window.event, Event.of, hsender]
  case missed =>
    have hact := hbulk.trans (Window.bulk_of_missed hstalled hgap)
    obtain ⟨hwindow, hanswer⟩ := hacted.does hn hact
    exact ⟨hwindow, hacted.buffer_of_idle hidle hact hn, hacted.posted_of_idle hidle hact hn (by decide), hanswer⟩

/-- Settles O50: what is no accepted word is a stall occurrence, and of all that is posted the window's stall is its own. -/
theorem silentSendersStallWindows : Obligations.SilentSendersStallWindows := by
  intro s h x n p source hwin hx hp h4 hlen hst hn hstate hslot hown hheard
  have hdup := State.duplicate_eq_false_of_own hown
  obtain ⟨o, t, es, ho, rfl, -, hframe, hexec, hacted⟩ := State.exec_dataSlotEnd_windowsActed hst hp h4 hlen hdup
    (State.strayWrite_eq_none hwin h)
  rw [← hframe]
  have hstall : s.windowAct o n = x.stallOnce n o := by
    rw [State.windowAct, ← hx, Window.act_of_unaccepted hstate hslot (ho ▸ hheard)]
  obtain ⟨hwrite, hanswer⟩ := x.stallOnce_quiet n o
  have hblock : x.state = .receiving ∨ x.state = .gap := hstate.imp And.left And.left
  refine ⟨t, es, hexec, hacted.events, ?answer, fun halone => ?others, fun hlt => ?below, fun heq => ?threshold⟩
  case answer =>
    rw [(hacted.does hn hstall).2, WindowAct.pending, hanswer]
  case others =>
    have hidle : s.OthersIdle o n := State.othersIdle_of_alone halone fun w hw hdest => by
      obtain ⟨hv, hk, hwf⟩ := Heard.acceptable_eq_some.mp hw
      rw [ho, State.occurrence_heard] at hv
      obtain ⟨v, hv', hhead, -⟩ := (hheard.resolve_left (by simp [hv])).resolve_left (by simp [hv])
      obtain rfl : w = v := Heard.valid.inj (hv.symm.trans hv')
      exact absurd hdest ((hhead hk).resolve_left (by simp [hwf])).1
    refine ⟨hacted.windowAt_other hidle, hacted.answers_of_idle hidle hstall hanswer, ?_⟩
    rw [hacted.buffer_of_idle hidle hstall hn, hwrite]
    rfl
  case below =>
    have hact := hstall.trans ((Window.stallOnce_eq hstate).trans (if_pos (Nat.succ_lt_succ hlt)))
    exact ⟨(hacted.does hn hact).1, hacted.stalledOf hn hact⟩
  case threshold =>
    have hact := hstall.trans ((Window.stallOnce_eq hstate).trans (if_neg (by omega)))
    refine ⟨(hacted.does hn hact).1, (hacted.stalledOf hn hact).trans ?_, ?_⟩
    · simp [Event.stalledOf, Window.event, Event.of]
    · rw [State.exec_windowStalled hst hp h4 hlen hdup hn (hx ▸ hblock) (ho ▸ hact) rfl (by simp [hslot]), hexec]
end

