-- ==== Sys2Proof/Proofs/WindowCommands.lean ====
section
/-! WINDOW_OPEN and WINDOW_CLOSE by their tables (R153, R154), and the soundness of windows and answers through every step
(R151, R166). -/

namespace Sys2Proof.Machine

variable {s : State} {n base cap : Nat} {allowed : Option Nat}

/-- An area that buffer memory does not have, or that is no area (R132, R153). -/
theorem areaOk_eq_false_iff : areaOk base cap = false ↔ 8192 ≤ base ∨ cap = 0 ∨ 4096 < cap ∨ 8192 < base + cap := by
  simp only [areaOk, Config.bufferWords, Bool.and_eq_false_iff, decide_eq_false_iff_not]
  omega

section Open

variable (hoff : s.control.state ≠ .off) (hfault : s.control.state ≠ .fault)
include hoff hfault

/-- WINDOW_OPEN with an operand out of range (R153). -/
theorem State.judgeWindowOpen_of_range
    (h : 4 ≤ n ∨ 8192 ≤ base ∨ cap = 0 ∨ 4096 < cap ∨ 8192 < base + cap ∨
      ∃ k, allowed = some k ∧ (k = 0 ∨ 30 < k ∨ k = s.self)) :
    s.judgeWindowOpen n base cap allowed = s.refuse .range := by
  refine (if_neg (not_or.mpr ⟨hoff, hfault⟩)).trans (if_pos ?_)
  rw [areaOk_eq_false_iff, State.otherStation_eq_false_iff]
  simpa only [or_assoc] using h

/-- WINDOW_OPEN with every operand in range opens a CLOSED window (R153). -/
theorem State.judgeWindowOpen_in_range (hn : n < 4) (hcap : 1 ≤ cap) (hcap' : cap ≤ 4096) (harea : base + cap ≤ 8192)
    (hallowed : ∀ k, allowed = some k → 1 ≤ k ∧ k ≤ 30 ∧ k ≠ s.self) :
    s.judgeWindowOpen n base cap allowed =
      if (s.windowAt n).state = .closed then (s.setWindow n (Window.openedWith base cap allowed)).doneWith .nothing
      else s.refuse .busy := by
  have hrange : ¬(4 ≤ n ∨ areaOk base cap = false ∨ s.otherStation allowed = false) := by
    rw [areaOk_eq_false_iff, State.otherStation_eq_false_iff]
    rintro (h | h | ⟨k, hk, h⟩)
    · omega
    · omega
    · obtain ⟨h1, h30, hself⟩ := hallowed k hk
      omega
  rw [State.judgeWindowOpen, if_neg (not_or.mpr ⟨hoff, hfault⟩), if_neg hrange, ite_not]

end Open

end Sys2Proof.Machine

open Sys2Proof Sys2Proof.Machine

/-- Settles O56: the windows of an occurrence and the commands of bulk transfer keep windows and answers sound, and nothing
else writes them but the session ends and resets. -/
theorem windowsAndAnswersStaySound : Obligations.WindowsAndAnswersStaySound :=
  fun s t hwindows hstep => ((step_transfers s).keeps t hstep).windows hwindows

/-- Settles O46: by the lines of the two tables, from the first. -/
theorem windowsOpenAndClose : Obligations.WindowsOpenAndClose := by
  intro s n hreq
  refine ⟨fun base cap allowed => ⟨fun hst => ?openState, fun hoff hfault hrange => ?openRange,
    fun hoff hfault hn hcap hcap' harea hallowed => ?opened⟩, fun hoff => ?closeState, fun hon hn => ?closeRange,
    fun hon hn => ?closed⟩
  case openState => exact congrArg _ (State.take_unchanged hreq (if_pos hst))
  case openRange => exact congrArg _ (State.take_unchanged hreq (State.judgeWindowOpen_of_range hoff hfault hrange))
  case opened =>
    refine congrArg _ ((State.take_request hreq ..).trans ?_)
    rw [State.judgeWindowOpen_in_range hoff hfault hn hcap hcap' harea hallowed]
    split_ifs <;> rfl
  case closeState => exact congrArg _ (State.take_unchanged hreq (if_pos hoff))
  case closeRange => exact congrArg _ (State.take_unchanged hreq ((if_neg hon).trans (if_pos hn)))
  case closed =>
    have hjudge : s.judgeWindowClose n =
        ({ s.setWindow n Window.closed with answers := s.answers.withdraw n } : State).doneWith .nothing :=
      (if_neg hon).trans (if_neg (Nat.not_le_of_lt hn))
    have htake := (State.take_request hreq (.windowClose n) _).trans (congrArg _ hjudge)
    exact ⟨_, congrArg Host.Outcome.next htake, rfl, rfl⟩
end

