-- ==== Sys2Proof/Proofs/Transactions.lean ====
section
/-! The taking of a transaction, whichever it is: a refusal leaves the part as it is, every other judgement leaves the
queue of commands and, but for an armed part reset, the host port (R171 to R173, R182). -/

namespace Sys2Proof.Machine

variable {s t : State} {i : Instr} {a : Bool} {j k : State × TxResult} {r : TxResult} {c : Prop} [Decidable c]

/-! ### What a judgement comes to -/

/-- A judgement of a transaction in `s`: a refusal (R173), or an answer by a state with the queue as it was and the host
port too, but that the part reset is armed when `a` says so (R182). -/
inductive State.Judged (s : State) : Bool → State × TxResult → Prop
  | refused (x : Reason) : State.Judged s false (s.refuse x)
  | answered {a : Bool} {t : State} {r : TxResult} (host : t.host = { s.host with resetArmed := s.host.resetArmed || a })
      (pending : t.pending = s.pending) (taken : ∀ x, r ≠ .refused x) : State.Judged s a (t, r)

/-- An answer that arms no part reset. -/
theorem State.Judged.quiet (host : t.host = s.host) (pending : t.pending = s.pending)
    (taken : ∀ x, r ≠ .refused x) : s.Judged false (t, r) :=
  .answered (by rw [host, Bool.or_false]) pending taken

/-- A judgement by the first line that applies. -/
theorem State.Judged.ite (hj : s.Judged a j) (hk : s.Judged a k) : s.Judged a (if c then j else k) := by
  split_ifs
  · exact hj
  · exact hk

/-- A refusal that comes before the rest of the table. -/
theorem State.Judged.guarded {x : Reason} (hj : s.Judged false j) : s.Judged false (if c then s.refuse x else j) :=
  .ite (.refused x) hj

/-- RESET_PART alone arms the part reset (R182). -/
theorem State.Judged.armed_eq (h : s.Judged a j) : j.1.host.resetArmed = (s.host.resetArmed || a) := by
  cases h with
  | refused x => exact (Bool.or_false _).symm
  | answered hhost _ _ => rw [hhost]

/-- The queue stays. -/
theorem State.Judged.pending_eq (h : s.Judged a j) : j.1.pending = s.pending := by
  cases h with
  | refused x => rfl
  | answered _ hpending _ => exact hpending

/-- A refusal changes nothing (R173). -/
theorem State.Judged.eq_refuse {x : Reason} (h : s.Judged a j) (hx : j.2 = .refused x) : j = s.refuse x := by
  cases h with
  | refused y => rw [TxResult.refused.inj hx]
  | answered _ _ htaken => exact absurd hx (htaken x)

/-! ### Each transaction -/

theorem State.judgeLeave_judged (s : State) : s.Judged false s.judgeLeave := by
  unfold State.judgeLeave
  split
  case h_2 | h_3 | h_4 => exact .quiet rfl rfl nofun
  all_goals exact .refused _

theorem State.judgeClaim_judged (s : State) (req : ClaimArg) (p : Nat) (role : RoleArg) :
    s.Judged false (s.judgeClaim req p role) := by
  refine .guarded (.guarded ?_)
  split
  · exact .guarded (.guarded (.quiet rfl rfl nofun))
  · exact .refused _

theorem State.judgeClaimCancel_judged (s : State) (tag : Nat) : s.Judged false (s.judgeClaimCancel tag) := by
  refine .guarded ?_
  split
  · exact .refused _
  · exact .ite (.quiet rfl rfl nofun) (.quiet rfl rfl nofun)

theorem State.judgeSetRole_judged (s : State) (n : Nat) (role : RoleArg) : s.Judged false (s.judgeSetRole n role) := by
  have change (r : Role) : s.Judged false ((s.changeRole n r).doneWith .nothing) := by
    unfold State.changeRole
    split_ifs
    · exact .quiet rfl rfl nofun
    · rw [State.lossNotice_eq]; exact .quiet rfl rfl nofun
  refine .guarded (.guarded ?_)
  split
  · exact .refused _
  · exact .guarded (.guarded (change _))

theorem State.judgeBulkPost_judged (s : State) (dest win base len : Nat) :
    s.Judged false (s.judgeBulkPost dest win base len) := by
  refine .guarded (.guarded ?_)
  split
  · exact .refused _
  · exact .quiet rfl rfl nofun

theorem State.judgeBulkCancel_judged (s : State) (id : Nat) : s.Judged false (s.judgeBulkCancel id) := by
  refine .guarded (.guarded ?_)
  split
  · exact .refused _
  · exact .guarded (.quiet rfl rfl nofun)

theorem State.judgeBulkStatus_judged (s : State) (id : Nat) : s.Judged false (s.judgeBulkStatus id) := by
  refine .guarded (.guarded ?_)
  split
  · exact .refused _
  · exact .quiet rfl rfl nofun

theorem State.judgeBulkCollect_judged (s : State) (id : Nat) : s.Judged false (s.judgeBulkCollect id) := by
  refine .guarded (.guarded ?_)
  split
  · exact .refused _
  · exact .guarded (.quiet rfl rfl nofun)

/-- Every judgement of a transaction but RESET_PART is a refusal or leaves host port and queue. -/
theorem State.judge_quiet (s : State) (hi : i ≠ .resetPart) : s.Judged false (s.judge i) := by
  cases i with
  | start addr len eligible => exact .guarded (.guarded (.quiet rfl rfl nofun))
  | join => exact .ite (.quiet rfl rfl nofun) (.refused _)
  | leave => exact s.judgeLeave_judged
  | claim req priority role => exact s.judgeClaim_judged req priority role
  | release n => exact .guarded (.guarded (.guarded (.guarded (.quiet rfl rfl nofun))))
  | claimCancel tag => exact s.judgeClaimCancel_judged tag
  | setRole n role => exact s.judgeSetRole_judged n role
  | bindRx c n expected policy gaps => exact .guarded (.guarded (.guarded (.guarded (.quiet rfl rfl nofun))))
  | unbindRx c => exact .guarded (.guarded (.guarded (.quiet rfl rfl nofun)))
  | channelStatus dir c => exact .guarded (.guarded (.quiet rfl rfl nofun))
  | bulkPost dest win base len => exact s.judgeBulkPost_judged dest win base len
  | bulkCancel id => exact s.judgeBulkCancel_judged id
  | bulkStatus id => exact s.judgeBulkStatus_judged id
  | bulkCollect id => exact s.judgeBulkCollect_judged id
  | windowOpen w base cap allowed => exact .guarded (.guarded (.guarded (.quiet rfl rfl nofun)))
  | windowClose w => exact .guarded (.guarded (.quiet rfl rfl nofun))
  | windowStatus w => exact .guarded (.guarded (.quiet rfl rfl nofun))
  | readSlot n => exact .guarded (.guarded (.quiet rfl rfl nofun))
  | readRoster a => exact .guarded (.guarded (.quiet rfl rfl nofun))
  | resetPart => exact absurd rfl hi
  | push c samples => exact .guarded (.guarded (.quiet rfl rfl nofun))
  | pull c n => exact .guarded (.guarded (.quiet rfl rfl nofun))
  | memoryWrite a words => exact .ite (.quiet rfl rfl nofun) (.refused _)
  | memoryRead a n => exact .ite (.quiet rfl rfl nofun) (.refused _)
  | eventRead n => exact .ite (.quiet rfl rfl nofun) (.refused _)
  | status => exact .quiet rfl rfl nofun
  | _ => exact .refused _

/-- Every judgement; RESET_PART's arms the part reset (R182). -/
theorem State.judge_judged (s : State) (i : Instr) : s.Judged (decide (i = .resetPart)) (s.judge i) := by
  by_cases hi : i = .resetPart
  · subst hi
    have harmed : s.Judged true s.judgeResetPart := .answered (by rw [Bool.or_true]) rfl nofun
    exact harmed
  · simpa only [hi, decide_false] using s.judge_quiet hi

/-! ### The taking -/

/-- A transaction command is taken by its judgement, but for an undefined header that is not the request's first word. -/
theorem exec_transaction_cases (hi : i.isTransaction = true) :
    exec i s = .next (s.take i (s.judge i)) ∨ exec i s = .next s ∧
      ∃ h, i = .undefinedHeader h ∧ ¬(headerUndefined h = true ∧ s.host.request = []) := by
  cases i <;> cases hi
  case undefinedHeader h =>
    by_cases hfirst : headerUndefined h = true ∧ s.host.request = []
    · exact .inl (if_pos (by simpa using hfirst))
    · exact .inr ⟨if_neg (by simpa using hfirst), h, rfl, hfirst⟩
  all_goals exact .inl rfl

/-- A transaction whose request is complete is taken in REQUEST (R171). -/
theorem exec_transaction (hi : i.isTransaction = true) (hreq : s.host.state = .request)
    (hu : ∀ h, i = .undefinedHeader h → headerUndefined h = true ∧ s.host.request = []) :
    exec i s = .next (s.replyWith i (requestWords i) (s.judge i)) := by
  obtain htake | ⟨-, h, hheader, hnot⟩ := exec_transaction_cases (s := s) hi
  · rw [htake, State.take_request hreq]
  · exact absurd (hu h hheader) hnot

/-- A transaction that is judged to be refused leaves everything but the host port (R173). -/
theorem exec_of_refuse {x : Reason} (hi : i.isTransaction = true) (hreq : s.host.state = .request)
    (hu : ∀ h, i = .undefinedHeader h → headerUndefined h = true ∧ s.host.request = []) (hj : s.judge i = s.refuse x) :
    exec i s = .next (s.replied i (.refused x)) := by
  rw [exec_transaction hi hreq hu, hj, State.replyWith_refuse]

/-- A reply that refuses was formed by a judgement that changes nothing. -/
theorem State.replyWith_refused {words : List PortWord} {p : Reply} {x : Reason}
    (hp : (s.replyWith i words (s.judge i)).host.reply = some p) (hx : p.result = .refused x) :
    s.replyWith i words (s.judge i) = { s with host := (s.replyWith i words (s.judge i)).host } := by
  have hresult : (s.judge i).2 = .refused x := by
    cases hp
    exact hx
  rw [(s.judge_judged i).eq_refuse hresult]
  rfl

/-! ### Refusals with STATE (R173) -/

/-- In a station state that R173's table marks, the first line of the transaction's own table refuses it. -/
theorem State.judge_of_not_taken (h : takenIn i s.control.state = false) : s.judge i = s.refuse .state := by
  have off (h : (s.control.state != .off) = false) : s.control.state = .off := by simpa using h
  have member (h : (s.control.state == .member) = false) : s.control.state ≠ .member := by simpa using h
  have idle (h : (s.control.state != .off && s.control.state != .fault) = false) : s.control.state.idle = true := by
    rw [← Bool.not_eq_true', Bool.not_and, bne, bne, Bool.not_not, Bool.not_not] at h
    exact h
  cases i with
  | start addr len eligible => exact if_pos (by simpa [takenIn] using h)
  | join => exact if_neg (by simpa [takenIn] using h)
  | leave =>
    obtain ⟨⟨hlisten, hjoining⟩, hmember⟩ : ((s.control.state ≠ .listen) ∧ s.control.state ≠ .joining) ∧
      s.control.state ≠ .member := by simpa [takenIn] using h
    show s.judgeLeave = _
    unfold State.judgeLeave
    split
    case h_2 | h_3 | h_4 => contradiction
    all_goals rfl
  | claim _ _ _ | release _ | claimCancel _ | bulkPost _ _ _ _ => exact if_pos (member h)
  | setRole n role =>
    have hserving : s.control.state.serving = false := by
      revert h
      cases s.control.state <;> simp [takenIn, StationState.serving]
    exact if_pos hserving
  | bindRx _ _ _ _ _ | unbindRx _ | push _ _ => exact if_pos (idle h)
  | windowOpen w base cap allowed => exact if_pos (by simpa [StationState.idle] using idle h)
  | channelStatus _ _ | bulkCancel _ | bulkStatus _ | bulkCollect _ | windowClose _ | windowStatus _ | readSlot _
  | readRoster _ | pull _ _ => exact if_pos (off h)
  | _ => cases h

end Sys2Proof.Machine

open Sys2Proof Sys2Proof.Machine

/-- Settles O13: every judgement leaves the host port to the reply, and a refusal all the rest. -/
theorem transactionsAreAnswered : Obligations.TransactionsAreAnswered := by
  refine ⟨fun i s hi hreq hu => ⟨_, (s.judge i).2, exec_transaction hi hreq hu, ?_⟩, fun i s t p x hi h hp hx => ?_⟩
  · exact congrArg (HostPort.replying i (requestWords i) s.timer.frame (s.judge i).2) (s.judge_judged i).armed_eq
  · obtain htake | ⟨hidle, -⟩ := exec_transaction_cases (s := s) hi
    · cases htake.symm.trans h
      by_cases hreq : s.host.state = .request
      · rw [State.take_request hreq] at hp ⊢
        exact State.replyWith_refused hp hx
      · rw [State.take_elsewhere hreq]
    · cases hidle.symm.trans h
      rfl

/-- Settles O14: the first line of each table, and an undefined header judged. -/
theorem refusalsByStateAndHeader : Obligations.RefusalsByStateAndHeader := by
  refine ⟨fun i s hi hreq hstate => ?_, fun s h hundefined hreq hfirst => ⟨?_, rfl⟩⟩
  · refine exec_of_refuse hi hreq ?_ (State.judge_of_not_taken hstate)
    rintro h rfl
    cases hstate
  · refine exec_of_refuse rfl hreq ?_ rfl
    rintro h ⟨⟩
    exact ⟨hundefined, hfirst⟩
end

