-- ==== Sys2Proof/Proofs/MemoryAndEvents.lean ====
section
/-! Buffer memory and the event queue as the host commands them: MEMORY_WRITE and what a later MEMORY_READ returns (R175),
EVENT_READ (R178, R179) and the posting of events (R177). -/

namespace Sys2Proof.Machine

/-! ### Buffer memory (R175) -/

/-- The words written to consecutive addresses are read back from them. -/
theorem Buffer.readAll_writeAll (b : Buffer) (a : Nat) (words : List DataWord) :
    (b.writeAll a words).readAll a words.length = words := by
  refine List.ext_getElem (by simp [Buffer.readAll]) fun k _ hk => ?_
  simp [Buffer.readAll, Buffer.read_writeAll, hk]

/-! ### Event queue (R177 to R179) -/

/-- The oldest records are removed, an EVENTS_LOST record last (R178). -/
theorem EventQueue.all_dropped (q : EventQueue) (n : Nat) : (q.dropped n).all = q.all.drop n := by
  by_cases hn : n ≤ q.records.length
  · rw [EventQueue.dropped, if_pos hn, EventQueue.all, EventQueue.all, List.drop_append_of_le_length hn]
  · have hlength : q.all.length ≤ n := by
      rw [EventQueue.all_length]
      split_ifs <;> omega
    rw [EventQueue.dropped, if_neg hn, List.drop_eq_nil_of_le hlength, EventQueue.all, List.drop_eq_nil_of_le (by omega)]
    rfl

/-- The attention line is asserted while a record stands (R179). -/
theorem State.attention_iff (s : State) : s.attention = true ↔ s.events.all ≠ [] := by
  rw [State.attention, EventQueue.all]
  cases s.events.lost <;> simp

/-- Where events have been lost already, one more is counted (R177). -/
theorem EventQueue.post_of_lost {q : EventQueue} {l : LostRecord} (h : q.lost = some l) (e : Event) :
    q.post e = { q with lost := some { l with count := if l.count < 65535 then l.count + 1 else 65535 } } := by
  rw [EventQueue.post, h]
  rfl

/-- An event that finds room is stored (R177). -/
theorem EventQueue.post_of_room {q : EventQueue} (h : q.lost = none) (hroom : q.records.length < 31) (e : Event) :
    q.post e = { q with records := q.records ++ [e] } := by
  rw [EventQueue.post, h]
  exact if_pos hroom

/-- The first event that finds none adds EVENTS_LOST (R177). -/
theorem EventQueue.post_of_full {q : EventQueue} (h : q.lost = none) (hfull : q.records.length = 31) (e : Event) :
    q.post e = { q with lost := some { frame := e.frame, count := 1 } } := by
  rw [EventQueue.post, h]
  exact if_neg (by simp [hfull])

end Sys2Proof.Machine

open Sys2Proof Sys2Proof.Machine

/-- Settles O51: MEMORY_WRITE and MEMORY_READ by their range, and the laws of buffer memory. -/
theorem memoryHoldsWhatIsWritten : Obligations.MemoryHoldsWhatIsWritten := by
  refine fun s a words hreq => ⟨fun h1 h64 hend => ?_, fun hout => ?_⟩
  · have hrange := (memoryRange_iff a words.length).mpr ⟨h1, h64, hend⟩
    have hwrite : s.judge (.memoryWrite a words) =
        ({ s with buffer := s.buffer.writeAll a words } : State).doneWith (.written words.length) := if_pos hrange
    refine ⟨({ s with buffer := s.buffer.writeAll a words } : State).replied (.memoryWrite a words)
      (.done (.written words.length)), ?_, rfl, Buffer.read_writeAll words s.buffer a, fun u hu hureq => ?_⟩
    · rw [exec_transaction (i := .memoryWrite a words) rfl hreq (by simp), hwrite]
      rfl
    · have hread : u.judge (.memoryRead a words.length) = u.doneWith (.words words) :=
        (if_pos hrange).trans (by rw [hu]; exact congrArg _ (congrArg _ (s.buffer.readAll_writeAll a words)))
      rw [exec_transaction (i := .memoryRead a words.length) rfl hureq (by simp), hread, State.replyWith_done]
  · have hrange : ¬memoryRange a words.length = true := by rw [memoryRange_iff]; omega
    exact exec_of_refuse rfl hreq (by simp) (if_neg hrange)

/-- Settles O52: what EVENT_READ takes from the queue, and the three lines of R177's table. -/
theorem eventsAreReadAndCounted : Obligations.EventsAreReadAndCounted := by
  refine ⟨fun s n hreq => ⟨fun h1 h8 => ?_, fun hout => exec_of_refuse rfl hreq (by simp) (if_neg hout)⟩,
    State.attention_iff, fun q e => ⟨fun l hl => EventQueue.post_of_lost hl e, fun hl hroom => ?_, fun hl hfull => ?_⟩⟩
  · have hread : s.judge (.eventRead n) = ({ s with events := s.events.dropped n } : State).doneWith
        (.events (s.events.all.take n) (s.events.all.length - n)) := if_pos ⟨h1, h8⟩
    refine ⟨({ s with events := s.events.dropped n } : State).replied (.eventRead n)
      (.done (.events (s.events.all.take n) (s.events.all.length - n))), ?_, rfl, s.events.all_dropped n, ?_⟩
    · rw [exec_transaction (i := .eventRead n) rfl hreq (by simp), hread]
      rfl
    · rw [State.attention_iff]
      show (s.events.dropped n).all ≠ [] ↔ _
      rw [EventQueue.all_dropped]
      simp
  · rw [EventQueue.post_of_room hl hroom, EventQueue.all, EventQueue.all, hl]
    simp
  · rw [EventQueue.post_of_full hl hfull]
    rfl
end

