-- ==== Sys2Proof/Proofs/HostPort.lean ====
section
/-! The host port's own events: target select, port words in and out (R170), and the three resets (R181 to R183). -/

namespace Sys2Proof.Machine

variable {s : State} {w : PortWord}

/-! ### Port words (R170) -/

/-- In REQUEST a word is shifted in. -/
theorem exec_requestWord (h : s.host.state = .request) : exec (.requestWordShiftedIn w) s = .next (s.wordIn w) := if_pos h

/-- A word that does not complete the request is added to it (R171). -/
theorem State.wordIn_of_incomplete (h : decodeRequest (s.host.request ++ [w]) = .incomplete) :
    s.wordIn w = { s with host := { s.host with request := s.host.request ++ [w] } } := by
  rw [State.wordIn, h]

/-- The word that completes the request takes its transaction (R171, log 9). -/
theorem State.wordIn_of_complete {i : Instr} (h : decodeRequest (s.host.request ++ [w]) = .complete i) :
    s.wordIn w = s.replyWith i (s.host.request ++ [w]) (s.judge i) := by
  rw [State.wordIn, h]

/-- In REPLY a word is shifted out. -/
theorem exec_replyWord (h : s.host.state = .reply) : exec .replyWordShiftedOut s = .next s.shiftOut := by
  show execReplyWordShiftedOut s = _
  rw [execReplyWordShiftedOut, h]

/-- The word shifted out is the one at the reply position, ones past the end. -/
theorem State.wordOut_of_reply {r : Reply} (h : s.host.reply = some r) :
    s.wordOut =
      { s with
        pins := { s.pins with serialOut := some (r.words[s.host.position]?.getD (BitVec.allOnes 24)) }
        host := { s.host with position := min (s.host.position + 1) r.words.length } } := by
  have hwords : s.host.replyWords = r.words := by rw [HostPort.replyWords, h]
  rw [State.wordOut, hwords, List.getD_eq_getElem?_getD]

/-- Without an armed part reset a word out is all that happens. -/
theorem State.shiftOut_of_unarmed (h : s.host.resetArmed = false) : s.shiftOut = s.wordOut :=
  if_neg (by rw [h, Bool.false_and]; exact Bool.false_ne_true)

/-- The last word of a reply, or one past it. -/
theorem HostPort.lastWord_of_reply {h : HostPort} {r : Reply} (hr : h.reply = some r)
    (hlast : r.words.length ≤ h.position + 1) : h.lastWord = true := by
  have hwords : h.replyWords = r.words := by rw [HostPort.replyWords, hr]
  rw [HostPort.lastWord, hwords, decide_eq_true hlast]

/-- The last word brings an armed part reset (R182). -/
theorem State.shiftOut_of_last (h : s.host.resetArmed = true) (hlast : s.host.lastWord = true) :
    s.shiftOut = s.wordOut.partReset := if_pos (by rw [h, hlast]; rfl)

/-! ### Target select (R170) -/

/-- Target select released without an armed part reset discards request and reply. -/
theorem State.selectReleased_of_unarmed (h : s.host.resetArmed = false) :
    s.selectReleased = { s.setSelect false with host := HostPort.reset } := if_neg (by rw [h]; exact Bool.false_ne_true)

/-- With one it takes hold (R182). -/
theorem State.selectReleased_of_armed (h : s.host.resetArmed = true) :
    s.selectReleased = (s.setSelect false).partReset := if_pos h

/-- A selection opens in REQUEST, but under the reset line, which keeps the port DESELECTED (R181). -/
theorem exec_targetSelectAsserted (h : s.pins.select = false) :
    exec .targetSelectAsserted s = .next
      { s.setSelect true with
        host := if s.pins.resetLine then s.host else { HostPort.reset with state := .request } } := by
  refine (if_neg (by rw [h]; exact Bool.false_ne_true)).trans ?_
  by_cases hline : s.pins.resetLine = true
  · rw [if_pos hline, if_pos hline]
    rfl
  · rw [if_neg hline, if_neg hline]

/-! ### The part reset that RESET_PART has armed (R182) -/

/-- It takes hold with the last word of the reply (log 2). -/
theorem exec_resetPart_byReply (h : s.host.resetArmed = true) (hreply : s.host.state = .reply)
    (hlast : s.host.lastWord = true) : exec (.resetPartTakesHold .replyShiftedOut) s = .next s.shiftOut :=
  if_pos (by rw [h, hreply, hlast]; rfl)

/-- It takes hold as the selection ends (log 2). -/
theorem exec_resetPart_byRelease (h : s.host.resetArmed = true) :
    exec (.resetPartTakesHold .selectReleased) s = .next s.selectReleased := if_pos h

end Sys2Proof.Machine

open Sys2Proof Sys2Proof.Machine

/-- Settles O12: target select and port words by the state of the host port. -/
theorem selectionsAndPortWords : Obligations.SelectionsAndPortWords := by
  refine ⟨fun s h => exec_targetSelectAsserted h, fun s h => congrArg _ (State.selectReleased_of_unarmed h),
    fun s w h hincomplete => ?_, fun s w h => if_neg h, fun s r h hr harmed => ?_, fun s h => ?_⟩
  · rw [exec_requestWord h, State.wordIn_of_incomplete hincomplete]
  · rw [exec_replyWord h, State.shiftOut_of_unarmed harmed, State.wordOut_of_reply hr]
  · show execReplyWordShiftedOut s = _
    rw [execReplyWordShiftedOut]
    obtain h | h := h <;> rw [h] <;> rfl

/-- Settles O15: each reset is a part reset with the pins that it reads or keeps, and RESET_PART arms one. -/
theorem resetsRestoreResetValues : Obligations.ResetsRestoreResetValues := by
  refine ⟨fun s => rfl, fun s h => if_pos h, fun s harmed => ⟨?_, (exec_resetPart_byRelease harmed).symm⟩,
    fun s r harmed hreply hr hlength => ?_, fun s hreq => exec_transaction rfl hreq (by simp),
    fun s rate => ⟨_, rfl, rfl, fun a => rfl⟩⟩
  · rw [exec_resetPart_byRelease harmed, State.selectReleased_of_armed harmed]
    rfl
  · have hlast := HostPort.lastWord_of_reply hr hlength
    have hreset := exec_resetPart_byReply harmed hreply hlast
    refine ⟨?_, (exec_replyWord hreply).trans hreset.symm⟩
    rw [hreset, State.shiftOut_of_last harmed hlast, State.wordOut_of_reply hr]
    rfl
end

