-- ==== Sys2Proof/Proofs/Requests.lean ====
section
/-! The request record (R171, R186, R187): the fields of a header, the parameters that are packed into header words 2 and 3,
and the length at which a request is complete. -/

namespace Sys2Proof.Machine

variable {i : Instr} {header : PortWord}

/-! ### Parameters (R187) -/

/-- Fields packed one after the other stand one below the other. -/
theorem foldl_pack (fs : List (Nat × Nat)) : ∀ acc top : Nat, fieldBits fs ≤ top →
    fs.foldl (fun acc f => acc * 2 ^ f.1 + f.2 % 2 ^ f.1) acc * 2 ^ (top - fieldBits fs) =
      acc * 2 ^ top + placedFields fs top := by
  induction fs with
  | nil => intro acc top _; rfl
  | cons f fs ih =>
    intro acc top hfit
    rw [fieldBits_cons] at hfit ⊢
    have hsplit : 2 ^ top = 2 ^ f.1 * 2 ^ (top - f.1) := by rw [← pow_add, Nat.add_sub_cancel' (by omega)]
    rw [List.foldl_cons, ← Nat.sub_sub, ih _ _ (by omega), placedFields_cons, hsplit]
    ring

/-- The field of `width` bits that stands `before` bits below the top of fields packed from bit `top` down. -/
def fieldRead (fs : List (Nat × Nat)) (top before width : Nat) : Nat :=
  placedFields fs top / 2 ^ (top - before - width) % 2 ^ width

/-- The first field is read at the top. -/
@[simp] theorem fieldRead_head {fs : List (Nat × Nat)} {width value top : Nat} (hfit : width + fieldBits fs ≤ top) :
    fieldRead ((width, value) :: fs) top 0 width = value % 2 ^ width := by
  have hrest : placedFields fs (top - width) < 2 ^ (top - width) := placedFields_lt (by omega)
  rw [fieldRead, placedFields_cons, Nat.sub_zero, Nat.mul_comm, Nat.mul_add_div (Nat.two_pow_pos _),
    Nat.div_eq_of_lt hrest, Nat.add_zero, Nat.mod_mod]

/-- The others are read below it. -/
@[simp] theorem fieldRead_tail {fs : List (Nat × Nat)} {first value top before width : Nat} (hbefore : first ≤ before)
    (hfit : before + width ≤ top) :
    fieldRead ((first, value) :: fs) top before width = fieldRead fs (top - first) (before - first) width := by
  have hlow : top - first - (before - first) - width = top - before - width := by omega
  have hsplit : 2 ^ (top - first) = 2 ^ (top - before - width) * (2 ^ width * 2 ^ (before - first)) := by
    rw [← pow_add, ← pow_add]
    congr 1
    omega
  rw [fieldRead, fieldRead, hlow, placedFields_cons, hsplit, Nat.mul_left_comm, Nat.mul_add_div (Nat.two_pow_pos _),
    Nat.mul_left_comm, Nat.mul_add_mod]

/-- The parameters of every transaction fit in header words 2 and 3. -/
theorem fieldBits_parameters_le (i : Instr) : fieldBits i.parameters ≤ 48 := by
  cases i <;> exact Nat.le_of_ble_eq_true rfl

/-- The parameter bits hold the parameters from bit 1 of word 2 on. -/
theorem parameterBits_eq (i : Instr) : i.parameterBits = placedFields i.parameters 48 := by
  rw [Instr.parameterBits, packFields, foldl_pack _ _ _ (fieldBits_parameters_le i), Nat.zero_mul, Nat.zero_add]

/-- A parameter is the field that stands at its place. -/
@[simp] theorem parameter_parameterBits (i : Instr) (before width : Nat) :
    parameter i.parameterBits before width = fieldRead i.parameters 48 before width := by
  rw [parameter, parameterBits_eq, fieldRead]

/-! ### Codes (R185, R186) -/

@[simp] theorem lengthOfCode_codeOfLength {len : Nat} (h : lengthWf len = true) : lengthOfCode (codeOfLength len % 4) = len := by
  simp only [lengthWf, Bool.or_eq_true, beq_iff_eq] at h
  obtain ((rfl | rfl) | rfl) | rfl := h <;> rfl

@[simp] theorem roleOfCode_code {role : RoleArg} (h : role.wf = true) : roleOfCode (role.code % 16) = role := by
  cases role with
  | absent => rfl
  | spare => rfl
  | bulk => rfl
  | stream c =>
    have hc : c < 8 := by simpa [RoleArg.wf] using h
    interval_cases c <;> rfl
  | undefined code =>
    have hcode : 3 ≤ code ∧ code ≤ 7 := by simpa [RoleArg.wf] using h
    obtain ⟨h3, h7⟩ := hcode
    interval_cases code <;> rfl

@[simp] theorem claimOfFields_code {req : ClaimArg} (h : req.wf = true) :
    claimOfFields (req.code % 4) (req.slotField % 128) = req := by
  cases req with
  | slot n =>
    have hn : n < 128 := by simpa [ClaimArg.wf] using h
    exact congrArg ClaimArg.slot (Nat.mod_eq_of_lt hn)
  | any => rfl
  | undefined code =>
    have hcode : code = 0 ∨ code = 3 := by simpa [ClaimArg.wf] using h
    obtain rfl | rfl := hcode <;> rfl

@[simp] theorem stationOfField_getD {k : Option Nat} (h : stationArgWf k = true) : stationOfField (k.getD 0 % 32) = k := by
  cases k with
  | none => rfl
  | some k =>
    have hk : 0 < k ∧ k < 32 := by simpa [stationArgWf] using h
    rw [Option.getD_some, Nat.mod_eq_of_lt hk.2]
    exact if_neg (by omega)

@[simp] theorem flag_read (b : Bool) : (b.toNat % 2 == 1) = b := by cases b <;> rfl

@[simp] theorem policy_read (policy : Policy) :
    (if (if policy = .keepNewest then 0 else 1) % 2 = 0 then Policy.keepNewest else .keepOldest) = policy := by
  cases policy <;> rfl

@[simp] theorem direction_read (dir : Direction) :
    (if (if dir = .tx then 0 else 1) % 2 = 0 then Direction.tx else .rx) = dir := by
  cases dir <;> rfl

/-! ### The header (R187) -/

theorem kindCode_lt (i : Instr) : i.kindCode < 16 := by
  cases i with
  | undefinedHeader header =>
    have hlt := header.isLt
    simp only [Instr.kindCode, headerKind]
    omega
  | _ => exact Nat.le_of_ble_eq_true rfl

theorem commandCode_lt (i : Instr) : i.commandCode < 64 := by cases i <;> exact Nat.le_of_ble_eq_true rfl

/-- Kind, command code and count, from bit 1 on. -/
theorem headerWord_toNat (i : Instr) :
    i.headerWord.toNat = i.kindCode * 2 ^ 20 + i.commandCode * 2 ^ 14 + i.countField % 128 * 2 ^ 7 := by
  have hkind := kindCode_lt i
  have hcommand := commandCode_lt i
  rw [Instr.headerWord, BitVec.toNat_ofNat, Nat.mod_eq_of_lt (by omega)]

@[simp] theorem headerKind_headerWord (i : Instr) : headerKind i.headerWord = i.kindCode := by
  have hcommand := commandCode_lt i
  rw [headerKind, headerWord_toNat]
  omega

@[simp] theorem headerCommand_headerWord (i : Instr) : headerCommand i.headerWord = i.commandCode := by
  have hcommand := commandCode_lt i
  rw [headerCommand, headerWord_toNat]
  omega

@[simp] theorem headerCount_headerWord (i : Instr) : headerCount i.headerWord = i.countField % 128 := by
  rw [headerCount, headerWord_toNat]
  omega

/-- A PUSH that can be spelled counts its samples. -/
theorem push_count {c : Nat} {samples : List DataWord} (hwf : (Instr.push c samples).wf = true) :
    c < 8 ∧ (1 ≤ samples.length ∧ samples.length ≤ 16) ∧ samples.length % 128 = samples.length := by
  simp only [Instr.wf, Bool.and_eq_true, decide_eq_true_eq] at hwf
  omega

/-- A MEMORY_WRITE that can be spelled counts its words. -/
theorem memoryWrite_count {a : Nat} {words : List DataWord} (hwf : (Instr.memoryWrite a words).wf = true) :
    a < 8192 ∧ (1 ≤ words.length ∧ words.length ≤ 64) ∧ words.length % 128 = words.length := by
  simp only [Instr.wf, Bool.and_eq_true, decide_eq_true_eq] at hwf
  omega

/-- The header of every other transaction that can be spelled fixes a length (R171). -/
theorem headerUndefined_headerWord (hi : i.isTransaction = true) (hwf : i.wf = true)
    (hdefined : ∀ h, i ≠ .undefinedHeader h) : headerUndefined i.headerWord = false := by
  cases i <;> cases hi
  case undefinedHeader h => exact absurd rfl (hdefined h)
  case push c samples =>
    obtain ⟨-, hrange, hcount⟩ := push_count hwf
    simp [headerUndefined, Instr.kindCode, Instr.countField, hcount, hrange]
  case memoryWrite a words =>
    obtain ⟨-, hrange, hcount⟩ := memoryWrite_count hwf
    simp [headerUndefined, Instr.kindCode, Instr.countField, hcount, hrange]
  all_goals simp [headerUndefined, Instr.kindCode, Instr.commandCode]

/-- The words that follow it are the transaction's samples or memory words (R171). -/
theorem headerExtra_headerWord (hwf : i.wf = true) (hdefined : ∀ h, i ≠ .undefinedHeader h) :
    headerExtra i.headerWord = i.dataWords.length := by
  cases i with
  | undefinedHeader h => exact absurd rfl (hdefined h)
  | push c samples =>
    simp [headerExtra, Instr.kindCode, Instr.countField, Instr.dataWords, push_count hwf]
  | memoryWrite a words =>
    simp [headerExtra, Instr.kindCode, Instr.countField, Instr.dataWords, memoryWrite_count hwf]
  | _ => simp [headerExtra, Instr.kindCode, Instr.dataWords]

/-! ### The transaction that is read (R187) -/

/-- A command is read from its code and its parameters. -/
theorem commandOf_parameterBits (hcode : i.commandCode ≠ 0) (hwf : i.wf = true) :
    commandOf i.commandCode i.parameterBits = i := by
  cases i with
  | start _ _ _ | join | leave | claim _ _ _ | release _ | claimCancel _ | setRole _ _ | bindRx _ _ _ _ _ | unbindRx _
  | channelStatus _ _ | bulkPost _ _ _ _ | bulkCancel _ | bulkStatus _ | bulkCollect _ | windowOpen _ _ _ _
  | windowClose _ | windowStatus _ | readSlot _ | readRoster _ | resetPart =>
    simp_all [commandOf, Instr.commandCode, Instr.parameters, Instr.wf]
  | _ => exact absurd rfl hcode

/-- A command has the transaction kind code 1. -/
theorem kindCode_of_command (hcode : i.commandCode ≠ 0) : i.kindCode = 1 := by
  cases i with
  | push _ _ | pull _ _ | memoryWrite _ _ | memoryRead _ _ | eventRead _ | status | undefinedHeader _ =>
    exact absurd rfl hcode
  | _ => rfl

theorem transactionOf_command (hcode : i.commandCode ≠ 0) (hwf : i.wf = true) (data : List PortWord) :
    transactionOf i.headerWord i.parameterBits data = i := by
  rw [transactionOf, headerKind_headerWord, kindCode_of_command hcode, headerCommand_headerWord]
  exact commandOf_parameterBits hcode hwf

/-- A transaction is read from its header, its parameters and the words that follow. -/
theorem transactionOf_words (hi : i.isTransaction = true) (hwf : i.wf = true) (hdefined : ∀ h, i ≠ .undefinedHeader h) :
    transactionOf i.headerWord i.parameterBits i.dataWords = i := by
  cases i <;> cases hi
  case undefinedHeader h => exact absurd rfl (hdefined h)
  case push c samples =>
    simp [transactionOf, Instr.kindCode, Instr.parameters, Instr.dataWords, Instr.countField, push_count hwf]
  case memoryWrite a words =>
    simp [transactionOf, Instr.kindCode, Instr.parameters, Instr.dataWords, Instr.countField, memoryWrite_count hwf]
  case pull | memoryRead | eventRead | status =>
    simp_all [transactionOf, Instr.kindCode, Instr.parameters, Instr.countField, Instr.wf]
  all_goals exact transactionOf_command (by simp [Instr.commandCode]) hwf _

/-! ### The words of a request (R171, R187) -/

/-- The words of every transaction but an undefined header. -/
theorem requestWords_eq (hi : i.isTransaction = true) (hwf : i.wf = true) (hdefined : ∀ h, i ≠ .undefinedHeader h) :
    requestWords i = i.headerWord :: BitVec.ofNat 24 (i.parameterBits / 2 ^ 24) :: BitVec.ofNat 24 i.parameterBits ::
      i.dataWords := by
  have hheader := headerUndefined_headerWord hi hwf hdefined
  unfold requestWords
  split
  · exact absurd rfl (hdefined _)
  · rw [if_neg (by simp [hheader])]

/-- Header words 2 and 3 hold the parameter bits. -/
theorem parameterWords_toNat (i : Instr) :
    (BitVec.ofNat 24 (i.parameterBits / 2 ^ 24)).toNat * 2 ^ 24 + (BitVec.ofNat 24 i.parameterBits).toNat =
      i.parameterBits := by
  have hlt : i.parameterBits < 2 ^ 48 := by
    rw [parameterBits_eq]
    exact placedFields_lt (fieldBits_parameters_le i)
  rw [BitVec.toNat_ofNat, BitVec.toNat_ofNat]
  omega

/-- A header that cannot fix a length completes the request at once (R171). -/
theorem decodeRequest_of_undefined (h : headerUndefined header = true) (words : List PortWord) :
    decodeRequest (header :: words) = .complete (.undefinedHeader header) := if_pos h

/-- Any other header fixes the length at which the request is complete (R171). -/
theorem decodeRequest_incomplete_iff (h : headerUndefined header = false) (words : List PortWord) :
    decodeRequest (header :: words) = .incomplete ↔ words.length < 2 + headerExtra header := by
  match words with
  | [] => simp [decodeRequest, h]
  | [_] => simp [decodeRequest, h]; omega
  | w2 :: w3 :: data =>
    by_cases hlt : data.length < headerExtra header
    · simp [decodeRequest, h, hlt]; omega
    · simp [decodeRequest, h, hlt]; omega

/-- The words of a transaction are read back as that transaction (R187). -/
theorem decodeRequest_requestWords (hi : i.isTransaction = true) (hwf : i.wf = true) :
    decodeRequest (requestWords i) = .complete i := by
  by_cases hdefined : ∀ h, i ≠ .undefinedHeader h
  · rw [requestWords_eq hi hwf hdefined, decodeRequest, if_neg (by simp [headerUndefined_headerWord hi hwf hdefined]),
      if_neg (by rw [headerExtra_headerWord hwf hdefined]; exact Nat.lt_irrefl _), parameterWords_toNat,
      transactionOf_words hi hwf hdefined]
  · obtain ⟨h, rfl⟩ : ∃ h, i = .undefinedHeader h := by simpa using hdefined
    exact decodeRequest_of_undefined hwf []

/-- No word before the last completes the request (R171). -/
theorem decodeRequest_take (hi : i.isTransaction = true) (hwf : i.wf = true) {k : Nat}
    (hk : k < (requestWords i).length) : decodeRequest ((requestWords i).take k) = .incomplete := by
  cases k with
  | zero => rfl
  | succ k =>
    by_cases hdefined : ∀ h, i ≠ .undefinedHeader h
    · rw [requestWords_eq hi hwf hdefined] at hk ⊢
      rw [List.take_succ_cons, decodeRequest_incomplete_iff (headerUndefined_headerWord hi hwf hdefined),
        headerExtra_headerWord hwf hdefined]
      simp only [List.length_cons, List.length_take] at hk ⊢
      omega
    · obtain ⟨h, rfl⟩ : ∃ h, i = .undefinedHeader h := by simpa using hdefined
      exact absurd hk (by simp [requestWords])

end Sys2Proof.Machine

open Sys2Proof Sys2Proof.Machine

/-- Settles O8: every field is read where the words hold it. -/
theorem requestsAreReadBack : Obligations.RequestsAreReadBack := fun _ => decodeRequest_requestWords

/-- Settles O9: three words and those that follow, or header word 1 alone. -/
theorem requestsCompleteAtTheirLength : Obligations.RequestsCompleteAtTheirLength := by
  refine ⟨fun i hi hwf => ⟨?_, decodeRequest_requestWords hi hwf, fun k => decodeRequest_take hi hwf⟩,
    fun h words => ⟨fun hundefined => decodeRequest_of_undefined hundefined words,
      fun hdefined => decodeRequest_incomplete_iff hdefined words⟩⟩
  cases i with
  | undefinedHeader h => rfl
  | push _ _ | memoryWrite _ _ =>
    exact (congrArg List.length (requestWords_eq hi hwf (by simp))).trans (Nat.add_comm _ 3)
  | _ => exact congrArg List.length (requestWords_eq hi hwf (by simp))

/-- Settles O10: the word that completes the request takes the transaction that its words spell. -/
theorem lastRequestWordTakesTransaction : Obligations.LastRequestWordTakesTransaction := by
  intro i s w hi hwf hreq hwords
  have hdecode : decodeRequest (s.host.request ++ [w]) = .complete i := by
    rw [hwords, decodeRequest_requestWords hi hwf]
  rw [exec_requestWord hreq, State.wordIn_of_complete hdecode, hwords, exec_transaction hi hreq]
  rintro h rfl
  refine ⟨hwf, ?_⟩
  have hlength := congrArg List.length hwords
  simpa [requestWords] using hlength
end

