-- ==== Sys2Proof/Proofs/HostFrame.lean ====
section
/-! What commands leave of host port, pins and queue: the trunk's commands leave all three, and whatever the host does the
queue stays (R170, R171, R181 to R183). -/

namespace Sys2Proof.Machine

variable {s t u v : State} {o : Occurrence} {bits : SlotBits}

/-- Host port, pins and the queue of commands. -/
def State.hostSide (s : State) : HostPort × Pins × List Instr := (s.host, s.pins, s.pending)

theorem State.hostSide_eq_iff :
    t.hostSide = s.hostSide ↔ t.host = s.host ∧ t.pins = s.pins ∧ t.pending = s.pending := by
  simp [State.hostSide]

/-! ### Occurrences -/

theorem State.hostSide_passOn (u : State) (o : Occurrence) : (u.passOn o).hostSide = u.hostSide := by
  obtain ⟨_, _, heq, -⟩ := u.passOn_eq o
  rw [heq]
  rfl

/-- The blocks of a slot leave the host side, and the occurrence passes on (R17, R177). -/
theorem State.hostSide_ends (h : v.hostSide = u.hostSide) (base : Nat) (gs : List (List Event)) (o : Occurrence) :
    ((v.postGroups base gs).passOn o).nextHappening.hostSide = u.hostSide :=
  ((v.postGroups base gs).hostSide_passOn o).trans h

/-! ### Freed slots -/

theorem State.hostSide_lossNotice (u : State) (role : Option Role) (n : Nat) :
    (u.lossNotice role n).hostSide = u.hostSide := by
  rw [State.lossNotice_eq]
  rfl

theorem State.hostSide_freeSlot (u : State) (n : Nat) : (u.freeSlot n).hostSide = u.hostSide := by
  rw [State.freeSlot_eq]
  rfl

/-! ### Hunting and slot 0 (R12 to R30) -/

theorem State.hostSide_candidateHeard (s : State) (bits : SlotBits) : (s.candidateHeard bits).hostSide = s.hostSide := by
  unfold State.candidateHeard
  dsimp only
  split
  · rfl
  · split_ifs <;> rfl

theorem State.hostSide_frameTimePassed (s : State) : s.frameTimePassed.hostSide = s.hostSide := by
  unfold State.frameTimePassed State.windowPassed
  dsimp only
  split_ifs <;> rfl

theorem State.hostSide_holderEnd (u : State) (o : Occurrence) : (u.holderEnd o).1.hostSide = u.hostSide := by
  unfold State.holderEnd
  split_ifs
  · split
    · split_ifs <;> rfl
    · rfl
  · rfl

theorem State.hostSide_missMark (u : State) : u.missMark.1.hostSide = u.hostSide := by
  rcases u.missMark_cases with h | h <;> rw [h] <;> rfl

theorem State.hostSide_foundingEnd (u : State) (o : Occurrence) : (u.foundingEnd o).hostSide = u.hostSide := by
  unfold State.foundingEnd
  split_ifs
  · split <;> rfl
  · rfl

theorem State.hostSide_markEnd (u : State) (o : Occurrence) : (u.markEnd o).hostSide = u.hostSide := by
  unfold State.markEnd
  split
  · exact (State.hostSide_passOn ..).trans (u.hostSide_holderEnd o)
  · split
    · exact State.hostSide_passOn ..
    · split_ifs
      · rfl
      · exact State.hostSide_ends u.hostSide_missMark ..

theorem State.hostSide_endMarkSlot (s : State) (bits : SlotBits) : (s.endMarkSlot bits).hostSide = s.hostSide := by
  unfold State.endMarkSlot
  dsimp only
  split
  · rfl
  · split_ifs
    · exact State.hostSide_foundingEnd (s.portEnd bits) _
    · exact State.hostSide_markEnd (s.portEnd bits) _

/-! ### Slot 1 (R58 to R65) -/

theorem State.hostSide_peerTurn (u : State) (o : Occurrence) (a : Nat) : (u.peerTurn o a).1.hostSide = u.hostSide := by
  unfold State.peerTurn
  split
  · split_ifs <;> rfl
  · unfold State.rollMissed
    split_ifs <;> rfl

theorem State.hostSide_rollTurn (u : State) (o : Occurrence) : (u.rollTurn o).1.hostSide = u.hostSide := by
  unfold State.rollTurn
  split_ifs
  · unfold State.ownTurn
    split
    · split <;> rfl
    · rfl
    · rfl
  · exact u.hostSide_peerTurn o _

theorem State.hostSide_rollTimer (u : State) (o : Occurrence) : (u.rollTimer o).1.hostSide = u.hostSide := by
  rcases u.rollTimer_cases o with h | h | h <;> rw [h] <;> rfl

theorem State.hostSide_leaveTrunk (h : u.leavesNow o = true) : (u.leaveTrunk o).hostSide = u.hostSide := by
  have hl : u.control.state = .leaving := by
    simp only [State.leavesNow, Bool.and_eq_true, beq_iff_eq] at h
    exact h.1
  obtain ⟨_, _, heq, -⟩ := u.leaveTrunk_eq hl o
  rw [heq]
  rfl

theorem State.hostSide_endRollSlot (s : State) (bits : SlotBits) : (s.endRollSlot bits).hostSide = s.hostSide := by
  unfold State.endRollSlot
  dsimp only
  split
  · rfl
  · split_ifs with hl
    · exact State.hostSide_leaveTrunk hl
    · exact State.hostSide_ends ((State.hostSide_rollTimer ..).trans (State.hostSide_rollTurn (s.portEnd bits) _)) ..

/-! ### Slots 2 and 3 (R100 to R109, R143, R167) -/

theorem State.hostSide_applyClaim (u : State) (o : Occurrence) (role : Option Role) :
    (u.applyClaim o role).1.hostSide = u.hostSide := by
  unfold State.applyClaim
  split
  · rfl
  · split
    · split_ifs <;> rfl
    · split
      · exact u.hostSide_freeSlot _
      · rfl

theorem State.hostSide_claimOutcome (u : State) (o : Occurrence) (given : Option Nat) :
    (u.claimOutcome o given).1.hostSide = u.hostSide := by
  unfold State.claimOutcome
  split <;> rfl

theorem State.hostSide_endClaimSlot (s : State) (bits : SlotBits) : (s.endClaimSlot bits).hostSide = s.hostSide := by
  unfold State.endClaimSlot
  dsimp only
  split
  · unfold State.claimBeforeFault
    split_ifs
    · exact State.hostSide_claimOutcome (s.portEnd bits) _ _
    · rfl
  · exact State.hostSide_ends ((State.hostSide_claimOutcome ..).trans (State.hostSide_applyClaim (s.portEnd bits) _ _)) ..

theorem State.hostSide_answerOutcome (u : State) (o : Occurrence) : (u.answerOutcome o).1.hostSide = u.hostSide := by
  unfold State.answerOutcome
  split
  · rfl
  · split_ifs <;> rfl

theorem State.hostSide_applyAnswer (u : State) (o : Occurrence) : (u.applyAnswer o).1.hostSide = u.hostSide := by
  unfold State.applyAnswer
  split <;> rfl

theorem State.hostSide_endAnswerSlot (s : State) (bits : SlotBits) : (s.endAnswerSlot bits).hostSide = s.hostSide := by
  have hown := State.hostSide_answerOutcome (s.portEnd bits) (s.occurrence bits)
  unfold State.endAnswerSlot
  dsimp only
  split
  · rfl
  · unfold State.answerEnd
    dsimp only
    split_ifs
    · exact State.hostSide_ends ((State.hostSide_applyAnswer ..).trans hown) ..
    · exact State.hostSide_ends hown ..

/-! ### The start of a data slot (R77) -/

theorem State.hostSide_supply (u : State) (n : Nat) : (u.supply n).1.hostSide = u.hostSide := by
  unfold State.supply
  split
  · unfold State.streamSupply
    split <;> rfl
  · obtain ⟨_, heq⟩ := u.bulkSupply_eq n
    rw [heq]
    rfl
  · rfl
  · rfl

theorem State.hostSide_startDataSlot (s : State) (n : Nat) : (s.startDataSlot n).hostSide = s.hostSide := by
  unfold State.startDataSlot
  split_ifs
  · exact s.hostSide_supply n
  · rfl

/-! ### The end of a data slot (R74, R157) -/

theorem State.hostSide_silenceStep (u : State) (o : Occurrence) : (u.silenceStep o).1.hostSide = u.hostSide := by
  unfold State.silenceStep
  dsimp only
  split
  · rfl
  · split_ifs
    · rfl
    · exact u.hostSide_freeSlot _
    · rfl

theorem State.hostSide_correct (u : State) (o : Occurrence) : (u.correct o).1.hostSide = u.hostSide := by
  unfold State.correct
  split
  · rfl
  · dsimp only
    split_ifs <;> rfl

theorem State.hostSide_loseSlot (u : State) (o : Occurrence) : (u.loseSlot o).1.hostSide = u.hostSide := by
  unfold State.loseSlot
  dsimp only
  split
  · exact u.hostSide_freeSlot _
  · split_ifs
    · exact State.hostSide_lossNotice ..
    · exact u.hostSide_freeSlot _

theorem State.hostSide_ownerSteps (u : State) (o : Occurrence) : (u.ownerSteps o).1.hostSide = u.hostSide := by
  have hsilence := u.hostSide_silenceStep o
  unfold State.ownerSteps
  split
  · exact (State.hostSide_correct ..).trans hsilence
  · split_ifs
    · exact (State.hostSide_loseSlot ..).trans hsilence
    · exact hsilence
  · exact hsilence
  · exact hsilence

theorem State.hostSide_tableEnd (u : State) (o : Occurrence) : (u.tableEnd o).1.hostSide = u.hostSide := by
  unfold State.tableEnd
  dsimp only
  split_ifs
  · rfl
  · exact State.hostSide_ownerSteps (u.setEntry _ _) o

theorem State.hostSide_markPresent (u : State) (o : Occurrence) : (u.markPresent o).1.hostSide = u.hostSide := by
  obtain ⟨_, _, heq⟩ := u.markPresent_eq o
  rw [heq]
  rfl

theorem State.hostSide_rosterAndTable (u : State) (o : Occurrence) : (u.rosterAndTable o).1.hostSide = u.hostSide := by
  unfold State.rosterAndTable
  split_ifs
  · exact (State.hostSide_tableEnd ..).trans (u.hostSide_markPresent o)
  · exact (State.hostSide_markPresent ..).trans (u.hostSide_tableEnd o)

theorem State.hostSide_windowsEnd (u : State) (o : Occurrence) : (u.windowsEnd o).hostSide = u.hostSide := by
  obtain ⟨_, _, _, heq⟩ := u.windowsEnd_eq o
  rw [heq]
  rfl

theorem State.hostSide_dataEnd (u : State) (o : Occurrence) : (u.dataEnd o).hostSide = u.hostSide := by
  have hheard : ({ (u.rosterAndTable o).1 with rx := (u.rosterAndTable o).1.rx.map (fun r => r.hear o) } : State).hostSide =
      u.hostSide := u.hostSide_rosterAndTable o
  unfold State.dataEnd
  dsimp only
  split_ifs
  · exact State.hostSide_ends ((State.hostSide_windowsEnd ..).trans hheard) _ _ o
  · exact State.hostSide_ends hheard _ _ o

theorem State.hostSide_endDataSlot (s : State) (bits : SlotBits) : (s.endDataSlot bits).hostSide = s.hostSide := by
  unfold State.endDataSlot
  dsimp only
  split
  · obtain ⟨_, heq⟩ := (s.portEnd bits).hearBeforeFault_eq (s.occurrence bits)
    rw [heq]
    rfl
  · exact State.hostSide_dataEnd (s.portEnd bits) _

/-! ### Commands of the trunk -/

/-- Whatever state an outcome answers has the host side of `s`. -/
def State.LeavesHost (s : State) (x : Host.Outcome State Fault Refusal) : Prop :=
  ∀ t, x = .next t → t.hostSide = s.hostSide

theorem State.leavesHost_next (h : t.hostSide = s.hostSide) : s.LeavesHost (.next t) := by
  rintro _ ⟨⟩
  exact h

theorem State.leavesHost_idle (s : State) : s.LeavesHost (.next s) := State.leavesHost_next rfl

/-- A command that acts on a condition and is idle otherwise. -/
theorem State.leavesHost_ite {p : Prop} [Decidable p] {x : Host.Outcome State Fault Refusal} (hx : s.LeavesHost x) :
    s.LeavesHost (if p then x else .next s) := by
  split_ifs
  · exact hx
  · exact s.leavesHost_idle

theorem State.leavesHost_dataStart (s : State) (n : Nat) : s.LeavesHost (s.dataStart n) := by
  have hstart := State.leavesHost_next (s.hostSide_startDataSlot n)
  unfold State.dataStart
  split
  · split_ifs
    · exact hstart
    · rintro _ ⟨⟩
  · exact hstart

theorem State.leavesHost_dataFinish (s : State) (bits : SlotBits) : s.LeavesHost (s.dataFinish bits) := fun _ h =>
  State.dataFinish_next h ▸ s.hostSide_endDataSlot bits

theorem State.leavesHost_claimSlotStart (s : State) : s.LeavesHost (execClaimSlotStart s) := by
  refine State.leavesHost_ite ?_
  split_ifs <;> exact State.leavesHost_next rfl

theorem State.leavesHost_claimAging (s : State) (bits : SlotBits) : s.LeavesHost (execClaimAging bits s) := by
  unfold execClaimAging
  split
  · exact s.leavesHost_idle
  · exact State.leavesHost_ite (State.leavesHost_next (s.hostSide_endClaimSlot bits))

theorem State.leavesHost_claimExpired (s : State) (bits : SlotBits) : s.LeavesHost (execClaimExpired bits s) := by
  unfold execClaimExpired
  split
  · exact s.leavesHost_idle
  · exact State.leavesHost_ite (State.leavesHost_next (s.hostSide_endClaimSlot bits))

theorem State.leavesHost_dataSlotStart (s : State) : s.LeavesHost (execDataSlotStart s) := by
  unfold execDataSlotStart
  split
  · exact s.leavesHost_dataStart _
  · exact s.leavesHost_idle

theorem State.leavesHost_tailResend (s : State) : s.LeavesHost (execTailResend s) := by
  unfold execTailResend
  split
  · exact State.leavesHost_ite (s.leavesHost_dataStart _)
  · exact s.leavesHost_idle

theorem State.leavesHost_jobNoAnswer (s : State) : s.LeavesHost (execJobNoAnswer s) := by
  unfold execJobNoAnswer
  split
  · split_ifs
    · exact s.leavesHost_idle
    · exact s.leavesHost_dataStart _
  · exact s.leavesHost_idle

/-! ### Commands of the host side: the queue -/

/-- An outcome whose state, if it answers one, has the queue of `s`. -/
def State.LeavesQueue (s : State) (x : Host.Outcome State Fault Refusal) : Prop := ∀ t, x = .next t → t.pending = s.pending

theorem State.leavesQueue_next (h : t.pending = s.pending) : s.LeavesQueue (.next t) := by
  rintro _ ⟨⟩
  exact h

/-- A command that acts on a condition and is idle otherwise. -/
theorem State.leavesQueue_ite {p : Prop} [Decidable p] (h : t.pending = s.pending) :
    s.LeavesQueue (if p then .next t else .next s) := by
  split_ifs
  · exact State.leavesQueue_next h
  · exact State.leavesQueue_next rfl

/-- A transaction's reply leaves the queue (R172). -/
theorem State.replyWith_pending (s : State) (i : Instr) (words : List PortWord) :
    (s.replyWith i words (s.judge i)).pending = s.pending := (s.judge_judged i).pending_eq

/-- A transaction, taken or not. -/
theorem exec_transaction_leavesQueue {i : Instr} (hi : i.isTransaction = true) (s : State) : s.LeavesQueue (exec i s) := by
  obtain htake | ⟨hidle, -⟩ := exec_transaction_cases (s := s) hi
  · rw [htake]
    refine State.leavesQueue_next ?_
    by_cases hreq : s.host.state = .request
    · rw [State.take_request hreq]
      exact s.replyWith_pending i _
    · rw [State.take_elsewhere hreq]
  · rw [hidle]
    exact State.leavesQueue_next rfl

theorem State.wordIn_pending (s : State) (w : PortWord) : (s.wordIn w).pending = s.pending := by
  unfold State.wordIn
  split
  · rfl
  · exact s.replyWith_pending _ _

theorem State.shiftOut_pending (s : State) : s.shiftOut.pending = s.pending := by
  unfold State.shiftOut
  split_ifs <;> rfl

theorem State.selectReleased_pending (s : State) : s.selectReleased.pending = s.pending := by
  unfold State.selectReleased
  split_ifs <;> rfl

theorem State.leavesQueue_select (s : State) : s.LeavesQueue (execTargetSelectAsserted s) := by
  unfold execTargetSelectAsserted
  split_ifs <;> exact State.leavesQueue_next rfl

theorem State.leavesQueue_replyWord (s : State) : s.LeavesQueue (execReplyWordShiftedOut s) := by
  unfold execReplyWordShiftedOut
  split
  · exact State.leavesQueue_next rfl
  · exact State.leavesQueue_next rfl
  · exact State.leavesQueue_next s.shiftOut_pending

/-! ### Every command -/

/-- The commands of the host side: transactions, port words, target select and the resets. -/
def HostCommand (c : Instr) : Prop :=
  c.isTransaction = true ∨ c = .targetSelectAsserted ∨ c = .targetSelectReleased ∨ (∃ x, c = .resetPartTakesHold x) ∨
    c = .resetLineAsserted ∨ c = .resetLineReleased ∨ (∃ r, c = .powerOnReset r) ∨ (∃ w, c = .requestWordShiftedIn w) ∨
    c = .replyWordShiftedOut

/-- The commands of the host side leave the queue. -/
theorem exec_leavesQueue {c : Instr} (hc : HostCommand c) (s : State) : s.LeavesQueue (exec c s) := by
  rcases hc with htransaction | rfl | rfl | ⟨trigger, rfl⟩ | rfl | rfl | ⟨rate, rfl⟩ | ⟨w, rfl⟩ | rfl
  · exact exec_transaction_leavesQueue htransaction s
  · exact s.leavesQueue_select
  · exact State.leavesQueue_next s.selectReleased_pending
  · cases trigger with
    | replyShiftedOut => exact State.leavesQueue_ite s.shiftOut_pending
    | selectReleased => exact State.leavesQueue_ite s.selectReleased_pending
  · exact State.leavesQueue_next rfl
  · exact State.leavesQueue_ite rfl
  · exact State.leavesQueue_next rfl
  · exact State.leavesQueue_ite (s.wordIn_pending w)
  · exact s.leavesQueue_replyWord

/-- Every other command is the trunk's, and leaves host port and pins as well. -/
theorem exec_leavesHost {c : Instr} (hc : ¬HostCommand c) (s : State) : s.LeavesHost (exec c s) := by
  have same {t : State} (h : t.hostSide = s.hostSide) : s.LeavesHost (.next t) := State.leavesHost_next h
  cases c with
  | huntingCandidate bits => exact State.leavesHost_ite (same (s.hostSide_candidateHeard bits))
  | listenWindowPasses => exact State.leavesHost_ite (same s.hostSide_frameTimePassed)
  | listenWindowFrameTime => exact State.leavesHost_ite (same s.hostSide_frameTimePassed)
  | markSlotStart => exact State.leavesHost_ite (same rfl)
  | markSlotEnd heard => exact State.leavesHost_ite (same (s.hostSide_endMarkSlot heard))
  | candidateRule heard => exact State.leavesHost_ite (same (s.hostSide_endMarkSlot heard))
  | escalation heard => exact State.leavesHost_ite (same (s.hostSide_endMarkSlot heard))
  | joiningToListen heard => exact State.leavesHost_ite (same (s.hostSide_endMarkSlot heard))
  | rollSlotStart => exact State.leavesHost_ite (same rfl)
  | rollSlotEnd heard => exact State.leavesHost_ite (same (s.hostSide_endRollSlot heard))
  | stationLost heard => exact State.leavesHost_ite (same (s.hostSide_endRollSlot heard))
  | claimSlotStart => exact s.leavesHost_claimSlotStart
  | claimSlotEnd heard => exact State.leavesHost_ite (same (s.hostSide_endClaimSlot heard))
  | claimAging heard => exact s.leavesHost_claimAging heard
  | claimExpired heard => exact s.leavesHost_claimExpired heard
  | answerSlotStart => exact State.leavesHost_ite (same rfl)
  | answerSlotEnd heard => exact State.leavesHost_ite (same (s.hostSide_endAnswerSlot heard))
  | answerDropped heard => exact State.leavesHost_ite (same (s.hostSide_endAnswerSlot heard))
  | dataSlotStart => exact s.leavesHost_dataSlotStart
  | tailResend => exact s.leavesHost_tailResend
  | jobNoAnswer => exact s.leavesHost_jobNoAnswer
  | dataSlotEnd heard => exact State.leavesHost_ite (s.leavesHost_dataFinish heard)
  | slotLapsed heard => exact State.leavesHost_ite (s.leavesHost_dataFinish heard)
  | windowStalled heard => exact State.leavesHost_ite (s.leavesHost_dataFinish heard)
  | targetSelectAsserted | targetSelectReleased | resetPartTakesHold _ | resetLineAsserted | resetLineReleased
  | powerOnReset _ | requestWordShiftedIn _ | replyWordShiftedOut => exact absurd (by simp [HostCommand]) hc
  | _ => exact absurd (.inl rfl) hc

end Sys2Proof.Machine

open Sys2Proof Sys2Proof.Machine

/-- Settles O2: the trunk's commands leave the whole host side, and the host's own leave the queue. -/
theorem commandsKeepQueueAndPins : Obligations.CommandsKeepQueueAndPins := by
  intro c s t h
  by_cases hc : HostCommand c
  · exact ⟨exec_leavesQueue hc s t h, .inr hc⟩
  · obtain ⟨hhost, hpins, hpending⟩ := State.hostSide_eq_iff.mp (exec_leavesHost hc s t h)
    exact ⟨hpending, .inl ⟨hhost, hpins⟩⟩
end

section
/-! The queue of commands: what a step does with a command waiting, and with none. -/

namespace Sys2Proof.Machine

variable {s : State}

/-- The front command runs on the part with the queue's rest. -/
theorem step_of_pending_cons {c : Instr} {rest : List Instr} (h : s.pending = c :: rest) :
    step s = exec c { s with pending := rest } := by
  rw [step, h]

/-- The model's choice for an empty queue (log 4). -/
theorem step_of_pending_nil (h : s.pending = []) : step s = .next s := by
  rw [step, h]

end Sys2Proof.Machine

open Sys2Proof Sys2Proof.Machine

/-- Settles O1, by the two cases of the queue. -/
theorem stepRunsFrontCommand : Obligations.StepRunsFrontCommand :=
  ⟨fun _ _ _ => step_of_pending_cons, fun _ => step_of_pending_nil⟩
end
